-- ==== Sys2Proof/Word.lean ====
section
/-! DEFINITION. The bit vectors the manual speaks of: bytes, 2-byte fields and channel masks, and the channel numbers. -/

namespace Sys2Proof

/-- One byte of a slot or a payload. -/
abbrev Byte := BitVec 8

/-- A 2-byte field: a carrier tag, a sweep number, a weld count. -/
abbrev Half := BitVec 16

/-- A channel mask: bit n stands for channel n (00 Conventions). -/
abbrev Mask := BitVec 32

/-- A channel number 0..31. -/
abbrev ChanNo := Fin 32

end Sys2Proof
end

