-- ==== Sys2Proof/Syntax.lean ====
section
/-! DEFINITION. The commands of the SD3264: one constructor for each row of spec/opcode_table.json. -/

namespace Sys2Proof

/-- The two ring ports (00 Pins and links). -/
inductive Port where
  | portA
  | portB
deriving DecidableEq, Repr

/-- A frame on the ring. `envelope` is everything the part does not examine (Ethernet addresses and
type, R130); `payload` is the sweep's slots, 8 bytes each (7.2). -/
structure Frame where
  envelope : List Byte
  payload  : List Byte
deriving DecidableEq, Repr

/-- How a request reaches this node (R161): named by its address, or as a broadcast whose mask selects it. -/
inductive Via where
  | addressed
  | broadcast
deriving DecidableEq, Repr

/-- The part of a request header a node keeps from a request meant for it: how it came and its tag. -/
structure ReqHead where
  via : Via
  tag : Byte
deriving DecidableEq, Repr

/-- A slot-map entry as a payload carries it: a role code byte and an index byte (12.3). -/
structure RawMapEntry where
  role  : Byte
  index : Byte
deriving DecidableEq, Repr

/-- A style entry as a payload carries it, 7 bytes (12.3): `sel` is byte 6, option index and gun. -/
structure RawEntry where
  base         : Byte
  baseSpots    : Byte
  variant      : Byte
  variantSpots : Byte
  backup       : Byte
  backupSpots  : Byte
  sel          : Byte
deriving DecidableEq, Repr

/-- A retrack record as a payload carries it, 13 bytes (12.3). -/
structure RawRetrack where
  station : Byte
  tag     : Half
  style   : Byte
  options : Byte
  done    : Mask
  owed    : Mask
deriving DecidableEq, Repr

/-- The commands, one constructor a row of the table. Request operands are the payload fields of
12.3 as they arrive, so that every value a sender can write is a command. -/
inductive Instr where
  /-- OUTBOUND_PASS (R134): a sweep frame received at port A. -/
  | outboundPass (f : Frame)
  /-- RETURN_PASS (R135): a sweep frame received at port B. -/
  | returnPass (f : Frame)
  /-- RING_CLOSURE_RETURN (R131): the closed sweep takes its return pass. -/
  | ringClosureReturn
  /-- FOREIGN_FRAME (R130): a frame of any other type, received at port `p`. -/
  | foreignFrame (p : Port) (f : Frame)
  /-- PORT_A_LINK_DOWN (R132). -/
  | portALinkDown
  /-- PORT_A_LINK_UP (R132). -/
  | portALinkUp
  /-- PORT_B_LINK_DOWN (R131). -/
  | portBLinkDown
  /-- PORT_B_LINK_UP (R131). -/
  | portBLinkUp
  /-- SWEEP_WATCH_EXPIRY (R143). -/
  | sweepWatchExpiry
  /-- HOLD_N_FALLING_EDGE (R150). -/
  | holdNFallingEdge
  /-- HOLD_N_RISING_EDGE (R150). -/
  | holdNRisingEdge
  /-- RESET_N_LOW (R156). -/
  | resetNLow
  /-- POWER_ON_RESET (R156, R157): RESET_N returns high with NODE[3:0] at `straps`. -/
  | powerOnReset (straps : BitVec 4)
  /-- COPY_STEP (R35). -/
  | copyStep
  /-- COPY_COMPLETION (R35). -/
  | copyCompletion
  /-- REPLY_LOSS_LIMIT (R90) for channel `c`. -/
  | replyLossLimit (c : ChanNo)
  /-- SELECT_TIMEOUT (R96) for channel `c`. -/
  | selectTimeout (c : ChanNo)
  /-- READ STATUS, 0x01 (R167). -/
  | readStatus (h : ReqHead)
  /-- START, 0x02 (R148). -/
  | start (h : ReqHead)
  /-- STOP, 0x03 (R149). -/
  | stop (h : ReqHead)
  /-- HOLD, 0x04 (R150). -/
  | hold (h : ReqHead)
  /-- RELEASE, 0x05 (R151). -/
  | release (h : ReqHead)
  /-- CELL RESET, 0x06 (R154). -/
  | cellReset (h : ReqHead)
  /-- WRITE NODE SETTINGS, 0x07 (R158). -/
  | writeNodeSettings (h : ReqHead) (stations : Byte) (interval : Half) (logMode : Byte)
  /-- WRITE SLOT MAP, 0x10 (R140). -/
  | writeSlotMap (h : ReqHead) (first : Byte) (entries : List RawMapEntry)
  /-- READ SLOT MAP, 0x11 (R141). -/
  | readSlotMap (h : ReqHead) (first count : Byte)
  /-- WRITE CHANNEL, 0x18 (R42). -/
  | writeChannel (h : ReqHead) (channel station lead gunCount selectWatch : Byte)
  /-- READ CHANNEL, 0x19 (R58). -/
  | readChannel (h : ReqHead) (channel : Byte)
  /-- WRITE PAIR, 0x1A (R49). -/
  | writePair (h : ReqHead) (channelA channelB : Byte)
  /-- CLEAR PAIR, 0x1B (R50). -/
  | clearPair (h : ReqHead) (channel : Byte)
  /-- SET SERVICE, 0x1C, with an action byte other than 1 (IN): 0 is OUT, the rest are undefined (R56). -/
  | setServiceOut (h : ReqHead) (channel action : Byte)
  /-- SET SERVICE, 0x1C, action IN (R57). -/
  | setServiceIn (h : ReqHead) (channel : Byte)
  /-- WRITE ENTRIES, 0x20 (R27). -/
  | writeEntries (h : ReqHead) (style first : Byte) (entries : List RawEntry)
  /-- READ ENTRIES, 0x21 (R29). -/
  | readEntries (h : ReqHead) (bank style first count : Byte)
  /-- ENABLE STYLE, 0x22 (R28). -/
  | enableStyle (h : ReqHead) (style flag : Byte)
  /-- COPY BANK, 0x23 (R34). -/
  | copyBank (h : ReqHead)
  /-- COMMIT, 0x24 (R30). -/
  | commit (h : ReqHead)
  /-- DISARM, 0x25 (R33). -/
  | disarm (h : ReqHead)
  /-- ABORT, 0x26 (R36). -/
  | abort (h : ReqHead)
  /-- WRITE CURVE, 0x28 (R116). -/
  | writeCurve (h : ReqHead) (index : Byte) (c1 c2 c3 c4 : Half) (b1 b2 b3 b4 : Byte)
  /-- READ CURVE, 0x29 (R117). -/
  | readCurve (h : ReqHead) (index : Byte)
  /-- WRITE GUN, 0x2A (R126). -/
  | writeGun (h : ReqHead) (channel gun curve : Byte) (threshold grace : Half) (capLimit dressProgram capProgram : Byte)
  /-- WRITE WEAR, 0x2B (R127). -/
  | writeWear (h : ReqHead) (channel gun : Byte) (weld : Half) (dresses : Byte)
  /-- READ WEAR, 0x2C (R128). -/
  | readWear (h : ReqHead) (channel gun : Byte)
  /-- READ TRACKING, 0x30 (R21). -/
  | readTracking (h : ReqHead) (first : Byte)
  /-- RETRACK LOAD, 0x31 (R17). -/
  | retrackLoad (h : ReqHead) (records : List RawRetrack)
  /-- RETRACK APPLY, 0x32 (R18, R19). -/
  | retrackApply (h : ReqHead)
  /-- READ LOG, 0x38 (R182). -/
  | readLog (h : ReqHead)
  /-- CLEAR LOG, 0x39 (R182). -/
  | clearLog (h : ReqHead)
  /-- CLEAR ALARMS, 0x3A (R179). -/
  | clearAlarms (h : ReqHead) (mask : Byte)
  /-- TEST START, 0x40 (R184). -/
  | testStart (h : ReqHead) (pattern : Byte)
  /-- TEST STOP, 0x41 (R184). -/
  | testStop (h : ReqHead)
  /-- TEST INJECT, 0x42 (R187). -/
  | testInject (h : ReqHead)
  /-- READ TEST COUNTS, 0x43 (R186). -/
  | readTestCounts (h : ReqHead)
  /-- A request whose code 9.6 does not define (R163 step 1). -/
  | unknownRequest (h : ReqHead) (code : Byte)
deriving DecidableEq, Repr

end Sys2Proof
end

