-- ==== Sys2Proof/Decode.lean ====
section
/-! DEFINITION. The command a word of the opcode table spells. The table gives no row any bits, so no word spells one (log 26). -/

namespace Sys2Proof

/-- The command that the word `w` of `nbits` bits spells by the table's bits. No row of spec/opcode_table.json
has bits: commands are frames, requests and events, so the answer is always none. -/
def decodeTableWord (_nbits _w : Nat) : Option Instr := none

end Sys2Proof
end

