-- ==== Sys2Proof/Config.lean ====
section
/-! DEFINITION. What the manual leaves open as a free value: the order of the hand-overs inside a pass, and what becomes of
the work of a LOADED job at a failed check of its DONE. -/

namespace Sys2Proof

/-- FREE VALUE (logs 3 and 4). R136: the hand-overs of one pass to different owners "are taken in any
order". `eventKey n e` is the sort key of event number `e` in the pass that reads the free-value
counter at `n`; the events of a pass are taken in rising order of their keys, so every order of a
pass is the order of some key. Nothing can be proved about its values. -/
opaque Config.eventKey : Nat → Nat → Nat

/-- FREE VALUE (log 17). Two rules give two outcomes to a failed check of a DONE taken in LOADED: R98 owes the job's
channels as R75 does for a RUNNING job, R104 moves its work as R74 does for a LOADED one. `failedDoneOwes n c` says which
outcome channel `c` has in the pass that reads the free-value counter at `n`. Nothing can be proved about its values. -/
opaque Config.failedDoneOwes : Nat → Nat → Bool

end Sys2Proof
end

