-- ==== Sys2Proof/Machine/State.lean ====
section
/-! DEFINITION. Everything the manual gives the part to hold, block by block (00 Block overview), the outcomes
a step can stop with, and the state after power-on reset. -/

namespace Sys2Proof.Machine

/-- Faults of the model. The manual gives the part no stop, so no command ever faults and there is no reason to name. -/
inductive Fault where
deriving DecidableEq, Repr

/-- Refusals of the model. -/
inductive Refusal where
  /-- Raised by an arm of exec that has no meaning yet; no arm is left so. Safe: a refused command proves nothing. -/
  | notModelled (mnemonic : String)
deriving DecidableEq, Repr

/-! ### Slots -/

/-- The seven data bytes of a slot, bytes 0..6 (7.5). -/
structure Data7 where
  b0 : Byte
  b1 : Byte
  b2 : Byte
  b3 : Byte
  b4 : Byte
  b5 : Byte
  b6 : Byte
deriving DecidableEq, Repr

/-- An 8-byte slot: seven data bytes and the check byte, byte 7. -/
structure Slot where
  data  : Data7
  check : Byte
deriving DecidableEq, Repr

/-- A frame as it left a port: which port, whether it is of the sweep type, and its bytes. -/
structure Sent where
  port    : Port
  isSweep : Bool
  frame   : Frame
deriving DecidableEq, Repr

/-! ### Pins and node control (00 Pins and links, 08) -/

/-- The levels of the input pins and the link status of the two ports. -/
structure Pins where
  /-- RESET_N is low: the part is in reset (R156). -/
  inReset : Bool
  /-- The level of HOLD_N, true for high (R151). -/
  holdN   : Bool
  /-- Port A's link is UP. -/
  portA   : Bool
  /-- Port B's link is UP. -/
  portB   : Bool
deriving DecidableEq, Repr

/-- The node state (R147). -/
inductive NodeState where
  | config
  | run
  | held
  | suspended
deriving DecidableEq, Repr

/-- The fault log mode (R181). -/
inductive LogMode where
  | first
  | latest
deriving DecidableEq, Repr

/-- Node control's state and settings (R159). -/
structure NodeCtl where
  state    : NodeState
  latch    : Bool
  stations : Nat
  interval : Half
  logMode  : LogMode
  address  : BitVec 4
deriving DecidableEq, Repr

/-! ### Sweep interface (07) -/

/-- A slot's role with its index (7.4). -/
inductive Role where
  | pass
  | line
  | command (c : ChanNo)
  | reply (c : ChanNo)
  | mgmt (k : Fin 8)
  | status
  | exit
  | test
deriving DecidableEq, Repr

/-- The slot map: entry i is slot i + 1 (R138). -/
abbrev SlotMap := Vector Role 183

/-- The size code of a sweep (7.2). -/
inductive SizeCode where
  | slots24
  | slots48
  | slots96
  | slots184
deriving DecidableEq, Repr

/-- The outstanding sweep (R134). `closed`: sent back by closure (R131). `addressed`: its request header
was read with a correct check and this node's address (R166). -/
structure Outstanding where
  number    : Half
  size      : SizeCode
  closed    : Bool
  addressed : Bool
deriving DecidableEq, Repr

/-- The link state (R143). -/
inductive LinkState where
  | up
  | lost
deriving DecidableEq, Repr

/-- The sweep interface. `watch` is none while stopped and holds the interval it runs on while running;
`closure` is the frame of a closed sweep whose return pass has not been taken (R131). -/
structure SweepIf where
  storedMap   : SlotMap
  mapInForce  : Option SlotMap
  outstanding : Option Outstanding
  closure     : Option Frame
  watch       : Option Half
  link        : LinkState
deriving DecidableEq, Repr

/-! ### Tracking unit (01) -/

/-- The two baselines, which exist together (R2). -/
structure Baseline where
  transfer : Byte
  sequence : Byte
deriving DecidableEq, Repr

/-- An announcement (R6). -/
structure Announcement where
  tag     : Half
  style   : BitVec 6
  options : BitVec 4
deriving DecidableEq, Repr

/-- The two style banks. -/
inductive BankIx where
  | bank0
  | bank1
deriving DecidableEq, Repr

/-- A body record (1.4). `id` is the model's own name for the record (log 6). -/
structure Body where
  id         : Nat
  tag        : Half
  style      : BitVec 6
  options    : BitVec 4
  bank       : BankIx
  empty      : Bool
  unresolved : Bool
  uncertain  : Bool
  resolved   : Mask
  done       : Mask
  owed       : Mask
deriving DecidableEq, Repr

/-- A retrack record of the retrack image (R17). -/
structure Retrack where
  tag     : Half
  style   : BitVec 6
  options : BitVec 4
  done    : Mask
  owed    : Mask
deriving DecidableEq, Repr

/-- The tracking unit. `queue` and `image` have one position per station. -/
structure Tracking where
  baseline  : Option Baseline
  announced : List Announcement
  queue     : List (Option Body)
  image     : List (Option Retrack)
  uncertain : Bool
  nextId    : Nat
deriving DecidableEq, Repr

/-! ### Bank store (02) -/

/-- The gun of a channel. -/
inductive Gun where
  | gun1
  | gun2
deriving DecidableEq, Repr

/-- A style entry (2.1). -/
structure Entry where
  base         : Byte
  baseSpots    : Byte
  option       : Fin 5
  variant      : Byte
  variantSpots : Byte
  backup       : Byte
  backupSpots  : Byte
  gun          : Gun
deriving DecidableEq, Repr

/-- A style record: the enabled flag and one entry a channel. -/
structure StyleRec where
  enabled : Bool
  entries : Vector Entry 32
deriving DecidableEq, Repr

/-- A bank: record i is style i + 1; style 0 has none. -/
abbrev Bank := Vector StyleRec 63

/-- The copy engine (2.6). -/
inductive CopyEngine where
  | idle
  | running (next : Nat)
deriving DecidableEq, Repr

/-- The long-operation result. -/
inductive LongResult where
  | none
  | done
  | aborted
deriving DecidableEq, Repr

/-- The bank store. -/
structure BankStore where
  bank0  : Bank
  bank1  : Bank
  live   : BankIx
  armed  : Bool
  torn   : Bool
  copy   : CopyEngine
  result : LongResult
deriving DecidableEq, Repr

/-! ### Channel roster (03) -/

/-- The detail of a PROTOCOL failure (3.5). -/
inductive Detail where
  | program
  | position
  | tag
  | gun
deriving DecidableEq, Repr

/-- A failed cause with its fault code or detail (3.5). -/
inductive Cause where
  | selectTimeout
  | robotFault (code : Byte)
  | protocol (d : Detail)
  | replyLost
deriving DecidableEq, Repr

/-- A channel record with the channel's availability factors (3.1, 3.5). -/
structure ChanRec where
  station     : Nat
  lead        : Nat
  twoGuns     : Bool
  selectWatch : Byte
  failed      : Option Cause
  out         : Bool
  overdue     : Bool
deriving DecidableEq, Repr

/-! ### Channel sequencers (04, 05) -/

/-- The role of a dispatch record (R60). -/
inductive WorkRole where
  | own
  | variant
  | cover
deriving DecidableEq, Repr

/-- A dispatch record (R60). `body` is the id of the body record it is for. -/
structure Dispatch where
  body     : Nat
  tag      : Half
  program  : Byte
  spots    : Byte
  gun      : Gun
  role     : WorkRole
  accounts : Mask
deriving DecidableEq, Repr

/-- The phase of a current job (5.3); phase IDLE is no current job. -/
inductive JobPhase where
  | selecting
  | loaded
  | running
deriving DecidableEq, Repr

/-- The kind of a maintenance job. -/
inductive Maint where
  | dress
  | cap
deriving DecidableEq, Repr

/-- A current job (R91), with the selection number it was started with. A BODY job runs on the head
record of the pending list; an orphan, always RUNNING, keeps its own fields (R79). -/
inductive Job where
  | body (phase : JobPhase) (sel : BitVec 4)
  | orphan (program : Byte) (gun : Gun) (tag : Half) (sel : BitVec 4)
  | maint (phase : JobPhase) (kind : Maint) (gun : Gun) (program : Byte) (sel : BitVec 4)
deriving DecidableEq, Repr

/-- The kind field of a command (5.1). -/
inductive Kind where
  | idle
  | body
  | dress
  | cap
deriving DecidableEq, Repr

/-- A channel's current command (5.1), without the HOLD bit, which is written from the node state (R85). -/
structure Command where
  program : Byte
  sel     : BitVec 4
  kind    : Kind
  gun     : Gun
  boost   : Byte
  spots   : Byte
  tag     : Half
  cover   : Bool
deriving DecidableEq, Repr

/-- The six defined states of a reply (5.2). -/
inductive ReplyState where
  | none
  | idle
  | loaded
  | busy
  | done
  | fault
deriving DecidableEq, Repr

/-- The reply history (R88): the last processed pass's sweep number and its valid reply, or none for not valid. -/
structure History where
  sweep : Half
  reply : Option Data7
deriving DecidableEq, Repr

/-- A channel sequencer (R110). -/
structure Seq where
  list       : List Dispatch
  job        : Option Job
  cmd        : Command
  history    : Option History
  stable     : Option Data7
  watchCount : Nat
  lossCount  : Nat
deriving DecidableEq, Repr

/-! ### Wear unit (06) -/

/-- A gun's wear record with its two flags (6.1). -/
structure GunRec where
  weld         : Half
  dresses      : Byte
  curve        : Fin 4
  threshold    : Half
  grace        : Half
  capLimit     : Byte
  dressProgram : Byte
  capProgram   : Byte
  due          : Bool
  overdue      : Bool
deriving DecidableEq, Repr

/-- The two wear records of a channel. -/
structure ChanWear where
  gun1 : GunRec
  gun2 : GunRec
deriving DecidableEq, Repr

/-- A stepper curve (6.3). -/
structure Curve where
  c1 : Half
  c2 : Half
  c3 : Half
  c4 : Half
  b1 : Byte
  b2 : Byte
  b3 : Byte
  b4 : Byte
deriving DecidableEq, Repr

/-! ### Management agent (09) -/

/-- The result codes (9.4). -/
inductive Result where
  | ok
  | accepted
  | busy
  | state
  | inUse
  | armed
  | torn
  | range
  | conflict
  | notReady
  | active
  | unknown
  | length
deriving DecidableEq, Repr

/-- The stored response (R165), without the node address, which is written from the strapped address. -/
structure Response where
  code    : Byte
  tag     : Byte
  result  : Result
  payload : List Byte
deriving DecidableEq, Repr

/-- The management agent. -/
structure Agent where
  lastTag : Byte
  stored  : Response
deriving DecidableEq, Repr

/-- The requests of 9.6, one name a request code. -/
inductive ReqCode where
  | readStatus
  | start
  | stop
  | hold
  | release
  | cellReset
  | writeNodeSettings
  | writeSlotMap
  | readSlotMap
  | writeChannel
  | readChannel
  | writePair
  | clearPair
  | setService
  | writeEntries
  | readEntries
  | enableStyle
  | copyBank
  | commit
  | disarm
  | abort
  | writeCurve
  | readCurve
  | writeGun
  | writeWear
  | readWear
  | readTracking
  | retrackLoad
  | retrackApply
  | readLog
  | clearLog
  | clearAlarms
  | testStart
  | testStop
  | testInject
  | readTestCounts
deriving DecidableEq, Repr

/-! ### Report unit (10) -/

/-- The eight alarm bits (R177). -/
inductive Alarm where
  | check
  | overflow
  | trackLost
  | exitFault
  | channelFailed
  | hold
  | linkLost
  | testError
deriving DecidableEq, Repr

/-- The kind of a fault-log record (10.5). -/
inductive ErrKind where
  | slotCheck
  | headerCheck
  | invalidState
deriving DecidableEq, Repr

/-- The two passes: `back` is the return pass. -/
inductive Pass where
  | outbound
  | back
deriving DecidableEq, Repr

/-- A fault-log record (10.5). -/
structure LogRec where
  kind  : ErrKind
  sweep : Half
  slot  : Nat
  pass  : Pass
  raw   : Slot
deriving DecidableEq, Repr

/-- The exit outcomes (R13). -/
inductive Outcome where
  | complete
  | incomplete
  | unresolved
  | undispatched
  | empty
deriving DecidableEq, Repr

/-- The held exit report (R176). -/
structure ExitReport where
  tag     : Half
  outcome : Outcome
  owed    : Mask
deriving DecidableEq, Repr

/-- The report unit. -/
structure Report where
  alarms    : Byte
  log       : Option LogRec
  further   : Byte
  exit      : ExitReport
  exitCount : BitVec 5
deriving DecidableEq, Repr

/-! ### Path tester (11) -/

/-- The patterns of the path test. -/
inductive Pattern where
  | zeros
  | ones
  | seq15
deriving DecidableEq, Repr

/-- The path tester. Bit 0 of `gen` is the most recent bit; `expected` pairs a slot number with its seven bytes. -/
structure PathTester where
  running    : Bool
  pattern    : Pattern
  gen        : BitVec 15
  expected   : List (Nat × Data7)
  inject     : Bool
  bitErrors  : Half
  lostSweeps : Half
deriving DecidableEq, Repr

/-! ### The whole part -/

/-- The state of the SD3264. `sent` (frames sent by the last command) and `choice` (the counter the free
order of a pass is read with) are the model's own; `pending` is the queue of waiting commands. -/
structure State where
  pins    : Pins
  node    : NodeCtl
  sweep   : SweepIf
  track   : Tracking
  bank    : BankStore
  chans   : Vector ChanRec 32
  pairs   : List (ChanNo × ChanNo)
  seqs    : Vector Seq 32
  wear    : Vector ChanWear 32
  curves  : Vector Curve 4
  mgmt    : Agent
  report  : Report
  path    : PathTester
  sent    : List Sent
  choice  : Nat
  pending : List Instr
deriving DecidableEq, Repr

/-- What an executed request leaves: the state after its effect, its result and its response payload (R163 to R165). -/
structure Answer where
  state   : State
  result  : Result
  payload : List Byte
deriving DecidableEq, Repr

/-- The two kinds of loss of service (R54). -/
inductive Loss where
  | failed
  | orderly
deriving DecidableEq, Repr

/-- The three kinds of mark (R12). -/
inductive Mark where
  | resolved
  | done
  | owed
deriving DecidableEq, Repr

/-- The hand-overs of a processed outbound pass whose order is free (R136): the LINE slot, the request,
the restart of the sweep watch (R145), the filling of the TEST slots, and for each channel its
selection opportunity and the writing of its COMMAND slot. -/
inductive OutEvent where
  | line
  | request
  | watch
  | testFill
  | opportunity (c : ChanNo)
  | command (c : ChanNo)
deriving DecidableEq, Repr

/-- The hand-overs of a processed return pass whose order is free: the test comparison and each channel's reply. -/
inductive BackEvent where
  | compare
  | reply (c : ChanNo)
deriving DecidableEq, Repr

/-- A pass in progress: the state and the frame's slots as they stand. -/
structure InPass where
  state : State
  slots : List Slot
deriving DecidableEq, Repr

/-! ### Reset values -/

/-- An entry after power-on reset (R40). -/
def Entry.reset : Entry :=
  { base := 0, baseSpots := 0, option := 0, variant := 0, variantSpots := 0, backup := 0, backupSpots := 0, gun := .gun1 }

/-- A bank after power-on reset: every style disabled (R40). -/
def Bank.reset : Bank := Vector.replicate 63 { enabled := false, entries := Vector.replicate 32 Entry.reset }

/-- The command after power-on reset (R86). -/
def Command.reset : Command :=
  { program := 0, sel := 0, kind := .idle, gun := .gun1, boost := 0, spots := 0, tag := 0, cover := false }

/-- A sequencer after power-on reset (R110). -/
def Seq.reset : Seq :=
  { list := [], job := none, cmd := Command.reset, history := none, stable := none, watchCount := 0, lossCount := 0 }

/-- A channel record after power-on reset (R59). -/
def ChanRec.reset : ChanRec :=
  { station := 0, lead := 0, twoGuns := false, selectWatch := 200, failed := none, out := false, overdue := false }

/-- A wear record after power-on reset (R129). -/
def GunRec.reset : GunRec :=
  { weld := 0, dresses := 0, curve := 0, threshold := 0, grace := 0, capLimit := 0, dressProgram := 0,
    capProgram := 0, due := false, overdue := false }

/-- A curve after power-on reset (R115). -/
def Curve.reset : Curve :=
  { c1 := 16384, c2 := 32768, c3 := 49152, c4 := 65535, b1 := 0, b2 := 0, b3 := 0, b4 := 0 }

/-- The slot map after power-on reset: slots 1..8 are MGMT 0..7, the rest PASS (R146). -/
def SlotMap.reset : SlotMap :=
  (((((((Vector.replicate 183 Role.pass).set 0 (.mgmt 0)).set 1 (.mgmt 1)).set 2 (.mgmt 2)).set 3 (.mgmt 3)).set 4
    (.mgmt 4)).set 5 (.mgmt 5)).set 6 (.mgmt 6) |>.set 7 (.mgmt 7)

/-- Node control after power-on reset (R159). The address is the straps' (R157); 0 here is DESIGN CHOICE (log 8). -/
def NodeCtl.reset : NodeCtl :=
  { state := .config, latch := false, stations := 8, interval := 50, logMode := .first, address := 0 }

/-- The sweep interface after power-on reset (R146). -/
def SweepIf.reset : SweepIf :=
  { storedMap := SlotMap.reset, mapInForce := none, outstanding := none, closure := none, watch := none, link := .lost }

/-- The tracking unit after power-on reset (R22), with S = 8. -/
def Tracking.reset : Tracking :=
  { baseline := none, announced := [], queue := List.replicate 8 none, image := List.replicate 8 none,
    uncertain := false, nextId := 0 }

/-- The bank store after power-on reset (R40). -/
def BankStore.reset : BankStore :=
  { bank0 := Bank.reset, bank1 := Bank.reset, live := .bank0, armed := false, torn := false, copy := .idle, result := .none }

/-- The management agent after power-on reset: the null response (R165, R174). -/
def Agent.reset : Agent :=
  { lastTag := 0, stored := { code := 0, tag := 0, result := .ok, payload := [] } }

/-- The report unit after power-on reset (R183). -/
def Report.reset : Report :=
  { alarms := 0, log := none, further := 0, exit := { tag := 0, outcome := .complete, owed := 0 }, exitCount := 0 }

/-- The path tester after power-on reset (R188). -/
def PathTester.reset : PathTester :=
  { running := false, pattern := .zeros, gen := BitVec.allOnes 15, expected := [], inject := false,
    bitErrors := 0, lostSweeps := 0 }

/-- The part right after power-on reset with RESET_N and HOLD_N high, both links DOWN and the straps at 0
(R146, R156; the levels and the straps are DESIGN CHOICE, log 8). No command is waiting. -/
def State.reset : State :=
  { pins := { inReset := false, holdN := true, portA := false, portB := false }
    node := NodeCtl.reset
    sweep := SweepIf.reset
    track := Tracking.reset
    bank := BankStore.reset
    chans := Vector.replicate 32 ChanRec.reset
    pairs := []
    seqs := Vector.replicate 32 Seq.reset
    wear := Vector.replicate 32 { gun1 := GunRec.reset, gun2 := GunRec.reset }
    curves := Vector.replicate 4 Curve.reset
    mgmt := Agent.reset
    report := Report.reset
    path := PathTester.reset
    sent := []
    choice := 0
    pending := [] }

end Sys2Proof.Machine
end

