-- ==== Sys2Proof/Machine/Operands.lean ====
section
/-! DEFINITION. Chapter 12: how the fields of slots and payloads sit in their bytes, and how the part reads and writes them. -/

namespace Sys2Proof.Machine

/-! ### Bytes and wider fields (R189) -/

/-- The more significant byte of a 2-byte field. -/
def hiByte (w : Half) : Byte := w.extractLsb' 8 8

/-- The less significant byte of a 2-byte field. -/
def loByte (w : Half) : Byte := w.extractLsb' 0 8

/-- A 2-byte field, most significant byte first (R189). -/
def half (hi lo : Byte) : Half := hi ++ lo

/-- A 2-byte field as its two bytes, most significant first. -/
def halfBytes (w : Half) : List Byte := [hiByte w, loByte w]

/-- A channel mask from its four bytes, channels 31..24 first (R189). -/
def maskOf (a b c d : Byte) : Mask := a ++ b ++ c ++ d

/-- A channel mask as its four bytes. -/
def maskBytes (m : Mask) : List Byte :=
  [m.extractLsb' 24 8, m.extractLsb' 16 8, m.extractLsb' 8 8, m.extractLsb' 0 8]

/-- A one-bit flag as a byte: bit `n` set when the flag is. -/
def flagAt (n : Nat) (b : Bool) : Byte := if b then (1 : Byte) <<< n else 0

/-- A number as a byte. -/
def byteOf (n : Nat) : Byte := BitVec.ofNat 8 n

/-- The channel a byte names, none above 31. -/
def chanOf (b : Byte) : Option ChanNo := if h : b.toNat < 32 then some ⟨b.toNat, h⟩ else none

/-- The mask of one channel. -/
def chanBit (c : ChanNo) : Mask := (1 : Mask) <<< c.val

/-- Channel `c` is in the mask. -/
def inMask (m : Mask) (c : ChanNo) : Bool := m.getLsbD c.val

/-- The gun a payload byte or an entry's gun field names: 1 or 2 (R191). -/
def gunOf (n : Nat) : Option Gun :=
  if n = 1 then some .gun1 else if n = 2 then some .gun2 else none

/-- A gun as the number 1 or 2. -/
def gunNumber : Gun → Nat
  | .gun1 => 1
  | .gun2 => 2

/-! ### Slots and their check bytes (7.5, R190) -/

/-- The XOR of the seven data bytes. -/
def Data7.check (d : Data7) : Byte := d.b0 ^^^ d.b1 ^^^ d.b2 ^^^ d.b3 ^^^ d.b4 ^^^ d.b5 ^^^ d.b6

/-- A slot written by the part, with a freshly computed check byte (R190). -/
def Data7.toSlot (d : Data7) : Slot := { data := d, check := d.check }

/-- The check of a slot read: the XOR of all eight bytes is 0 (R190). -/
def Slot.ok (sl : Slot) : Bool := sl.data.check ^^^ sl.check == 0

/-- The seven data bytes in order. -/
def Data7.bytes (d : Data7) : List Byte := [d.b0, d.b1, d.b2, d.b3, d.b4, d.b5, d.b6]

/-- The eight bytes of a slot in order. -/
def Slot.bytes (sl : Slot) : List Byte := sl.data.bytes ++ [sl.check]

/-- Seven data bytes from the front of a list, missing ones 0 (R190). -/
def data7Of (l : List Byte) : Data7 :=
  { b0 := l.getD 0 0, b1 := l.getD 1 0, b2 := l.getD 2 0, b3 := l.getD 3 0,
    b4 := l.getD 4 0, b5 := l.getD 5 0, b6 := l.getD 6 0 }

/-- The whole slots of a payload, 8 bytes each. -/
def slotsOf : List Byte → List Slot
  | b0 :: b1 :: b2 :: b3 :: b4 :: b5 :: b6 :: c :: rest =>
    { data := { b0 := b0, b1 := b1, b2 := b2, b3 := b3, b4 := b4, b5 := b5, b6 := b6 }, check := c } :: slotsOf rest
  | _ => []

/-- A payload from its slots. -/
def payloadOf (sls : List Slot) : List Byte := sls.flatMap Slot.bytes

/-- The number of bits that differ in two bytes. -/
def bitsDiffering (a b : Byte) : Nat := ((List.range 8).filter fun i => (a ^^^ b).getLsbD i).length

/-- The number of bits that differ over seven data bytes (R186). -/
def Data7.differing (d e : Data7) : Nat := ((d.bytes.zip e.bytes).map fun p => bitsDiffering p.1 p.2).sum

/-! ### The header slot (7.2) -/

/-- The slots of a sweep of this size code. -/
def SizeCode.slots : SizeCode → Nat
  | .slots24 => 24
  | .slots48 => 48
  | .slots96 => 96
  | .slots184 => 184

/-- The size code in bits 1..0 of header byte 1. -/
def sizeOf (b1 : Byte) : SizeCode :=
  match b1.getLsbD 1, b1.getLsbD 0 with
  | false, false => .slots24
  | false, true => .slots48
  | true, false => .slots96
  | true, true => .slots184

/-- The sweep number in header bytes 2 and 3. -/
def sweepNumber (d : Data7) : Half := half d.b2 d.b3

/-- The header slot of a payload, none when the payload holds no whole slot (log 16). -/
def headerSlot (p : List Byte) : Option Slot := (slotsOf p).head?

/-- R133: the number and size of a sweep whose header passes the three checks: the marker, the check
byte, and a payload of 8 bytes for each slot its size code gives. -/
def headerOf (p : List Byte) : Option (Half × SizeCode) :=
  match headerSlot p with
  | none => none
  | some sl =>
    if sl.data.b0 = 0xC5 ∧ sl.ok = true ∧ p.length = 8 * (sizeOf sl.data.b1).slots then
      some (sweepNumber sl.data, sizeOf sl.data.b1)
    else none

/-! ### LINE slot -/

/-- The transfer count and announcement sequence of a LINE slot. -/
def lineBaseline (d : Data7) : Baseline := { transfer := d.b0, sequence := d.b1 }

/-- The announcement of a LINE slot: style in bits 5..0 of byte 4, options in bits 3..0 of byte 5. -/
def lineAnnouncement (d : Data7) : Announcement :=
  { tag := half d.b2 d.b3, style := d.b4.extractLsb' 0 6, options := d.b5.extractLsb' 0 4 }

/-! ### COMMAND and REPLY slots -/

/-- The kind field of byte 1 of a COMMAND slot. -/
def Kind.code : Kind → Byte
  | .idle => 0
  | .body => 1
  | .dress => 2
  | .cap => 3

/-- Bit 6 of byte 1 of a COMMAND slot: 0 gun 1, 1 gun 2. -/
def Gun.bit : Gun → Bool
  | .gun1 => false
  | .gun2 => true

/-- The COMMAND slot of a command, with its HOLD bit (12.2). -/
def commandData (k : Command) (hold : Bool) : Data7 :=
  { b0 := k.program
    b1 := (k.sel.setWidth 8) ||| (k.kind.code <<< 4) ||| flagAt 6 k.gun.bit ||| flagAt 7 hold
    b2 := k.boost
    b3 := k.spots
    b4 := hiByte k.tag
    b5 := loByte k.tag
    b6 := flagAt 0 k.cover }

/-- The selection echo of a reply, bits 3..0 of byte 1. -/
def selEcho (d : Data7) : BitVec 4 := d.b1.extractLsb' 0 4

/-- The state of a reply, bits 6..4 of byte 1; none for the two undefined codes (R87). -/
def replyState (d : Data7) : Option ReplyState :=
  match (d.b1.extractLsb' 4 3).toNat with
  | 0 => some .none
  | 1 => some .idle
  | 2 => some .loaded
  | 3 => some .busy
  | 4 => some .done
  | 5 => some .fault
  | _ => none

/-- The gun a reply echoes in byte 3: 0 gun 1, 1 gun 2, any other value neither (R191). -/
def gunEcho (d : Data7) : Option Gun :=
  if d.b3 = 0 then some .gun1 else if d.b3 = 1 then some .gun2 else none

/-! ### The slot map (12.3) -/

/-- The role a map entry's role code and index name; none for an undefined role code, an index out of
its range, or a non-zero index of a role without one (R140 check 2). -/
def roleOf (e : RawMapEntry) : Option Role :=
  match e.role.toNat with
  | 0 => if e.index = 0 then some .pass else none
  | 1 => if e.index = 0 then some .line else none
  | 2 => (chanOf e.index).map .command
  | 3 => (chanOf e.index).map .reply
  | 4 => if h : e.index.toNat < 8 then some (.mgmt ⟨e.index.toNat, h⟩) else none
  | 5 => if e.index = 0 then some .status else none
  | 6 => if e.index = 0 then some .exit else none
  | 7 => if e.index = 0 then some .test else none
  | _ => none

/-- A map entry as its role code and index byte. -/
def roleBytes : Role → List Byte
  | .pass => [0, 0]
  | .line => [1, 0]
  | .command c => [2, byteOf c.val]
  | .reply c => [3, byteOf c.val]
  | .mgmt k => [4, byteOf k.val]
  | .status => [5, 0]
  | .exit => [6, 0]
  | .test => [7, 0]

/-! ### Style entries and retrack records (12.3) -/

/-- The entry seven payload bytes give; none for an option index above 4 or a gun other than 1 or 2 (R27). Bit 3 of the
last byte, which 12.3 does not name, is not examined: DESIGN CHOICE (log 36). -/
def entryOf (r : RawEntry) : Option Entry :=
  match gunOf (r.sel.extractLsb' 4 2).toNat with
  | none => none
  | some g =>
    if h : (r.sel.extractLsb' 0 3).toNat < 5 then
      some { base := r.base, baseSpots := r.baseSpots, option := ⟨(r.sel.extractLsb' 0 3).toNat, h⟩,
             variant := r.variant, variantSpots := r.variantSpots, backup := r.backup,
             backupSpots := r.backupSpots, gun := g }
    else none

/-- An entry as its seven payload bytes. Bit 3 of the last byte, which 12.3 does not name, is 0: DESIGN CHOICE (log 36). -/
def entryBytes (e : Entry) : List Byte :=
  [e.base, e.baseSpots, e.variant, e.variantSpots, e.backup, e.backupSpots,
   byteOf e.option.val ||| (byteOf (gunNumber e.gun) <<< 4)]

/-- The retrack record a payload record gives; none for a style above 63, option bits beyond the four,
or a channel in both masks (R17). -/
def retrackOf (r : RawRetrack) : Option Retrack :=
  if r.style.toNat < 64 ∧ r.options.toNat < 16 ∧ r.done &&& r.owed = 0 then
    some { tag := r.tag, style := r.style.setWidth 6, options := r.options.setWidth 4, done := r.done, owed := r.owed }
  else none

/-- The first `k` runs of `n` bytes of a list. -/
def chunks (n : Nat) : Nat → List Byte → List (List Byte)
  | 0, _ => []
  | k + 1, l => l.take n :: chunks n k (l.drop n)

/-- A map entry from its two bytes. -/
def rawMapEntry (l : List Byte) : RawMapEntry := { role := l.getD 0 0, index := l.getD 1 0 }

/-- A style entry from its seven bytes. -/
def rawEntry (l : List Byte) : RawEntry :=
  { base := l.getD 0 0, baseSpots := l.getD 1 0, variant := l.getD 2 0, variantSpots := l.getD 3 0,
    backup := l.getD 4 0, backupSpots := l.getD 5 0, sel := l.getD 6 0 }

/-- A retrack record from its 13 bytes. -/
def rawRetrack (l : List Byte) : RawRetrack :=
  { station := l.getD 0 0, tag := half (l.getD 1 0) (l.getD 2 0), style := l.getD 3 0, options := l.getD 4 0,
    done := maskOf (l.getD 5 0) (l.getD 6 0) (l.getD 7 0) (l.getD 8 0),
    owed := maskOf (l.getD 9 0) (l.getD 10 0) (l.getD 11 0) (l.getD 12 0) }

/-- The map entries of a payload run, 2 bytes each (R168). -/
def rawMapEntries (l : List Byte) : List RawMapEntry := (chunks 2 (l.length / 2) l).map rawMapEntry

/-- The style entries of a payload run, 7 bytes each (R170). -/
def rawEntries (l : List Byte) : List RawEntry := (chunks 7 (l.length / 7) l).map rawEntry

/-- The retrack records of a payload run, 13 bytes each (R172). -/
def rawRetracks (l : List Byte) : List RawRetrack := (chunks 13 (l.length / 13) l).map rawRetrack

/-! ### Request codes and result codes (12.4) -/

/-- The code byte of a request. -/
def ReqCode.byte : ReqCode → Byte
  | .readStatus => 0x01
  | .start => 0x02
  | .stop => 0x03
  | .hold => 0x04
  | .release => 0x05
  | .cellReset => 0x06
  | .writeNodeSettings => 0x07
  | .writeSlotMap => 0x10
  | .readSlotMap => 0x11
  | .writeChannel => 0x18
  | .readChannel => 0x19
  | .writePair => 0x1A
  | .clearPair => 0x1B
  | .setService => 0x1C
  | .writeEntries => 0x20
  | .readEntries => 0x21
  | .enableStyle => 0x22
  | .copyBank => 0x23
  | .commit => 0x24
  | .disarm => 0x25
  | .abort => 0x26
  | .writeCurve => 0x28
  | .readCurve => 0x29
  | .writeGun => 0x2A
  | .writeWear => 0x2B
  | .readWear => 0x2C
  | .readTracking => 0x30
  | .retrackLoad => 0x31
  | .retrackApply => 0x32
  | .readLog => 0x38
  | .clearLog => 0x39
  | .clearAlarms => 0x3A
  | .testStart => 0x40
  | .testStop => 0x41
  | .testInject => 0x42
  | .readTestCounts => 0x43

/-- The node, slot-map and roster requests (R167 to R169). -/
def nodeReqCodes : List ReqCode :=
  [.readStatus, .start, .stop, .hold, .release, .cellReset, .writeNodeSettings, .writeSlotMap, .readSlotMap,
   .writeChannel, .readChannel, .writePair, .clearPair, .setService]

/-- The bank and wear requests (R170, R171). -/
def tableReqCodes : List ReqCode :=
  [.writeEntries, .readEntries, .enableStyle, .copyBank, .commit, .disarm, .abort,
   .writeCurve, .readCurve, .writeGun, .writeWear, .readWear]

/-- The tracking, report and path-test requests (R172, R173). -/
def lineReqCodes : List ReqCode :=
  [.readTracking, .retrackLoad, .retrackApply, .readLog, .clearLog, .clearAlarms,
   .testStart, .testStop, .testInject, .readTestCounts]

/-- Every request of 9.6. -/
def allReqCodes : List ReqCode := nodeReqCodes ++ tableReqCodes ++ lineReqCodes

/-- The request a code byte names; none for a code 9.6 does not define. -/
def reqCodeOf (b : Byte) : Option ReqCode := allReqCodes.find? fun k => k.byte == b

/-- The payload lengths a request's code allows (9.6). -/
def ReqCode.allows (k : ReqCode) (len : Nat) : Bool :=
  match k with
  | .writeSlotMap => len % 2 == 1 && 3 ≤ len && len ≤ 49
  | .writeEntries => len % 7 == 2 && 9 ≤ len && len ≤ 44
  | .retrackLoad => len % 13 == 0 && 13 ≤ len && len ≤ 39
  | .writeNodeSettings => len == 4
  | .readSlotMap | .writePair | .setService | .enableStyle | .readWear => len == 2
  | .readChannel | .clearPair | .readCurve | .readTracking | .clearAlarms | .testStart => len == 1
  | .writeChannel | .writeWear => len == 5
  | .readEntries => len == 4
  | .writeCurve => len == 13
  | .writeGun => len == 10
  | .readStatus | .start | .stop | .hold | .release | .cellReset => len == 0
  | .copyBank | .commit | .disarm | .abort | .retrackApply => len == 0
  | .readLog | .clearLog | .testStop | .testInject | .readTestCounts => len == 0

/-- The result code byte (12.4). -/
def Result.byte : Result → Byte
  | .ok => 0
  | .accepted => 1
  | .busy => 2
  | .state => 3
  | .inUse => 4
  | .armed => 5
  | .torn => 6
  | .range => 7
  | .conflict => 8
  | .notReady => 9
  | .active => 10
  | .unknown => 11
  | .length => 12

end Sys2Proof.Machine
end

