-- ==== Sys2Proof/Machine/Flags.lean ====
section
/-! DEFINITION. The flags and conditions that are computed from the state: alarm bits and their conditions,
presence, availability, the in-use condition, due and overdue. Each has no home of its own (log 27). -/

namespace Sys2Proof.Machine

/-- The 32 channels in rising order. -/
def allChannels : List ChanNo :=
  [0, 1, 2, 3, 4, 5, 6, 7, 8, 9, 10, 11, 12, 13, 14, 15, 16, 17, 18, 19, 20, 21, 22, 23, 24, 25, 26, 27, 28, 29, 30, 31]

/-! ### Slot map and presence -/

/-- The lowest slot the map gives this role; for a unique role its one slot (R138). -/
def SlotMap.slotOf (m : SlotMap) (r : Role) : Option Nat := (m.toList.findIdx? fun x => x == r).map (· + 1)

/-- The map gives some slot this role. -/
def SlotMap.holds (m : SlotMap) (r : Role) : Bool := m.toList.contains r

/-- R45: a channel is present while the map in force holds its COMMAND slot and its REPLY slot. -/
def present (s : State) (c : ChanNo) : Bool :=
  match s.sweep.mapInForce with
  | none => false
  | some m => m.holds (.command c) && m.holds (.reply c)

/-! ### Availability (3.5) -/

/-- R53: present, no failed cause, not out by command, not overdue. -/
def available (s : State) (c : ChanNo) : Bool :=
  present s c && s.chans[c.val].failed.isNone && !s.chans[c.val].out && !s.chans[c.val].overdue

/-- R51: the number of channels that have a failed cause. -/
def failedCount (s : State) : Nat := (allChannels.filter fun c => s.chans[c.val].failed.isSome).length

/-- A channel's pre-select point (R47). -/
def ChanRec.preselect (r : ChanRec) : Nat := r.station - r.lead

/-! ### Bank store -/

/-- The other of the two banks. -/
def BankIx.other : BankIx → BankIx
  | .bank0 => .bank1
  | .bank1 => .bank0

/-- The bank number as a bit. -/
def BankIx.bit : BankIx → Bool
  | .bank0 => false
  | .bank1 => true

/-- The contents of a bank. -/
def BankStore.get (b : BankStore) : BankIx → Bank
  | .bank0 => b.bank0
  | .bank1 => b.bank1

/-- A bank store with the contents of one bank replaced. -/
def BankStore.put (b : BankStore) (i : BankIx) (x : Bank) : BankStore :=
  match i with
  | .bank0 => { b with bank0 := x }
  | .bank1 => { b with bank1 := x }

/-- The staging bank: the one that is not live (R24). -/
def BankStore.staging (b : BankStore) : BankIx := b.live.other

/-- A copy is running. -/
def BankStore.busy (b : BankStore) : Bool := b.copy != .idle

/-- R25: some body record in the tracking queue is bound to the staging bank, whatever its flags. -/
def stagingInUse (s : State) : Bool :=
  s.track.queue.any fun p => match p with
    | some b => b.bank == s.bank.staging
    | none => false

/-! ### Due and overdue (R120) -/

/-- The gun is due: D is not 0 and W has reached it. -/
def GunRec.reachesDue (g : GunRec) : Bool := g.threshold != 0 && g.threshold.toNat ≤ g.weld.toNat

/-- The gun is overdue: D is not 0 and W has reached the smaller of 65535 and D + G. -/
def GunRec.reachesOverdue (g : GunRec) : Bool :=
  g.threshold != 0 && min 65535 (g.threshold.toNat + g.grace.toNat) ≤ g.weld.toNat

/-- The record with both flags evaluated; held clear while the gun is not counted (R112). -/
def GunRec.evaluated (g : GunRec) (counted : Bool) : GunRec :=
  { g with due := counted && g.reachesDue, overdue := counted && g.reachesOverdue }

/-- R121: some counted gun of the channel is overdue. -/
def ChanWear.overdue (w : ChanWear) (twoGuns : Bool) : Bool := w.gun1.overdue || (twoGuns && w.gun2.overdue)

/-! ### Alarms (R177, R178) -/

/-- The position of an alarm in the summary. -/
def Alarm.bit : Alarm → Nat
  | .check => 0
  | .overflow => 1
  | .trackLost => 2
  | .exitFault => 3
  | .channelFailed => 4
  | .hold => 5
  | .linkLost => 6
  | .testError => 7

/-- The eight alarms, bit 0 first. -/
def allAlarms : List Alarm :=
  [.check, .overflow, .trackLost, .exitFault, .channelFailed, .hold, .linkLost, .testError]

/-- The summary with this one bit. -/
def Alarm.mask (a : Alarm) : Byte := (1 : Byte) <<< a.bit

/-- The alarm's bit is set in the summary. -/
def alarmed (s : State) (a : Alarm) : Bool := s.report.alarms.getLsbD a.bit

/-- R177, last column: the condition that keeps the bit set against CLEAR ALARMS. -/
def alarmKept (s : State) : Alarm → Bool
  | .check => s.report.log.isSome
  | .overflow => false
  | .trackLost => s.track.uncertain
  | .exitFault => false
  | .channelFailed => failedCount s != 0
  | .hold => s.node.latch
  | .linkLost => s.sweep.link == .lost
  | .testError => s.path.bitErrors != 0

/-- R178: the level of ALARM_N, true for high: high while every bit of the summary is clear. -/
def alarmN (s : State) : Bool := s.report.alarms == 0

end Sys2Proof.Machine
end

