-- ==== Sys2Proof/Machine/Ops.lean ====
section
/-! DEFINITION. The named operations over the state that every family shares: register access, alarms, the fault
log, marks, pending lists, withdrawals, sending a frame, and taking a request. -/

namespace Sys2Proof.Machine

/-! ### Registers of channels and guns -/

/-- The sequencer of channel `c`. -/
def seqOf (s : State) (c : ChanNo) : Seq := s.seqs[c.val]

/-- The state with the sequencer of `c` replaced. -/
def setSeq (c : ChanNo) (q : Seq) (s : State) : State := { s with seqs := s.seqs.set c.val q }

/-- The record of channel `c`. -/
def chanRec (s : State) (c : ChanNo) : ChanRec := s.chans[c.val]

/-- The state with the record of `c` replaced. -/
def setChan (c : ChanNo) (r : ChanRec) (s : State) : State := { s with chans := s.chans.set c.val r }

/-- The wear records of channel `c`. -/
def wearOf (s : State) (c : ChanNo) : ChanWear := s.wear[c.val]

/-- The state with the wear records of `c` replaced. -/
def setWear (c : ChanNo) (w : ChanWear) (s : State) : State := { s with wear := s.wear.set c.val w }

/-- One gun's record of a channel's two. -/
def ChanWear.get (w : ChanWear) : Gun → GunRec
  | .gun1 => w.gun1
  | .gun2 => w.gun2

/-- A channel's two records with one replaced. -/
def ChanWear.put (w : ChanWear) (g : Gun) (r : GunRec) : ChanWear :=
  match g with
  | .gun1 => { w with gun1 := r }
  | .gun2 => { w with gun2 := r }

/-! ### Alarms and the fault log -/

/-- R177: the alarm's bit is set; no other bit changes. -/
def setAlarm (a : Alarm) (s : State) : State :=
  { s with report := { s.report with alarms := s.report.alarms ||| a.mask } }

/-- One more, stopping at 255 (R181). -/
def satByte (b : Byte) : Byte := if b = 255 then b else b + 1

/-- R181: an error reported to the fault log, with its CHECK alarm. -/
def logError (e : LogRec) (s : State) : State :=
  let r := s.report
  let r' : Report :=
    match r.log with
    | none => { r with log := some e, further := 0 }
    | some _ =>
      match s.node.logMode with
      | .first => { r with further := satByte r.further }
      | .latest => { r with log := some e, further := satByte r.further }
  setAlarm .check { s with report := r' }

/-! ### Body records and marks -/

/-- The body record at station `k`, none where the position is vacant. -/
def bodyAt (s : State) (k : Nat) : Option Body := s.track.queue.getD k none

/-- The position holds the body record named `id`. -/
def isBody (id : Nat) : Option Body → Bool
  | some b => b.id == id
  | none => false

/-- The station of the body record named `id`; none when it is no longer in the queue. -/
def stationOf (s : State) (id : Nat) : Option Nat := s.track.queue.findIdx? (isBody id)

/-- The body record named `id`. -/
def bodyOf (s : State) (id : Nat) : Option Body := (s.track.queue.find? (isBody id)).join

/-- R12: a mark on a body record. The first verdict on a channel stands. -/
def Body.mark (m : Mark) (chs : Mask) (b : Body) : Body :=
  match m with
  | .resolved => { b with resolved := b.resolved ||| chs }
  | .done =>
    let add := chs &&& ~~~b.owed
    { b with done := b.done ||| add, resolved := b.resolved ||| add }
  | .owed =>
    let add := chs &&& ~~~b.done
    { b with owed := b.owed ||| add, resolved := b.resolved ||| add }

/-- R12: the mark is made on the body record named `id`; a mark for a body no longer in the queue changes nothing. -/
def mark (m : Mark) (chs : Mask) (id : Nat) (s : State) : State :=
  { s with track := { s.track with
      queue := s.track.queue.map fun p => p.map fun b => if b.id = id then b.mark m chs else b } }

/-! ### Selection numbers, withdrawal and the job -/

/-- R92: the selection number advances, from 15 back to 1. -/
def nextSel (n : BitVec 4) : BitVec 4 := if n = 15 then 1 else n + 1

/-- R105: the IDLE command of a withdrawal, carrying the next selection number. -/
def idleCommand (sel : BitVec 4) : Command :=
  { program := 0, sel := nextSel sel, kind := .idle, gun := .gun1, boost := 0, spots := 0, tag := 0, cover := false }

/-- R105: a withdrawal ends the job at once and makes the IDLE command. -/
def Seq.withdraw (q : Seq) : Seq := { q with job := none, cmd := idleCommand q.cmd.sel, watchCount := 0 }

/-- The phase of the BODY job that runs on the record of body `id` at the head of the list, if there is one. -/
def Seq.headJob (q : Seq) (id : Nat) : Option JobPhase :=
  match q.job, q.list with
  | some (.body ph _), r :: _ => if r.body = id then some ph else none
  | _, _ => none

/-- The list holds a record for body `id`. -/
def Seq.holds (q : Seq) (id : Nat) : Bool := q.list.any fun r => r.body == id

/-- A running BODY job on record `r` becomes an orphan (R79); its selection number and command stay (R91). -/
def Seq.toOrphan (q : Seq) (r : Dispatch) : Seq :=
  match q.job with
  | some (.body _ sel) => { q with job := some (.orphan r.program r.gun r.tag sel) }
  | _ => q

/-- The list is emptied (R82, R83): a RUNNING head record's job becomes an orphan, a SELECTING or LOADED
one is withdrawn, orphans and maintenance jobs run on. -/
def Seq.cleared (q : Seq) : Seq :=
  match q.job, q.list with
  | some (.body .running _), r :: _ => { q.toOrphan r with list := [] }
  | some (.body _ _), _ => { q.withdraw with list := [] }
  | _, _ => { q with list := [] }

/-! ### Pending lists (R61, R62) -/

/-- Body `id` stands farther downstream than body `other`. -/
def aheadOf (s : State) (id other : Nat) : Bool :=
  match stationOf s id, stationOf s other with
  | some a, some b => b < a
  | some _, none => true
  | none, _ => false

/-- A record joins the list at the place its body's station gives it (R61). -/
def insertInOrder (s : State) (r : Dispatch) : List Dispatch → List Dispatch
  | [] => [r]
  | x :: xs => if aheadOf s r.body x.body then r :: x :: xs else x :: insertInOrder s r xs

/-- A record joins the list of channel `c` (R61). Ahead of a SELECTING or LOADED head record it withdraws
that job (R62). Ahead of a RUNNING head record, which R62 says does not occur, it stands behind it (log 18). -/
def insertRecord (c : ChanNo) (r : Dispatch) (s : State) : State :=
  let q := seqOf s c
  match q.job, q.list with
  | some (.body .running _), x :: xs => setSeq c { q with list := x :: insertInOrder s r xs } s
  | some (.body _ _), x :: xs =>
    if aheadOf s r.body x.body then setSeq c ({ q with list := r :: x :: xs }).withdraw s
    else setSeq c { q with list := x :: insertInOrder s r xs } s
  | _, l => setSeq c { q with list := insertInOrder s r l } s

/-- The record for `r`'s body in the list of `c` is replaced in its place by `r`; a SELECTING or LOADED
job on it is withdrawn (R76 case 4). -/
def replaceRecord (c : ChanNo) (r : Dispatch) (s : State) : State :=
  let q := seqOf s c
  let q' : Seq := { q with list := q.list.map fun x => if x.body = r.body then r else x }
  if (q.headJob r.body).isSome then setSeq c q'.withdraw s else setSeq c q' s

/-! ### Sending frames (R130) -/

/-- The frame leaves through the port; a port whose link is DOWN sends nothing. -/
def send (p : Port) (isSweep : Bool) (f : Frame) (s : State) : State :=
  let up := match p with
    | .portA => s.pins.portA
    | .portB => s.pins.portB
  if up then { s with sent := s.sent ++ [{ port := p, isSweep := isSweep, frame := f }] } else s

/-! ### Lost sweeps (R137) -/

/-- One more, stopping at 65535 (R186). -/
def satHalf (w : Half) : Half := if w = 65535 then w else w + 1

/-- R137: the outstanding sweep, if there is one, is lost: no return is awaited, every sequencer empties
its reply history (R88), the path tester counts the loss and discards the expected bytes (R186). -/
def loseSweep (s : State) : State :=
  match s.sweep.outstanding with
  | none => s
  | some _ =>
    { s with
      sweep := { s.sweep with outstanding := none }
      seqs := s.seqs.map fun q => { q with history := none }
      path := { s.path with expected := [], lostSweeps := satHalf s.path.lostSweeps } }

/-! ### Taking a request (R161 to R165) -/

/-- The answer of a request that is refused or not executed: nothing changes, no payload (R165). -/
def refuse (r : Result) (s : State) : Answer := { state := s, result := r, payload := [] }

/-- The answer OK with no payload. -/
def okay (s : State) : Answer := { state := s, result := .ok, payload := [] }

/-- The answer OK with a payload. -/
def okayWith (p : List Byte) (s : State) : Answer := { state := s, result := .ok, payload := p }

/-- R166: a header addressed to this node makes the return pass of the outstanding sweep carry the response. -/
def noteHeader (v : Via) (s : State) : State :=
  match v with
  | .broadcast => s
  | .addressed =>
    { s with sweep := { s.sweep with
        outstanding := s.sweep.outstanding.map fun o => { o with addressed := true } } }

/-- R160, R162: the header carries a request that is new to this node. -/
def isNew (h : ReqHead) (s : State) : Bool := h.tag != 0 && h.tag != s.mgmt.lastTag

/-- R162, R165: the request is taken: its tag is recorded, and for an addressed request its response stored. -/
def record (h : ReqHead) (code : Byte) (a : Answer) : State :=
  let stored : Response :=
    match h.via with
    | .addressed => { code := code, tag := h.tag, result := a.result, payload := a.payload }
    | .broadcast => a.state.mgmt.stored
  { a.state with mgmt := { lastTag := h.tag, stored := stored } }

/-- R162 to R165: a request of code `k` with `len` payload bytes, meant for this node, as one event at the
management agent. A repeated tag is not executed again; a length the code does not allow is answered LENGTH. -/
def takeRequest (h : ReqHead) (k : ReqCode) (len : Nat) (serve : State → Answer) (s : State) : State :=
  let s := noteHeader h.via s
  if isNew h s then record h k.byte (if k.allows len then serve s else refuse .length s) else s

/-! ### The frame of every command -/

/-- A command taken out of reset: the frames sent before are forgotten, and while RESET_N is low nothing happens (R156, log 10). -/
def live (f : State → State) (s : State) : State :=
  let s := { s with sent := [] }
  if s.pins.inReset then s else f s

/-- A request command: the agent's event, out of reset. -/
def onRequest (h : ReqHead) (k : ReqCode) (len : Nat) (serve : State → Answer) (s : State) :
    Host.Outcome State Fault Refusal :=
  .next (live (takeRequest h k len serve) s)

end Sys2Proof.Machine
end

