-- ==== Sys2Proof/Machine/Resolver.lean ====
section
/-! DEFINITION. Dispatch resolution (04): lookups in the bound bank, a channel's own program, the settlement of a
body for a channel and for a pair, cover moves, departures, and the clearing of lists. -/

namespace Sys2Proof.Machine

/-! ### Lookups (R23, R66) -/

/-- The style record of a style in a bank; none for style 0, which has no record. -/
def styleRec (bk : Bank) (style : BitVec 6) : Option StyleRec :=
  if h : style.toNat = 0 then none
  else some (bk[style.toNat - 1]'(by have := style.isLt; omega))

/-- The style is enabled in the bank named (R10, R23). -/
def styleEnabled (b : BankStore) (i : BankIx) (style : BitVec 6) : Bool :=
  match styleRec (b.get i) style with
  | some r => r.enabled
  | none => false

/-- R23: the entry of channel `c` for the body's style in the body's bound bank. -/
def entryFor (s : State) (b : Body) (c : ChanNo) : Entry :=
  match styleRec (s.bank.get b.bank) b.style with
  | some r => r.entries[c.val]
  | none => Entry.reset

/-- The option index selects an option the body carries: index n selects option bit n - 1 (R66). -/
def Entry.selected (e : Entry) (options : BitVec 4) : Bool :=
  e.option.val != 0 && options.getLsbD (e.option.val - 1)

/-- R66: the own program of an entry on a body with these options, its spots and its role. -/
def Entry.ownWork (e : Entry) (options : BitVec 4) : Byte × Byte × WorkRole :=
  if e.selected options && e.variant != 0 then (e.variant, e.variantSpots, .variant)
  else (e.base, e.baseSpots, .own)

/-- R60, R66: the record of channel `c`'s own work on the body; none when the own program is 0. -/
def ownRecord (s : State) (b : Body) (c : ChanNo) : Option Dispatch :=
  let e := entryFor s b c
  let w := e.ownWork b.options
  if w.1 = 0 then none
  else some { body := b.id, tag := b.tag, program := w.1, spots := w.2.1, gun := e.gun, role := w.2.2,
              accounts := chanBit c }

/-- R68, R76: the COVER record by which `c` does its own spots and `x`'s; none when `c`'s backup program is 0. -/
def coverRecord (s : State) (b : Body) (c x : ChanNo) : Option Dispatch :=
  let e := entryFor s b c
  if e.backup = 0 then none
  else some { body := b.id, tag := b.tag, program := e.backup, spots := e.backupSpots, gun := e.gun, role := .cover,
              accounts := chanBit c ||| chanBit x }

/-- The partner of a channel, none for an unpaired one (R48). -/
def partner (s : State) (c : ChanNo) : Option ChanNo :=
  s.pairs.findSome? fun p => if p.1 = c then some p.2 else if p.2 = c then some p.1 else none

/-! ### Settling a body (4.5) -/

/-- A record, if there is one, joins the list of `c`. -/
def giveRecord (c : ChanNo) (r : Option Dispatch) (s : State) : State :=
  match r with
  | some r => insertRecord c r s
  | none => s

/-- R67: a channel resolved alone. -/
def settleAlone (c : ChanNo) (b : Body) (s : State) : State :=
  let own := ownRecord s b c
  if available s c then mark .resolved (chanBit c) b.id (giveRecord c own s)
  else if own.isSome then mark .owed (chanBit c) b.id s
  else mark .resolved (chanBit c) b.id s

/-- The mark of a channel of a pair that receives nothing: owed if its own program is not 0, resolved
otherwise; a channel that is not present gets no mark (R68), also where the other order of R71 owes it through its
partner's COVER record (the model's reading, log 35). -/
def settleIdle (c : ChanNo) (b : Body) (s : State) : State :=
  if present s c then
    if (ownRecord s b c).isSome then mark .owed (chanBit c) b.id s else mark .resolved (chanBit c) b.id s
  else s

/-- R68, second to fourth row: `a` is available and `x` is not. -/
def settleCover (a x : ChanNo) (b : Body) (s : State) : State :=
  match ownRecord s b x, coverRecord s b a x with
  | some _, some cover => mark .resolved (chanBit a ||| chanBit x) b.id (insertRecord a cover s)
  | _, _ => settleIdle x b (mark .resolved (chanBit a) b.id (giveRecord a (ownRecord s b a) s))

/-- R68: the two channels of a pair are settled together. -/
def settlePair (a p : ChanNo) (b : Body) (s : State) : State :=
  match available s a, available s p with
  | true, true =>
    mark .resolved (chanBit a ||| chanBit p) b.id
      (giveRecord p (ownRecord s b p) (giveRecord a (ownRecord s b a) s))
  | true, false => settleCover a p b s
  | false, true => settleCover p a b s
  | false, false => settleIdle p b (settleIdle a b s)

/-- R65: bodies that receive no work. -/
def Body.passedOver (b : Body) : Bool := b.empty || b.unresolved || b.uncertain

/-- R63 to R69: the body at station `k`, if there is one, is settled for the present channel `c`: not when
it is passed over or already resolved for `c`; alone when `c` has no partner or the partner is already
resolved for it; with the partner otherwise. R69 makes no COVER record for a `c` whose partner an image's owed bit has
resolved: a loss of `c` before the arrival owes it, where the other order of R71 moves its work to the partner by R76
(the model's reading, log 35). -/
def settle (c : ChanNo) (k : Nat) (s : State) : State :=
  match bodyAt s k with
  | none => s
  | some b =>
    if b.passedOver || inMask b.resolved c then s
    else
      match partner s c with
      | none => settleAlone c b s
      | some p => if inMask b.resolved p then settleAlone c b s else settlePair c p b s

/-- Settles, for every station and every present channel whose record `sel` picks at that station, the body there. -/
def resolveWhere (sel : ChanRec → Nat → Bool) (s : State) : State :=
  (List.range s.node.stations).foldl
    (fun s k => allChannels.foldl
      (fun s c => if sel (chanRec s c) k && present s c then settle c k s else s) s) s

/-- R63: the arrivals of a transfer, taken in RUN and HELD: station `k` is the channel's pre-select point. -/
def takeArrivals (s : State) : State :=
  if s.node.state = .run ∨ s.node.state = .held then resolveWhere (fun r k => r.preselect == k) s else s

/-- R64: the catch-up resolution: station `k` lies in the channel's window (R47). -/
def catchUp (s : State) : State := resolveWhere (fun r k => r.preselect ≤ k && k ≤ r.station) s

/-! ### Cover moves (4.7) -/

/-- The sequencer of `p` holds a RUNNING job whose record is for body `id` (R76 case 3). -/
def runningOn (s : State) (p : ChanNo) (id : Nat) : Bool := (seqOf s p).headJob id == some .running

/-- R76: the work of record `r` that leaves channel `x` goes to `x`'s partner as a COVER record, or is owed. In three
corners this leaves other bits than the loss taken before the arrival does, against R71. With a COVER record for the
work of an absent partner, or of an unavailable one by an `x` without work of its own, both channels are owed here. With
a partner resolved by an image's owed bit, a COVER record joins the partner's list here, and R69 owes `x` in the other
order. The model's reading is that R68, R69 and R76 stand before R71's equality there (log 35); outside the corners
the two orders leave the same state (Laws/Orders.lean). -/
def placeWork (x : ChanNo) (r : Dispatch) (s : State) : State :=
  match bodyOf s r.body, partner s x with
  | some b, some p =>
    if !available s p then mark .owed r.accounts r.body s
    else
      match coverRecord s b p x with
      | none => mark .owed r.accounts r.body s
      | some cover =>
        if runningOn s p r.body || inMask b.done p then mark .owed r.accounts r.body s
        else if (seqOf s p).holds r.body then replaceRecord p cover s
        else insertRecord p cover s
  | _, _ => mark .owed r.accounts r.body s

/-- R76 for each of several records. -/
def placeAll (x : ChanNo) (rs : List Dispatch) (s : State) : State := rs.foldl (fun s r => placeWork x r s) s

/-- R72 to R75: a loss of service for channel `x`. Pending records move; a SELECTING or LOADED job is withdrawn
and its record moves; a RUNNING one stays under an ORDERLY loss and ends owed under a FAILED one; an
orphan ends under a FAILED loss; a maintenance job is not touched. -/
def loseService (x : ChanNo) (kind : Loss) (s : State) : State :=
  let q := seqOf s x
  match q.job, q.list, kind with
  | some (.body .running _), r :: rest, .orderly => placeAll x rest (setSeq x { q with list := [r] } s)
  | some (.body .running _), r :: rest, .failed =>
    placeAll x rest (mark .owed r.accounts r.body (setSeq x { q.withdraw with list := [] } s))
  | some (.body _ _), l, _ => placeAll x l (setSeq x { q.withdraw with list := [] } s)
  | some (.orphan _ _ _ _), l, .failed => placeAll x l (setSeq x { q.withdraw with list := [] } s)
  | _, l, _ => placeAll x l (setSeq x { q with list := [] } s)

/-! ### Departures, STOP and suspension (4.8, 4.10) -/

/-- The records are marked owed with the channels they account for. -/
def oweAll (rs : List Dispatch) (s : State) : State := rs.foldl (fun s r => mark .owed r.accounts r.body s) s

/-- R78: channel `c` takes the departure of body `id`: its record leaves the list with its channels owed; a
SELECTING or LOADED job on it is withdrawn and a RUNNING one becomes an orphan. -/
def depart (c : ChanNo) (id : Nat) (s : State) : State :=
  let q := seqOf s c
  let gone := q.list.filter fun r => r.body == id
  let keep := q.list.filter fun r => r.body != id
  let q' : Seq :=
    match q.headJob id, q.list with
    | some .running, r :: _ => { q.toOrphan r with list := keep }
    | some _, _ => { q.withdraw with list := keep }
    | none, _ => { q with list := keep }
  oweAll gone (setSeq c q' s)

/-- R11, R78: every body's departure from its station is taken by every channel there. -/
def takeDepartures (s : State) : State :=
  allChannels.foldl
    (fun s c =>
      match bodyAt s (chanRec s c).station with
      | some b => depart c b.id s
      | none => s) s

/-- R82: STOP settles every channel's list with owed marks. -/
def stopLists (s : State) : State :=
  allChannels.foldl (fun s c => oweAll (seqOf s c).list (setSeq c (seqOf s c).cleared s)) s

/-- R83: the entry to SUSPENDED clears every list without marks. -/
def clearLists (s : State) : State := { s with seqs := s.seqs.map Seq.cleared }

end Sys2Proof.Machine
end

