-- ==== Sys2Proof/Machine/Wear.lean ====
section
/-! DEFINITION. The channel roster's verdicts (3.5) and the wear unit (06): failures, overdue, weld counts, the boost,
the maintenance offer, and the wear requests. -/

namespace Sys2Proof.Machine

/-! ### Availability factors (R51 to R54) -/

/-- A channel record is replaced by one with a factor changed; a channel that turns from available to
unavailable hands an ORDERLY loss (R54), one that turns available hands nothing (R55). -/
def changeFactor (c : ChanNo) (r : ChanRec) (s : State) : State :=
  let s' := setChan c r s
  if available s c && !available s' c then loseService c .orderly s' else s'

/-- The roster's part of a failure (R51, R54): the first cause stands; setting it hands a FAILED loss. -/
def takeFailure (c : ChanNo) (cause : Cause) (s : State) : State :=
  let s := setAlarm .channelFailed s
  match (chanRec s c).failed with
  | some _ => s
  | none => loseService c .failed (setChan c { chanRec s c with failed := some cause } s)

/-- R104: the sequencer ends its own maintenance job at a failure. -/
def endMaintenance (c : ChanNo) (s : State) : State :=
  match (seqOf s c).job with
  | some (.maint _ _ _ _ _) => setSeq c (seqOf s c).withdraw s
  | _ => s

/-- R104: a failure reported by the sequencer of `c`. When its phase becomes IDLE, the watch count and the
reply-loss count are set to 0. -/
def reportFailure (c : ChanNo) (cause : Cause) (s : State) : State :=
  let busy := (seqOf s c).job.isSome
  let s := endMaintenance c (takeFailure c cause s)
  if busy && (seqOf s c).job.isNone then setSeq c { seqOf s c with watchCount := 0, lossCount := 0 } s else s

/-! ### Due and overdue (R120, R121) -/

/-- R112: gun 1 is counted always, gun 2 while the gun count is 2. -/
def ChanRec.counts (r : ChanRec) : Gun → Bool
  | .gun1 => true
  | .gun2 => r.twoGuns

/-- R121: the channel's overdue value is reported to the roster when it differs from the one last reported. -/
def reportOverdue (c : ChanNo) (s : State) : State :=
  let r := chanRec s c
  let v := (wearOf s c).overdue r.twoGuns
  if v = r.overdue then s else changeFactor c { r with overdue := v } s

/-- A gun's record is replaced and its flags evaluated, with the report of R121, in one event (R120). -/
def setGunRec (c : ChanNo) (g : Gun) (rec : GunRec) (s : State) : State :=
  reportOverdue c (setWear c ((wearOf s c).put g (rec.evaluated ((chanRec s c).counts g))) s)

/-- R44, R120: both guns are evaluated again after a change of the gun count. -/
def evaluateGuns (c : ChanNo) (s : State) : State :=
  let w := wearOf s c
  reportOverdue c
    (setWear c { gun1 := w.gun1.evaluated true, gun2 := w.gun2.evaluated (chanRec s c).twoGuns } s)

/-! ### Weld counting and maintenance completion (R113, R124) -/

/-- R113: spots are added to the gun's weld count, saturating at 65535. -/
def addSpots (c : ChanNo) (g : Gun) (spots : Byte) (s : State) : State :=
  let r := (wearOf s c).get g
  setGunRec c g { r with weld := BitVec.ofNat 16 (min 65535 (r.weld.toNat + spots.toNat)) } s

/-- R124: a maintenance completion resets the gun's counts by the job's kind. -/
def completeMaint (c : ChanNo) (g : Gun) (kind : Maint) (s : State) : State :=
  let r := (wearOf s c).get g
  let dresses := match kind with
    | .dress => satByte r.dresses
    | .cap => 0
  setGunRec c g { r with weld := 0, dresses := dresses } s

/-! ### The boost (R118) -/

/-- One segment of a curve: from (c0, b0) to (c1, b1), the quotient truncated. -/
def segment (c0 b0 c1 b1 w : Nat) : Nat := b0 + (b1 - b0) * (w - c0) / (c1 - c0)

/-- R118: the boost for weld count `w` on a curve. -/
def Curve.boost (k : Curve) (w : Half) : Byte :=
  let n := w.toNat
  let raw :=
    if n < k.c1.toNat then segment 0 0 k.c1.toNat k.b1.toNat n
    else if n < k.c2.toNat then segment k.c1.toNat k.b1.toNat k.c2.toNat k.b2.toNat n
    else if n < k.c3.toNat then segment k.c2.toNat k.b2.toNat k.c3.toNat k.b3.toNat n
    else if n < k.c4.toNat then segment k.c3.toNat k.b3.toNat k.c4.toNat k.b4.toNat n
    else k.b4.toNat
  byteOf (min 250 raw)

/-- R119: the boost a BODY selection on this gun would carry now. -/
def boostFor (s : State) (c : ChanNo) (g : Gun) : Byte :=
  let r := (wearOf s c).get g
  s.curves[r.curve.val].boost r.weld

/-! ### The maintenance offer (R123) -/

/-- R123: the kind and program the record would be offered if it were due. -/
def GunRec.offer (g : GunRec) : Maint × Byte :=
  if g.capLimit != 0 && g.capLimit.toNat ≤ g.dresses.toNat && g.capProgram != 0 then (.cap, g.capProgram)
  else (.dress, g.dressProgram)

/-! ### Wear requests (6.7) -/

/-- R115: what a stored curve satisfies. -/
def Curve.valid (k : Curve) : Bool :=
  1 ≤ k.c1.toNat && k.c1.toNat < k.c2.toNat && k.c2.toNat < k.c3.toNat && k.c3.toNat < k.c4.toNat &&
  k.b1.toNat ≤ k.b2.toNat && k.b2.toNat ≤ k.b3.toNat && k.b3.toNat ≤ k.b4.toNat && k.b4.toNat ≤ 250

/-- A boost above 250 is clamped to 250 (R116). -/
def clampBoost (b : Byte) : Byte := if 250 < b.toNat then 250 else b

/-- The curve of a WRITE CURVE, its boosts clamped. -/
def clampedCurve (c1 c2 c3 c4 : Half) (b1 b2 b3 b4 : Byte) : Curve :=
  { c1 := c1, c2 := c2, c3 := c3, c4 := c4, b1 := clampBoost b1, b2 := clampBoost b2, b3 := clampBoost b3,
    b4 := clampBoost b4 }

/-- The curve index a byte names, none above 3. -/
def curveOf (b : Byte) : Option (Fin 4) := if h : b.toNat < 4 then some ⟨b.toNat, h⟩ else none

/-- R116: WRITE CURVE. -/
def serveWriteCurve (index : Byte) (k : Curve) (s : State) : Answer :=
  match curveOf index with
  | none => refuse .range s
  | some i => if k.valid then okay { s with curves := s.curves.set i.val k } else refuse .range s

/-- A curve as the twelve payload bytes of READ CURVE. -/
def curveBytes (k : Curve) : List Byte :=
  halfBytes k.c1 ++ halfBytes k.c2 ++ halfBytes k.c3 ++ halfBytes k.c4 ++ [k.b1, k.b2, k.b3, k.b4]

/-- R117: READ CURVE. -/
def serveReadCurve (index : Byte) (s : State) : Answer :=
  match curveOf index with
  | none => refuse .range s
  | some i => okayWith (curveBytes s.curves[i.val]) s

/-- A grace above 4095 is clamped to 4095 (R126). -/
def clampGrace (g : Half) : Half := if 4095 < g.toNat then 4095 else g

/-- R126: WRITE GUN. -/
def serveWriteGun (channel gun curve : Byte) (threshold grace : Half) (capLimit dressProgram capProgram : Byte)
    (s : State) : Answer :=
  match chanOf channel, gunOf gun.toNat, curveOf curve with
  | some c, some g, some k =>
    okay (setGunRec c g
      { (wearOf s c).get g with
        curve := k, threshold := threshold, grace := clampGrace grace, capLimit := capLimit,
        dressProgram := dressProgram, capProgram := capProgram } s)
  | _, _, _ => refuse .range s

/-- R127: WRITE WEAR. -/
def serveWriteWear (channel gun : Byte) (weld : Half) (dresses : Byte) (s : State) : Answer :=
  match chanOf channel, gunOf gun.toNat with
  | some c, some g => okay (setGunRec c g { (wearOf s c).get g with weld := weld, dresses := dresses } s)
  | _, _ => refuse .range s

/-- Whether the offer is a cap change, bit 2 of READ WEAR's byte 12. -/
def Maint.isCap : Maint → Bool
  | .dress => false
  | .cap => true

/-- The fourteen payload bytes of READ WEAR (12.3). -/
def wearBytes (r : GunRec) (boost : Byte) : List Byte :=
  halfBytes r.weld ++ [r.dresses, byteOf r.curve.val] ++ halfBytes r.threshold ++ halfBytes r.grace ++
  [r.capLimit, r.dressProgram, r.capProgram,
   flagAt 0 r.due ||| flagAt 1 r.overdue ||| flagAt 2 r.offer.1.isCap, r.offer.2, boost]

/-- R128: READ WEAR. -/
def serveReadWear (channel gun : Byte) (s : State) : Answer :=
  match chanOf channel, gunOf gun.toNat with
  | some c, some g => okayWith (wearBytes ((wearOf s c).get g) (boostFor s c g)) s
  | _, _ => refuse .range s

/-! ### The meanings -/

/-- WRITE_CURVE (R116). -/
def execWriteCurve (h : ReqHead) (index : Byte) (c1 c2 c3 c4 : Half) (b1 b2 b3 b4 : Byte) (s : State) :
    Host.Outcome State Fault Refusal :=
  onRequest h .writeCurve 13 (serveWriteCurve index (clampedCurve c1 c2 c3 c4 b1 b2 b3 b4)) s

/-- READ_CURVE (R117). -/
def execReadCurve (h : ReqHead) (index : Byte) (s : State) : Host.Outcome State Fault Refusal :=
  onRequest h .readCurve 1 (serveReadCurve index) s

/-- WRITE_GUN (R126). -/
def execWriteGun (h : ReqHead) (channel gun curve : Byte) (threshold grace : Half)
    (capLimit dressProgram capProgram : Byte) (s : State) : Host.Outcome State Fault Refusal :=
  onRequest h .writeGun 10 (serveWriteGun channel gun curve threshold grace capLimit dressProgram capProgram) s

/-- WRITE_WEAR (R127). -/
def execWriteWear (h : ReqHead) (channel gun : Byte) (weld : Half) (dresses : Byte) (s : State) :
    Host.Outcome State Fault Refusal :=
  onRequest h .writeWear 5 (serveWriteWear channel gun weld dresses) s

/-- READ_WEAR (R128). -/
def execReadWear (h : ReqHead) (channel gun : Byte) (s : State) : Host.Outcome State Fault Refusal :=
  onRequest h .readWear 2 (serveReadWear channel gun) s

end Sys2Proof.Machine
end

