-- ==== Sys2Proof/Machine/Handshake.lean ====
section
/-! DEFINITION. The channel sequencers (05): the selection opportunity, the command written, replies and their
stability, what a stable reply does in each phase, completion, and the two counts with their limits. -/

namespace Sys2Proof.Machine

/-! ### The job of a sequencer -/

/-- The phase of a job; an orphan is RUNNING (R79). -/
def Job.phase : Job → JobPhase
  | .body ph _ => ph
  | .orphan _ _ _ _ => .running
  | .maint ph _ _ _ _ => ph

/-- The selection number a job was started with (R91). -/
def Job.sel : Job → BitVec 4
  | .body _ n => n
  | .orphan _ _ _ n => n
  | .maint _ _ _ _ n => n

/-- A job moved to a phase; an orphan stays as it is. -/
def Job.toPhase (ph : JobPhase) : Job → Job
  | .body _ n => .body ph n
  | .orphan p g t n => .orphan p g t n
  | .maint _ k g p n => .maint ph k g p n

/-- The sequencer's job is SELECTING. -/
def Seq.selecting (q : Seq) : Bool :=
  match q.job with
  | some j => j.phase == .selecting
  | none => false

/-- The job of channel `c` moves to a phase. -/
def movePhase (c : ChanNo) (ph : JobPhase) (s : State) : State :=
  setSeq c { seqOf s c with job := (seqOf s c).job.map (Job.toPhase ph) } s

/-- The job of channel `c` is over; the command stays as it stands (R86). -/
def endJob (c : ChanNo) (s : State) : State := setSeq c { seqOf s c with job := none } s

/-- The head record's body stands at the channel's station (R97, R98). -/
def headAtStation (s : State) (c : ChanNo) : Bool :=
  match (seqOf s c).list with
  | r :: _ => stationOf s r.body == some (chanRec s c).station
  | [] => false

/-! ### Starting a selection (R93, R94) -/

/-- R93: the list is empty or the head record's body stands upstream of the channel's station. -/
def headUpstream (s : State) (c : ChanNo) : Bool :=
  match (seqOf s c).list with
  | [] => true
  | r :: _ =>
    match stationOf s r.body with
    | some k => k < (chanRec s c).station
    | none => false

/-- R93, R123: gun 1 before gun 2, counted and due, with a program that is not 0. -/
def dueOffer (s : State) (c : ChanNo) : Option (Gun × Maint × Byte) :=
  let w := wearOf s c
  if w.gun1.due && w.gun1.offer.2 != 0 then some (.gun1, w.gun1.offer)
  else if (chanRec s c).twoGuns && w.gun2.due && w.gun2.offer.2 != 0 then some (.gun2, w.gun2.offer)
  else none

/-- R93 step 1: the maintenance job that starts at an opportunity, if one does. -/
def maintChoice (s : State) (c : ChanNo) : Option (Gun × Maint × Byte) :=
  if (chanRec s c).failed.isNone && !(chanRec s c).out && headUpstream s c then dueOffer s c else none

/-- The kind field of a maintenance job's command (R94). -/
def Maint.kind : Maint → Kind
  | .dress => .dress
  | .cap => .cap

/-- R94: a job starts: its command is in force, the watch count is 0, the phase SELECTING. -/
def startJob (c : ChanNo) (j : Job) (k : Command) (s : State) : State :=
  setSeq c { seqOf s c with job := some j, cmd := k, watchCount := 0 } s

/-- R94: a maintenance job starts on a gun of channel `c`. -/
def startMaint (c : ChanNo) (g : Gun) (kind : Maint) (program : Byte) (s : State) : State :=
  let n := nextSel (seqOf s c).cmd.sel
  startJob c (.maint .selecting kind g program n)
    { program := program, sel := n, kind := kind.kind, gun := g, boost := 0, spots := 0, tag := 0, cover := false } s

/-- R94, R119: a BODY job starts on record `r`, its boost computed at this moment. -/
def startBody (c : ChanNo) (r : Dispatch) (s : State) : State :=
  let n := nextSel (seqOf s c).cmd.sel
  startJob c (.body .selecting n)
    { program := r.program, sel := n, kind := .body, gun := r.gun, boost := boostFor s c r.gun, spots := r.spots,
      tag := r.tag, cover := r.role == .cover } s

/-- R93: the selection opportunity of channel `c` on a processed outbound pass: taken in RUN by a present
channel in phase IDLE; a maintenance job, else a BODY job on the head record when the channel is available. -/
def opportunity (c : ChanNo) (s : State) : State :=
  if s.node.state = .run ∧ present s c = true ∧ (seqOf s c).job = none then
    match maintChoice s c with
    | some (g, kind, program) => startMaint c g kind program s
    | none =>
      match (seqOf s c).list with
      | r :: _ => if available s c then startBody c r s else s
      | [] => s
  else s

/-! ### What a stable reply does (5.5 to 5.7) -/

/-- R95: a stable reply in SELECTING. -/
def actSelecting (c : ChanNo) (d : Data7) (st : ReplyState) (s : State) : State :=
  let same := d.b0 == (seqOf s c).cmd.program
  match st with
  | .loaded => if same then movePhase c .loaded s else reportFailure c (.protocol .program) s
  | .busy | .done => if same then s else reportFailure c (.protocol .program) s
  | .none | .idle | .fault => s

/-- R97: a stable BUSY in LOADED. `placed` says that the position check passes or does not apply. -/
def actBusy (c : ChanNo) (d : Data7) (placed : Bool) (s : State) : State :=
  if d.b0 != (seqOf s c).cmd.program then reportFailure c (.protocol .program) s
  else if !placed then reportFailure c (.protocol .position) s
  else movePhase c .running s

/-- R81, R99: a completion: the accounted channels are marked done, or owed after a short weld; the record
leaves the list, the phase becomes IDLE, and the spots wear the record's gun. -/
def completeBody (c : ChanNo) (r : Dispatch) (spots : Byte) (s : State) : State :=
  let m : Mark := if r.spots.toNat ≤ spots.toNat then .done else .owed
  let s := mark m r.accounts r.body s
  addSpots c r.gun spots (setSeq c { seqOf s c with list := (seqOf s c).list.tail, job := none } s)

/-- R98: the first failed check of a DONE for a BODY job that is not an orphan, if one fails. -/
def doneCheck (s : State) (c : ChanNo) (r : Dispatch) (d : Data7) : Option Detail :=
  if d.b0 != (seqOf s c).cmd.program then some .program
  else if !headAtStation s c then some .position
  else if d.b5 != loByte r.tag then some .tag
  else if gunEcho d != some r.gun then some .gun
  else none

/-- R98, R104: a check of a DONE has failed. In RUNNING the FAILED loss owes the job's channels (R75). In LOADED it
either does so too, as R98 says, or moves the work, as R104 and R74 say: a free value (log 17). -/
def failDone (c : ChanNo) (detail : Detail) (s : State) : State :=
  if Config.failedDoneOwes s.choice c.val then reportFailure c (.protocol detail) (movePhase c .running s)
  else reportFailure c (.protocol detail) s

/-- R98, R99: a stable DONE for a BODY job in LOADED or RUNNING. -/
def actDoneBody (c : ChanNo) (d : Data7) (s : State) : State :=
  match (seqOf s c).list with
  | [] => s
  | r :: _ =>
    match doneCheck s c r d with
    | some detail => failDone c detail s
    | none => completeBody c r d.b2 s

/-- R100: a stable DONE for a maintenance job in LOADED or RUNNING. -/
def actDoneMaint (c : ChanNo) (g : Gun) (kind : Maint) (d : Data7) (s : State) : State :=
  if d.b0 != (seqOf s c).cmd.program then reportFailure c (.protocol .program) s
  else completeMaint c g kind (endJob c s)

/-- R97, R100: a stable BUSY in LOADED; in RUNNING it changes nothing. -/
def actBusyJob (c : ChanNo) (d : Data7) (s : State) : Job → State
  | .body .loaded _ => actBusy c d (headAtStation s c) s
  | .maint .loaded _ _ _ _ => actBusy c d true s
  | _ => s

/-- R98 to R101: a stable DONE in LOADED or RUNNING. -/
def actDoneJob (c : ChanNo) (d : Data7) (s : State) : Job → State
  | .body _ _ => actDoneBody c d s
  | .maint _ kind g _ _ => actDoneMaint c g kind d s
  | .orphan _ g _ _ => addSpots c g d.b2 (endJob c s)

/-- R95 to R102: a stable reply that echoes the current job's selection number. -/
def actMatching (c : ChanNo) (j : Job) (d : Data7) (st : ReplyState) (s : State) : State :=
  if j.phase = .selecting then actSelecting c d st s
  else
    match st with
    | .busy => actBusyJob c d s j
    | .done => actDoneJob c d s j
    | .none | .idle | .loaded | .fault => s

/-- R89, R103: a reply that has become stable is acted on once. -/
def actOn (c : ChanNo) (d : Data7) (s : State) : State :=
  match replyState d with
  | none => s
  | some .none => s
  | some .fault => reportFailure c (.robotFault d.b4) s
  | some st =>
    match (seqOf s c).job with
    | some j => if selEcho d = j.sel then actMatching c j d st s else s
    | none => s

/-! ### Reading a reply (R87 to R89) -/

/-- R87, R142: the slot received, if any, is judged: the valid reply, and the error it logs if it is not valid. -/
def judgeReply (sweep : Half) (got : Option (Nat × Slot)) (s : State) : Option Data7 × State :=
  match got with
  | none => (none, s)
  | some (n, sl) =>
    if sl.ok then
      match replyState sl.data with
      | some _ => (some sl.data, s)
      | none => (none, logError { kind := .invalidState, sweep := sweep, slot := n, pass := .back, raw := sl } s)
    else (none, logError { kind := .slotCheck, sweep := sweep, slot := n, pass := .back, raw := sl } s)

/-- R88: the reply is a stable candidate: valid, the same as the history's, and one sweep number on. -/
def isCandidate (h : Option History) (sweep : Half) (d : Data7) : Bool :=
  match h with
  | some h => h.reply == some d && sweep == h.sweep + 1
  | none => false

/-- R88, R89: the pass's reply enters the history; a candidate that differs from the stable reply becomes it
and is acted on. -/
def takeReply (c : ChanNo) (sweep : Half) (reply : Option Data7) (s : State) : State :=
  let q := seqOf s c
  let q' : Seq := { q with history := some { sweep := sweep, reply := reply } }
  match reply with
  | some d =>
    if isCandidate q.history sweep d && q.stable != some d then actOn c d (setSeq c { q' with stable := some d } s)
    else setSeq c q' s
  | none => setSeq c q' s

/-! ### The two counts (R90, R96) -/

/-- The reply-loss limit (R90). -/
def replyLossMax : Nat := 8

/-- R90: the count has reached the limit: a REPLY_LOST failure is reported and the count set to 0. -/
def replyLost (c : ChanNo) (s : State) : State :=
  let s := reportFailure c .replyLost s
  setSeq c { seqOf s c with lossCount := 0 } s

/-- The channel is heard: a valid reply in a state other than NONE. -/
def heard (reply : Option Data7) : Bool :=
  match reply with
  | some d => replyState d != some .none
  | none => false

/-- R90: the pass counts toward reply loss. -/
def countLoss (c : ChanNo) (reply : Option Data7) (s : State) : State :=
  let q := seqOf s c
  if heard reply then setSeq c { q with lossCount := 0 } s
  else if s.node.state = .run ∨ s.node.state = .held then
    if replyLossMax ≤ q.lossCount + 1 then replyLost c s else setSeq c { q with lossCount := q.lossCount + 1 } s
  else s

/-- R96: the pass counts toward the select watch of a SELECTING job, in RUN. -/
def countWatch (c : ChanNo) (s : State) : State :=
  let q := seqOf s c
  if s.node.state = .run ∧ q.selecting = true then
    let s := setSeq c { q with watchCount := q.watchCount + 1 } s
    if (chanRec s c).selectWatch.toNat ≤ q.watchCount + 1 then reportFailure c .selectTimeout s else s
  else s

/-- R87 to R90, R96: the REPLY slot of channel `c` on a processed return pass. The spec gives no order to
the two counts of one pass, so `lossFirst` is read from the free order (log 4). -/
def replyEvent (lossFirst : Bool) (c : ChanNo) (sweep : Half) (got : Option (Nat × Slot)) (s : State) : State :=
  let j := judgeReply sweep got s
  let s := takeReply c sweep j.1 j.2
  if lossFirst then countWatch c (countLoss c j.1 s) else countLoss c j.1 (countWatch c s)

/-! ### The meanings -/

/-- REPLY_LOSS_LIMIT (R90): the reply-loss count of channel `c` stands at its limit. A return pass takes this
event inside itself (R180, log 13); below the limit there is no event (log 12). -/
def execReplyLossLimit (c : ChanNo) (s : State) : Host.Outcome State Fault Refusal :=
  .next (live (fun s => if replyLossMax ≤ (seqOf s c).lossCount then replyLost c s else s) s)

/-- SELECT_TIMEOUT (R96): the watch count of a SELECTING job stands at the channel's select watch, in RUN. A
return pass takes this event inside itself (log 13); otherwise there is no event (log 12). -/
def execSelectTimeout (c : ChanNo) (s : State) : Host.Outcome State Fault Refusal :=
  .next (live (fun s =>
    if s.node.state = .run ∧ (seqOf s c).selecting = true ∧
        (chanRec s c).selectWatch.toNat ≤ (seqOf s c).watchCount
    then reportFailure c .selectTimeout s else s) s)

end Sys2Proof.Machine
end

