-- ==== Sys2Proof/Machine/Track.lean ====
section
/-! DEFINITION. The tracking unit (01): the LINE slot, baselines, announcements, transfers, admission, exit outcomes,
loss of tracking, and the retrack requests. -/

namespace Sys2Proof.Machine

/-! ### Exits (R13, R14, R176) -/

/-- R13: the channels accounted for by a dispatch record that some sequencer still holds for body `id`. -/
def heldAccounts (s : State) (id : Nat) : Mask :=
  allChannels.foldl
    (fun m c => (seqOf s c).list.foldl (fun m r => if r.body = id then m ||| r.accounts else m) m) 0

/-- R13: the exit owed mask. -/
def exitOwed (s : State) (b : Body) : Mask := b.owed ||| heldAccounts s b.id

/-- R13: the first outcome whose condition holds. -/
def exitOutcome (s : State) (b : Body) : Outcome :=
  if b.empty then .empty
  else if b.unresolved then .unresolved
  else if allChannels.any (fun c => present s c && !inMask b.resolved c) then .undispatched
  else if exitOwed s b != 0 then .incomplete
  else .complete

/-- The outcomes that set EXIT_FAULT (R14). -/
def Outcome.isFault : Outcome → Bool
  | .unresolved | .undispatched | .incomplete => true
  | .complete | .empty => false

/-- R14, R176: an exit is reported: the held report is replaced, the count advances, EXIT_FAULT for a fault outcome. -/
def reportExit (tag : Half) (o : Outcome) (owed : Mask) (s : State) : State :=
  let s := { s with report := { s.report with
    exit := { tag := tag, outcome := o, owed := owed }, exitCount := s.report.exitCount + 1 } }
  if o.isFault then setAlarm .exitFault s else s

/-- R8 step 1: the body at station S - 1, if there is one, exits. -/
def takeExit (s : State) : State :=
  match bodyAt s (s.node.stations - 1) with
  | some b => reportExit b.tag (exitOutcome s b) (exitOwed s b) s
  | none => s

/-! ### Admission (R9, R10, R31) -/

/-- R31: an armed flip is taken: the live index takes the other value and the flag clears. -/
def takeFlip (s : State) : State :=
  if s.bank.armed then { s with bank := { s.bank with live := s.bank.live.other, armed := false } } else s

/-- A body record bound to the live bank (R10, R18): EMPTY for style 0, UNRESOLVED if it is not EMPTY and its
style is disabled there. -/
def boundBody (bank : BankStore) (id : Nat) (tag : Half) (style : BitVec 6) (options : BitVec 4) (done owed : Mask) :
    Body :=
  { id := id, tag := tag, style := style, options := options, bank := bank.live, empty := style == 0,
    unresolved := style != 0 && !styleEnabled bank bank.live style, uncertain := false,
    resolved := done ||| owed, done := done, owed := owed }

/-- R9: the announcement that the next admission takes: the head of the queue, or a gap's tag 0, style 0, no options. -/
def nextAnnounced (t : Tracking) : Announcement :=
  t.announced.headD { tag := 0, style := 0, options := 0 }

/-- R8 steps 2 and 3, R9, R10: every position moves one station downstream and station 0 receives the new
record, bound to the live bank. -/
def admitNext (s : State) : State :=
  let t := s.track
  let a := nextAnnounced t
  let b := boundBody s.bank t.nextId a.tag a.style a.options 0 0
  { s with track := { t with
      announced := t.announced.tail
      queue := some b :: t.queue.dropLast
      nextId := t.nextId + 1 } }

/-- R8, R11, R31: one transfer: the exit, the departures, the flip, the movement with the admission, the arrivals. -/
def transfer (s : State) : State := takeArrivals (admitNext (takeFlip (takeDepartures (takeExit s))))

/-! ### Loss of tracking (R15, R152) -/

/-- R15, R152: tracking becomes uncertain: every record is marked, TRACK_LOST set; in RUN or HELD the node
moves to SUSPENDED and every list is cleared without marks (R83). -/
def becomeUncertain (s : State) : State :=
  let s := { s with track := { s.track with
    uncertain := true
    queue := s.track.queue.map fun p => p.map fun b => { b with uncertain := true } } }
  let s := setAlarm .trackLost s
  if s.node.state = .run ∨ s.node.state = .held then
    clearLists { s with node := { s.node with state := .suspended } }
  else s

/-! ### The LINE slot (R1 to R5) -/

/-- R4: a changed announcement sequence offers a new announcement, lost with OVERFLOW when four are queued. -/
def takeAnnouncement (old : Baseline) (d : Data7) (s : State) : State :=
  if (lineBaseline d).sequence = old.sequence then s
  else if s.track.announced.length < 4 then
    { s with track := { s.track with announced := s.track.announced ++ [lineAnnouncement d] } }
  else setAlarm .overflow s

/-- R3: the transfer difference, modulo 256. -/
def takeDifference (old : Baseline) (d : Data7) (s : State) : State :=
  let diff := (lineBaseline d).transfer - old.transfer
  if diff = 0 then s
  else if diff = 1 then (if s.track.uncertain then s else transfer s)
  else if s.track.uncertain then setAlarm .trackLost s
  else becomeUncertain s

/-- The baselines take the slot's values (R2 to R4). -/
def setBaseline (d : Data7) (s : State) : State :=
  { s with track := { s.track with baseline := some (lineBaseline d) } }

/-- R2 to R5: an accepted LINE slot. The first one captures the baselines; a later one is an announcement
first and a transfer second. -/
def takeLine (d : Data7) (s : State) : State :=
  match s.track.baseline with
  | none => setBaseline d s
  | some old => setBaseline d (takeDifference old d (takeAnnouncement old d s))

/-! ### Retrack requests (R17 to R19) -/

/-- The node state accepts the retrack requests: CONFIG and SUSPENDED. -/
def retrackOpen (s : State) : Bool := s.node.state == .config || s.node.state == .suspended

/-- The retrack records of a request with their stations; none when any is out of range (R17). -/
def retracksOf (stations : Nat) : List RawRetrack → Option (List (Nat × Retrack))
  | [] => some []
  | r :: rs =>
    match retrackOf r, retracksOf stations rs with
    | some x, some xs => if r.station.toNat < stations then some ((r.station.toNat, x) :: xs) else none
    | _, _ => none

/-- R17: RETRACK LOAD. -/
def serveRetrackLoad (rs : List RawRetrack) (s : State) : Answer :=
  if !retrackOpen s then refuse .state s
  else
    match retracksOf s.node.stations rs with
    | none => refuse .range s
    | some xs =>
      if (xs.map Prod.fst).Nodup then
        okay { s with track := { s.track with
          image := xs.foldl (fun im x => im.set x.1 (some x.2)) s.track.image } }
      else refuse .conflict s

/-- R18: the record a position of the image gives; a gap where nothing is loaded. -/
def retrackBody (bank : BankStore) (id : Nat) : Option Retrack → Body
  | some r => boundBody bank id r.tag r.style r.options r.done r.owed
  | none => boundBody bank id 0 0 0 0 0

/-- R18: the records of a whole image, named from `id` on. -/
def retrackBodies (bank : BankStore) : Nat → List (Option Retrack) → List (Option Body)
  | _, [] => []
  | id, p :: ps => some (retrackBody bank id p) :: retrackBodies bank (id + 1) ps

/-- R18, R19: the image replaces the queue; the announcement queue and the image are emptied and the
uncertain flag cleared. The baselines stay, and an armed flip waits. -/
def applyImage (s : State) : State :=
  let t := s.track
  { s with track := { t with
      announced := []
      queue := retrackBodies s.bank t.nextId t.image
      image := t.image.map fun _ => none
      uncertain := false
      nextId := t.nextId + t.image.length } }

/-- The node state entered by START and by RETRACK APPLY in SUSPENDED: HELD when the latch is set (R147). -/
def enteredState (s : State) : NodeState := if s.node.latch then .held else .run

/-- R18, R19, R153: RETRACK APPLY. In SUSPENDED the node moves to RUN or HELD and the catch-up follows. -/
def serveRetrackApply (s : State) : Answer :=
  if !retrackOpen s then refuse .state s
  else
    let t := applyImage s
    if s.node.state = .suspended then
      okay (catchUp { t with node := { t.node with state := enteredState t } })
    else okay t

/-! ### READ TRACKING (R21) -/

/-- The sixteen payload bytes of a position (12.3). -/
def positionBytes : Option Body → List Byte
  | none => (16 : Byte) :: List.replicate 15 0
  | some b =>
    [b.options.setWidth 8 ||| flagAt 5 b.empty ||| flagAt 6 b.unresolved ||| flagAt 7 b.uncertain,
     b.style.setWidth 8 ||| flagAt 6 b.bank.bit] ++
    halfBytes b.tag ++ maskBytes b.resolved ++ maskBytes b.done ++ maskBytes b.owed

/-- R21: READ TRACKING: up to three positions from the first station on. -/
def serveReadTracking (first : Byte) (s : State) : Answer :=
  if first.toNat < s.node.stations then
    let ps := (s.track.queue.drop first.toNat).take 3
    okayWith ((first ||| (byteOf ps.length <<< 4)) :: ps.flatMap positionBytes) s
  else refuse .range s

/-! ### The meanings -/

/-- READ_TRACKING (R21). -/
def execReadTracking (h : ReqHead) (first : Byte) (s : State) : Host.Outcome State Fault Refusal :=
  onRequest h .readTracking 1 (serveReadTracking first) s

/-- RETRACK_LOAD (R17). -/
def execRetrackLoad (h : ReqHead) (records : List RawRetrack) (s : State) : Host.Outcome State Fault Refusal :=
  onRequest h .retrackLoad (13 * records.length) (serveRetrackLoad records) s

/-- RETRACK_APPLY (R18, R19). -/
def execRetrackApply (h : ReqHead) (s : State) : Host.Outcome State Fault Refusal :=
  onRequest h .retrackApply 0 serveRetrackApply s

end Sys2Proof.Machine
end

