-- ==== Sys2Proof/Machine/Bank.lean ====
section
/-! DEFINITION. The bank store's requests and its copy engine (02): the gate, edits of staging, reads, the commit and
its disarming, the copy with its steps, its completion and its stop. -/

namespace Sys2Proof.Machine

/-! ### The gate (R26) -/

/-- R26: the first failing check of the gate, none where the request passes. -/
def gate (s : State) : Option Result :=
  if s.bank.busy then some .busy
  else if s.bank.armed then some .armed
  else if stagingInUse s then some .inUse
  else none

/-- A request behind the gate. -/
def gated (serve : State → Answer) (s : State) : Answer :=
  match gate s with
  | some r => refuse r s
  | none => serve s

/-! ### Style records -/

/-- The record index of the style a byte names, 1..63. -/
def styleIx (b : Byte) : Option (Fin 63) :=
  if h : 1 ≤ b.toNat ∧ b.toNat ≤ 63 then some ⟨b.toNat - 1, by omega⟩ else none

/-- The entries of a request; none when any has an option index above 4 or a gun other than 1 or 2 (R27). -/
def entriesOf : List RawEntry → Option (List Entry)
  | [] => some []
  | r :: rs =>
    match entryOf r, entriesOf rs with
    | some e, some es => some (e :: es)
    | _, _ => none

/-- Consecutive entries replaced from channel `k` on. -/
def putEntries (v : Vector Entry 32) (k : Nat) : List Entry → Vector Entry 32
  | [] => v
  | e :: es => putEntries (v.setIfInBounds k e) (k + 1) es

/-- One style record of the staging bank is replaced. -/
def putStaging (i : Fin 63) (r : StyleRec) (s : State) : State :=
  let b := s.bank
  { s with bank := b.put b.staging ((b.get b.staging).set i.val r) }

/-- One style record of the staging bank. -/
def stagingRec (i : Fin 63) (s : State) : StyleRec := (s.bank.get s.bank.staging)[i.val]

/-! ### Edits of staging (R27, R28) -/

/-- R27: WRITE ENTRIES behind the gate. -/
def storeEntries (style first : Byte) (raws : List RawEntry) (s : State) : Answer :=
  match styleIx style, entriesOf raws with
  | some i, some es =>
    if first.toNat + es.length ≤ 32 then
      let r := stagingRec i s
      okay (putStaging i { r with entries := putEntries r.entries first.toNat es } s)
    else refuse .range s
  | _, _ => refuse .range s

/-- R26, R27: WRITE ENTRIES. -/
def serveWriteEntries (style first : Byte) (raws : List RawEntry) (s : State) : Answer :=
  gated (storeEntries style first raws) s

/-- R28: ENABLE STYLE behind the gate; the flag is bit 0 of the flag byte alone (R189). -/
def storeEnabled (style flag : Byte) (s : State) : Answer :=
  match styleIx style with
  | some i => okay (putStaging i { stagingRec i s with enabled := flag.getLsbD 0 } s)
  | none => refuse .range s

/-- R26, R28: ENABLE STYLE. -/
def serveEnableStyle (style flag : Byte) (s : State) : Answer := gated (storeEnabled style flag) s

/-! ### Reading a bank (R29) -/

/-- The bank a byte names. -/
def bankIxOf (b : Byte) : Option BankIx :=
  if b = 0 then some .bank0 else if b = 1 then some .bank1 else none

/-- The payload of READ ENTRIES: the enabled flag, then the entries. -/
def entriesPayload (r : StyleRec) (first count : Nat) : List Byte :=
  flagAt 0 r.enabled :: ((r.entries.toList.drop first).take count).flatMap entryBytes

/-- R29: READ ENTRIES. -/
def serveReadEntries (bank style first count : Byte) (s : State) : Answer :=
  match bankIxOf bank, styleIx style with
  | some i, some k =>
    if 1 ≤ count.toNat ∧ count.toNat ≤ 6 ∧ first.toNat + count.toNat ≤ 32 then
      if i = s.bank.staging ∧ s.bank.busy = true then refuse .busy s
      else okayWith (entriesPayload (s.bank.get i)[k.val] first.toNat count.toNat) s
    else refuse .range s
  | _, _ => refuse .range s

/-! ### Commit (R30, R33) -/

/-- R30: COMMIT. -/
def serveCommit (s : State) : Answer :=
  if s.bank.busy then refuse .busy s
  else if s.bank.armed then refuse .armed s
  else if s.bank.torn then refuse .torn s
  else okay { s with bank := { s.bank with armed := true } }

/-- R33: DISARM. -/
def serveDisarm (s : State) : Answer := okay { s with bank := { s.bank with armed := false } }

/-! ### The copy (R34 to R37) -/

/-- R34: COPY BANK behind the gate. -/
def startCopy (s : State) : Answer :=
  { state := { s with bank := { s.bank with copy := .running 1, result := .none } }
    result := .accepted
    payload := [] }

/-- R26, R34: COPY BANK. -/
def serveCopyBank (s : State) : Answer := gated startCopy s

/-- R36, R37: a running copy stops: the engine idles, staging is torn, the result ABORTED. With no copy
running nothing changes. -/
def BankStore.stopCopy (b : BankStore) : BankStore :=
  match b.copy with
  | .running _ => { b with copy := .idle, torn := true, result := .aborted }
  | .idle => b

/-- R36: ABORT. -/
def serveAbort (s : State) : Answer := okay { s with bank := s.bank.stopCopy }

/-- R35: style record `n` goes whole from the live bank into staging and the next style advances. -/
def BankStore.copyStyle (b : BankStore) (n : Nat) (h : n - 1 < 63) : BankStore :=
  { b.put b.staging ((b.get b.staging).set (n - 1) (b.get b.live)[n - 1]) with copy := .running (n + 1) }

/-- R35: one step of a running copy. After style 63 there is no further step, only the completion (log 12). -/
def BankStore.copyStep (b : BankStore) : BankStore :=
  match b.copy with
  | .running n => if h : n - 1 < 63 then b.copyStyle n h else b
  | .idle => b

/-- R35: the completion, once style 63 has been copied; before that there is none (log 12). -/
def BankStore.complete (b : BankStore) : BankStore :=
  match b.copy with
  | .running n => if 63 < n then { b with copy := .idle, torn := false, result := .done } else b
  | .idle => b

/-! ### The meanings -/

/-- WRITE_ENTRIES (R27). -/
def execWriteEntries (h : ReqHead) (style first : Byte) (entries : List RawEntry) (s : State) :
    Host.Outcome State Fault Refusal :=
  onRequest h .writeEntries (2 + 7 * entries.length) (serveWriteEntries style first entries) s

/-- READ_ENTRIES (R29). -/
def execReadEntries (h : ReqHead) (bank style first count : Byte) (s : State) : Host.Outcome State Fault Refusal :=
  onRequest h .readEntries 4 (serveReadEntries bank style first count) s

/-- ENABLE_STYLE (R28). -/
def execEnableStyle (h : ReqHead) (style flag : Byte) (s : State) : Host.Outcome State Fault Refusal :=
  onRequest h .enableStyle 2 (serveEnableStyle style flag) s

/-- COPY_BANK (R34). -/
def execCopyBank (h : ReqHead) (s : State) : Host.Outcome State Fault Refusal :=
  onRequest h .copyBank 0 serveCopyBank s

/-- COMMIT (R30). -/
def execCommit (h : ReqHead) (s : State) : Host.Outcome State Fault Refusal :=
  onRequest h .commit 0 serveCommit s

/-- DISARM (R33). -/
def execDisarm (h : ReqHead) (s : State) : Host.Outcome State Fault Refusal :=
  onRequest h .disarm 0 serveDisarm s

/-- ABORT (R36). -/
def execAbort (h : ReqHead) (s : State) : Host.Outcome State Fault Refusal :=
  onRequest h .abort 0 serveAbort s

/-- COPY_STEP (R35). -/
def execCopyStep (s : State) : Host.Outcome State Fault Refusal :=
  .next (live (fun s => { s with bank := s.bank.copyStep }) s)

/-- COPY_COMPLETION (R35). -/
def execCopyCompletion (s : State) : Host.Outcome State Fault Refusal :=
  .next (live (fun s => { s with bank := s.bank.complete }) s)

end Sys2Proof.Machine
end

