-- ==== Sys2Proof/Machine/Roster.lean ====
section
/-! DEFINITION. The channel roster's requests (03): channel records, pairs, service, and the reading of a channel. -/

namespace Sys2Proof.Machine

/-! ### WRITE CHANNEL (R42 to R44) -/

/-- R42 step 3, R43: the record a WRITE CHANNEL would store over `old`: the lead clamped to the station, a
select watch of 0 taken as 1, the availability factors kept. -/
def channelRecord (old : ChanRec) (station lead : Nat) (twoGuns : Bool) (watch : Byte) : ChanRec :=
  { old with station := station, lead := min lead station, twoGuns := twoGuns,
             selectWatch := if watch = 0 then 1 else watch }

/-- R42 step 4: the channel is paired and the record would separate it from its partner. -/
def separates (s : State) (c : ChanNo) (r : ChanRec) : Bool :=
  match partner s c with
  | some p => (chanRec s p).station != r.station || (chanRec s p).lead != r.lead
  | none => false

/-- R42, R44: the record is stored; a changed gun count is evaluated by the wear unit at once. -/
def storeChannel (c : ChanNo) (r : ChanRec) (s : State) : State :=
  let s' := setChan c r s
  if r.twoGuns = (chanRec s c).twoGuns then s' else evaluateGuns c s'

/-- The four fields of a stored record as the response carries them (R169). -/
def channelBytes (r : ChanRec) : List Byte :=
  [byteOf r.station, byteOf r.lead, if r.twoGuns then 2 else 1, r.selectWatch]

/-- R42: WRITE CHANNEL. -/
def serveWriteChannel (channel station lead gunCount selectWatch : Byte) (s : State) : Answer :=
  if s.node.state ≠ .config then refuse .state s
  else
    match chanOf channel, gunOf gunCount.toNat with
    | some c, some g =>
      if station.toNat < s.node.stations ∧ lead.toNat ≤ 3 then
        let r := channelRecord (chanRec s c) station.toNat lead.toNat (g == .gun2) selectWatch
        if separates s c r then refuse .conflict s
        else okayWith (channelBytes r) (storeChannel c r s)
      else refuse .range s
    | _, _ => refuse .range s

/-! ### READ CHANNEL (R58) -/

/-- The failed-cause byte (12.3). -/
def causeByte : Option Cause → Byte
  | none => 0
  | some .selectTimeout => 1
  | some (.robotFault _) => 2
  | some (.protocol _) => 3
  | some .replyLost => 4

/-- The detail byte of a PROTOCOL failure. -/
def Detail.byte : Detail → Byte
  | .program => 1
  | .position => 2
  | .tag => 3
  | .gun => 4

/-- The fault code or the detail, 0 for the other causes. -/
def causeDetail : Option Cause → Byte
  | some (.robotFault code) => code
  | some (.protocol d) => d.byte
  | none | some .selectTimeout | some .replyLost => 0

/-- The phase code of a job: 0 IDLE, 1 SELECTING, 2 LOADED, 3 RUNNING. -/
def phaseByte : Option Job → Byte
  | none => 0
  | some j =>
    match j.phase with
    | .selecting => 1
    | .loaded => 2
    | .running => 3

/-- The job kind code: 0 none, 1 BODY, 2 DRESS, 3 CAP. -/
def kindByte : Option Job → Byte
  | none => 0
  | some (.body _ _) | some (.orphan _ _ _ _) => 1
  | some (.maint _ .dress _ _ _) => 2
  | some (.maint _ .cap _ _ _) => 3

/-- The partner byte: the partner's number, 0xFF for no partner. -/
def partnerByte : Option ChanNo → Byte
  | some p => byteOf p.val
  | none => 0xFF

/-- The ten payload bytes of READ CHANNEL (12.3). -/
def readChannelBytes (s : State) (c : ChanNo) : List Byte :=
  let r := chanRec s c
  let q := seqOf s c
  channelBytes r ++
  [partnerByte (partner s c),
   flagAt 0 (present s c) ||| flagAt 1 (available s c) ||| flagAt 2 r.out ||| flagAt 3 r.overdue,
   causeByte r.failed, causeDetail r.failed, phaseByte q.job ||| (kindByte q.job <<< 2), byteOf q.list.length]

/-- R58: READ CHANNEL. -/
def serveReadChannel (channel : Byte) (s : State) : Answer :=
  match chanOf channel with
  | some c => okayWith (readChannelBytes s c) s
  | none => refuse .range s

/-! ### Pairs (R48 to R50) -/

/-- The channel belongs to a pair. -/
def paired (s : State) (c : ChanNo) : Bool := (partner s c).isSome

/-- R49: WRITE PAIR. -/
def serveWritePair (channelA channelB : Byte) (s : State) : Answer :=
  if s.node.state ≠ .config then refuse .state s
  else
    match chanOf channelA, chanOf channelB with
    | some a, some b =>
      if a = b then refuse .range s
      else if paired s a || paired s b || (chanRec s a).station != (chanRec s b).station ||
          (chanRec s a).lead != (chanRec s b).lead then refuse .conflict s
      else okay { s with pairs := s.pairs ++ [(a, b)] }
    | _, _ => refuse .range s

/-- R50: CLEAR PAIR. -/
def serveClearPair (channel : Byte) (s : State) : Answer :=
  if s.node.state ≠ .config then refuse .state s
  else
    match chanOf channel with
    | some c => okay { s with pairs := s.pairs.filter fun p => p.1 != c && p.2 != c }
    | none => refuse .range s

/-! ### SET SERVICE (R56, R57) -/

/-- R56: the out-by-command factor is set; a factor already set changes nothing. -/
def setOut (c : ChanNo) (s : State) : State :=
  if (chanRec s c).out then s else changeFactor c { chanRec s c with out := true } s

/-- The stable reply of channel `c` is of state IDLE (R57 step 2). -/
def stableIdle (s : State) (c : ChanNo) : Bool :=
  match (seqOf s c).stable with
  | some d => replyState d == some .idle
  | none => false

/-- R57 steps 2 and 3: SET SERVICE IN for channel `c`. -/
def setIn (c : ChanNo) (s : State) : Answer :=
  if (chanRec s c).failed.isSome && !stableIdle s c then refuse .notReady s
  else okay (setChan c { chanRec s c with failed := none, out := false } s)

/-- R56, R57, R191: SET SERVICE by its action byte: 0 OUT, 1 IN, any other RANGE. -/
def serveSetService (channel action : Byte) (s : State) : Answer :=
  match chanOf channel with
  | none => refuse .range s
  | some c => if action = 0 then okay (setOut c s) else if action = 1 then setIn c s else refuse .range s

/-! ### The meanings -/

/-- WRITE_CHANNEL (R42). -/
def execWriteChannel (h : ReqHead) (channel station lead gunCount selectWatch : Byte) (s : State) :
    Host.Outcome State Fault Refusal :=
  onRequest h .writeChannel 5 (serveWriteChannel channel station lead gunCount selectWatch) s

/-- READ_CHANNEL (R58). -/
def execReadChannel (h : ReqHead) (channel : Byte) (s : State) : Host.Outcome State Fault Refusal :=
  onRequest h .readChannel 1 (serveReadChannel channel) s

/-- WRITE_PAIR (R49). -/
def execWritePair (h : ReqHead) (channelA channelB : Byte) (s : State) : Host.Outcome State Fault Refusal :=
  onRequest h .writePair 2 (serveWritePair channelA channelB) s

/-- CLEAR_PAIR (R50). -/
def execClearPair (h : ReqHead) (channel : Byte) (s : State) : Host.Outcome State Fault Refusal :=
  onRequest h .clearPair 1 (serveClearPair channel) s

/-- SET_SERVICE_OUT (R56): SET SERVICE with its action byte. -/
def execSetServiceOut (h : ReqHead) (channel action : Byte) (s : State) : Host.Outcome State Fault Refusal :=
  onRequest h .setService 2 (serveSetService channel action) s

/-- SET_SERVICE_IN (R57): SET SERVICE with the action IN. -/
def execSetServiceIn (h : ReqHead) (channel : Byte) (s : State) : Host.Outcome State Fault Refusal :=
  onRequest h .setService 2 (serveSetService channel 1) s

end Sys2Proof.Machine
end

