-- ==== Sys2Proof/Machine/Report.lean ====
section
/-! DEFINITION. The report unit (10): the STATUS and EXIT slots, CLEAR ALARMS, and the fault log's requests. -/

namespace Sys2Proof.Machine

/-! ### Codes (12.2, 12.3) -/

/-- The node state code of STATUS byte 0. -/
def NodeState.byte : NodeState → Byte
  | .config => 0
  | .run => 1
  | .held => 2
  | .suspended => 3

/-- The long-operation result code. -/
def LongResult.byte : LongResult → Byte
  | .none => 0
  | .done => 1
  | .aborted => 2

/-- The exit outcome code (R176). -/
def Outcome.byte : Outcome → Byte
  | .complete => 0
  | .incomplete => 1
  | .unresolved => 2
  | .undispatched => 3
  | .empty => 4

/-- The kind code of a fault-log record. -/
def ErrKind.byte : ErrKind → Byte
  | .slotCheck => 1
  | .headerCheck => 2
  | .invalidState => 3

/-- The pass code of a fault-log record. -/
def Pass.byte : Pass → Byte
  | .outbound => 0
  | .back => 1

/-! ### The STATUS slot (R175) -/

/-- STATUS byte 0: node state, hold latch, uncertain, live bank, armed, busy, torn. -/
def statusFlags (s : State) : Byte :=
  s.node.state.byte ||| flagAt 2 s.node.latch ||| flagAt 3 s.track.uncertain ||| flagAt 4 s.bank.live.bit |||
  flagAt 5 s.bank.armed ||| flagAt 6 s.bank.busy ||| flagAt 7 s.bank.torn

/-- The last accepted announcement sequence, 0 while no baseline exists: R2 and R175 for the STATUS slot; for READ STATUS
the model's reading (log 37). -/
def lastSequence (s : State) : Byte :=
  match s.track.baseline with
  | some b => b.sequence
  | none => 0

/-- The last accepted transfer count, 0 while no baseline exists: R2 and R175 for the STATUS slot; for READ STATUS the
model's reading (log 37). -/
def lastTransfer (s : State) : Byte :=
  match s.track.baseline with
  | some b => b.transfer
  | none => 0

/-- Queue depth in bits 2..0 and the long-operation result in bits 5..4. -/
def depthAndResult (s : State) : Byte := byteOf s.track.announced.length ||| (s.bank.result.byte <<< 4)

/-- R175: the seven data bytes of the STATUS slot. -/
def statusData (s : State) : Data7 :=
  { b0 := statusFlags s
    b1 := s.report.alarms
    b2 := lastSequence s
    b3 := lastTransfer s
    b4 := depthAndResult s ||| flagAt 6 (s.sweep.link == .up)
    b5 := s.node.address.setWidth 8
    b6 := byteOf (failedCount s) }

/-! ### The EXIT slot (R176) -/

/-- R176: the seven data bytes of the EXIT slot. -/
def exitData (r : Report) : Data7 :=
  { b0 := hiByte r.exit.tag
    b1 := loByte r.exit.tag
    b2 := r.exit.outcome.byte ||| (r.exitCount.setWidth 8 <<< 3)
    b3 := r.exit.owed.extractLsb' 24 8
    b4 := r.exit.owed.extractLsb' 16 8
    b5 := r.exit.owed.extractLsb' 8 8
    b6 := r.exit.owed.extractLsb' 0 8 }

/-! ### Alarms and the log (R179, R182) -/

/-- R179: the summary after a CLEAR ALARMS: a bit set in the mask is cleared unless its condition holds. -/
def clearedAlarms (mask : Byte) (s : State) : Byte :=
  allAlarms.foldl
    (fun b a => if mask.getLsbD a.bit && !alarmKept s a then b &&& ~~~a.mask else b) s.report.alarms

/-- R179: CLEAR ALARMS. -/
def serveClearAlarms (mask : Byte) (s : State) : Answer :=
  okay { s with report := { s.report with alarms := clearedAlarms mask s } }

/-- R182: the fourteen payload bytes of READ LOG; an empty log reads as 0 throughout. -/
def logBytes (r : Report) : List Byte :=
  match r.log with
  | none => List.replicate 14 0
  | some e => [e.kind.byte] ++ halfBytes e.sweep ++ [byteOf e.slot, e.pass.byte] ++ e.raw.bytes ++ [r.further]

/-- R182: READ LOG. -/
def serveReadLog (s : State) : Answer := okayWith (logBytes s.report) s

/-- R182: CLEAR LOG. -/
def serveClearLog (s : State) : Answer := okay { s with report := { s.report with log := none, further := 0 } }

/-! ### The meanings -/

/-- READ_LOG (R182). -/
def execReadLog (h : ReqHead) (s : State) : Host.Outcome State Fault Refusal := onRequest h .readLog 0 serveReadLog s

/-- CLEAR_LOG (R182). -/
def execClearLog (h : ReqHead) (s : State) : Host.Outcome State Fault Refusal :=
  onRequest h .clearLog 0 serveClearLog s

/-- CLEAR_ALARMS (R179). -/
def execClearAlarms (h : ReqHead) (mask : Byte) (s : State) : Host.Outcome State Fault Refusal :=
  onRequest h .clearAlarms 1 (serveClearAlarms mask) s

end Sys2Proof.Machine
end

