-- ==== Sys2Proof/Machine/Node.lean ====
section
/-! DEFINITION. Node control (08): START, STOP, the hold latch, CELL RESET, the node settings, READ STATUS, and the
reset pin. -/

namespace Sys2Proof.Machine

/-! ### START and STOP (R148, R149) -/

/-- R148: START. -/
def serveStart (s : State) : Answer :=
  if s.node.state ≠ .config then refuse .state s
  else if s.track.uncertain then refuse .state s
  else if s.sweep.storedMap.holds .line then
    okay (catchUp { s with node := { s.node with state := enteredState s } })
  else refuse .conflict s

/-- R149: STOP. -/
def serveStop (s : State) : Answer :=
  if s.node.state = .config then okay s
  else
    let t := stopLists s
    okay { t with node := { t.node with state := .config } }

/-! ### The hold latch (R150, R151) -/

/-- R150: the latch and the HOLD alarm bit are set, and RUN moves to HELD. -/
def setHold (s : State) : State :=
  setAlarm .hold { s with node := { s.node with
    latch := true
    state := if s.node.state = .run then .held else s.node.state } }

/-- R150: HOLD. -/
def serveHold (s : State) : Answer := okay (setHold s)

/-- R151: RELEASE. -/
def serveRelease (s : State) : Answer :=
  if s.pins.holdN then
    okay { s with node := { s.node with
      latch := false
      state := if s.node.state = .held then .run else s.node.state } }
  else refuse .active s

/-! ### CELL RESET (R154 and the owning rules) -/

/-- R22: the tracking unit after CELL RESET, with S kept. -/
def Tracking.cellReset (t : Tracking) (stations : Nat) : Tracking :=
  { baseline := none, announced := [], queue := List.replicate stations none, image := List.replicate stations none,
    uncertain := false, nextId := t.nextId }

/-- R111: a sequencer after CELL RESET: the withdrawal is made even in phase IDLE. -/
def Seq.cellReset (q : Seq) : Seq := { q.withdraw with list := [], watchCount := 0, lossCount := 0 }

/-- R183: the report unit after CELL RESET. -/
def Report.cellReset (r : Report) : Report := { r with alarms := 0, log := none, further := 0 }

/-- R188: the path tester after CELL RESET. -/
def PathTester.cellReset (p : PathTester) : PathTester :=
  { p with running := false, expected := [], inject := false, bitErrors := 0, lostSweeps := 0 }

/-- R154: CELL RESET: every block's part in one event. -/
def cellReset (s : State) : State :=
  { s with
    node := { s.node with state := .config }
    track := s.track.cellReset s.node.stations
    bank := { s.bank.stopCopy with armed := false }
    seqs := s.seqs.map Seq.cellReset
    report := s.report.cellReset
    path := s.path.cellReset }

/-- R154: CELL RESET. -/
def serveCellReset (s : State) : Answer := okay (cellReset s)

/-! ### Node settings (R158, R145, R7) -/

/-- The log mode a byte names (R191). -/
def logModeOf (b : Byte) : Option LogMode :=
  if b = 0 then some .first else if b = 1 then some .latest else none

/-- R158 step 2: a change of S is allowed here: CONFIG, and every position of the queue vacant. -/
def mayResize (s : State) : Bool := s.node.state == .config && s.track.queue.all Option.isNone

/-- R7: the queue and the image take the new S, every position vacant and not loaded. -/
def Tracking.resize (t : Tracking) (stations : Nat) : Tracking :=
  { t with queue := List.replicate stations none, image := List.replicate stations none }

/-- R158, R145: the three settings are stored; a change of S resizes the queue and the image, and an
interval of 0 stops a running watch. -/
def storeSettings (stations : Nat) (interval : Half) (mode : LogMode) (s : State) : State :=
  { s with
    node := { s.node with stations := stations, interval := interval, logMode := mode }
    track := if stations = s.node.stations then s.track else s.track.resize stations
    sweep := if interval = 0 then { s.sweep with watch := none } else s.sweep }

/-- R158: WRITE NODE SETTINGS. -/
def serveWriteNodeSettings (stations : Byte) (interval : Half) (logMode : Byte) (s : State) : Answer :=
  match logModeOf logMode with
  | none => refuse .range s
  | some mode =>
    if stations = 0 ∨ 16 < stations.toNat then refuse .range s
    else if stations.toNat = s.node.stations then okay (storeSettings stations.toNat interval mode s)
    else if !mayResize s then refuse .state s
    else if allChannels.any (fun c => stations.toNat ≤ (chanRec s c).station) then refuse .conflict s
    else okay (storeSettings stations.toNat interval mode s)

/-! ### READ STATUS (R167) -/

/-- READ STATUS byte 4: baselines, link state, the two port links, the log mode. -/
def statusLinks (s : State) : Byte :=
  flagAt 0 s.track.baseline.isSome ||| flagAt 1 (s.sweep.link == .up) ||| flagAt 2 s.pins.portA |||
  flagAt 3 s.pins.portB ||| flagAt 4 (s.node.logMode == .latest)

/-- The twelve payload bytes of READ STATUS (12.3). The spec states no value of bytes 5 and 6, the last accepted transfer
count and announcement sequence, while no baseline exists: the model writes the 0 that R2 and R175 state for the same
items of the STATUS slot (the model's reading, log 37). -/
def readStatusBytes (s : State) : List Byte :=
  [s.node.address.setWidth 8, statusFlags s, s.report.alarms, statusLinks s, lastTransfer s, lastSequence s,
   depthAndResult s, byteOf (failedCount s), byteOf s.node.stations] ++ halfBytes s.node.interval ++
  [s.report.exitCount.setWidth 8]

/-- R167: READ STATUS. -/
def serveReadStatus (s : State) : Answer := okayWith (readStatusBytes s) s

/-! ### Pins (R150, R156, R157) -/

/-- A change of a pin or of a link. The levels follow it even in reset (log 10); what else it does is done out of reset. -/
def onPin (set : Pins → Pins) (f : State → State) (s : State) : State :=
  let s := { s with sent := [], pins := set s.pins }
  if s.pins.inReset then s else f s

/-- R156, R178: RESET_N goes low: what is in progress ends and leaves no trace, and the summary holds no bit (log 25). -/
def enterReset (s : State) : State :=
  { s with
    pins := { s.pins with inReset := true }
    sweep := { s.sweep with outstanding := none, closure := none, watch := none }
    bank := { s.bank with copy := .idle }
    seqs := s.seqs.map fun q => { q with job := none }
    report := { s.report with alarms := 0 }
    path := { s.path with expected := [] }
    sent := [] }

/-- R156, R157: every block at its power-on values, the node address read from the straps; the levels of
HOLD_N and the waiting commands are not the part's to change (log 24). -/
def powerOn (straps : BitVec 4) (s : State) : State :=
  { State.reset with
    pins := { inReset := false, holdN := s.pins.holdN, portA := false, portB := false }
    node := { NodeCtl.reset with address := straps }
    choice := s.choice
    pending := s.pending }

/-- R156: HOLD_N found low when RESET_N returns high is taken as a falling edge. -/
def leaveReset (straps : BitVec 4) (s : State) : State :=
  if s.pins.holdN then powerOn straps s else setHold (powerOn straps s)

/-! ### The meanings -/

/-- READ_STATUS (R167). -/
def execReadStatus (h : ReqHead) (s : State) : Host.Outcome State Fault Refusal :=
  onRequest h .readStatus 0 serveReadStatus s

/-- START (R148). -/
def execStart (h : ReqHead) (s : State) : Host.Outcome State Fault Refusal := onRequest h .start 0 serveStart s

/-- STOP (R149). -/
def execStop (h : ReqHead) (s : State) : Host.Outcome State Fault Refusal := onRequest h .stop 0 serveStop s

/-- HOLD (R150). -/
def execHold (h : ReqHead) (s : State) : Host.Outcome State Fault Refusal := onRequest h .hold 0 serveHold s

/-- RELEASE (R151). -/
def execRelease (h : ReqHead) (s : State) : Host.Outcome State Fault Refusal := onRequest h .release 0 serveRelease s

/-- CELL_RESET (R154). -/
def execCellReset (h : ReqHead) (s : State) : Host.Outcome State Fault Refusal :=
  onRequest h .cellReset 0 serveCellReset s

/-- WRITE_NODE_SETTINGS (R158). -/
def execWriteNodeSettings (h : ReqHead) (stations : Byte) (interval : Half) (logMode : Byte) (s : State) :
    Host.Outcome State Fault Refusal :=
  onRequest h .writeNodeSettings 4 (serveWriteNodeSettings stations interval logMode) s

/-- HOLD_N_FALLING_EDGE (R150). -/
def execHoldNFallingEdge (s : State) : Host.Outcome State Fault Refusal :=
  .next (onPin (fun p => { p with holdN := false }) setHold s)

/-- HOLD_N_RISING_EDGE (R150): the level is high again and nothing else changes. -/
def execHoldNRisingEdge (s : State) : Host.Outcome State Fault Refusal :=
  .next (onPin (fun p => { p with holdN := true }) (fun s => s) s)

/-- RESET_N_LOW (R156). -/
def execResetNLow (s : State) : Host.Outcome State Fault Refusal := .next (enterReset s)

/-- POWER_ON_RESET (R156, R157). -/
def execPowerOnReset (straps : BitVec 4) (s : State) : Host.Outcome State Fault Refusal := .next (leaveReset straps s)

end Sys2Proof.Machine
end

