-- ==== Sys2Proof/Machine/PathTest.lean ====
section
/-! DEFINITION. The path tester (11): the SEQ15 generator, the filling of TEST slots, their comparison, and the
path-test requests. -/

namespace Sys2Proof.Machine

/-! ### The generator (R185) -/

/-- The next bit: the bit 14 steps before it XOR the bit 15 steps before it. Bit 0 of the register is the most recent. -/
def genBit (g : BitVec 15) : Bool := g.getLsbD 13 ^^ g.getLsbD 14

/-- One step of the generator. -/
def genStep (g : BitVec 15) : BitVec 15 := (g <<< 1) ||| (if genBit g then 1 else 0)

/-- `n` steps of the generator. -/
def genSteps : Nat → BitVec 15 → BitVec 15
  | 0, g => g
  | n + 1, g => genSteps n (genStep g)

/-- The next byte, its first bit the most significant: after eight steps the eight new bits are the low
eight of the register in that order. -/
def genByte (g : BitVec 15) : Byte := (genSteps 8 g).setWidth 8

/-- The next seven bytes of a pattern, and the generator after them; ZEROS and ONES do not use it. -/
def nextPattern (p : Pattern) (g : BitVec 15) : Data7 × BitVec 15 :=
  match p with
  | .zeros => ({ b0 := 0, b1 := 0, b2 := 0, b3 := 0, b4 := 0, b5 := 0, b6 := 0 }, g)
  | .ones => ({ b0 := 0xFF, b1 := 0xFF, b2 := 0xFF, b3 := 0xFF, b4 := 0xFF, b5 := 0xFF, b6 := 0xFF }, g)
  | .seq15 =>
    ({ b0 := genByte g, b1 := genByte (genSteps 8 g), b2 := genByte (genSteps 16 g), b3 := genByte (genSteps 24 g),
       b4 := genByte (genSteps 32 g), b5 := genByte (genSteps 40 g), b6 := genByte (genSteps 48 g) }, genSteps 56 g)

/-! ### Filling (R185, R187) -/

/-- The TEST slots of a map within a sweep of `n` slots, in ascending order. -/
def testSlots (m : SlotMap) (n : Nat) : List Nat :=
  (List.range n).filter fun k => k != 0 && m.toList.getD (k - 1) .pass == .test

/-- R187: bit 0 of byte 0 inverted. -/
def Data7.flipped (d : Data7) : Data7 := { d with b0 := d.b0 ^^^ 1 }

/-- R185, R187: the TEST slots are filled one after another; a pending injection flips the first and is spent. -/
def fillSlots : List Nat → PathTester → List Slot → PathTester × List Slot
  | [], t, sls => (t, sls)
  | k :: ks, t, sls =>
    let p := nextPattern t.pattern t.gen
    let written := if t.inject then p.1.flipped else p.1
    fillSlots ks { t with gen := p.2, expected := t.expected ++ [(k, p.1)], inject := false }
      (sls.set k written.toSlot)

/-- R185: the filling of a processed outbound pass; with the test OFF nothing is filled. -/
def fillTests (m : SlotMap) (p : InPass) : InPass :=
  if p.state.path.running then
    let r := fillSlots (testSlots m p.slots.length) p.state.path p.slots
    { state := { p.state with path := r.1 }, slots := r.2 }
  else p

/-! ### Comparison (R186) -/

/-- The bits that differ between the expected bytes and the slots that came back. -/
def bitsWrong (expected : List (Nat × Data7)) (sls : List Slot) : Nat :=
  (expected.map fun e =>
    match sls[e.1]? with
    | some sl => e.2.differing sl.data
    | none => 0).sum

/-- R186: the comparison of a processed return pass: the differing bits are added, the expected bytes
discarded, and TEST_ERROR set by an addition that leaves the count above 0 (log 23). -/
def compareTests (sls : List Slot) (s : State) : State :=
  let n := bitsWrong s.path.expected sls
  let total := min 65535 (s.path.bitErrors.toNat + n)
  let t := { s with path := { s.path with bitErrors := BitVec.ofNat 16 total, expected := [] } }
  if n = 0 then t else setAlarm .testError t

/-! ### The requests (R184, R186, R187) -/

/-- The pattern a byte names (R191). -/
def patternOf (b : Byte) : Option Pattern :=
  if b = 0 then some .zeros else if b = 1 then some .ones else if b = 2 then some .seq15 else none

/-- R184: TEST START. -/
def serveTestStart (pattern : Byte) (s : State) : Answer :=
  match patternOf pattern with
  | none => refuse .range s
  | some p =>
    okay { s with path :=
      { running := true, pattern := p, gen := BitVec.allOnes 15, expected := [], inject := false,
        bitErrors := 0, lostSweeps := 0 } }

/-- R184: TEST STOP. -/
def serveTestStop (s : State) : Answer :=
  okay { s with path := { s.path with running := false, expected := [], inject := false } }

/-- R187: TEST INJECT. -/
def serveTestInject (s : State) : Answer := okay { s with path := { s.path with inject := true } }

/-- R186: READ TEST COUNTS. -/
def serveReadTestCounts (s : State) : Answer :=
  okayWith (halfBytes s.path.bitErrors ++ halfBytes s.path.lostSweeps)
    { s with path := { s.path with bitErrors := 0, lostSweeps := 0 } }

/-! ### The meanings -/

/-- TEST_START (R184). -/
def execTestStart (h : ReqHead) (pattern : Byte) (s : State) : Host.Outcome State Fault Refusal :=
  onRequest h .testStart 1 (serveTestStart pattern) s

/-- TEST_STOP (R184). -/
def execTestStop (h : ReqHead) (s : State) : Host.Outcome State Fault Refusal := onRequest h .testStop 0 serveTestStop s

/-- TEST_INJECT (R187). -/
def execTestInject (h : ReqHead) (s : State) : Host.Outcome State Fault Refusal :=
  onRequest h .testInject 0 serveTestInject s

/-- READ_TEST_COUNTS (R186). -/
def execReadTestCounts (h : ReqHead) (s : State) : Host.Outcome State Fault Refusal :=
  onRequest h .readTestCounts 0 serveReadTestCounts s

end Sys2Proof.Machine
end

