-- ==== Sys2Proof/Machine/MapRequests.lean ====
section
/-! DEFINITION. The requests that write and read the stored slot map (07, 7.4). -/

namespace Sys2Proof.Machine

/-! ### The slot map's rules (R138, R140) -/

/-- The roles that the map holds at most once; PASS and TEST may stand in any number of slots (7.4). -/
def Role.unique : Role → Bool
  | .pass | .test => false
  | .line | .command _ | .reply _ | .mgmt _ | .status | .exit => true

/-- No unique role stands twice in the list. -/
def noRoleTwice : List Role → Bool
  | [] => true
  | r :: rs => !(r.unique && rs.contains r) && noRoleTwice rs

/-- R140 step 3: no unique role twice, and an MGMT slot of index 0. -/
def SlotMap.legal (m : SlotMap) : Bool := noRoleTwice m.toList && m.holds (.mgmt 0)

/-- The roles of a request's entries; none when any entry is out of range (R140 step 2). -/
def rolesOf : List RawMapEntry → Option (List Role)
  | [] => some []
  | e :: es =>
    match roleOf e, rolesOf es with
    | some r, some rs => some (r :: rs)
    | _, _ => none

/-- The map with consecutive entries replaced from slot `first` on. -/
def SlotMap.put (m : SlotMap) (first : Nat) : List Role → SlotMap
  | [] => m
  | r :: rs => SlotMap.put (m.setIfInBounds (first - 1) r) (first + 1) rs

/-! ### The requests -/

/-- R140: WRITE SLOT MAP. -/
def serveWriteSlotMap (first : Byte) (entries : List RawMapEntry) (s : State) : Answer :=
  if s.node.state ≠ .config then refuse .state s
  else
    match rolesOf entries with
    | none => refuse .range s
    | some rs =>
      if first = 0 ∨ 184 < first.toNat + rs.length then refuse .range s
      else
        let m := s.sweep.storedMap.put first.toNat rs
        if m.legal then okay { s with sweep := { s.sweep with storedMap := m } } else refuse .conflict s

/-- R141: READ SLOT MAP. -/
def serveReadSlotMap (first count : Byte) (s : State) : Answer :=
  if first = 0 ∨ count = 0 ∨ 24 < count.toNat ∨ 184 < first.toNat + count.toNat then refuse .range s
  else
    okayWith (((s.sweep.storedMap.toList.drop (first.toNat - 1)).take count.toNat).flatMap roleBytes) s

/-! ### The meanings -/

/-- WRITE_SLOT_MAP (R140). -/
def execWriteSlotMap (h : ReqHead) (first : Byte) (entries : List RawMapEntry) (s : State) :
    Host.Outcome State Fault Refusal :=
  onRequest h .writeSlotMap (1 + 2 * entries.length) (serveWriteSlotMap first entries) s

/-- READ_SLOT_MAP (R141). -/
def execReadSlotMap (h : ReqHead) (first count : Byte) (s : State) : Host.Outcome State Fault Refusal :=
  onRequest h .readSlotMap 2 (serveReadSlotMap first count) s

end Sys2Proof.Machine
end

