-- ==== Sys2Proof/Machine/Agent.lean ====
section
/-! DEFINITION. The management agent (09): the request a sweep carries, read from the MGMT slots of its outbound pass,
and the response written into those of its return pass. -/

namespace Sys2Proof.Machine

/-! ### The request by its code and payload bytes (R167 to R173, 12.3) -/

/-- Byte `n` of a payload, numbered from 1 as 12.1 does. -/
def payByte (p : List Byte) (n : Nat) : Byte := p.getD (n - 1) 0

/-- Bytes `n` and `n + 1` of a payload, as one field. -/
def payHalf (p : List Byte) (n : Nat) : Half := half (payByte p n) (payByte p (n + 1))

/-- The node, slot-map and roster requests (R167 to R169). -/
def serveNodeRequest (k : ReqCode) (p : List Byte) (s : State) : Option Answer :=
  match k with
  | .readStatus => some (serveReadStatus s)
  | .start => some (serveStart s)
  | .stop => some (serveStop s)
  | .hold => some (serveHold s)
  | .release => some (serveRelease s)
  | .cellReset => some (serveCellReset s)
  | .writeNodeSettings => some (serveWriteNodeSettings (payByte p 1) (payHalf p 2) (payByte p 4) s)
  | .writeSlotMap => some (serveWriteSlotMap (payByte p 1) (rawMapEntries (p.drop 1)) s)
  | .readSlotMap => some (serveReadSlotMap (payByte p 1) (payByte p 2) s)
  | .writeChannel =>
    some (serveWriteChannel (payByte p 1) (payByte p 2) (payByte p 3) (payByte p 4) (payByte p 5) s)
  | .readChannel => some (serveReadChannel (payByte p 1) s)
  | .writePair => some (serveWritePair (payByte p 1) (payByte p 2) s)
  | .clearPair => some (serveClearPair (payByte p 1) s)
  | .setService => some (serveSetService (payByte p 1) (payByte p 2) s)
  | _ => none

/-- The bank and wear requests (R170, R171). -/
def serveTableRequest (k : ReqCode) (p : List Byte) (s : State) : Option Answer :=
  match k with
  | .writeEntries => some (serveWriteEntries (payByte p 1) (payByte p 2) (rawEntries (p.drop 2)) s)
  | .readEntries => some (serveReadEntries (payByte p 1) (payByte p 2) (payByte p 3) (payByte p 4) s)
  | .enableStyle => some (serveEnableStyle (payByte p 1) (payByte p 2) s)
  | .copyBank => some (serveCopyBank s)
  | .commit => some (serveCommit s)
  | .disarm => some (serveDisarm s)
  | .abort => some (serveAbort s)
  | .writeCurve =>
    some (serveWriteCurve (payByte p 1)
      (clampedCurve (payHalf p 2) (payHalf p 4) (payHalf p 6) (payHalf p 8)
        (payByte p 10) (payByte p 11) (payByte p 12) (payByte p 13)) s)
  | .readCurve => some (serveReadCurve (payByte p 1) s)
  | .writeGun =>
    some (serveWriteGun (payByte p 1) (payByte p 2) (payByte p 3) (payHalf p 4) (payHalf p 6)
      (payByte p 8) (payByte p 9) (payByte p 10) s)
  | .writeWear => some (serveWriteWear (payByte p 1) (payByte p 2) (payHalf p 3) (payByte p 5) s)
  | .readWear => some (serveReadWear (payByte p 1) (payByte p 2) s)
  | _ => none

/-- The tracking, report and path-test requests (R172, R173). -/
def serveLineRequest (k : ReqCode) (p : List Byte) (s : State) : Option Answer :=
  match k with
  | .readTracking => some (serveReadTracking (payByte p 1) s)
  | .retrackLoad => some (serveRetrackLoad (rawRetracks p) s)
  | .retrackApply => some (serveRetrackApply s)
  | .readLog => some (serveReadLog s)
  | .clearLog => some (serveClearLog s)
  | .clearAlarms => some (serveClearAlarms (payByte p 1) s)
  | .testStart => some (serveTestStart (payByte p 1) s)
  | .testStop => some (serveTestStop s)
  | .testInject => some (serveTestInject s)
  | .readTestCounts => some (serveReadTestCounts s)
  | _ => none

/-- R163 step 5: a request is executed on its payload, by the rule that owns it. Every code stands in one
of the three groups, so the last answer is never given. -/
def serveRequest (k : ReqCode) (p : List Byte) (s : State) : Answer :=
  ((serveNodeRequest k p s).orElse fun _ =>
    (serveTableRequest k p s).orElse fun _ => serveLineRequest k p s).getD (refuse .unknown s)

/-! ### Requests with an undefined code (R163 step 1) -/

/-- R163 step 1: a new request whose code 9.6 does not define is answered UNKNOWN and its tag recorded. -/
def takeUnknown (h : ReqHead) (code : Byte) (s : State) : State :=
  let s := noteHeader h.via s
  if isNew h s then record h code (refuse .unknown s) else s

/-- An UNKNOWN_REQUEST by its code; a defined code is that request without payload (log 21). -/
def takeByCode (h : ReqHead) (code : Byte) (s : State) : State :=
  match reqCodeOf code with
  | none => takeUnknown h code s
  | some k => takeRequest h k 0 (serveRequest k []) s

/-! ### The request of a sweep (R160 to R163) -/

/-- The slot of a role in a frame, with its slot number; none when it is not mapped or lies beyond the sweep (R138). -/
def slotFor (m : SlotMap) (sls : List Slot) (r : Role) : Option (Nat × Slot) :=
  match m.slotOf r with
  | none => none
  | some k => (sls[k]?).map fun sl => (k, sl)

/-- R161: how a header's target and mask name this node, if they do. -/
def viaOf (address : BitVec 4) (d : Data7) : Option Via :=
  if d.b0 = address.setWidth 8 then some .addressed
  else if d.b0 = 0xFF ∧ (half d.b1 d.b2).getLsbD address.toNat = true then some .broadcast
  else none

/-- R163 step 3: the first `n` payload slots, indices 1 to `n`, with their slot numbers; none when one is
not mapped or lies beyond the sweep. -/
def coveredSlots (m : SlotMap) (sls : List Slot) : Nat → Option (List (Nat × Slot))
  | 0 => some []
  | n + 1 =>
    if h : n + 1 < 8 then
      match coveredSlots m sls n, slotFor m sls (.mgmt ⟨n + 1, h⟩) with
      | some l, some x => some (l ++ [x])
      | _, _ => none
    else none

/-- The number of payload slots a length covers, the length divided by 7 and rounded up (R163 step 3). -/
def slotsCovered (len : Nat) : Nat := (len + 6) / 7

/-- R142: a failed check is recorded in the fault log. -/
def logSlot (kind : ErrKind) (sweep : Half) (pass : Pass) (x : Nat × Slot) (s : State) : State :=
  logError { kind := kind, sweep := sweep, slot := x.1, pass := pass, raw := x.2 } s

/-- The events of a list in rising order of their keys, equal keys in the order of the list. -/
def insertByKey {α : Type} (key : α → Nat) (x : α) : List α → List α
  | [] => [x]
  | y :: ys => if key x ≤ key y then x :: y :: ys else y :: insertByKey key x ys

/-- R136: a list of events in the order of their keys. -/
def orderBy {α : Type} (key : α → Nat) : List α → List α
  | [] => []
  | x :: xs => insertByKey key x (orderBy key xs)

/-- The event number of the check error of payload slot `k` of a pass (log 3). -/
def payloadEvent (x : Nat × Slot) : Nat := 72 + x.1

/-- R163 step 4: each failing payload slot is recorded in the fault log, in the free order of R181. -/
def logPayload (key : Nat → Nat) (sweep : Half) (bad : List (Nat × Slot)) (s : State) : State :=
  (orderBy (fun x => key (payloadEvent x)) bad).foldl (fun s x => logSlot .slotCheck sweep .outbound x s) s

/-- R163 steps 2 to 5: a request with a defined code and a payload of `len` bytes in the MGMT slots. -/
def takeCarried (key : Nat → Nat) (m : SlotMap) (sweep : Half) (sls : List Slot) (h : ReqHead) (k : ReqCode)
    (len : Nat) (s : State) : State :=
  match coveredSlots m sls (slotsCovered len) with
  | none => takeRequest h k len (refuse .length) s
  | some xs =>
    let bad := xs.filter fun x => !x.2.ok
    let s' := noteHeader h.via s
    if isNew h s' && k.allows len && !bad.isEmpty then logPayload key sweep bad s'
    else takeRequest h k len (serveRequest k ((xs.flatMap fun x => x.2.data.bytes).take len)) s

/-- R160 to R163: the MGMT header of a processed outbound pass. -/
def requestEvent (key : Nat → Nat) (m : SlotMap) (sweep : Half) (sls : List Slot) (s : State) : State :=
  match slotFor m sls (.mgmt 0) with
  | none => s
  | some x =>
    if !x.2.ok then logSlot .slotCheck sweep .outbound x s
    else
      let d := x.2.data
      match viaOf s.node.address d with
      | none => s
      | some via =>
        let h : ReqHead := { via := via, tag := d.b4 }
        match reqCodeOf d.b3 with
        | none => takeUnknown h d.b3 s
        | some k => takeCarried key m sweep sls h k d.b5.toNat s

/-! ### The response (R166) -/

/-- The response header (12.2). -/
def responseHeader (address : BitVec 4) (r : Response) : Data7 :=
  { b0 := address.setWidth 8, b1 := r.code, b2 := r.tag, b3 := r.result.byte, b4 := byteOf r.payload.length,
    b5 := 0, b6 := 0 }

/-- A slot of a written role is replaced whole, with a fresh check byte; a slot not mapped or beyond the sweep
is not written (R136, R138). -/
def writeSlot (m : SlotMap) (r : Role) (d : Data7) (sls : List Slot) : List Slot :=
  match m.slotOf r with
  | none => sls
  | some k => sls.set k d.toSlot

/-- The payload indices. -/
def payloadIndices : List (Fin 8) := [1, 2, 3, 4, 5, 6, 7]

/-- R166: the stored response is written into the MGMT slots. -/
def writeResponse (m : SlotMap) (address : BitVec 4) (r : Response) (sls : List Slot) : List Slot :=
  payloadIndices.foldl
    (fun sls k => writeSlot m (.mgmt k) (data7Of (r.payload.drop (7 * (k.val - 1)))) sls)
    (writeSlot m (.mgmt 0) (responseHeader address r) sls)

/-! ### The meaning -/

/-- UNKNOWN_REQUEST (R163 step 1). -/
def execUnknownRequest (h : ReqHead) (code : Byte) (s : State) : Host.Outcome State Fault Refusal :=
  .next (live (takeByCode h code) s)

end Sys2Proof.Machine
end

