-- ==== Sys2Proof/Machine/Sweep.lean ====
section
/-! DEFINITION. The sweep interface and the ring ports (07): forwarding, the header check, the two passes with their
hand-overs, closure of the ring, lost sweeps, the watch and the links. -/

namespace Sys2Proof.Machine

/-! ### Forwarding (R130, R131) -/

/-- A frame received at port A that is not processed: out through port B, or turned back when B's link is DOWN. -/
def forwardFromA (isSweep : Bool) (f : Frame) (s : State) : State :=
  if s.pins.portB then send .portB isSweep f s else send .portA isSweep f s

/-- A frame received at port B leaves through port A, or is discarded when A's link is DOWN. -/
def forwardFromB (isSweep : Bool) (f : Frame) (s : State) : State := send .portA isSweep f s

/-! ### The header, the watch and the link state (R133, R143) -/

/-- R133: a header check error is logged with bytes 2 and 3 as they came, whatever the marker (log 16). -/
def noteHeaderCheck (pass : Pass) (f : Frame) (s : State) : State :=
  match headerSlot f.payload with
  | some sl => if sl.ok then s else logSlot .headerCheck (sweepNumber sl.data) pass (0, sl) s
  | none => s

/-- R143, R145: a processed pass restarts the watch on the interval in force; an interval of 0 turns it off. -/
def restartWatch (s : State) : State :=
  { s with sweep := { s.sweep with watch := if s.node.interval = 0 then none else some s.node.interval } }

/-- R143: a processed pass sets the link state to UP. -/
def linkUp (s : State) : State := { s with sweep := { s.sweep with link := .up } }

/-- R132, R143: the link state becomes LOST with its alarm, and an outstanding sweep is lost. -/
def linkLost (s : State) : State :=
  loseSweep (setAlarm .linkLost { s with sweep := { s.sweep with link := .lost } })

/-! ### The map in force and presence (R139, R45, R54) -/

/-- The channels that turn from available to unavailable between two states. -/
def turnedUnavailable (s t : State) : List ChanNo := allChannels.filter fun c => available s c && !available t c

/-- R139: the stored map becomes the map in force; each channel that loses availability with its presence
hands an ORDERLY loss. -/
def enterMap (s : State) : State :=
  let t := { s with sweep := { s.sweep with mapInForce := some s.sweep.storedMap } }
  (turnedUnavailable s t).foldl (fun u c => loseService c .orderly u) t

/-! ### The hand-overs of an outbound pass (R136) -/

/-- The number of a hand-over, by which its key is read (log 3). -/
def OutEvent.number : OutEvent → Nat
  | .line => 0
  | .request => 1
  | .watch => 2
  | .testFill => 3
  | .opportunity c => 8 + c.val
  | .command c => 40 + c.val

/-- The selection opportunities. -/
def opportunities : List OutEvent := allChannels.map .opportunity

/-- The COMMAND slot writes. -/
def commandWrites : List OutEvent := allChannels.map .command

/-- The four hand-overs of a pass that are not a channel's. -/
def commonEvents : List OutEvent := [.line, .request, .watch, .testFill]

/-- Every hand-over of an outbound pass. -/
def outEvents : List OutEvent := commonEvents ++ opportunities ++ commandWrites

/-- R1, R142: the LINE slot of the pass, if one is received. -/
def lineEvent (m : SlotMap) (sweep : Half) (sls : List Slot) (s : State) : State :=
  match slotFor m sls .line with
  | none => s
  | some x => if x.2.ok then takeLine x.2.data s else logSlot .slotCheck sweep .outbound x s

/-- R85: the HOLD bit of every command: set in every node state but RUN. -/
def holdBit (s : State) : Bool := s.node.state != .run

/-- R85: the COMMAND slot of a present channel carries its current command. -/
def commandEvent (m : SlotMap) (c : ChanNo) (p : InPass) : InPass :=
  if present p.state c then
    { p with slots := writeSlot m (.command c) (commandData (seqOf p.state c).cmd (holdBit p.state)) p.slots }
  else p

/-- One hand-over of a processed outbound pass. -/
def outEvent (key : Nat → Nat) (m : SlotMap) (sweep : Half) (e : OutEvent) (p : InPass) : InPass :=
  match e with
  | .line => { p with state := lineEvent m sweep p.slots p.state }
  | .request => { p with state := requestEvent key m sweep p.slots p.state }
  | .watch => { p with state := restartWatch p.state }
  | .testFill => fillTests m p
  | .opportunity c => { p with state := opportunity c p.state }
  | .command c => commandEvent m c p

/-- R136: the hand-overs of an outbound pass in the order of their keys. -/
def handOut (key : Nat → Nat) (m : SlotMap) (sweep : Half) (p : InPass) : InPass :=
  (orderBy (fun e => key (OutEvent.number e)) outEvents).foldl (fun p e => outEvent key m sweep e p) p

/-! ### The hand-overs of a return pass -/

/-- The number of a hand-over of a return pass (log 4). -/
def BackEvent.number : BackEvent → Nat
  | .compare => 99
  | .reply c => 100 + c.val

/-- The replies. -/
def replies : List BackEvent := allChannels.map .reply

/-- Every hand-over of a return pass whose order is free. -/
def backEvents : List BackEvent := .compare :: replies

/-- The reply-loss count of channel `c` is taken before its watch count (log 4). -/
def lossFirst (key : Nat → Nat) (c : ChanNo) : Bool := key (132 + c.val) < key (164 + c.val)

/-- One hand-over of a processed return pass; a channel that is not present has no REPLY slot read (R109). -/
def backEvent (key : Nat → Nat) (m : SlotMap) (sweep : Half) (sls : List Slot) (e : BackEvent) (s : State) : State :=
  match e with
  | .compare => compareTests sls s
  | .reply c => if present s c then replyEvent (lossFirst key c) c sweep (slotFor m sls (.reply c)) s else s

/-- R136: the hand-overs of a return pass in the order of their keys. -/
def handBack (key : Nat → Nat) (m : SlotMap) (sweep : Half) (sls : List Slot) (s : State) : State :=
  (orderBy (fun e => key (BackEvent.number e)) backEvents).foldl (fun s e => backEvent key m sweep sls e s) s

/-- R175, R176, R166: the slots written on a return pass, from the state the replies and the comparison have
left (R180, log 5). -/
def writeBack (m : SlotMap) (addressed : Bool) (s : State) (sls : List Slot) : List Slot :=
  let sls := writeSlot m .exit (exitData s.report) (writeSlot m .status (statusData s) sls)
  if addressed then writeResponse m s.node.address s.mgmt.stored sls else sls

/-! ### The passes (R134, R135) -/

/-- The counter of the free order advances: the next pass reads other keys (log 3). -/
def nextChoice (s : State) : State := { s with choice := s.choice + 1 }

/-- R135: the processing of a return pass of the outstanding sweep. -/
def processReturn (key : Nat → Nat) (m : SlotMap) (o : Outstanding) (f : Frame) (s : State) : State :=
  let sls := slotsOf f.payload
  let s := handBack key m o.number sls (restartWatch (linkUp s))
  let out := writeBack m o.addressed s sls
  forwardFromB true { f with payload := payloadOf out }
    { s with sweep := { s.sweep with outstanding := none } }

/-- R133, R135: a sweep frame on its return pass. Not processed unless it is the outstanding sweep's. -/
def returnFrame (key : Nat → Nat → Nat) (f : Frame) (s : State) : State :=
  match headerOf f.payload, s.sweep.outstanding, s.sweep.mapInForce with
  | some (n, size), some o, some m =>
    if n = o.number ∧ size = o.size then nextChoice (processReturn (key s.choice) m o f s)
    else forwardFromB true f s
  | some _, _, _ => forwardFromB true f s
  | none, _, _ => forwardFromB true f (noteHeaderCheck .back f s)

/-- R131: the return pass by closure of a sweep whose outbound pass was closed, if one is due. -/
def settleClosure (key : Nat → Nat → Nat) (s : State) : State :=
  match s.sweep.closure with
  | none => s
  | some f => returnFrame key f { s with sweep := { s.sweep with closure := none } }

/-- R134: what stands before the hand-overs: the earlier sweep is lost, the map comes into force, the link
state is UP, and this sweep is outstanding, with no expected bytes (R185). -/
def beginOutbound (n : Half) (size : SizeCode) (s : State) : State :=
  let s := linkUp (enterMap (loseSweep s))
  { s with
    sweep := { s.sweep with
      outstanding := some { number := n, size := size, closed := !s.pins.portB, addressed := false } }
    path := { s.path with expected := [] } }

/-- R134, R131: the frame leaves through port B, or is kept for its return by closure. -/
def endOutbound (f : Frame) (s : State) : State :=
  if s.pins.portB then send .portB true f s else { s with sweep := { s.sweep with closure := some f } }

/-- R134: the processing of an outbound pass. -/
def processOutbound (key : Nat → Nat) (n : Half) (size : SizeCode) (f : Frame) (s : State) : State :=
  let s := beginOutbound n size s
  let p := handOut key s.sweep.storedMap n { state := s, slots := slotsOf f.payload }
  endOutbound { f with payload := payloadOf p.slots } p.state

/-- R133, R134: a sweep frame on its outbound pass. -/
def outboundFrame (key : Nat → Nat → Nat) (f : Frame) (s : State) : State :=
  match headerOf f.payload with
  | some (n, size) => nextChoice (processOutbound (key s.choice) n size f s)
  | none => forwardFromA true f (noteHeaderCheck .outbound f s)

/-- R130: a frame of another type. -/
def foreign (p : Port) (f : Frame) (s : State) : State :=
  match p with
  | .portA => forwardFromA false f s
  | .portB => forwardFromB false f s

/-! ### The meanings -/

/-- OUTBOUND_PASS (R134). A return by closure that is still due is taken first (R131). -/
def execOutboundPass (f : Frame) (s : State) : Host.Outcome State Fault Refusal :=
  .next (live (fun s => outboundFrame Config.eventKey f (settleClosure Config.eventKey s)) s)

/-- RETURN_PASS (R135). A return by closure that is still due is taken first (R131). -/
def execReturnPass (f : Frame) (s : State) : Host.Outcome State Fault Refusal :=
  .next (live (fun s => returnFrame Config.eventKey f (settleClosure Config.eventKey s)) s)

/-- RING_CLOSURE_RETURN (R131); without a closed sweep there is no event (log 12). -/
def execRingClosureReturn (s : State) : Host.Outcome State Fault Refusal :=
  .next (live (settleClosure Config.eventKey) s)

/-- FOREIGN_FRAME (R130). A return by closure that is still due is taken first (R131). -/
def execForeignFrame (p : Port) (f : Frame) (s : State) : Host.Outcome State Fault Refusal :=
  .next (live (fun s => foreign p f (settleClosure Config.eventKey s)) s)

/-- PORT_A_LINK_DOWN (R132). -/
def execPortALinkDown (s : State) : Host.Outcome State Fault Refusal :=
  .next (onPin (fun p => { p with portA := false }) linkLost s)

/-- PORT_A_LINK_UP (R132). -/
def execPortALinkUp (s : State) : Host.Outcome State Fault Refusal :=
  .next (onPin (fun p => { p with portA := true }) (fun s => s) s)

/-- R131: a sweep that was sent out through port B is lost with its link; a closed one is not. -/
def loseThroughB (s : State) : State :=
  match s.sweep.outstanding with
  | some o => if o.closed then s else loseSweep s
  | none => s

/-- PORT_B_LINK_DOWN (R131). -/
def execPortBLinkDown (s : State) : Host.Outcome State Fault Refusal :=
  .next (onPin (fun p => { p with portB := false }) loseThroughB s)

/-- PORT_B_LINK_UP (R131). -/
def execPortBLinkUp (s : State) : Host.Outcome State Fault Refusal :=
  .next (onPin (fun p => { p with portB := true }) (fun s => s) s)

/-- R143: the watch runs out and stops; a stopped watch does not expire (log 12). -/
def expireWatch (s : State) : State :=
  match s.sweep.watch with
  | none => s
  | some _ => linkLost { s with sweep := { s.sweep with watch := none } }

/-- SWEEP_WATCH_EXPIRY (R143). -/
def execSweepWatchExpiry (s : State) : Host.Outcome State Fault Refusal := .next (live expireWatch s)

end Sys2Proof.Machine
end

