-- ==== Sys2Proof/Machine/Dispatch.lean ====
section
/-! DEFINITION. exec: one arm for each command, one direct call of its meaning. -/

namespace Sys2Proof.Machine

def exec (i : Instr) (s : State) : Host.Outcome State Fault Refusal :=
  match i with
  | .outboundPass f => Sys2Proof.Machine.execOutboundPass f s
  | .returnPass f => Sys2Proof.Machine.execReturnPass f s
  | .ringClosureReturn => Sys2Proof.Machine.execRingClosureReturn s
  | .foreignFrame p f => Sys2Proof.Machine.execForeignFrame p f s
  | .portALinkDown => Sys2Proof.Machine.execPortALinkDown s
  | .portALinkUp => Sys2Proof.Machine.execPortALinkUp s
  | .portBLinkDown => Sys2Proof.Machine.execPortBLinkDown s
  | .portBLinkUp => Sys2Proof.Machine.execPortBLinkUp s
  | .sweepWatchExpiry => Sys2Proof.Machine.execSweepWatchExpiry s
  | .holdNFallingEdge => Sys2Proof.Machine.execHoldNFallingEdge s
  | .holdNRisingEdge => Sys2Proof.Machine.execHoldNRisingEdge s
  | .resetNLow => Sys2Proof.Machine.execResetNLow s
  | .powerOnReset straps => Sys2Proof.Machine.execPowerOnReset straps s
  | .copyStep => Sys2Proof.Machine.execCopyStep s
  | .copyCompletion => Sys2Proof.Machine.execCopyCompletion s
  | .replyLossLimit c => Sys2Proof.Machine.execReplyLossLimit c s
  | .selectTimeout c => Sys2Proof.Machine.execSelectTimeout c s
  | .readStatus h => Sys2Proof.Machine.execReadStatus h s
  | .start h => Sys2Proof.Machine.execStart h s
  | .stop h => Sys2Proof.Machine.execStop h s
  | .hold h => Sys2Proof.Machine.execHold h s
  | .release h => Sys2Proof.Machine.execRelease h s
  | .cellReset h => Sys2Proof.Machine.execCellReset h s
  | .writeNodeSettings h stations interval logMode => Sys2Proof.Machine.execWriteNodeSettings h stations interval logMode s
  | .writeSlotMap h first entries => Sys2Proof.Machine.execWriteSlotMap h first entries s
  | .readSlotMap h first count => Sys2Proof.Machine.execReadSlotMap h first count s
  | .writeChannel h channel station lead gunCount selectWatch => Sys2Proof.Machine.execWriteChannel h channel station lead gunCount selectWatch s
  | .readChannel h channel => Sys2Proof.Machine.execReadChannel h channel s
  | .writePair h channelA channelB => Sys2Proof.Machine.execWritePair h channelA channelB s
  | .clearPair h channel => Sys2Proof.Machine.execClearPair h channel s
  | .setServiceOut h channel action => Sys2Proof.Machine.execSetServiceOut h channel action s
  | .setServiceIn h channel => Sys2Proof.Machine.execSetServiceIn h channel s
  | .writeEntries h style first entries => Sys2Proof.Machine.execWriteEntries h style first entries s
  | .readEntries h bank style first count => Sys2Proof.Machine.execReadEntries h bank style first count s
  | .enableStyle h style flag => Sys2Proof.Machine.execEnableStyle h style flag s
  | .copyBank h => Sys2Proof.Machine.execCopyBank h s
  | .commit h => Sys2Proof.Machine.execCommit h s
  | .disarm h => Sys2Proof.Machine.execDisarm h s
  | .abort h => Sys2Proof.Machine.execAbort h s
  | .writeCurve h index c1 c2 c3 c4 b1 b2 b3 b4 => Sys2Proof.Machine.execWriteCurve h index c1 c2 c3 c4 b1 b2 b3 b4 s
  | .readCurve h index => Sys2Proof.Machine.execReadCurve h index s
  | .writeGun h channel gun curve threshold grace capLimit dressProgram capProgram => Sys2Proof.Machine.execWriteGun h channel gun curve threshold grace capLimit dressProgram capProgram s
  | .writeWear h channel gun weld dresses => Sys2Proof.Machine.execWriteWear h channel gun weld dresses s
  | .readWear h channel gun => Sys2Proof.Machine.execReadWear h channel gun s
  | .readTracking h first => Sys2Proof.Machine.execReadTracking h first s
  | .retrackLoad h records => Sys2Proof.Machine.execRetrackLoad h records s
  | .retrackApply h => Sys2Proof.Machine.execRetrackApply h s
  | .readLog h => Sys2Proof.Machine.execReadLog h s
  | .clearLog h => Sys2Proof.Machine.execClearLog h s
  | .clearAlarms h mask => Sys2Proof.Machine.execClearAlarms h mask s
  | .testStart h pattern => Sys2Proof.Machine.execTestStart h pattern s
  | .testStop h => Sys2Proof.Machine.execTestStop h s
  | .testInject h => Sys2Proof.Machine.execTestInject h s
  | .readTestCounts h => Sys2Proof.Machine.execReadTestCounts h s
  | .unknownRequest h code => Sys2Proof.Machine.execUnknownRequest h code s

end Sys2Proof.Machine
end

