-- ==== Sys2Proof/Safety.lean ====
section
/-! DEFINITION. What the statements are written with: a request that is taken and its answer, the payload bytes a request
row stands for, and the invariants the manual states of the part's tables, queues and registers. -/

namespace Sys2Proof.Machine

/-! ### Requests -/

/-- The request is taken (R156, R160, R162): the part is out of reset and the tag is new to this node. -/
def Taken (h : ReqHead) (s : State) : Prop := s.pins.inReset = false ∧ h.tag ≠ 0 ∧ h.tag ≠ s.mgmt.lastTag

/-- The state after a request header was read: the frames of the last command are forgotten, and an addressed
header makes the outstanding sweep carry the response (R166). Nothing else differs from `s`. -/
def noticed (h : ReqHead) (s : State) : State :=
  match h.via with
  | .addressed =>
    { s with
      sent := []
      sweep := { s.sweep with outstanding := s.sweep.outstanding.map fun o => { o with addressed := true } } }
  | .broadcast => { s with sent := [] }

/-- `t` with the request's tag recorded and, for an addressed request, its response stored (R162, R165). -/
def answered (h : ReqHead) (code : Byte) (r : Result) (p : List Byte) (t : State) : State :=
  match h.via with
  | .addressed => { t with mgmt := { lastTag := h.tag, stored := { code := code, tag := h.tag, result := r, payload := p } } }
  | .broadcast => { t with mgmt := { lastTag := h.tag, stored := t.mgmt.stored } }

/-- A map entry's two payload bytes. -/
def RawMapEntry.bytes (e : RawMapEntry) : List Byte := [e.role, e.index]

/-- A style entry's seven payload bytes. -/
def RawEntry.bytes (e : RawEntry) : List Byte :=
  [e.base, e.baseSpots, e.variant, e.variantSpots, e.backup, e.backupSpots, e.sel]

/-- A retrack record's thirteen payload bytes. -/
def RawRetrack.bytes (r : RawRetrack) : List Byte :=
  [r.station] ++ halfBytes r.tag ++ [r.style, r.options] ++ maskBytes r.done ++ maskBytes r.owed

/-- The request a row stands for: its header, its code and its payload bytes (12.3); none for the rows that
are no request or that carry no defined code. -/
def carries : Instr → Option (ReqHead × ReqCode × List Byte)
  | .readStatus h => some (h, .readStatus, [])
  | .start h => some (h, .start, [])
  | .stop h => some (h, .stop, [])
  | .hold h => some (h, .hold, [])
  | .release h => some (h, .release, [])
  | .cellReset h => some (h, .cellReset, [])
  | .writeNodeSettings h n i m => some (h, .writeNodeSettings, [n] ++ halfBytes i ++ [m])
  | .writeSlotMap h f es => some (h, .writeSlotMap, f :: es.flatMap RawMapEntry.bytes)
  | .readSlotMap h f n => some (h, .readSlotMap, [f, n])
  | .writeChannel h c st l g w => some (h, .writeChannel, [c, st, l, g, w])
  | .readChannel h c => some (h, .readChannel, [c])
  | .writePair h a b => some (h, .writePair, [a, b])
  | .clearPair h c => some (h, .clearPair, [c])
  | .setServiceOut h c a => some (h, .setService, [c, a])
  | .setServiceIn h c => some (h, .setService, [c, 1])
  | .writeEntries h st f es => some (h, .writeEntries, st :: f :: es.flatMap RawEntry.bytes)
  | .readEntries h b st f n => some (h, .readEntries, [b, st, f, n])
  | .enableStyle h st f => some (h, .enableStyle, [st, f])
  | .copyBank h => some (h, .copyBank, [])
  | .commit h => some (h, .commit, [])
  | .disarm h => some (h, .disarm, [])
  | .abort h => some (h, .abort, [])
  | .writeCurve h i c1 c2 c3 c4 b1 b2 b3 b4 =>
    some (h, .writeCurve, [i] ++ halfBytes c1 ++ halfBytes c2 ++ halfBytes c3 ++ halfBytes c4 ++ [b1, b2, b3, b4])
  | .readCurve h i => some (h, .readCurve, [i])
  | .writeGun h c g k d gr n dp cp =>
    some (h, .writeGun, [c, g, k] ++ halfBytes d ++ halfBytes gr ++ [n, dp, cp])
  | .writeWear h c g w d => some (h, .writeWear, [c, g] ++ halfBytes w ++ [d])
  | .readWear h c g => some (h, .readWear, [c, g])
  | .readTracking h f => some (h, .readTracking, [f])
  | .retrackLoad h rs => some (h, .retrackLoad, rs.flatMap RawRetrack.bytes)
  | .retrackApply h => some (h, .retrackApply, [])
  | .readLog h => some (h, .readLog, [])
  | .clearLog h => some (h, .clearLog, [])
  | .clearAlarms h m => some (h, .clearAlarms, [m])
  | .testStart h p => some (h, .testStart, [p])
  | .testStop h => some (h, .testStop, [])
  | .testInject h => some (h, .testInject, [])
  | .readTestCounts h => some (h, .readTestCounts, [])
  | _ => none

/-- The header slot of a request addressed to node `address`, or broadcast to the nodes of `nodes` (12.2). -/
def requestHeader (address : BitVec 4) (nodes : Half) (h : ReqHead) (k : ReqCode) (len : Nat) : Data7 :=
  { b0 := match h.via with
      | .addressed => address.setWidth 8
      | .broadcast => 0xFF
    b1 := hiByte nodes, b2 := loByte nodes, b3 := k.byte, b4 := h.tag, b5 := byteOf len, b6 := 0 }

/-- The frame's slots hold the request: the header in the slot of MGMT index 0, and the payload in the slots
of indices 1 to 7, as many as its length needs, all within the sweep (9.1, R190). -/
def Carried (m : SlotMap) (sls : List Slot) (address : BitVec 4) (nodes : Half) (h : ReqHead) (k : ReqCode)
    (p : List Byte) : Prop :=
  (∃ n, m.slotOf (.mgmt 0) = some n ∧ sls[n]? = some (requestHeader address nodes h k p.length).toSlot) ∧
  ∀ i : Fin 8, i ≠ 0 → 7 * (i.val - 1) < p.length →
    ∃ n, m.slotOf (.mgmt i) = some n ∧ sls[n]? = some (data7Of (p.drop (7 * (i.val - 1)))).toSlot

/-! ### Bodies -/

/-- A body record without its masks. -/
def Body.bare (b : Body) : Body := { b with resolved := 0, done := 0, owed := 0 }

/-- The bodies settled one after another, station by station, each for every present channel whose reach it stands in
(R63, R64): an arrival's reach is the pre-select point, a catch-up's the window. -/
def settledWhere (reach : ChanNo → Nat → Prop) [∀ c k, Decidable (reach c k)] (s : State) : State :=
  (List.range s.node.stations).foldl
    (fun u k => allChannels.foldl
      (fun u c => if reach c k ∧ present s c = true then settle c k u else u) u) s

/-! ### Passes -/

/-- No request of this sweep's outbound pass is meant for this node: the header slot is not received, or its check
fails, or it names neither this node nor a set of nodes that holds it (R160, R161). -/
def NoRequest (m : SlotMap) (sls : List Slot) (address : BitVec 4) : Prop :=
  ∀ x, slotFor m sls (.mgmt 0) = some x → x.2.ok = true → viaOf address x.2.data = none

/-- Two states of one pass that differ at most in what a selection start, the watch, the path test and the
fault log change: they agree on the tracking unit, the banks, the roster, the wear records, node control and every
pending list. -/
def SameTables (s t : State) : Prop :=
  t.track = s.track ∧ t.bank = s.bank ∧ t.chans = s.chans ∧ t.pairs = s.pairs ∧ t.wear = s.wear ∧ t.curves = s.curves ∧
  t.node = s.node ∧ t.sweep.mapInForce = s.sweep.mapInForce ∧ ∀ c, (seqOf t c).list = (seqOf s c).list

/-! ### Invariants -/

/-- R115: a curve with strictly ascending counts from at least 1 and boosts that do not decrease, up to 250. -/
def CurveOk (k : Curve) : Prop :=
  1 ≤ k.c1.toNat ∧ k.c1.toNat < k.c2.toNat ∧ k.c2.toNat < k.c3.toNat ∧ k.c3.toNat < k.c4.toNat ∧
  k.b1.toNat ≤ k.b2.toNat ∧ k.b2.toNat ≤ k.b3.toNat ∧ k.b3.toNat ≤ k.b4.toNat ∧ k.b4.toNat ≤ 250

/-- R115: every stored curve is a curve of R115. -/
def CurvesWf (s : State) : Prop := ∀ i : Fin 4, CurveOk s.curves[i.val]

/-- R138, R140: no role other than PASS and TEST stands in two slots, and some slot is MGMT of index 0. -/
def MapOk (m : SlotMap) : Prop :=
  (∀ i j : Fin 183, m[i.val] = m[j.val] → i = j ∨ m[i.val] = .pass ∨ m[i.val] = .test) ∧
  ∃ i : Fin 183, m[i.val] = .mgmt 0

/-- R138, R140: the stored map and the map in force are legal. -/
def MapsWf (s : State) : Prop := MapOk s.sweep.storedMap ∧ ∀ m, s.sweep.mapInForce = some m → MapOk m

/-- R7, R42, R43: S is 1 to 16; every channel stands at a station below S, with a lead of at most 3 and at most its
station, and a select watch that is not 0. -/
def RosterWf (s : State) : Prop :=
  1 ≤ s.node.stations ∧ s.node.stations ≤ 16 ∧
  ∀ c, (chanRec s c).station < s.node.stations ∧ (chanRec s c).lead ≤ 3 ∧ (chanRec s c).lead ≤ (chanRec s c).station ∧
    (chanRec s c).selectWatch ≠ 0

/-- R48: a pair is two different channels of equal station and equal lead, and no channel stands in two pairs. -/
def PairsWf (s : State) : Prop :=
  (s.pairs.flatMap fun p => [p.1, p.2]).Nodup ∧
  ∀ p ∈ s.pairs, (chanRec s p.1).station = (chanRec s p.2).station ∧ (chanRec s p.1).lead = (chanRec s p.2).lead

/-- R6, R7, R17: the tracking queue and the retrack image have one position for each station, and at most four
announcements wait. -/
def QueuesWf (s : State) : Prop :=
  s.track.queue.length = s.node.stations ∧ s.track.image.length = s.node.stations ∧ s.track.announced.length ≤ 4

/-- R9, R10, R12, R15: a body record's done and owed masks share no channel and lie within its resolved mask; it is
EMPTY exactly for style 0 and then not UNRESOLVED; its UNCERTAIN flag is the tracking unit's. -/
def BodyOk (uncertain : Bool) (b : Body) : Prop :=
  b.done &&& b.owed = 0 ∧ b.done &&& b.resolved = b.done ∧ b.owed &&& b.resolved = b.owed ∧
  b.empty = (b.style == 0) ∧ (b.empty = true → b.unresolved = false) ∧ b.uncertain = uncertain

/-- R12, R17: every body record of the queue is well kept, and no retrack record has a channel in both masks. -/
def MarksWf (s : State) : Prop :=
  (∀ b, some b ∈ s.track.queue → BodyOk s.track.uncertain b) ∧
  ∀ r, some r ∈ s.track.image → r.done &&& r.owed = 0

/-- R147, R152, R153: RUN and HELD know their tracking certain, SUSPENDED knows it uncertain; the hold latch is clear
in RUN and set in HELD. -/
def NodeWf (s : State) : Prop :=
  match s.node.state with
  | .config => True
  | .run => s.track.uncertain = false ∧ s.node.latch = false
  | .held => s.track.uncertain = false ∧ s.node.latch = true
  | .suspended => s.track.uncertain = true

/-- R34: while a copy runs no commit is armed and no body is bound to the staging bank. -/
def CopyWf (s : State) : Prop := s.bank.busy = true → s.bank.armed = false ∧ stagingInUse s = false

/-- R112, R120: a gun's flags are those of its counts, both clear while the gun is not counted. -/
def GunOk (counted : Bool) (g : GunRec) : Prop :=
  (g.due = true ↔ counted = true ∧ g.threshold ≠ 0 ∧ g.threshold.toNat ≤ g.weld.toNat) ∧
  (g.overdue = true ↔
    counted = true ∧ g.threshold ≠ 0 ∧ min 65535 (g.threshold.toNat + g.grace.toNat) ≤ g.weld.toNat)

/-- R112, R120, R121: the flags of every gun, and the roster's overdue factor, are those of the counts. -/
def WearWf (s : State) : Prop :=
  ∀ c, GunOk true (wearOf s c).gun1 ∧ GunOk (chanRec s c).twoGuns (wearOf s c).gun2 ∧
    ((chanRec s c).overdue = true ↔
      (wearOf s c).gun1.overdue = true ∨ (chanRec s c).twoGuns = true ∧ (wearOf s c).gun2.overdue = true)

/-- R86, R91, R94, R101: the command is that of the current job: its selection number and, by the job's kind, its
program, gun, spots, tag and COVER flag. A BODY job runs on the head of the pending list. -/
def JobOk (q : Seq) : Prop :=
  match q.job with
  | none => True
  | some (.body _ n) =>
    q.cmd.sel = n ∧ q.cmd.kind = .body ∧
    ∃ r rest, q.list = r :: rest ∧ q.cmd.program = r.program ∧ q.cmd.gun = r.gun ∧ q.cmd.spots = r.spots ∧
      q.cmd.tag = r.tag ∧ q.cmd.cover = (r.role == .cover)
  | some (.orphan p g t n) =>
    q.cmd.sel = n ∧ q.cmd.kind = .body ∧ q.cmd.program = p ∧ q.cmd.gun = g ∧ q.cmd.tag = t
  | some (.maint _ k g p n) =>
    q.cmd.sel = n ∧ q.cmd.kind = k.kind ∧ q.cmd.program = p ∧ q.cmd.gun = g ∧ q.cmd.boost = 0 ∧ q.cmd.spots = 0 ∧
    q.cmd.tag = 0 ∧ q.cmd.cover = false

/-- R86, R90, R91, R94: every sequencer's command is its job's, and its reply-loss count is below the limit. -/
def SeqsWf (s : State) : Prop := ∀ c, JobOk (seqOf s c) ∧ (seqOf s c).lossCount < 8

/-- R177, R181, R183: out of reset, CHECK is set while the log holds a record, TRACK_LOST while tracking is uncertain
and TEST_ERROR while the bit-error count is not 0; an empty log has no further errors. -/
def AlarmsWf (s : State) : Prop :=
  (s.report.log = none → s.report.further = 0) ∧
  (s.pins.inReset = false →
    (s.report.log.isSome = true → alarmed s .check = true) ∧
    (s.track.uncertain = true → alarmed s .trackLost = true) ∧
    (s.path.bitErrors ≠ 0 → alarmed s .testError = true))

end Sys2Proof.Machine
end

