-- ==== Sys2Proof/Certificates/Slice0/Obligations.lean ====
section
/-! DEFINITION. The statements for the provers, block by block of the manual. A request statement says the whole state
after the request: `noticed h s` is `s` after the header was read, `answered` adds the tag and the response. -/

section

open Sys2Proof Sys2Proof.Machine

/-! ### The queue and the commands -/

/-- Log 7: a step runs the front command on the state with the queue's rest; an empty queue idles. The queue and the
idle step are the model's own (log 7). -/
def Obligations.StepRunsFrontCommand : Prop :=
  ∀ (c : Instr) (q : List Instr) (s : State),
    step { s with pending := c :: q } = exec c { s with pending := q } ∧
    step { s with pending := [] } = .next { s with pending := [] }

/-- No command stops the part. None touches the queue of waiting commands, which is the model's own (log 7; kept at
power-on by log 24): that clause is the model's choice. -/
def Obligations.EveryCommandReachesNextState : Prop :=
  ∀ (i : Instr) (s : State), ∃ t, exec i s = .next t ∧ t.pending = s.pending

/-- R162, R163, R165: every row that is a request is the request its payload bytes spell, taken by the management
agent; a code that 9.6 does not define is answered UNKNOWN. A request whose tag is the last executed one, or 0, is not
executed: nothing changes but what an addressed header does to the outstanding sweep. -/
def Obligations.RequestRowsAreTheirPayloads : Prop :=
  (∀ (i : Instr) (h : ReqHead) (k : ReqCode) (p : List Byte) (s : State), carries i = some (h, k, p) →
    (Taken h s → k.allows p.length = true →
      exec i s = .next (answered h k.byte (serveRequest k p (noticed h s)).result
        (serveRequest k p (noticed h s)).payload (serveRequest k p (noticed h s)).state)) ∧
    (Taken h s → k.allows p.length = false → exec i s = .next (answered h k.byte .length [] (noticed h s))) ∧
    (s.pins.inReset = false → (h.tag = 0 ∨ h.tag = s.mgmt.lastTag) → exec i s = .next (noticed h s))) ∧
  ∀ (h : ReqHead) (code : Byte) (s : State), reqCodeOf code = none →
    (Taken h s → exec (.unknownRequest h code) s = .next (answered h code .unknown [] (noticed h s))) ∧
    (s.pins.inReset = false → (h.tag = 0 ∨ h.tag = s.mgmt.lastTag) →
      exec (.unknownRequest h code) s = .next (noticed h s))

/-- 9.1 to 9.3: a request that stands whole and clean in the MGMT slots of an outbound pass is the request its row
is, for every row that is a request with a non-zero tag and a payload its code allows, addressed to this node or a
broadcast that selects it; and a pass that carries such a request with a new tag executes it: its tag and code are
recorded, and an addressed one makes the return pass carry the response. A header with a bad check is logged; a header
for another node is no request; a new request with an undefined code is answered UNKNOWN, one with a length its code does
not allow or with a payload slot unmapped or beyond the sweep LENGTH; one with a payload slot whose check fails is not
taken and each such slot is logged (R142, R160 to R163), in an order that is the free value of log 3. -/
def Obligations.CarriedRequestIsItsRow : Prop :=
  (∀ (i : Instr) (h : ReqHead) (k : ReqCode) (p : List Byte) (nodes : Half) (s : State),
    carries i = some (h, k, p) → h.tag ≠ 0 → k.allows p.length = true →
    (h.via = .broadcast → nodes.getLsbD s.node.address.toNat = true) → s.pins.inReset = false →
    (∀ (key : Nat → Nat) (m : SlotMap) (sweep : Half) (sls : List Slot), Carried m sls s.node.address nodes h k p →
      exec i s = .next (requestEvent key m sweep sls { s with sent := [] })) ∧
    ∀ (f : Frame) (n : Half) (z : SizeCode), s.sweep.closure = none → headerOf f.payload = some (n, z) →
      Carried s.sweep.storedMap (slotsOf f.payload) s.node.address nodes h k p → h.tag ≠ s.mgmt.lastTag →
      ∃ t, exec (.outboundPass f) s = .next t ∧ t.mgmt.lastTag = h.tag ∧
        (h.via = .broadcast → t.mgmt.stored = s.mgmt.stored) ∧
        (h.via = .addressed → t.mgmt.stored.tag = h.tag ∧ t.mgmt.stored.code = k.byte ∧
          t.sweep.outstanding.map Outstanding.addressed = some true)) ∧
  ∀ (key : Nat → Nat) (m : SlotMap) (n : Half) (sls : List Slot) (s : State) (x : Nat × Slot),
    slotFor m sls (.mgmt 0) = some x →
    let d := x.2.data
    let t := requestEvent key m n sls s
    let logged (u : State) (y : Nat × Slot) : State :=
      logError { kind := .slotCheck, sweep := n, slot := y.1, pass := .outbound, raw := y.2 } u
    let node := s.node.address
    let bcast := d.b0 = 0xFF ∧ (d.b1 ++ d.b2).getLsbD node.toNat = true
    (x.2.ok = false → t = logged s x) ∧
    (x.2.ok = true → d.b0 ≠ node.setWidth 8 → ¬bcast → t = s) ∧
    ∀ h : ReqHead, x.2.ok = true → d.b4 = h.tag →
      (h.via = .addressed → d.b0 = node.setWidth 8) → (h.via = .broadcast → bcast) →
      let seen : State := { noticed h s with sent := s.sent }
      let new := h.tag ≠ 0 ∧ h.tag ≠ s.mgmt.lastTag
      let len := d.b5.toNat
      let covered (i : Fin 8) : Prop := i ≠ 0 ∧ 7 * (i.val - 1) < len
      (¬new → t = seen) ∧
      (new → reqCodeOf d.b3 = none → t = answered h d.b3 .unknown [] seen) ∧
      ∀ k : ReqCode, new → reqCodeOf d.b3 = some k →
        (k.allows len = false → t = answered h k.byte .length [] seen) ∧
        (k.allows len = true → (∃ i, covered i ∧ slotFor m sls (.mgmt i) = none) →
          t = answered h k.byte .length [] seen) ∧
        (k.allows len = true → (∀ i, covered i → slotFor m sls (.mgmt i) ≠ none) →
          (∃ i y, covered i ∧ slotFor m sls (.mgmt i) = some y ∧ y.2.ok = false) →
          ∃ l : List (Nat × Slot), l.Nodup ∧
            (∀ y, y ∈ l ↔ ∃ i, covered i ∧ slotFor m sls (.mgmt i) = some y ∧ y.2.ok = false) ∧
            t = l.foldl logged seen)

/-! ### Reset and pins (08) -/

/-- R156: RESET_N low ends the sweep, the watch, the copy and every job and clears the summary, so ALARM_N is high
(R178); all else is held (log 25: the model's reading of 'ends without completion and leaves no trace'). While it
is low no command but the pins and links does anything: no frame is sent, nothing is processed. That pins and
links are still followed while RESET_N is low is the model's reading (log 10), and a RESET_N_LOW that repeats the
level acts all the same (log 11, DESIGN CHOICE). -/
def Obligations.ResetFreezesPart : Prop :=
  (∀ s : State, ∃ t, exec .resetNLow s = .next t ∧ alarmN t = true ∧
    t = { s with
      pins := { s.pins with inReset := true }
      sweep := { s.sweep with outstanding := none, closure := none, watch := none }
      bank := { s.bank with copy := .idle }
      seqs := s.seqs.map fun q => { q with job := none }
      report := { s.report with alarms := 0 }
      path := { s.path with expected := [] }
      sent := [] }) ∧
  ∀ s : State, s.pins.inReset = true →
    let follows (i : Instr) (p : Pins) : Prop := exec i s = .next { s with sent := [], pins := p }
    follows .holdNFallingEdge { s.pins with holdN := false } ∧
    follows .holdNRisingEdge { s.pins with holdN := true } ∧
    follows .portALinkDown { s.pins with portA := false } ∧ follows .portALinkUp { s.pins with portA := true } ∧
    follows .portBLinkDown { s.pins with portB := false } ∧ follows .portBLinkUp { s.pins with portB := true } ∧
    ∀ i : Instr, i ≠ .resetNLow → (∀ straps, i ≠ .powerOnReset straps) →
      i ∉ ([.portALinkDown, .portALinkUp, .portBLinkDown, .portBLinkUp, .holdNFallingEdge, .holdNRisingEdge] : List Instr) →
      follows i s.pins

/-- R22, R40, R59, R115, R129, R146, R156, R157, R159, R165, R183, R188: every block at its power-on values, the
address from the straps, and the hold latch with its alarm bit when HOLD_N is low. That the level of HOLD_N is
kept and both port links stand DOWN is the model's reading (log 24). -/
def Obligations.PowerOnResetValues : Prop :=
  ∀ (straps : BitVec 4) (s : State), ∃ t, exec (.powerOnReset straps) s = .next t ∧
    t.pins = { inReset := false, holdN := s.pins.holdN, portA := false, portB := false } ∧
    t.node =
      { state := .config, latch := !s.pins.holdN, stations := 8, interval := 50, logMode := .first, address := straps } ∧
    (∀ i : Fin 183, t.sweep.storedMap[i.val] = if h : i.val < 8 then .mgmt ⟨i.val, h⟩ else .pass) ∧
    t.sweep.mapInForce = none ∧ t.sweep.outstanding = none ∧ t.sweep.closure = none ∧ t.sweep.watch = none ∧
    t.sweep.link = .lost ∧
    t.track.baseline = none ∧ t.track.announced = [] ∧ t.track.queue = List.replicate 8 none ∧
    t.track.image = List.replicate 8 none ∧ t.track.uncertain = false ∧
    (∀ (b : BankIx) (n : Fin 63), ((t.bank.get b)[n.val]).enabled = false ∧
      ∀ c : Fin 32, ((t.bank.get b)[n.val]).entries[c.val] = Entry.reset) ∧
    t.bank.live = .bank0 ∧ t.bank.armed = false ∧ t.bank.torn = false ∧ t.bank.copy = .idle ∧ t.bank.result = .none ∧
    (∀ c, chanRec t c =
      { station := 0, lead := 0, twoGuns := false, selectWatch := 200
        failed := none, out := false, overdue := false }) ∧
    t.pairs = [] ∧
    (∀ c g, (wearOf t c).get g =
      { weld := 0, dresses := 0, curve := 0, threshold := 0, grace := 0, capLimit := 0
        dressProgram := 0, capProgram := 0, due := false, overdue := false }) ∧
    (∀ i : Fin 4, t.curves[i.val] =
      { c1 := 16384, c2 := 32768, c3 := 49152, c4 := 65535, b1 := 0, b2 := 0, b3 := 0, b4 := 0 }) ∧
    t.mgmt = { lastTag := 0, stored := { code := 0, tag := 0, result := .ok, payload := [] } } ∧
    t.report =
      { alarms := if s.pins.holdN then 0 else 0x20
        log := none, further := 0, exit := { tag := 0, outcome := .complete, owed := 0 }, exitCount := 0 } ∧
    t.path =
      { running := false, pattern := .zeros, gen := BitVec.allOnes 15, expected := []
        inject := false, bitErrors := 0, lostSweeps := 0 }

/-- R110, with the command values of R86. -/
def Obligations.PowerOnResetSequencerValues : Prop :=
  ∀ (straps : BitVec 4) (s : State), ∃ t, exec (.powerOnReset straps) s = .next t ∧
    ∀ c, seqOf t c =
      { list := [], job := none
        cmd := { program := 0, sel := 0, kind := .idle, gun := .gun1, boost := 0, spots := 0, tag := 0, cover := false }
        history := none, stable := none, watchCount := 0, lossCount := 0 }

/-- R150, R151: a falling edge of HOLD_N and a HOLD request each set the latch and the HOLD alarm bit and move RUN to
HELD; a rising edge changes no state but the level read; RELEASE is refused ACTIVE while HOLD_N is low, and
otherwise clears the latch and moves HELD to RUN. An edge that repeats the level already held acts all the same
(log 11, DESIGN CHOICE). -/
def Obligations.HoldLatchIsSetAndReleased : Prop :=
  (∀ s : State, s.pins.inReset = false →
    exec .holdNFallingEdge s = .next { s with
      sent := [], pins := { s.pins with holdN := false }
      node := { s.node with latch := true, state := if s.node.state = .run then .held else s.node.state }
      report := { s.report with alarms := s.report.alarms ||| 0x20 } } ∧
    exec .holdNRisingEdge s = .next { s with sent := [], pins := { s.pins with holdN := true } }) ∧
  ∀ (h : ReqHead) (s : State), Taken h s →
    exec (.hold h) s = .next (answered h 0x04 .ok [] { noticed h s with
      node := { s.node with latch := true, state := if s.node.state = .run then .held else s.node.state }
      report := { s.report with alarms := s.report.alarms ||| 0x20 } }) ∧
    (s.pins.holdN = false → exec (.release h) s = .next (answered h 0x05 .active [] (noticed h s))) ∧
    (s.pins.holdN = true →
      exec (.release h) s = .next (answered h 0x05 .ok [] { noticed h s with
        node := { s.node with latch := false, state := if s.node.state = .held then .run else s.node.state } }))

/-! ### START, STOP, CELL RESET and the node settings (08) -/

/-- R148, R64: an accepted START enters RUN, or HELD with the latch set, and settles for every present channel every
body in its window. Besides the node state only pending lists, with the jobs a list's change withdraws, and marks
on body records change. The order of the settlements is one of those the spec calls equal (log 29). -/
def Obligations.StartEntersRunAndCatchesUp : Prop :=
  ∀ (h : ReqHead) (s : State), Taken h s → s.node.state = .config → s.track.uncertain = false →
    s.sweep.storedMap.holds .line = true →
    let u : State := { noticed h s with node := { s.node with state := if s.node.latch then .held else .run } }
    let t := settledWhere (fun c k => (chanRec s c).preselect ≤ k ∧ k ≤ (chanRec s c).station) u
    exec (.start h) s = .next (answered h 0x02 .ok [] t) ∧
    t = { u with track := { s.track with queue := t.track.queue }, seqs := t.seqs } ∧
    t.track.queue.map (Option.map Body.bare) = s.track.queue.map (Option.map Body.bare) ∧
    (QueuesWf s → MarksWf s → ∀ (c : ChanNo) (k : Nat) (b : Body), present s c = true → k < s.node.stations →
      (chanRec s c).preselect ≤ k → k ≤ (chanRec s c).station → t.track.queue[k]? = some (some b) →
      b.passedOver = false → inMask b.resolved c = true)

/-- R149, R82: STOP settles every list with owed marks: a RUNNING body job becomes an orphan, a SELECTING or LOADED
one is withdrawn, orphans and maintenance jobs run on. In CONFIG it changes nothing. -/
def Obligations.StopSettlesLists : Prop :=
  ∀ (h : ReqHead) (s : State), Taken h s →
    (s.node.state = .config → exec (.stop h) s = .next (answered h 0x03 .ok [] (noticed h s))) ∧
    (s.node.state ≠ .config → ∃ qs : Vector Seq 32,
      exec (.stop h) s = .next (answered h 0x03 .ok [] { noticed h s with
        node := { s.node with state := .config }
        track := { s.track with queue := s.track.queue.map (Option.map fun b => b.mark .owed (heldAccounts s b.id)) }
        seqs := qs }) ∧
      ∀ c : ChanNo,
        qs[c.val] =
          match (seqOf s c).job, (seqOf s c).list with
          | some (.body .running n), r :: _ => { seqOf s c with list := [], job := some (.orphan r.program r.gun r.tag n) }
          | some (.body _ _), _ =>
            { seqOf s c with list := [], job := none, watchCount := 0, cmd := idleCommand (seqOf s c).cmd.sel }
          | _, _ => { seqOf s c with list := [] })

/-- R154 with R22, R37, R111, R183, R188: what CELL RESET clears; everything else is kept. -/
def Obligations.CellResetClearsRunningState : Prop :=
  ∀ (h : ReqHead) (s : State), Taken h s →
    exec (.cellReset h) s = .next (answered h 0x06 .ok [] { noticed h s with
      node := { s.node with state := .config }
      track := { s.track with
        baseline := none, announced := [], queue := List.replicate s.node.stations none
        image := List.replicate s.node.stations none, uncertain := false }
      bank := { s.bank with
        armed := false, copy := .idle, torn := s.bank.torn || s.bank.busy
        result := if s.bank.busy then .aborted else s.bank.result }
      seqs := s.seqs.map fun q =>
        { q with list := [], job := none, cmd := idleCommand q.cmd.sel, watchCount := 0, lossCount := 0 }
      report := { s.report with alarms := 0, log := none, further := 0 }
      path := { s.path with running := false, expected := [], inject := false, bitErrors := 0, lostSweeps := 0 } })

/-- R158, R7, R145: the three checks of WRITE NODE SETTINGS in order, and what an accepted one stores. -/
def Obligations.NodeSettingsAreCheckedAndStored : Prop :=
  ∀ (h : ReqHead) (n : Byte) (i : Half) (m : Byte) (s : State), Taken h s →
    let reply r := exec (.writeNodeSettings h n i m) s = .next (answered h 0x07 r [] (noticed h s))
    let range := n = 0 ∨ 16 < n.toNat ∨ 1 < m.toNat
    let state := n.toNat ≠ s.node.stations ∧ (s.node.state ≠ .config ∨ ∃ b, some b ∈ s.track.queue)
    let conflict := n.toNat ≠ s.node.stations ∧ ∃ c, n.toNat ≤ (chanRec s c).station
    (range → reply .range) ∧ (¬range → state → reply .state) ∧ (¬range → ¬state → conflict → reply .conflict) ∧
    (¬range → ¬state → ¬conflict →
      exec (.writeNodeSettings h n i m) s = .next (answered h 0x07 .ok [] { noticed h s with
        node := { s.node with stations := n.toNat, interval := i, logMode := if m = 0 then .first else .latest }
        track := if n.toNat = s.node.stations then s.track
          else { s.track with queue := List.replicate n.toNat none, image := List.replicate n.toNat none }
        sweep := if i = 0 then { (noticed h s).sweep with watch := none } else (noticed h s).sweep }))

/-- The checks of START (R148), and the requests that CONFIG alone accepts (R42, R49, R50, R140) or that RUN and HELD
refuse (R17, R18): each refused request changes nothing. -/
def Obligations.NodeStateRefusals : Prop :=
  ∀ (h : ReqHead) (s : State), Taken h s →
    let reply (i : Instr) (code : Byte) (r : Result) := exec i s = .next (answered h code r [] (noticed h s))
    (s.node.state ≠ .config ∨ s.track.uncertain = true → reply (.start h) 0x02 .state) ∧
    (s.node.state = .config → s.track.uncertain = false → s.sweep.storedMap.holds .line = false →
      reply (.start h) 0x02 .conflict) ∧
    (s.node.state ≠ .config →
      (∀ f es, 1 ≤ es.length → es.length ≤ 24 → reply (.writeSlotMap h f es) 0x10 .state) ∧
      (∀ c st l g w, reply (.writeChannel h c st l g w) 0x18 .state) ∧
      (∀ a b, reply (.writePair h a b) 0x1A .state) ∧ ∀ c, reply (.clearPair h c) 0x1B .state) ∧
    (s.node.state = .run ∨ s.node.state = .held →
      (∀ rs, 1 ≤ rs.length → rs.length ≤ 3 → reply (.retrackLoad h rs) 0x31 .state) ∧ reply (.retrackApply h) 0x32 .state)

/-- R167 with 12.2 and 12.3: READ STATUS gives twelve bytes and changes nothing; the fields of STATUS byte 0, of the
queue depth and result byte, and of READ STATUS byte 4. That bytes 5 and 6 are 0 while no baseline exists is the
model's reading and no rule of the spec (log 37). -/
def Obligations.ReadStatusPayload : Prop :=
  (∀ (h : ReqHead) (s : State), Taken h s →
    exec (.readStatus h) s = .next (answered h 0x01 .ok
      [s.node.address.setWidth 8, statusFlags s, s.report.alarms, statusLinks s, lastTransfer s, lastSequence s,
       depthAndResult s, byteOf (failedCount s), byteOf s.node.stations, hiByte s.node.interval, loByte s.node.interval,
       s.report.exitCount.setWidth 8] (noticed h s))) ∧
  ∀ s : State,
    (statusFlags s).extractLsb' 0 2 =
      (match s.node.state with | .config => 0 | .run => 1 | .held => 2 | .suspended => 3 : BitVec 2) ∧
    (statusFlags s).getLsbD 2 = s.node.latch ∧ (statusFlags s).getLsbD 3 = s.track.uncertain ∧
    (statusFlags s).getLsbD 4 = (s.bank.live == .bank1) ∧ (statusFlags s).getLsbD 5 = s.bank.armed ∧
    (statusFlags s).getLsbD 6 = (s.bank.copy != .idle) ∧ (statusFlags s).getLsbD 7 = s.bank.torn ∧
    (s.track.announced.length ≤ 4 → ((depthAndResult s).extractLsb' 0 3).toNat = s.track.announced.length ∧
      (depthAndResult s).extractLsb' 4 2 =
        (match s.bank.result with | .none => 0 | .done => 1 | .aborted => 2 : BitVec 2)) ∧
    (statusLinks s).getLsbD 0 = s.track.baseline.isSome ∧ (statusLinks s).getLsbD 1 = (s.sweep.link == .up) ∧
    (statusLinks s).getLsbD 2 = s.pins.portA ∧ (statusLinks s).getLsbD 3 = s.pins.portB ∧
    (statusLinks s).getLsbD 4 = (s.node.logMode == .latest)

/-! ### The stored slot map (07) -/

/-- R140: the three checks of WRITE SLOT MAP in order, and the map an accepted one stores: the named entries
replaced, the others kept. -/
def Obligations.WriteSlotMapStoresLegalMap : Prop :=
  ∀ (h : ReqHead) (f : Byte) (es : List RawMapEntry) (m : SlotMap) (s : State),
    Taken h s → 1 ≤ es.length → es.length ≤ 24 →
    let reply r := exec (.writeSlotMap h f es) s = .next (answered h 0x10 r [] (noticed h s))
    let range := f = 0 ∨ 184 < f.toNat + es.length ∨ ∃ e ∈ es, roleOf e = none
    (s.node.state ≠ .config → reply .state) ∧
    (s.node.state = .config → range → reply .range) ∧
    (s.node.state = .config → ¬range →
      (∀ i : Fin 183, some m[i.val] =
        if h : f.toNat ≤ i.val + 1 ∧ i.val + 1 - f.toNat < es.length then roleOf es[i.val + 1 - f.toNat]
        else some s.sweep.storedMap[i.val]) →
      (¬MapOk m → reply .conflict) ∧
      (MapOk m → exec (.writeSlotMap h f es) s = .next (answered h 0x10 .ok [] { noticed h s with
        sweep := { (noticed h s).sweep with storedMap := m } })))

/-- R141: READ SLOT MAP. -/
def Obligations.ReadSlotMapShowsStoredMap : Prop :=
  ∀ (h : ReqHead) (f n : Byte) (s : State), Taken h s →
    let bad := f = 0 ∨ n = 0 ∨ 24 < n.toNat ∨ 184 < f.toNat + n.toNat
    (bad → exec (.readSlotMap h f n) s = .next (answered h 0x11 .range [] (noticed h s))) ∧
    (¬bad → exec (.readSlotMap h f n) s = .next (answered h 0x11 .ok
      (((s.sweep.storedMap.toList.drop (f.toNat - 1)).take n.toNat).flatMap roleBytes) (noticed h s)))

/-! ### The channel roster's requests (03) -/

/-- R42, R43, R44: WRITE CHANNEL in CONFIG: its checks, the record stored, and with a changed gun count the flags of
both guns and the overdue factor evaluated again. An overdue that turns an available channel out hands its loss. -/
def Obligations.WriteChannelStoresRecord : Prop :=
  ∀ (h : ReqHead) (ch st l g w : Byte) (s : State), Taken h s → s.node.state = .config →
    let reply r := exec (.writeChannel h ch st l g w) s = .next (answered h 0x18 r [] (noticed h s))
    let range := 31 < ch.toNat ∨ s.node.stations ≤ st.toNat ∨ 3 < l.toNat ∨ g = 0 ∨ 2 < g.toNat
    (range → reply .range) ∧
    (¬range → ∀ c : ChanNo, c.val = ch.toNat →
      let r : ChanRec := { chanRec s c with
        station := st.toNat, lead := min l.toNat st.toNat, twoGuns := g == 2, selectWatch := if w = 0 then 1 else w }
      let conflict := ∃ p, partner s c = some p ∧ ((chanRec s p).station ≠ r.station ∨ (chanRec s p).lead ≠ r.lead)
      let done t := exec (.writeChannel h ch st l g w) s =
        .next (answered h 0x18 .ok [st, byteOf (min l.toNat st.toNat), g, if w = 0 then 1 else w] t)
      let wr : ChanWear := { gun1 := (wearOf s c).gun1.evaluated true, gun2 := (wearOf s c).gun2.evaluated (g == 2) }
      let u := setChan c { r with overdue := wr.overdue (g == 2) } (setWear c wr (noticed h s))
      (conflict → reply .conflict) ∧
      (¬conflict → r.twoGuns = (chanRec s c).twoGuns → done (setChan c r (noticed h s))) ∧
      (¬conflict → r.twoGuns ≠ (chanRec s c).twoGuns →
        done (if available s c = true ∧ wr.overdue (g == 2) = true then loseService c .orderly u else u)))

/-- R58 with 12.3: READ CHANNEL gives ten bytes and changes nothing. -/
def Obligations.ReadChannelPayload : Prop :=
  ∀ (h : ReqHead) (ch : Byte) (s : State), Taken h s →
    (31 < ch.toNat → exec (.readChannel h ch) s = .next (answered h 0x19 .range [] (noticed h s))) ∧
    ∀ c : ChanNo, c.val = ch.toNat →
      let r := chanRec s c
      let q := seqOf s c
      exec (.readChannel h ch) s = .next (answered h 0x19 .ok
        [byteOf r.station, byteOf r.lead, if r.twoGuns then 2 else 1, r.selectWatch,
         (match partner s c with | some p => byteOf p.val | none => 0xFF),
         flagAt 0 (present s c) ||| flagAt 1 (available s c) ||| flagAt 2 r.out ||| flagAt 3 r.overdue,
         (match r.failed with
          | none => 0 | some .selectTimeout => 1 | some (.robotFault _) => 2 | some (.protocol _) => 3
          | some .replyLost => 4),
         (match r.failed with
          | some (.robotFault code) => code
          | some (.protocol .program) => 1 | some (.protocol .position) => 2 | some (.protocol .tag) => 3
          | some (.protocol .gun) => 4 | _ => 0),
         (match q.job with
          | none => 0
          | some (.body .selecting _) => 0x5 | some (.body .loaded _) => 0x6 | some (.body .running _) => 0x7
          | some (.orphan _ _ _ _) => 0x7
          | some (.maint .selecting .dress _ _ _) => 0x9 | some (.maint .loaded .dress _ _ _) => 0xA
          | some (.maint .running .dress _ _ _) => 0xB | some (.maint .selecting .cap _ _ _) => 0xD
          | some (.maint .loaded .cap _ _ _) => 0xE | some (.maint .running .cap _ _ _) => 0xF),
         byteOf q.list.length] (noticed h s))

/-- R49: WRITE PAIR. -/
def Obligations.WritePairIsChecked : Prop :=
  ∀ (h : ReqHead) (x y : Byte) (s : State), Taken h s →
    let reply r := exec (.writePair h x y) s = .next (answered h 0x1A r [] (noticed h s))
    (s.node.state ≠ .config → reply .state) ∧
    (s.node.state = .config → 31 < x.toNat ∨ 31 < y.toNat ∨ x = y → reply .range) ∧
    (s.node.state = .config → ∀ a b : ChanNo, a ≠ b → a.val = x.toNat → b.val = y.toNat →
      let conflict := (∃ p ∈ s.pairs, p.1 = a ∨ p.2 = a ∨ p.1 = b ∨ p.2 = b) ∨
        (chanRec s a).station ≠ (chanRec s b).station ∨ (chanRec s a).lead ≠ (chanRec s b).lead
      (conflict → reply .conflict) ∧
      (¬conflict → exec (.writePair h x y) s =
        .next (answered h 0x1A .ok [] { noticed h s with pairs := s.pairs ++ [(a, b)] })))

/-- R50: CLEAR PAIR removes the pair its channel belongs to. -/
def Obligations.ClearPairUnpairsBoth : Prop :=
  ∀ (h : ReqHead) (ch : Byte) (s : State), Taken h s →
    (s.node.state ≠ .config → exec (.clearPair h ch) s = .next (answered h 0x1B .state [] (noticed h s))) ∧
    (s.node.state = .config → 31 < ch.toNat →
      exec (.clearPair h ch) s = .next (answered h 0x1B .range [] (noticed h s))) ∧
    (s.node.state = .config → ∀ c : ChanNo, c.val = ch.toNat →
      exec (.clearPair h ch) s = .next (answered h 0x1B .ok [] { noticed h s with
        pairs := s.pairs.filter fun p => p.1 ≠ c ∧ p.2 ≠ c }) ∧
      (PairsWf s → ∀ d t, exec (.clearPair h ch) s = .next t → (d = c ∨ partner s c = some d) → partner t d = none))

/-- R56, R57, R54, R191: SET SERVICE. OUT on an available channel hands its ORDERLY loss; IN is refused NOT_READY
while a failed channel's stable reply is not IDLE, and clears both factors otherwise. -/
def Obligations.SetServiceSetsAndClearsFactors : Prop :=
  ∀ (h : ReqHead) (ch : Byte) (s : State), Taken h s →
    let range (i : Instr) := exec i s = .next (answered h 0x1C .range [] (noticed h s))
    let ok (i : Instr) t := exec i s = .next (answered h 0x1C .ok [] t)
    (31 < ch.toNat → range (.setServiceIn h ch) ∧ ∀ a, range (.setServiceOut h ch a)) ∧
    (∀ a : Byte, 1 < a.toNat → range (.setServiceOut h ch a)) ∧
    ∀ c : ChanNo, c.val = ch.toNat →
      let r := chanRec s c
      let u := setChan c { r with out := true } (noticed h s)
      let refused := r.failed.isSome = true ∧ ¬∃ d, (seqOf s c).stable = some d ∧ replyState d = some .idle
      (r.out = true → ok (.setServiceOut h ch 0) (noticed h s)) ∧
      (r.out = false → available s c = false → ok (.setServiceOut h ch 0) u) ∧
      (r.out = false → available s c = true → ok (.setServiceOut h ch 0) (loseService c .orderly u)) ∧
      (refused → exec (.setServiceIn h ch) s = .next (answered h 0x1C .notReady [] (noticed h s))) ∧
      (¬refused → ok (.setServiceIn h ch) (setChan c { r with failed := none, out := false } (noticed h s)))

/-! ### The style banks (02) -/

/-- R26: the gate of the three requests that change the staging bank: BUSY, ARMED, IN_USE in this order; a refused
request changes nothing. -/
def Obligations.GateGuardsStaging : Prop :=
  ∀ (h : ReqHead) (s : State), Taken h s →
    let all r :=
      (∀ st f es, 1 ≤ es.length → es.length ≤ 6 →
        exec (.writeEntries h st f es) s = .next (answered h 0x20 r [] (noticed h s))) ∧
      (∀ st f, exec (.enableStyle h st f) s = .next (answered h 0x22 r [] (noticed h s))) ∧
      exec (.copyBank h) s = .next (answered h 0x23 r [] (noticed h s))
    (s.bank.copy ≠ .idle → all .busy) ∧
    (s.bank.copy = .idle → s.bank.armed = true → all .armed) ∧
    (s.bank.copy = .idle → s.bank.armed = false → (∃ b, some b ∈ s.track.queue ∧ b.bank ≠ s.bank.live) → all .inUse)

/-- R27, R28: what WRITE ENTRIES and ENABLE STYLE store in the staging bank once the gate is open. That bit 3 of an
entry's last byte is not examined is the model's choice (log 36). -/
def Obligations.EditsReachStagingAlone : Prop :=
  ∀ (h : ReqHead) (st : Byte) (s : State), Taken h s → s.bank.copy = .idle → s.bank.armed = false →
    (∀ b, some b ∈ s.track.queue → b.bank = s.bank.live) →
    let old := s.bank.get s.bank.live.other
    let stored code bk (i : Instr) :=
      exec i s = .next (answered h code .ok [] { noticed h s with bank := s.bank.put s.bank.live.other bk })
    (∀ (f : Byte) (es : List RawEntry), 1 ≤ es.length → es.length ≤ 6 →
      let range := st = 0 ∨ 63 < st.toNat ∨ 32 < f.toNat + es.length ∨
        ∃ e ∈ es, 4 < (e.sel.extractLsb' 0 3).toNat ∨ (e.sel.extractLsb' 4 2 ≠ 1#2 ∧ e.sel.extractLsb' 4 2 ≠ 2#2)
      (range → exec (.writeEntries h st f es) s = .next (answered h 0x20 .range [] (noticed h s))) ∧
      (¬range → ∃ bk : Bank, stored 0x20 bk (.writeEntries h st f es) ∧ ∀ n : Fin 63,
        bk[n.val].enabled = old[n.val].enabled ∧ ∀ c : Fin 32, bk[n.val].entries[c.val] =
          if g : n.val + 1 = st.toNat ∧ f.toNat ≤ c.val ∧ c.val - f.toNat < es.length then
            let e := es[c.val - f.toNat]
            { base := e.base, baseSpots := e.baseSpots, option := Fin.ofNat 5 (e.sel.extractLsb' 0 3).toNat,
              variant := e.variant, variantSpots := e.variantSpots, backup := e.backup,
              backupSpots := e.backupSpots, gun := if e.sel.extractLsb' 4 2 = 1#2 then .gun1 else .gun2 }
          else old[n.val].entries[c.val])) ∧
    ∀ f : Byte,
      (st = 0 ∨ 63 < st.toNat → exec (.enableStyle h st f) s = .next (answered h 0x22 .range [] (noticed h s))) ∧
      ∀ i : Fin 63, i.val + 1 = st.toNat →
        stored 0x22 (old.set i.val { old[i.val] with enabled := f.getLsbD 0 }) (.enableStyle h st f)

/-- R29 with 12.3: READ ENTRIES. That bit 3 of an entry's last byte reads 0 is the model's choice (log 36). -/
def Obligations.ReadEntriesPayload : Prop :=
  ∀ (h : ReqHead) (bk st f n : Byte) (s : State), Taken h s →
    let reply r p := exec (.readEntries h bk st f n) s = .next (answered h 0x21 r p (noticed h s))
    let range := 1 < bk.toNat ∨ st = 0 ∨ 63 < st.toNat ∨ n = 0 ∨ 6 < n.toNat ∨ 32 < f.toNat + n.toNat
    (range → reply .range []) ∧
    (¬range →
      let b : BankIx := if bk = 0 then .bank0 else .bank1
      (b ≠ s.bank.live → s.bank.copy ≠ .idle → reply .busy []) ∧
      (b = s.bank.live ∨ s.bank.copy = .idle → ∀ i : Fin 63, i.val + 1 = st.toNat →
        let r := (s.bank.get b)[i.val]
        reply .ok ((if r.enabled then 1 else 0) ::
          ((r.entries.toList.drop f.toNat).take n.toNat).flatMap fun e =>
            [e.base, e.baseSpots, e.variant, e.variantSpots, e.backup, e.backupSpots,
             byteOf (e.option.val + 16 * gunNumber e.gun)])))

/-- R30, R33, R36, R34, R35: COMMIT, DISARM, ABORT, COPY BANK behind the gate, one COPY_STEP and the COPY_COMPLETION. -/
def Obligations.CommitAndCopy : Prop :=
  (∀ (h : ReqHead) (s : State), Taken h s →
    let goes (i : Instr) code r b := exec i s = .next (answered h code r [] { noticed h s with bank := b })
    (s.bank.copy ≠ .idle → goes (.commit h) 0x24 .busy s.bank) ∧
    (s.bank.copy = .idle → s.bank.armed = true → goes (.commit h) 0x24 .armed s.bank) ∧
    (s.bank.copy = .idle → s.bank.armed = false → s.bank.torn = true → goes (.commit h) 0x24 .torn s.bank) ∧
    (s.bank.copy = .idle → s.bank.armed = false → s.bank.torn = false →
      goes (.commit h) 0x24 .ok { s.bank with armed := true }) ∧
    goes (.disarm h) 0x25 .ok { s.bank with armed := false } ∧
    (s.bank.copy = .idle → goes (.abort h) 0x26 .ok s.bank) ∧
    (s.bank.copy ≠ .idle → goes (.abort h) 0x26 .ok { s.bank with copy := .idle, torn := true, result := .aborted }) ∧
    (s.bank.copy = .idle → s.bank.armed = false → (∀ b, some b ∈ s.track.queue → b.bank = s.bank.live) →
      goes (.copyBank h) 0x23 .accepted { s.bank with copy := .running 1, result := .none })) ∧
  ∀ s : State, s.pins.inReset = false →
    (∀ i : Fin 63, s.bank.copy = .running (i.val + 1) →
      exec .copyStep s = .next { s with
        sent := []
        bank := { s.bank.put s.bank.live.other
            ((s.bank.get s.bank.live.other).set i.val (s.bank.get s.bank.live)[i.val]) with
          copy := .running (i.val + 2) } }) ∧
    (s.bank.copy = .running 64 →
      exec .copyCompletion s = .next { s with
        sent := [], bank := { s.bank with copy := .idle, torn := false, result := .done } })

/-- R35: the 63 steps of a copy and its completion leave staging equal to the live bank, not torn, with the result
DONE; the live bank and everything outside the bank store are kept. -/
def Obligations.WholeCopyMakesBanksEqual : Prop :=
  ∀ s : State, s.pins.inReset = false → s.bank.copy = .running 1 →
    ∃ (run : Nat → State) (t : State), run 0 = s ∧ (∀ k < 63, exec .copyStep (run k) = .next (run (k + 1))) ∧
      exec .copyCompletion (run 63) = .next t ∧
      t = { s with
        sent := []
        bank := { s.bank.put s.bank.live.other (s.bank.get s.bank.live) with
          copy := .idle, torn := false, result := .done } }

/-! ### The wear unit's requests (06) -/

/-- R116: WRITE CURVE clamps the boosts, checks the whole curve and stores it whole or not at all. -/
def Obligations.WriteCurveStoresWholeCurve : Prop :=
  ∀ (h : ReqHead) (i : Byte) (c1 c2 c3 c4 : Half) (b1 b2 b3 b4 : Byte) (s : State), Taken h s →
    let cap (b : Byte) : Byte := if 250 < b.toNat then 250 else b
    let good := 1 ≤ c1.toNat ∧ c1.toNat < c2.toNat ∧ c2.toNat < c3.toNat ∧ c3.toNat < c4.toNat ∧
      (cap b1).toNat ≤ (cap b2).toNat ∧ (cap b2).toNat ≤ (cap b3).toNat ∧ (cap b3).toNat ≤ (cap b4).toNat
    (3 < i.toNat ∨ ¬good →
      exec (.writeCurve h i c1 c2 c3 c4 b1 b2 b3 b4) s = .next (answered h 0x28 .range [] (noticed h s))) ∧
    (good → ∀ k : Fin 4, k.val = i.toNat →
      exec (.writeCurve h i c1 c2 c3 c4 b1 b2 b3 b4) s = .next (answered h 0x28 .ok [] { noticed h s with
        curves := s.curves.set k.val
          { c1 := c1, c2 := c2, c3 := c3, c4 := c4, b1 := cap b1, b2 := cap b2, b3 := cap b3, b4 := cap b4 } }))

/-- R117: READ CURVE. -/
def Obligations.ReadCurveShowsStoredCurve : Prop :=
  ∀ (h : ReqHead) (i : Byte) (s : State), Taken h s →
    (3 < i.toNat → exec (.readCurve h i) s = .next (answered h 0x29 .range [] (noticed h s))) ∧
    ∀ k : Fin 4, k.val = i.toNat →
      let r := s.curves[k.val]
      exec (.readCurve h i) s = .next (answered h 0x29 .ok
        [hiByte r.c1, loByte r.c1, hiByte r.c2, loByte r.c2, hiByte r.c3, loByte r.c3, hiByte r.c4, loByte r.c4,
         r.b1, r.b2, r.b3, r.b4] (noticed h s))

/-- R118: the boost of a legal curve at every weld count: the last boost at or above C4, the truncated
interpolation below it, never above 250. -/
def Obligations.BoostInterpolatesCurve : Prop :=
  ∀ (k : Curve) (w : Half), CurveOk k →
    let n := w.toNat
    let seg (c0 b0 c b : Nat) : Nat := b0 + (b - b0) * (n - c0) / (c - c0)
    (k.boost w).toNat =
      (if k.c4.toNat ≤ n then k.b4.toNat
       else if n < k.c1.toNat then seg 0 0 k.c1.toNat k.b1.toNat
       else if n < k.c2.toNat then seg k.c1.toNat k.b1.toNat k.c2.toNat k.b2.toNat
       else if n < k.c3.toNat then seg k.c2.toNat k.b2.toNat k.c3.toNat k.b3.toNat
       else seg k.c3.toNat k.b3.toNat k.c4.toNat k.b4.toNat) ∧
    (k.boost w).toNat ≤ 250

/-- R126, R127, R120, R121, R112: WRITE GUN replaces the six parameters and WRITE WEAR the two counts; the gun's
flags and the channel's overdue factor follow in the same event, with the ORDERLY loss of an available channel
that goes overdue. -/
def Obligations.WearWritesEvaluateFlags : Prop :=
  ∀ (h : ReqHead) (ch g : Byte) (s : State), Taken h s →
    let ev (counted : Bool) (r : GunRec) : GunRec := { r with
      due := counted && r.threshold ≠ 0 && r.threshold.toNat ≤ r.weld.toNat
      overdue := counted && r.threshold ≠ 0 && min 65535 (r.threshold.toNat + r.grace.toNat) ≤ r.weld.toNat }
    let put (c : ChanNo) (r : GunRec) : ChanWear :=
      if g = 1 then { wearOf s c with gun1 := ev true r } else { wearOf s c with gun2 := ev (chanRec s c).twoGuns r }
    let old (c : ChanNo) : GunRec := if g = 1 then (wearOf s c).gun1 else (wearOf s c).gun2
    let after (c : ChanNo) (r : GunRec) : State :=
      let late := (put c r).gun1.overdue || ((chanRec s c).twoGuns && (put c r).gun2.overdue)
      let u := setChan c { chanRec s c with overdue := late } (setWear c (put c r) (noticed h s))
      if available s c = true ∧ late = true then loseService c .orderly u else u
    let named := ch.toNat ≤ 31 ∧ (g = 1 ∨ g = 2)
    (∀ (k : Byte) (d gr : Half) (n dp cp : Byte),
      (¬(named ∧ k.toNat ≤ 3) →
        exec (.writeGun h ch g k d gr n dp cp) s = .next (answered h 0x2A .range [] (noticed h s))) ∧
      (named ∧ k.toNat ≤ 3 → ∀ c : ChanNo, c.val = ch.toNat →
        exec (.writeGun h ch g k d gr n dp cp) s = .next (answered h 0x2A .ok [] (after c { old c with
          curve := Fin.ofNat 4 k.toNat, threshold := d, grace := if 4095 < gr.toNat then 4095 else gr
          capLimit := n, dressProgram := dp, capProgram := cp })))) ∧
    ∀ (w : Half) (d : Byte),
      (¬named → exec (.writeWear h ch g w d) s = .next (answered h 0x2B .range [] (noticed h s))) ∧
      (named → ∀ c : ChanNo, c.val = ch.toNat →
        exec (.writeWear h ch g w d) s =
          .next (answered h 0x2B .ok [] (after c { old c with weld := w, dresses := d })))

/-- R128, R123 with 12.3: READ WEAR, the offered kind and program among its bytes. -/
def Obligations.ReadWearPayload : Prop :=
  ∀ (h : ReqHead) (ch g : Byte) (s : State), Taken h s →
    (¬(ch.toNat ≤ 31 ∧ (g = 1 ∨ g = 2)) →
      exec (.readWear h ch g) s = .next (answered h 0x2C .range [] (noticed h s))) ∧
    ∀ c : ChanNo, c.val = ch.toNat → g = 1 ∨ g = 2 →
      let r := if g = 1 then (wearOf s c).gun1 else (wearOf s c).gun2
      let cap : Bool := r.capLimit ≠ 0 ∧ r.capLimit.toNat ≤ r.dresses.toNat ∧ r.capProgram ≠ 0
      exec (.readWear h ch g) s = .next (answered h 0x2C .ok
        [hiByte r.weld, loByte r.weld, r.dresses, byteOf r.curve.val, hiByte r.threshold, loByte r.threshold,
         hiByte r.grace, loByte r.grace, r.capLimit, r.dressProgram, r.capProgram,
         flagAt 0 r.due ||| flagAt 1 r.overdue ||| flagAt 2 cap, if cap then r.capProgram else r.dressProgram,
         (s.curves[r.curve.val]).boost r.weld] (noticed h s))

/-! ### The tracking unit's requests (01) -/

/-- R21 with 12.3: READ TRACKING shows up to three positions, sixteen bytes each. -/
def Obligations.ReadTrackingPayload : Prop :=
  ∀ (h : ReqHead) (f : Byte) (s : State), Taken h s →
    (s.node.stations ≤ f.toNat →
      exec (.readTracking h f) s = .next (answered h 0x30 .range [] (noticed h s))) ∧
    (f.toNat < s.node.stations →
      let ps := (s.track.queue.drop f.toNat).take 3
      exec (.readTracking h f) s = .next (answered h 0x30 .ok
        ((f ||| byteOf (16 * ps.length)) :: ps.flatMap fun p =>
          match p with
          | none => 0x10 :: List.replicate 15 0
          | some b =>
            [(flagAt 7 b.uncertain ||| flagAt 6 b.unresolved ||| flagAt 5 b.empty ||| b.options.setWidth 8 : Byte),
             flagAt 6 (b.bank == .bank1) ||| b.style.setWidth 8] ++
            halfBytes b.tag ++ maskBytes b.resolved ++ maskBytes b.done ++ maskBytes b.owed) (noticed h s)))

/-- R17: in CONFIG and SUSPENDED a RETRACK LOAD checks all its records and stores each at its station. -/
def Obligations.RetrackLoadStoresRecords : Prop :=
  ∀ (h : ReqHead) (rs : List RawRetrack) (s : State), Taken h s → 1 ≤ rs.length → rs.length ≤ 3 →
    s.node.state = .config ∨ s.node.state = .suspended →
    let range := ∃ r ∈ rs, s.node.stations ≤ r.station.toNat ∨ 63 < r.style.toNat ∨ 15 < r.options.toNat ∨
      ∃ c : ChanNo, inMask r.done c = true ∧ inMask r.owed c = true
    let conflict := ¬(rs.map RawRetrack.station).Nodup
    (range → exec (.retrackLoad h rs) s = .next (answered h 0x31 .range [] (noticed h s))) ∧
    (¬range → conflict → exec (.retrackLoad h rs) s = .next (answered h 0x31 .conflict [] (noticed h s))) ∧
    (¬range → ¬conflict → ∃ im : List (Option Retrack),
      exec (.retrackLoad h rs) s = .next (answered h 0x31 .ok [] { noticed h s with
        track := { s.track with image := im } }) ∧
      im.length = s.track.image.length ∧
      (∀ r ∈ rs, r.station.toNat < s.track.image.length → im[r.station.toNat]? = some (some
        { tag := r.tag, style := r.style.setWidth 6, options := r.options.setWidth 4, done := r.done
          owed := r.owed })) ∧
      ∀ k, (∀ r ∈ rs, r.station.toNat ≠ k) → im[k]? = s.track.image[k]?)

/-- R18, R19, R153, R64: RETRACK APPLY: the queue built from the image and bound to the live bank, the announcements
and the image emptied, tracking certain; in CONFIG nothing else, in SUSPENDED the move to RUN or HELD with the
catch-up, which settles for every present channel every body in its window and changes only lists with their jobs
and masks. The ids of the bodies are the model's own (log 6), and the order of the settlements is one of those the
spec calls equal (log 29). -/
def Obligations.RetrackApplyReplacesQueue : Prop :=
  ∀ (h : ReqHead) (s : State), Taken h s → s.node.state = .config ∨ s.node.state = .suspended →
    ∃ q : List (Option Body),
      q.length = s.track.image.length ∧
      (∀ (k : Nat) (hk : k < s.track.image.length), ∃ b, q[k]? = some (some b) ∧ b.id = s.track.nextId + k ∧
        b.bank = s.bank.live ∧ b.uncertain = false ∧ b.empty = (b.style == 0) ∧
        b.unresolved = (b.style != 0 && !styleEnabled s.bank s.bank.live b.style) ∧
        match s.track.image[k] with
        | none => b.tag = 0 ∧ b.style = 0 ∧ b.options = 0 ∧ b.resolved = 0 ∧ b.done = 0 ∧ b.owed = 0
        | some r => b.tag = r.tag ∧ b.style = r.style ∧ b.options = r.options ∧ b.done = r.done ∧ b.owed = r.owed ∧
            b.resolved = r.done ||| r.owed) ∧
      let t : Tracking := { s.track with
        announced := [], queue := q, image := s.track.image.map fun _ => none, uncertain := false
        nextId := s.track.nextId + s.track.image.length }
      (s.node.state = .config →
        exec (.retrackApply h) s = .next (answered h 0x32 .ok [] { noticed h s with track := t })) ∧
      (s.node.state = .suspended →
        let u : State := { noticed h s with
          node := { s.node with state := if s.node.latch then .held else .run }, track := t }
        let v := settledWhere (fun c k => (chanRec s c).preselect ≤ k ∧ k ≤ (chanRec s c).station) u
        exec (.retrackApply h) s = .next (answered h 0x32 .ok [] v) ∧
        v = { u with track := { t with queue := v.track.queue }, seqs := v.seqs } ∧
        v.track.queue.map (Option.map Body.bare) = q.map (Option.map Body.bare) ∧
        (QueuesWf s → MarksWf s → ∀ (c : ChanNo) (k : Nat) (b : Body), present s c = true → k < s.node.stations →
          (chanRec s c).preselect ≤ k → k ≤ (chanRec s c).station → v.track.queue[k]? = some (some b) →
          b.passedOver = false → inMask b.resolved c = true))

/-! ### The report unit (10) -/

/-- R182 with 12.3, R181: READ LOG and CLEAR LOG, and how an error reported to the fault log is taken by its mode, with
the CHECK alarm. -/
def Obligations.FaultLogIsKeptAndRead : Prop :=
  (∀ (h : ReqHead) (s : State), Taken h s →
    exec (.readLog h) s = .next (answered h 0x38 .ok
      (match s.report.log with
       | none => List.replicate 14 0
       | some e =>
         [(match e.kind with | .slotCheck => 1 | .headerCheck => 2 | .invalidState => 3), hiByte e.sweep,
          loByte e.sweep, byteOf e.slot, (match e.pass with | .outbound => 0 | .back => 1), e.raw.data.b0, e.raw.data.b1,
          e.raw.data.b2, e.raw.data.b3, e.raw.data.b4, e.raw.data.b5, e.raw.data.b6, e.raw.check, s.report.further])
      (noticed h s)) ∧
    exec (.clearLog h) s =
      .next (answered h 0x39 .ok [] { noticed h s with report := { s.report with log := none, further := 0 } })) ∧
  ∀ (e : LogRec) (s : State),
    let r := s.report
    let more : Byte := if r.further = 255 then 255 else r.further + 1
    logError e s = { s with report := { r with
      alarms := r.alarms ||| 1
      log := if r.log.isNone ∨ s.node.logMode = .latest then some e else r.log
      further := if r.log.isNone then 0 else more } }

/-- R179, R177: CLEAR ALARMS clears each masked bit whose condition is absent and leaves every other bit. -/
def Obligations.ClearAlarmsReadsConditions : Prop :=
  ∀ (h : ReqHead) (m : Byte) (s : State), Taken h s →
    let kept (n : Fin 8) : Prop :=
      match n with
      | 0 => s.report.log.isSome = true
      | 2 => s.track.uncertain = true
      | 4 => ∃ c, (chanRec s c).failed.isSome = true
      | 5 => s.node.latch = true
      | 6 => s.sweep.link = .lost
      | 7 => s.path.bitErrors ≠ 0
      | _ => False
    ∃ a : Byte,
      exec (.clearAlarms h m) s =
        .next (answered h 0x3A .ok [] { noticed h s with report := { s.report with alarms := a } }) ∧
      ∀ n : Fin 8, a.getLsbD n.val = true ↔ s.report.alarms.getLsbD n.val = true ∧ (m.getLsbD n.val = false ∨ kept n)

/-- R178: ALARM_N is low exactly while the summary holds a set bit. It is high after CELL RESET and while RESET_N is
low, and after power-on reset unless HOLD_N is low. -/
def Obligations.AlarmOutputFollowsSummary : Prop :=
  (∀ s : State, alarmN s = false ↔ ∃ n : Fin 8, s.report.alarms.getLsbD n.val = true) ∧
  (∀ s : State, ∃ t, exec .resetNLow s = .next t ∧ alarmN t = true) ∧
  (∀ (straps : BitVec 4) (s : State), ∃ t, exec (.powerOnReset straps) s = .next t ∧ alarmN t = s.pins.holdN) ∧
  ∀ (h : ReqHead) (s : State), Taken h s → ∃ t, exec (.cellReset h) s = .next t ∧ alarmN t = true

/-! ### The path tester (11) -/

/-- R184, R187, R186: TEST START, TEST STOP, TEST INJECT and READ TEST COUNTS. -/
def Obligations.PathTestRequests : Prop :=
  ∀ (h : ReqHead) (s : State), Taken h s →
    let goes (i : Instr) code p (t : PathTester) := exec i s = .next (answered h code .ok p { noticed h s with path := t })
    let started (p : Pattern) : PathTester :=
      { running := true, pattern := p, gen := BitVec.allOnes 15, expected := [], inject := false
        bitErrors := 0, lostSweeps := 0 }
    goes (.testStart h 0) 0x40 [] (started .zeros) ∧ goes (.testStart h 1) 0x40 [] (started .ones) ∧
    goes (.testStart h 2) 0x40 [] (started .seq15) ∧
    (∀ p : Byte, 2 < p.toNat → exec (.testStart h p) s = .next (answered h 0x40 .range [] (noticed h s))) ∧
    goes (.testStop h) 0x41 [] { s.path with running := false, expected := [], inject := false } ∧
    goes (.testInject h) 0x42 [] { s.path with inject := true } ∧
    goes (.readTestCounts h) 0x43
      [hiByte s.path.bitErrors, loByte s.path.bitErrors, hiByte s.path.lostSweeps, loByte s.path.lostSweeps]
      { s.path with bitErrors := 0, lostSweeps := 0 }

/-- R185, R187: the TEST slots are filled one after another with the next seven bytes of the pattern; a pending
injection flips bit 0 of byte 0 of the first slot alone and is spent by it. -/
def Obligations.TestSlotsTakePatternInOrder : Prop :=
  (∀ (t : PathTester) (sls : List Slot), fillSlots [] t sls = (t, sls)) ∧
  (∀ (k : Nat) (ks : List Nat) (t : PathTester) (sls : List Slot),
    let p := nextPattern t.pattern t.gen
    let d : Data7 := if t.inject then { p.1 with b0 := p.1.b0 ^^^ 1 } else p.1
    fillSlots (k :: ks) t sls =
      fillSlots ks { t with gen := p.2, expected := t.expected ++ [(k, p.1)], inject := false }
        (sls.set k { data := d, check := d.b0 ^^^ d.b1 ^^^ d.b2 ^^^ d.b3 ^^^ d.b4 ^^^ d.b5 ^^^ d.b6 })) ∧
  (∀ g, nextPattern .zeros g = (⟨0, 0, 0, 0, 0, 0, 0⟩, g) ∧
    nextPattern .ones g = (⟨0xFF, 0xFF, 0xFF, 0xFF, 0xFF, 0xFF, 0xFF⟩, g)) ∧
  (∀ g : BitVec 15, ∃ bits : Nat → Bool,
    (∀ n < 15, bits n = g.getLsbD (14 - n)) ∧ (∀ n, bits (n + 15) = (bits (n + 1) ^^ bits n)) ∧
    ∀ (j : Fin 7) (b : Fin 8),
      ((nextPattern .seq15 g).1.bytes[j.val]?.map fun x => x.getLsbD (7 - b.val)) = some (bits (15 + 8 * j.val + b.val)) ∧
      ∀ n < 15, (nextPattern .seq15 g).2.getLsbD n = bits (70 - n)) ∧
  ∀ (m : SlotMap) (n : Nat), (testSlots m n).Pairwise (· < ·) ∧
    ∀ k, k ∈ testSlots m n ↔ ∃ i : Fin 183, m[i.val] = .test ∧ k = i.val + 1 ∧ k < n

/-! ### Marks, lists and the settlement of bodies (01, 04) -/

/-- R12: what a mark does to the masks of the body it names; the first verdict on a channel stands; a mark for a body
no longer in the queue changes nothing. -/
def Obligations.FirstVerdictStands : Prop :=
  (∀ (m : Mark) (chs : Mask) (id : Nat) (s : State),
    mark m chs id s = { s with track := { s.track with
      queue := s.track.queue.map (Option.map fun b => if b.id = id then b.mark m chs else b) } } ∧
    ((∀ b, some b ∈ s.track.queue → b.id ≠ id) → mark m chs id s = s)) ∧
  ∀ (chs : Mask) (b : Body) (c : ChanNo),
    let r := b.mark .resolved chs
    let d := b.mark .done chs
    let w := b.mark .owed chs
    (∀ m, (b.mark m chs).bare = b.bare) ∧
    inMask r.resolved c = (inMask b.resolved c || inMask chs c) ∧ r.done = b.done ∧ r.owed = b.owed ∧
    inMask d.done c = (inMask b.done c || (inMask chs c && !inMask b.owed c)) ∧
    inMask d.resolved c = (inMask b.resolved c || (inMask chs c && !inMask b.owed c)) ∧ d.owed = b.owed ∧
    inMask w.owed c = (inMask b.owed c || (inMask chs c && !inMask b.done c)) ∧
    inMask w.resolved c = (inMask b.resolved c || (inMask chs c && !inMask b.done c)) ∧ w.done = b.done ∧
    ∀ u m, BodyOk u b → BodyOk u (b.mark m chs)

/-- R61, R62: a record joins its list in body order, farthest downstream first; ahead of a SELECTING or LOADED head it
withdraws that job. The premises hold by R61 and R62: every body of the list stands in the queue, no two at one
station, and no record comes ahead of a RUNNING head. -/
def Obligations.RecordsStandInBodyOrder : Prop :=
  ∀ (c : ChanNo) (r : Dispatch) (s : State),
    let q := seqOf s c
    let ordered (l : List Dispatch) := l.Pairwise fun x y => ∃ j k, stationOf s x.body = some j ∧
      stationOf s y.body = some k ∧ k < j
    let ahead (x y : Dispatch) := ∃ j k, stationOf s x.body = some j ∧ stationOf s y.body = some k ∧ k < j
    (∀ x ∈ r :: q.list, (stationOf s x.body).isSome = true) → ordered q.list →
    (∀ x ∈ q.list, stationOf s x.body ≠ stationOf s r.body) →
    (∀ n x xs, q.job = some (.body .running n) → q.list = x :: xs → ahead x r) →
    let t := insertRecord c r s
    let withdrawn := ∃ ph n x xs, q.job = some (.body ph n) ∧ q.list = x :: xs ∧ ahead r x
    t = { s with seqs := t.seqs } ∧ (∀ d, d ≠ c → seqOf t d = seqOf s d) ∧
    (seqOf t c).list.Perm (r :: q.list) ∧ ordered (seqOf t c).list ∧
    (withdrawn → seqOf t c =
      { q with list := r :: q.list, job := none, watchCount := 0, cmd := idleCommand q.cmd.sel }) ∧
    (¬withdrawn → seqOf t c = { q with list := (seqOf t c).list })

/-- R65 to R69: the body at a station is settled for a channel: passed over, alone, or with its partner by the table of
R68; its programs are those R66 finds in the bound bank. A vacant station and a body passed over, an EMPTY one of style 0
among them, change nothing. A partner that is already resolved and not present is settled
by log 34, and the rows stand as R68 and R69 give them in the corners of R71 (the model's reading, log 35). -/
def Obligations.BodiesAreSettled : Prop :=
  ∀ (c : ChanNo) (k : Nat) (s : State),
    (bodyAt s k = none → settle c k s = s) ∧
    (∀ b, bodyAt s k = some b → b.passedOver = true ∨ inMask b.resolved c = true → settle c k s = s) ∧
    (∀ b, bodyAt s k = some b → b.style ≠ 0 → b.passedOver = false → inMask b.resolved c = false →
      let entry (x : ChanNo) : Entry :=
        ((s.bank.get b.bank)[b.style.toNat - 1]'(by have := b.style.isLt; omega)).entries[x.val]
      let variant (x : ChanNo) : Bool :=
        (entry x).option ≠ 0 ∧ b.options.getLsbD ((entry x).option.val - 1) = true ∧ (entry x).variant ≠ 0
      let work (x : ChanNo) : Option Dispatch :=
        let program := if variant x then (entry x).variant else (entry x).base
        if program = 0 then none
        else some
          { body := b.id, tag := b.tag, program := program, gun := (entry x).gun, accounts := chanBit x
            spots := if variant x then (entry x).variantSpots else (entry x).baseSpots
            role := if variant x then .variant else .own }
      let cover (a x : ChanNo) : Dispatch :=
        { body := b.id, tag := b.tag, program := (entry a).backup, gun := (entry a).gun, accounts := chanBit a ||| chanBit x
          spots := (entry a).backupSpots, role := .cover }
      let give (x : ChanNo) (u : State) : State := match work x with | some r => insertRecord x r u | none => u
      let verdict (x : ChanNo) : Mark := if (work x).isSome then .owed else .resolved
      let idle (x : ChanNo) (u : State) : State := if present s x then mark (verdict x) (chanBit x) b.id u else u
      let alone : State :=
        if available s c then mark .resolved (chanBit c) b.id (give c s) else mark (verdict c) (chanBit c) b.id s
      (partner s c = none → settle c k s = alone) ∧
      ∀ p, partner s c = some p →
        (inMask b.resolved p = true → settle c k s = alone) ∧
        (inMask b.resolved p = false →
          (available s c = true → available s p = true →
            settle c k s = mark .resolved (chanBit c ||| chanBit p) b.id (give p (give c s))) ∧
          (∀ a x, (a = c ∧ x = p) ∨ (a = p ∧ x = c) → available s a = true → available s x = false →
            ((work x).isSome = true → (entry a).backup ≠ 0 →
              settle c k s = mark .resolved (chanBit a ||| chanBit x) b.id (insertRecord a (cover a x) s)) ∧
            (work x = none ∨ (entry a).backup = 0 →
              settle c k s = idle x (mark .resolved (chanBit a) b.id (give a s)))) ∧
          (available s c = false → available s p = false → settle c k s = idle p (idle c s))))

/-- R72 to R76: a loss of service: what stays of the lost channel's list and job, the records whose work leaves it, one
after another (a RUNNING record under a FAILED loss is owed), where the work of each goes, and the record of the partner
that a COVER record replaces. The premise on the pair holds by R48. `placeWork` follows R76 in the corners
where R71 would have another outcome (the model's reading, log 35). -/
def Obligations.LossOfServiceMovesWork : Prop :=
  (∀ (x : ChanNo) (kind : Loss) (s : State),
    let q := seqOf s x
    let t := loseService x kind s
    let withdrawn : Seq := { q with list := [], job := none, watchCount := 0, cmd := idleCommand q.cmd.sel }
    let placed (l : List Dispatch) (u : State) : State := l.foldl (fun v r => placeWork x r v) u
    t = (match q.job, q.list, kind with
      | some (.body .running _), r :: rest, .orderly => placed rest (setSeq x { q with list := [r] } s)
      | some (.body .running _), r :: rest, .failed =>
        placed rest (mark .owed r.accounts r.body (setSeq x withdrawn s))
      | some (.body _ _), l, _ => placed l (setSeq x withdrawn s)
      | some (.orphan _ _ _ _), l, .failed => placed l (setSeq x withdrawn s)
      | _, l, _ => placed l (setSeq x { q with list := [] } s)) ∧
    t = { s with seqs := t.seqs, track := { s.track with queue := t.track.queue } } ∧
    t.track.queue.map (Option.map Body.bare) = s.track.queue.map (Option.map Body.bare) ∧
    (partner s x ≠ some x →
      (∀ d, d ≠ x → partner s x ≠ some d → seqOf t d = seqOf s d) ∧
      seqOf t x = match q.job, q.list, kind with
        | some (.body .running _), r :: _, .orderly => { q with list := [r] }
        | some (.body _ _), _, _ => withdrawn
        | some (.orphan _ _ _ _), _, .failed => withdrawn
        | _, _, _ => { q with list := [] })) ∧
  (∀ (x : ChanNo) (r : Dispatch) (s : State),
    let owed := mark .owed r.accounts r.body s
    (partner s x = none ∨ bodyOf s r.body = none → placeWork x r s = owed) ∧
    ∀ p b, partner s x = some p → bodyOf s r.body = some b →
      let running := ∃ n y ys, (seqOf s p).job = some (.body .running n) ∧ (seqOf s p).list = y :: ys ∧ y.body = r.body
      let held := available s p = false ∨ running ∨ inMask b.done p = true
      (held → placeWork x r s = owed) ∧
      (b.style ≠ 0 →
        let e := ((s.bank.get b.bank)[b.style.toNat - 1]'(by have := b.style.isLt; omega)).entries[p.val]
        let cover : Dispatch :=
          { body := b.id, tag := b.tag, program := e.backup, spots := e.backupSpots, gun := e.gun, role := .cover
            accounts := chanBit p ||| chanBit x }
        (e.backup = 0 → placeWork x r s = owed) ∧
        (¬held → e.backup ≠ 0 → (∃ y ∈ (seqOf s p).list, y.body = r.body) → placeWork x r s = replaceRecord p cover s) ∧
        (¬held → e.backup ≠ 0 → (∀ y ∈ (seqOf s p).list, y.body ≠ r.body) → placeWork x r s = insertRecord p cover s))) ∧
  ∀ (p : ChanNo) (r : Dispatch) (s : State),
    let q := seqOf s p
    let list := q.list.map fun y => if y.body = r.body then r else y
    let onHead := ∃ ph n y ys, q.job = some (.body ph n) ∧ q.list = y :: ys ∧ y.body = r.body
    (onHead → replaceRecord p r s =
      setSeq p { q with list := list, job := none, watchCount := 0, cmd := idleCommand q.cmd.sel } s) ∧
    (¬onHead → replaceRecord p r s = setSeq p { q with list := list } s)

/-! ### The handshake (05) -/

/-- R93, R94, R92, R119, R123: the selection opportunity of a channel: the maintenance job or the BODY job it starts, with
its command, or nothing. -/
def Obligations.OpportunityStartsJob : Prop :=
  ∀ (c : ChanNo) (s : State),
    let q := seqOf s c
    let r := chanRec s c
    let w := wearOf s c
    let idle := s.node.state = .run ∧ present s c = true ∧ q.job = none
    let upstream := q.list = [] ∨
      ∃ x xs k, q.list = x :: xs ∧ stationOf s x.body = some k ∧ k < r.station
    let cap (g : GunRec) : Bool := g.capLimit ≠ 0 ∧ g.capLimit.toNat ≤ g.dresses.toNat ∧ g.capProgram ≠ 0
    let program (g : GunRec) : Byte := if cap g then g.capProgram else g.dressProgram
    let may := r.failed = none ∧ r.out = false ∧ upstream
    let first := may ∧ w.gun1.due = true ∧ program w.gun1 ≠ 0
    let second := may ∧ ¬first ∧ r.twoGuns = true ∧ w.gun2.due = true ∧ program w.gun2 ≠ 0
    let n : BitVec 4 := if q.cmd.sel = 15 then 1 else q.cmd.sel + 1
    let maint (g : Gun) (x : GunRec) : Seq := { q with
      job := some (.maint .selecting (if cap x then .cap else .dress) g (program x) n), watchCount := 0
      cmd := { program := program x, sel := n, kind := if cap x then .cap else .dress, gun := g, boost := 0, spots := 0
               tag := 0, cover := false } }
    let boost (g : Gun) : Byte := (s.curves[((w.get g).curve).val]).boost (w.get g).weld
    let body (x : Dispatch) : Seq := { q with
      job := some (.body .selecting n), watchCount := 0
      cmd := { program := x.program, sel := n, kind := .body, gun := x.gun, boost := boost x.gun, spots := x.spots
               tag := x.tag, cover := x.role == .cover } }
    (¬idle → opportunity c s = s) ∧
    (idle → first → opportunity c s = setSeq c (maint .gun1 w.gun1) s) ∧
    (idle → second → opportunity c s = setSeq c (maint .gun2 w.gun2) s) ∧
    (idle → ¬first → ¬second → available s c = true → ∀ x xs, q.list = x :: xs →
      opportunity c s = setSeq c (body x) s) ∧
    (idle → ¬first → ¬second → (available s c = false ∨ q.list = []) → opportunity c s = s)

/-- R87 to R89: a REPLY slot is judged, with the error it logs; the valid reply enters the history, and one that repeats
the history's one sweep number on and differs from the stable reply becomes it and is acted on once. -/
def Obligations.ReplyBecomesStable : Prop :=
  (∀ (n : Half) (s : State),
    judgeReply n none s = (none, s) ∧
    ∀ (k : Nat) (d : Data7) (ck : Byte),
      let clean := d.b0 ^^^ d.b1 ^^^ d.b2 ^^^ d.b3 ^^^ d.b4 ^^^ d.b5 ^^^ d.b6 ^^^ ck = 0
      let state := (d.b1.extractLsb' 4 3).toNat
      let sl : Slot := { data := d, check := ck }
      let logged kind := logError { kind := kind, sweep := n, slot := k, pass := .back, raw := sl } s
      (clean → state < 6 → judgeReply n (some (k, sl)) s = (some d, s)) ∧
      (clean → 6 ≤ state → judgeReply n (some (k, sl)) s = (none, logged .invalidState)) ∧
      (¬clean → judgeReply n (some (k, sl)) s = (none, logged .slotCheck))) ∧
  ∀ (c : ChanNo) (n : Half) (reply : Option Data7) (s : State),
    let q := seqOf s c
    let fresh (d : Data7) := q.stable ≠ some d ∧
      ∃ h, q.history = some { sweep := h, reply := some d } ∧ n = h + 1
    let kept := setSeq c { q with history := some { sweep := n, reply := reply } } s
    (∀ d, reply = some d → fresh d → takeReply c n reply s =
      actOn c d (setSeq c { q with history := some { sweep := n, reply := reply }, stable := some d } s)) ∧
    ((∀ d, reply = some d → ¬fresh d) → takeReply c n reply s = kept)

/-- R95, R97, R98, R100 to R103: what a reply that has become stable does, by its state, its echoes and the phase and
kind of the current job. A failed check of a DONE in LOADED is a failure of the LOADED job, whose work then moves (R104,
R74), or of a RUNNING one, whose channels are then owed (R98, R75): the free value of log 17. -/
def Obligations.StableReplyActsByPhase : Prop :=
  ∀ (c : ChanNo) (d : Data7) (s : State),
    let q := seqOf s c
    let state := (d.b1.extractLsb' 4 3).toNat
    let same := d.b0 = q.cmd.program
    let fails (x : Detail) := actOn c d s = reportFailure c (.protocol x) s
    let ignored := actOn c d s = s
    let moves (j : Job) := actOn c d s = setSeq c { q with job := some j } s
    let ended := setSeq c { q with job := none } s
    (state = 0 ∨ 5 < state → ignored) ∧
    (state = 5 → actOn c d s = reportFailure c (.robotFault d.b4) s) ∧
    (state < 5 → q.job = none → ignored) ∧
    ∀ j, q.job = some j →
      (state < 5 → d.b1.extractLsb' 0 4 ≠ j.sel → ignored) ∧
      (d.b1.extractLsb' 0 4 = j.sel →
        (state = 1 → ignored) ∧
        (j.phase = .selecting →
          (2 ≤ state → state ≤ 4 → ¬same → fails .program) ∧ (state = 2 → same → moves (j.toPhase .loaded)) ∧
          (3 ≤ state → state ≤ 4 → same → ignored)) ∧
        (j.phase ≠ .selecting → state = 2 → ignored) ∧
        (j.phase = .running → state = 3 → ignored) ∧
        (j.phase = .loaded → state = 3 → ¬same → fails .program) ∧
        (∀ n, j = .body .loaded n → state = 3 → same →
          let placed := ∃ r rest, q.list = r :: rest ∧ stationOf s r.body = some (chanRec s c).station
          (placed → moves (.body .running n)) ∧ (¬placed → fails .position)) ∧
        (∀ k g p n, j = .maint .loaded k g p n → state = 3 → same → moves (.maint .running k g p n)) ∧
        (∀ ph n r rest, j = .body ph n → ph ≠ .selecting → state = 4 → q.list = r :: rest →
          let placed := stationOf s r.body = some (chanRec s c).station
          let gun := d.b3 = (match r.gun with | .gun1 => 0 | .gun2 => 1)
          let refused (x : Detail) := fails x ∨ (ph = .loaded ∧
            actOn c d s = reportFailure c (.protocol x) (setSeq c { q with job := some (.body .running n) } s))
          (¬same → refused .program) ∧ (same → ¬placed → refused .position) ∧
          (same → placed → d.b5 ≠ loByte r.tag → refused .tag) ∧
          (same → placed → d.b5 = loByte r.tag → ¬gun → refused .gun) ∧
          (same → placed → d.b5 = loByte r.tag → gun → actOn c d s = completeBody c r d.b2 s)) ∧
        (∀ p g t n, j = .orphan p g t n → state = 4 → actOn c d s = addSpots c g d.b2 ended) ∧
        ∀ ph k g p n, j = .maint ph k g p n → ph ≠ .selecting → state = 4 →
          (¬same → fails .program) ∧ (same → actOn c d s = completeMaint c g k ended))

/-- R81, R99, R113, R124, R120, R121: a completion marks the accounted channels done, or owed after a short weld, and
wears the gun; a maintenance completion resets the gun's counts. The flags and the overdue factor follow in the same
event, with the ORDERLY loss of a channel that goes overdue. -/
def Obligations.CompletionsWearGun : Prop :=
  ∀ (c : ChanNo) (s : State),
    let stored (g : Gun) (r : GunRec) (u : State) : State :=
      let counted := g = .gun1 ∨ (chanRec s c).twoGuns = true
      let r' : GunRec := { r with
        due := counted ∧ r.threshold ≠ 0 ∧ r.threshold.toNat ≤ r.weld.toNat
        overdue := counted ∧ r.threshold ≠ 0 ∧ min 65535 (r.threshold.toNat + r.grace.toNat) ≤ r.weld.toNat }
      let w := (wearOf s c).put g r'
      let late := w.gun1.overdue || ((chanRec s c).twoGuns && w.gun2.overdue)
      let v := setChan c { chanRec s c with overdue := late } (setWear c w u)
      if available s c = true ∧ late = true then loseService c .orderly v else v
    let worn (g : Gun) (spots : Byte) : GunRec :=
      { (wearOf s c).get g with weld := BitVec.ofNat 16 (min 65535 (((wearOf s c).get g).weld.toNat + spots.toNat)) }
    (∀ (g : Gun) (spots : Byte), addSpots c g spots s = stored g (worn g spots) s) ∧
    (∀ (g : Gun), completeMaint c g .cap s = stored g { (wearOf s c).get g with weld := 0, dresses := 0 } s ∧
      completeMaint c g .dress s = stored g { (wearOf s c).get g with
        weld := 0
        dresses := if ((wearOf s c).get g).dresses = 255 then 255 else ((wearOf s c).get g).dresses + 1 } s) ∧
    ∀ (r : Dispatch) (rest : List Dispatch) (spots : Byte), (seqOf s c).list = r :: rest →
      completeBody c r spots s = stored r.gun (worn r.gun spots)
        (setSeq c { seqOf s c with list := rest, job := none }
          (mark (if r.spots.toNat ≤ spots.toNat then .done else .owed) r.accounts r.body s))

/-- R51, R54, R104, R90, R96: a failure sets CHANNEL_FAILED. The first cause stands; it hands the FAILED loss, and ends any
job with its counts; a later failure hands no loss and ends a maintenance job alone. REPLY_LOSS_LIMIT and SELECT_TIMEOUT
report one when their count has reached its limit, and are no event below it (logs 12 and 13). That the counts are zeroed
only where a job ends is log 22. The premise on the pair holds by R48. -/
def Obligations.FailureTakesChannelOut : Prop :=
  (∀ (c : ChanNo) (κ : Cause) (s : State),
    let q := seqOf s c
    let a : State := { s with report := { s.report with alarms := s.report.alarms ||| 0x10 } }
    let u := loseService c .failed (setChan c { chanRec s c with failed := some κ } a)
    let ended (v : State) : State :=
      setSeq c { seqOf v c with job := none, watchCount := 0, lossCount := 0, cmd := idleCommand q.cmd.sel } v
    let maint := ∃ ph k g p n, q.job = some (.maint ph k g p n)
    ((chanRec s c).failed = none → partner s c ≠ some c →
      (seqOf (reportFailure c κ s) c).list = [] ∧
      (q.job = none → reportFailure c κ s = u) ∧ (q.job.isSome = true → reportFailure c κ s = ended u)) ∧
    ((chanRec s c).failed.isSome = true →
      (maint → reportFailure c κ s = ended a) ∧ (¬maint → reportFailure c κ s = a))) ∧
  ∀ (c : ChanNo) (s : State), s.pins.inReset = false →
    let q := seqOf s c
    let v : State := { s with sent := [] }
    let lost := reportFailure c .replyLost v
    let due := s.node.state = .run ∧ (∃ j, q.job = some j ∧ j.phase = .selecting) ∧
      (chanRec s c).selectWatch.toNat ≤ q.watchCount
    (8 ≤ q.lossCount → exec (.replyLossLimit c) s = .next (setSeq c { seqOf lost c with lossCount := 0 } lost)) ∧
    (q.lossCount < 8 → exec (.replyLossLimit c) s = .next v) ∧
    (due → exec (.selectTimeout c) s = .next (reportFailure c .selectTimeout v)) ∧
    (¬due → exec (.selectTimeout c) s = .next v)

/-- R90, R96: how a processed return pass counts toward reply loss and the select watch. -/
def Obligations.PassesCountTowardLimits : Prop :=
  ∀ (c : ChanNo) (reply : Option Data7) (s : State),
    let q := seqOf s c
    let heard := ∃ d, reply = some d ∧ (d.b1.extractLsb' 4 3).toNat ≠ 0 ∧ (d.b1.extractLsb' 4 3).toNat < 6
    let counts := s.node.state = .run ∨ s.node.state = .held
    let lost := reportFailure c .replyLost s
    let silent := ∀ d, reply = some d → (d.b1.extractLsb' 4 3).toNat = 0
    let selecting := s.node.state = .run ∧ ∃ j, q.job = some j ∧ j.phase = .selecting
    let counted := setSeq c { q with watchCount := q.watchCount + 1 } s
    (heard → countLoss c reply s = setSeq c { q with lossCount := 0 } s) ∧
    (silent → ¬counts → countLoss c reply s = s) ∧
    (silent → counts → q.lossCount + 1 < 8 →
      countLoss c reply s = setSeq c { q with lossCount := q.lossCount + 1 } s) ∧
    (silent → counts → 8 ≤ q.lossCount + 1 →
      countLoss c reply s = setSeq c { seqOf lost c with lossCount := 0 } lost) ∧
    (¬selecting → countWatch c s = s) ∧
    (selecting → q.watchCount + 1 < (chanRec s c).selectWatch.toNat → countWatch c s = counted) ∧
    (selecting → (chanRec s c).selectWatch.toNat ≤ q.watchCount + 1 →
      countWatch c s = reportFailure c .selectTimeout counted)

/-! ### The line (01) -/

/-- R2 to R5, R15, R16, R152, R83: an accepted LINE slot: the baselines, an announcement before a transfer, a jump that
loses tracking and clears the lists without marks. A quiet pass hands the tracking unit its LINE slot once. -/
def Obligations.LineSlotMovesTracking : Prop :=
  (∀ (d : Data7) (s : State),
    let at_ (u : State) : State :=
      { u with track := { u.track with baseline := some { transfer := d.b0, sequence := d.b1 } } }
    (s.track.baseline = none → takeLine d s = at_ s) ∧
    ∀ old, s.track.baseline = some old →
      let diff := d.b0 - old.transfer
      let news : Announcement := { tag := d.b2 ++ d.b3, style := d.b4.setWidth 6, options := d.b5.setWidth 4 }
      let a : State :=
        if d.b1 = old.sequence then s
        else if s.track.announced.length < 4 then
          { s with track := { s.track with announced := s.track.announced ++ [news] } }
        else { s with report := { s.report with alarms := s.report.alarms ||| 0x02 } }
      let alarm : State := { a with report := { a.report with alarms := a.report.alarms ||| 0x04 } }
      let running := s.node.state = .run ∨ s.node.state = .held
      (diff = 0 → takeLine d s = at_ a) ∧
      (diff = 1 → s.track.uncertain = false → takeLine d s = at_ (transfer a)) ∧
      (diff = 1 → s.track.uncertain = true → takeLine d s = at_ a) ∧
      (2 ≤ diff.toNat → s.track.uncertain = true → takeLine d s = at_ alarm) ∧
      (2 ≤ diff.toNat → s.track.uncertain = false → takeLine d s = at_ { alarm with
        node := { s.node with state := if running then .suspended else s.node.state }
        track := { a.track with
          uncertain := true, queue := s.track.queue.map (Option.map fun b => { b with uncertain := true }) }
        seqs := if running then s.seqs.map fun q =>
            match q.job, q.list with
            | some (.body .running n), r :: _ => { q with list := [], job := some (.orphan r.program r.gun r.tag n) }
            | some (.body _ _), _ =>
              { q with list := [], job := none, watchCount := 0, cmd := idleCommand q.cmd.sel }
            | _, _ => { q with list := [] }
          else s.seqs })) ∧
  ∀ (f : Frame) (n : Half) (z : SizeCode) (d : Data7) (ck : Byte) (k : Nat) (s : State),
    let sls := slotsOf f.payload
    let m := s.sweep.storedMap
    s.pins.inReset = false → s.sweep.closure = none → s.sweep.mapInForce = some m →
    headerOf f.payload = some (n, z) → NoRequest m sls s.node.address →
    m.slotOf .line = some k → sls[k]? = some { data := d, check := ck } →
    (d.b0 ^^^ d.b1 ^^^ d.b2 ^^^ d.b3 ^^^ d.b4 ^^^ d.b5 ^^^ d.b6 ^^^ ck = 0 →
      ∃ u t, exec (.outboundPass f) s = .next t ∧ SameTables s u ∧ u.report.exit = s.report.exit ∧
        u.report.exitCount = s.report.exitCount ∧ t.track = (takeLine d u).track ∧
        t.bank = (takeLine d u).bank ∧ t.node = (takeLine d u).node ∧ t.report.exit = (takeLine d u).report.exit ∧
        t.report.exitCount = (takeLine d u).report.exitCount ∧ t.chans = (takeLine d u).chans ∧
        ∀ c, (seqOf t c).list = (seqOf (takeLine d u) c).list) ∧
    (d.b0 ^^^ d.b1 ^^^ d.b2 ^^^ d.b3 ^^^ d.b4 ^^^ d.b5 ^^^ d.b6 ^^^ ck ≠ 0 →
      ∃ t, exec (.outboundPass f) s = .next t ∧ SameTables s t ∧ alarmed t .check = true)

/-- R8 to R11, R13, R14, R31, R63, R78: one transfer: the exit and its report, the departures, the flip, the movement
and the admission, and in RUN and HELD the arrivals, settled for each present channel at its pre-select point;
what an exit reports, and what a departure does to the channel's list and job and to the masks of the body. That
the exit is reported before the departures is the model's reading (log 30), and the order of the settlements is
one of those the spec calls equal (log 29). -/
def Obligations.TransferMovesQueue : Prop :=
  (∀ s : State,
    let live := if s.bank.armed then s.bank.live.other else s.bank.live
    let a : Announcement := s.track.announced.headD { tag := 0, style := 0, options := 0 }
    let new : Body :=
      { id := s.track.nextId, tag := a.tag, style := a.style, options := a.options, bank := live, empty := a.style == 0
        unresolved := a.style != 0 && !styleEnabled s.bank live a.style, uncertain := false, resolved := 0, done := 0
        owed := 0 }
    let d := takeDepartures { s with
      report := match s.track.queue.getD (s.node.stations - 1) none with
        | none => s.report
        | some b =>
          { s.report with
            exit := { tag := b.tag, outcome := exitOutcome s b, owed := exitOwed s b }
            exitCount := s.report.exitCount + 1
            alarms := if exitOutcome s b = .complete ∨ exitOutcome s b = .empty then s.report.alarms
              else s.report.alarms ||| 0x08 } }
    let moved : State := { d with
      bank := { s.bank with live := live, armed := false }
      track := { s.track with
        announced := s.track.announced.tail, queue := some new :: d.track.queue.dropLast
        nextId := s.track.nextId + 1 } }
    let running := s.node.state = .run ∨ s.node.state = .held
    (¬running → transfer s = moved) ∧
    (running → transfer s = settledWhere (fun c k => (chanRec s c).preselect = k) moved) ∧
    (QueuesWf s → MarksWf s → s.track.uncertain = false → running →
      ∀ (c : ChanNo) (k : Nat) (b : Body), present s c = true → k < s.node.stations → (chanRec s c).preselect = k →
        (transfer s).track.queue[k]? = some (some b) → b.passedOver = false → inMask b.resolved c = true)) ∧
  (∀ (s : State) (b : Body),
    (∀ c, inMask (exitOwed s b) c = true ↔
      inMask b.owed c = true ∨ ∃ x, ∃ r ∈ (seqOf s x).list, r.body = b.id ∧ inMask r.accounts c = true) ∧
    exitOutcome s b =
      if b.empty then .empty else if b.unresolved then .unresolved
      else if ∃ c, present s c = true ∧ inMask b.resolved c = false then .undispatched
      else if exitOwed s b ≠ 0 then .incomplete else .complete) ∧
  ∀ s : State,
    let t := takeDepartures s
    t = { s with seqs := t.seqs, track := { s.track with queue := t.track.queue } } ∧
    (∃ m : Nat → Mask, t.track.queue = s.track.queue.map (Option.map fun b => b.mark .owed (m b.id)) ∧
      ∀ id x, inMask (m id) x = true ↔ ∃ c b r, bodyAt s (chanRec s c).station = some b ∧ b.id = id ∧
        r ∈ (seqOf s c).list ∧ r.body = id ∧ inMask r.accounts x = true) ∧
    ∀ c : ChanNo,
      let q := seqOf s c
      (bodyAt s (chanRec s c).station = none → seqOf t c = q) ∧
      ∀ b, bodyAt s (chanRec s c).station = some b →
        let keep := q.list.filter fun r => r.body ≠ b.id
        let onHead (ph : JobPhase) (r : Dispatch) := ∃ n rest, q.job = some (.body ph n) ∧ q.list = r :: rest ∧ r.body = b.id
        (∀ r n, onHead .running r → q.job = some (.body .running n) →
          seqOf t c = { q with list := keep, job := some (.orphan r.program r.gun r.tag n) }) ∧
        (∀ r, onHead .selecting r ∨ onHead .loaded r →
          seqOf t c = { q with list := keep, job := none, watchCount := 0, cmd := idleCommand q.cmd.sel }) ∧
        ((∀ ph r, ¬onHead ph r) → seqOf t c = { q with list := keep })

/-! ### Sweeps, passes and links (07) -/

/-- R132, R131, R137, R143, R145: port A's link, port B's link and the sweep watch; the loss of the outstanding sweep
with its hand-overs. A return that comes after it finds no sweep and, port A being down, no way out; the next
processed pass sets the link state UP. Two clauses are the model's own choice and no rule of the spec: that
SWEEP_WATCH_EXPIRY with the watch stopped changes nothing (the DESIGN CHOICE of log 12), and that a link change
that repeats the level already held acts all the same (the DESIGN CHOICE of log 11). A pass through a port whose
link is DOWN is taken as received (the DESIGN CHOICE of log 33). -/
def Obligations.LinksAndWatch : Prop :=
  ∀ s : State, s.pins.inReset = false →
    let lost (u : State) : State :=
      if s.sweep.outstanding.isSome then
        { u with
          sweep := { u.sweep with outstanding := none }
          seqs := s.seqs.map fun q => { q with history := none }
          path := { s.path with
            expected := [], lostSweeps := if s.path.lostSweeps = 65535 then 65535 else s.path.lostSweeps + 1 } }
      else u
    let silent : State := { s with
      sent := [], sweep := { s.sweep with link := .lost }
      report := { s.report with alarms := s.report.alarms ||| 0x40 } }
    exec .portALinkDown s = .next (lost { silent with pins := { s.pins with portA := false } }) ∧
    exec .portALinkUp s = .next { s with sent := [], pins := { s.pins with portA := true } } ∧
    (s.sweep.outstanding = none → s.sweep.closure = none → s.pins.portA = false →
      ∀ f x, headerOf f.payload = some x → exec (.returnPass f) s = .next { s with sent := [] }) ∧
    (∀ f x, headerOf f.payload = some x → ∃ t, exec (.outboundPass f) s = .next t ∧ t.sweep.link = .up) ∧
    ((∃ o, s.sweep.outstanding = some o ∧ o.closed = false) →
      exec .portBLinkDown s = .next (lost { s with sent := [], pins := { s.pins with portB := false } })) ∧
    ((∀ o, s.sweep.outstanding = some o → o.closed = true) →
      exec .portBLinkDown s = .next { s with sent := [], pins := { s.pins with portB := false } }) ∧
    exec .portBLinkUp s = .next { s with sent := [], pins := { s.pins with portB := true } } ∧
    (s.sweep.watch = none → exec .sweepWatchExpiry s = .next { s with sent := [] }) ∧
    (s.sweep.watch ≠ none → exec .sweepWatchExpiry s =
      .next (lost { silent with sweep := { s.sweep with link := .lost, watch := none } }))

/-- R130, R131, R133, R135: the header check; foreign frames, sweeps that fail it and returns that are not awaited are
forwarded unchanged, or turned back at port A, or discarded; a header check error alone is logged. A return by
closure that is due is taken before any of them (log 15). Two clauses are the model's own choice and no rule of
the spec: that RING_CLOSURE_RETURN with no return due changes nothing (the DESIGN CHOICE of log 12), and that a
failed header check is logged whatever the marker and a payload too short for a header is not logged (the DESIGN
CHOICE of log 16). A frame at a port whose link is DOWN is taken as received (the DESIGN CHOICE of log 33). -/
def Obligations.FramesAreForwarded : Prop :=
  (∀ (p : List Byte) (n : Half) (z : SizeCode), headerOf p = some (n, z) ↔
    p.length = 8 * z.slots ∧ ∃ b1 b2 b3 b4 b5 b6 b7 rest, p = 0xC5 :: b1 :: b2 :: b3 :: b4 :: b5 :: b6 :: b7 :: rest ∧
      0xC5 ^^^ b1 ^^^ b2 ^^^ b3 ^^^ b4 ^^^ b5 ^^^ b6 ^^^ b7 = 0 ∧ n = b2 ++ b3 ∧
      b1.extractLsb' 0 2 = match z with | .slots24 => 0 | .slots48 => 1 | .slots96 => 2 | .slots184 => 3) ∧
  ∀ s : State, s.pins.inReset = false →
    ∃ u, exec .ringClosureReturn s = .next u ∧ u.sweep.closure = none ∧ u.pins = s.pins ∧
      (s.sweep.closure = none → u = { s with sent := [] }) ∧
      (∀ f, s.sweep.closure = some f →
        exec .ringClosureReturn s = exec (.returnPass f) { s with sweep := { s.sweep with closure := none } }) ∧
      let outA (isSweep : Bool) (f : Frame) : List Sent :=
        if s.pins.portB then [{ port := .portB, isSweep := isSweep, frame := f }]
        else if s.pins.portA then [{ port := .portA, isSweep := isSweep, frame := f }] else []
      let outB (isSweep : Bool) (f : Frame) : List Sent :=
        if s.pins.portA then [{ port := .portA, isSweep := isSweep, frame := f }] else []
      let checked (pass : Pass) (f : Frame) : State :=
        match headerSlot f.payload with
        | some sl =>
          if sl.ok then u
          else logError { kind := .headerCheck, sweep := sl.data.b2 ++ sl.data.b3, slot := 0, pass := pass, raw := sl } u
        | none => u
      (∀ f, exec (.foreignFrame .portA f) s = .next { u with sent := u.sent ++ outA false f }) ∧
      (∀ f, exec (.foreignFrame .portB f) s = .next { u with sent := u.sent ++ outB false f }) ∧
      (∀ f, headerOf f.payload = none →
        exec (.outboundPass f) s = .next { checked .outbound f with sent := u.sent ++ outA true f } ∧
        exec (.returnPass f) s = .next { checked .back f with sent := u.sent ++ outB true f }) ∧
      ∀ f n z, headerOf f.payload = some (n, z) →
        (∀ o, u.sweep.outstanding = some o → o.number ≠ n ∨ o.size ≠ z) →
        exec (.returnPass f) s = .next { u with sent := u.sent ++ outB true f }

/-- R134, R136, R137, R139, R45, R54, R85, R131, R143: a processed outbound pass. The earlier sweep is lost; the
stored map comes into force, and each channel that loses its presence and with it its availability hands an
ORDERLY loss; the hand-overs are taken one after another, each once, in an order that is the free value of log 3;
the frame leaves or is kept for its return by closure; a slot that is neither a TEST nor a present channel's
COMMAND slot leaves as it came, and a COMMAND slot carries the channel's command and the HOLD bit of the moment it
is written. The bytes of a COMMAND slot are those of 12.2. What stands before the hand-overs, and in which order,
is the model's reading (log 20); a pass through a port whose link is DOWN is taken as received (the DESIGN CHOICE
of log 33). -/
def Obligations.OutboundPassIsProcessed : Prop :=
  (∀ (f : Frame) (n : Half) (z : SizeCode) (s : State), s.pins.inReset = false → headerOf f.payload = some (n, z) →
    ∃ (u : State) (key : Nat → Nat) (es : List OutEvent), exec .ringClosureReturn s = .next u ∧ es.Perm outEvents ∧
      let m := u.sweep.storedMap
      let lost : State := if u.sweep.outstanding.isSome then { u with
          sweep := { u.sweep with outstanding := none }
          seqs := u.seqs.map fun q => { q with history := none }
          path := { u.path with
            expected := [], lostSweeps := if u.path.lostSweeps = 65535 then 65535 else u.path.lostSweeps + 1 } }
        else u
      let mapped : State :=
        (allChannels.filter fun c => available lost c && !(m.holds (.command c) && m.holds (.reply c))).foldl
          (fun v c => loseService c .orderly v) { lost with sweep := { lost.sweep with mapInForce := some m } }
      let event (q : InPass) (e : OutEvent) : InPass :=
        match e with
        | .line =>
          let v := match slotFor m q.slots .line with
            | none => q.state
            | some x =>
              if x.2.ok then takeLine x.2.data q.state
              else logError { kind := .slotCheck, sweep := n, slot := x.1, pass := .outbound, raw := x.2 } q.state
          { q with state := v }
        | .request => { q with state := requestEvent key m n q.slots q.state }
        | .watch =>
          let w := if q.state.node.interval = 0 then none else some q.state.node.interval
          { q with state := { q.state with sweep := { q.state.sweep with watch := w } } }
        | .testFill =>
          if q.state.path.running then
            let r := fillSlots (testSlots m q.slots.length) q.state.path q.slots
            { state := { q.state with path := r.1 }, slots := r.2 }
          else q
        | .opportunity c => { q with state := opportunity c q.state }
        | .command c =>
          match present q.state c, m.slotOf (.command c) with
          | true, some k =>
            let d := commandData (seqOf q.state c).cmd (q.state.node.state != .run)
            { q with slots := q.slots.set k d.toSlot }
          | _, _ => q
      let begun : InPass :=
        { state := { mapped with
            sweep := { mapped.sweep with
              link := .up
              outstanding := some { number := n, size := z, closed := !s.pins.portB, addressed := false } }
            path := { mapped.path with expected := [] } }
          slots := slotsOf f.payload }
      let done := es.foldl event begun
      let out : Frame := { f with payload := payloadOf done.slots }
      let t : State := { done.state with
        sent := u.sent ++ (if s.pins.portB then [{ port := .portB, isSweep := true, frame := out }] else [])
        sweep := { done.state.sweep with closure := if s.pins.portB then none else some out }
        choice := u.choice + 1 }
      exec (.outboundPass f) s = .next t ∧
      t.sweep.mapInForce = some m ∧ t.sweep.link = .up ∧ t.pins = s.pins ∧
      (∃ a, t.sweep.outstanding = some { number := n, size := z, closed := !s.pins.portB, addressed := a }) ∧
      out.payload.length = f.payload.length ∧ slotsOf out.payload = done.slots ∧
      (∀ k < z.slots, k = 0 ∨ (∃ i : Fin 183, k = i.val + 1 ∧ m[i.val] ≠ .test ∧
          ∀ c, m[i.val] = .command c → present t c = false) →
        done.slots[k]? = (slotsOf f.payload)[k]?) ∧
      ∀ c k, present t c = true → m.slotOf (.command c) = some k → k < z.slots →
        ∃ es₁ es₂, es = es₁ ++ .command c :: es₂ ∧
          let w := (es₁.foldl event begun).state
          done.slots[k]? = some (commandData (seqOf w c).cmd (w.node.state != .run)).toSlot) ∧
  ∀ (cmd : Command) (hold : Bool),
    let d := commandData cmd hold
    d.b0 = cmd.program ∧ d.b1.extractLsb' 0 4 = cmd.sel ∧
    d.b1.extractLsb' 4 2 = (match cmd.kind with | .idle => 0 | .body => 1 | .dress => 2 | .cap => 3 : BitVec 2) ∧
    d.b1.getLsbD 6 = (cmd.gun == .gun2) ∧ d.b1.getLsbD 7 = hold ∧ d.b2 = cmd.boost ∧ d.b3 = cmd.spots ∧
    d.b4 ++ d.b5 = cmd.tag ∧ d.b6 = (if cmd.cover then 1 else 0) ∧
    d.toSlot = { data := d, check := d.b0 ^^^ d.b1 ^^^ d.b2 ^^^ d.b3 ^^^ d.b4 ^^^ d.b5 ^^^ d.b6 }

/-- R134, R137, R143, R85, R86, R93, R185: an outbound pass under the map already in force that carries no line data
and no request changes nothing but what these rules give: the earlier sweep is lost, the watch restarts, every
channel takes its selection opportunity, and the TEST slots are filled. A COMMAND slot carries the command before
or after the opportunity, with HOLD in every node state but RUN. The order of the hand-overs is the free value of
log 3; what stands before them is the model's reading (log 20); a pass through a port whose link is DOWN is taken
as received (the DESIGN CHOICE of log 33). -/
def Obligations.QuietOutboundPass : Prop :=
  ∀ (f : Frame) (n : Half) (z : SizeCode) (s : State),
    let sls := slotsOf f.payload
    let m := s.sweep.storedMap
    s.pins.inReset = false → s.sweep.closure = none → s.sweep.mapInForce = some m → headerOf f.payload = some (n, z) →
    slotFor m sls .line = none →
    (∀ x, slotFor m sls (.mgmt 0) = some x → x.2.ok = true ∧ viaOf s.node.address x.2.data = none) →
    let lost := s.sweep.outstanding.isSome
    let v : State := { s with
      sent := []
      seqs := if lost then s.seqs.map fun q => { q with history := none } else s.seqs
      path := { s.path with
        expected := []
        lostSweeps := if lost then (if s.path.lostSweeps = 65535 then 65535 else s.path.lostSweeps + 1)
          else s.path.lostSweeps } }
    let filled := fillSlots (testSlots m z.slots) v.path sls
    ∃ t p, exec (.outboundPass f) s = .next t ∧
      t = { v with
        sweep := { s.sweep with
          outstanding := some { number := n, size := z, closed := !s.pins.portB, addressed := false }
          link := .up
          watch := if s.node.interval = 0 then none else some s.node.interval
          closure := if s.pins.portB then none else some { f with payload := p } }
        seqs := t.seqs
        path := if s.path.running then filled.1 else v.path
        sent := if s.pins.portB then [{ port := .portB, isSweep := true, frame := { f with payload := p } }] else []
        choice := s.choice + 1 } ∧
      (∀ c, seqOf t c = seqOf (opportunity c v) c) ∧
      (∀ c k, present s c = true → m.slotOf (.command c) = some k → k < z.slots →
        ∃ cmd, (cmd = (seqOf v c).cmd ∨ cmd = (seqOf t c).cmd) ∧
          (slotsOf p)[k]? = some (commandData cmd (s.node.state != .run)).toSlot) ∧
      ∀ k ∈ testSlots m z.slots, (slotsOf p)[k]? = if s.path.running then filled.2[k]? else sls[k]?

/-- R135, R136, R143, R166, R175, R176, R180, R186, R87 to R90, R96: a processed return pass. The sweep is no longer
outstanding; the replies of the present channels and the comparison of the TEST slots are taken one after another,
each once, and each channel's two counts in either order (the free value of log 4); then STATUS, EXIT and, after a
request addressed to this node, the response are written from the state the pass leaves (log 5), and every other
slot is forwarded as it came. The bytes of the slots written are those of 12.2; the comparison adds the differing
bits (that an addition of 0 sets no alarm is log 23). A pass through a port whose link is DOWN is taken as
received (the DESIGN CHOICE of log 33). -/
def Obligations.ReturnPassIsProcessed : Prop :=
  (∀ (f : Frame) (o : Outstanding) (m : SlotMap) (s : State), s.pins.inReset = false → s.sweep.closure = none →
    s.sweep.outstanding = some o → s.sweep.mapInForce = some m → headerOf f.payload = some (o.number, o.size) →
    let v : State := { s with
      sent := []
      sweep := { s.sweep with link := .up, watch := if s.node.interval = 0 then none else some s.node.interval } }
    let sls := slotsOf f.payload
    let taken (first : Bool) (c : ChanNo) (u : State) : State :=
      let j := judgeReply o.number (slotFor m sls (.reply c)) u
      let w := takeReply c o.number j.1 j.2
      if first then countWatch c (countLoss c j.1 w) else countLoss c j.1 (countWatch c w)
    let event (first : ChanNo → Bool) (u : State) (e : BackEvent) : State :=
      match e with
      | .compare => compareTests sls u
      | .reply c => if present u c = true then taken (first c) c u else u
    ∃ (first : ChanNo → Bool) (es : List BackEvent) (t : State) (p : List Byte),
      es.Perm (.compare :: allChannels.map .reply) ∧ exec (.returnPass f) s = .next t ∧
      t = { es.foldl (event first) v with
        sweep := { v.sweep with outstanding := none }
        sent := if s.pins.portA then [{ port := .portA, isSweep := true, frame := { f with payload := p } }] else []
        choice := s.choice + 1 } ∧
      t.pins = s.pins ∧ t.node = s.node ∧ t.bank = s.bank ∧
      t.mgmt = s.mgmt ∧ t.pairs = s.pairs ∧ t.curves = s.curves ∧ t.report.exit = s.report.exit ∧
      t.report.exitCount = s.report.exitCount ∧ t.track.announced = s.track.announced ∧
      t.track.baseline = s.track.baseline ∧ t.pending = s.pending ∧
      p.length = f.payload.length ∧
      (∀ (r : Role) (k : Nat), m.slotOf r = some k → k < o.size.slots →
        (r = .status → (slotsOf p)[k]? = some (statusData t).toSlot) ∧
        (r = .exit → (slotsOf p)[k]? = some (exitData t.report).toSlot) ∧
        (∀ i, r = .mgmt i → o.addressed = true → (slotsOf p)[k]? =
          some (if i = 0 then responseHeader t.node.address t.mgmt.stored
            else data7Of (t.mgmt.stored.payload.drop (7 * (i.val - 1)))).toSlot)) ∧
      ∀ k, (∀ r, m.slotOf r = some k → r ≠ .status ∧ r ≠ .exit ∧ (o.addressed = true → ∀ i, r ≠ .mgmt i)) →
        (slotsOf p)[k]? = sls[k]?) ∧
  (∀ (sls : List Slot) (s : State),
    let wrong (d e : Data7) : Nat :=
      ((d.bytes.zip e.bytes).map fun x => ((List.range 8).filter fun i => x.1.getLsbD i != x.2.getLsbD i).length).sum
    let n := (s.path.expected.map fun e => match sls[e.1]? with | some sl => wrong e.2 sl.data | none => 0).sum
    compareTests sls s = { s with
      path := { s.path with bitErrors := BitVec.ofNat 16 (min 65535 (s.path.bitErrors.toNat + n)), expected := [] }
      report := if n = 0 then s.report else { s.report with alarms := s.report.alarms ||| 0x80 } }) ∧
  (∀ s : State,
    let d := statusData s
    d.b0 = statusFlags s ∧ d.b1 = s.report.alarms ∧
    d.b2 = (match s.track.baseline with | some b => b.sequence | none => 0) ∧
    d.b3 = (match s.track.baseline with | some b => b.transfer | none => 0) ∧
    (s.track.announced.length ≤ 4 → (d.b4.extractLsb' 0 3).toNat = s.track.announced.length ∧
      d.b4.extractLsb' 4 2 = (match s.bank.result with | .none => 0 | .done => 1 | .aborted => 2 : BitVec 2) ∧
      d.b4.getLsbD 3 = false ∧ d.b4.getLsbD 6 = (s.sweep.link == .up) ∧ d.b4.getLsbD 7 = false) ∧
    d.b5 = s.node.address.setWidth 8 ∧
    d.b6.toNat = (allChannels.filter fun c => (chanRec s c).failed.isSome).length) ∧
  (∀ r : Report,
    let d := exitData r
    d.b0 ++ d.b1 = r.exit.tag ∧ d.b2.extractLsb' 3 5 = r.exitCount ∧ d.b3 ++ d.b4 ++ d.b5 ++ d.b6 = r.exit.owed ∧
    d.b2.extractLsb' 0 3 = (match r.exit.outcome with
      | .complete => 0 | .incomplete => 1 | .unresolved => 2 | .undispatched => 3 | .empty => 4 : BitVec 3)) ∧
  (∀ (address : BitVec 4) (r : Response), responseHeader address r =
    { b0 := address.setWidth 8, b1 := r.code, b2 := r.tag, b3 := r.result.byte, b4 := BitVec.ofNat 8 r.payload.length
      b5 := 0, b6 := 0 }) ∧
  ∀ l : List Byte, (data7Of l).bytes = (List.range 7).map fun i => l.getD i 0

/-! ### Invariants -/

/-- R115, R138, R140, R7, R42, R43, R48, R6, R17: every step keeps the stored curves, the slot maps, the roster, the
pair table (with at most 16 pairs) and the queues as the manual says they stand. -/
def Obligations.StepKeepsTables : Prop :=
  (∀ s t : State, CurvesWf s → step s = .next t → CurvesWf t) ∧
  (∀ s t : State, MapsWf s → step s = .next t → MapsWf t) ∧
  (∀ s t : State, RosterWf s → step s = .next t → RosterWf t) ∧
  (∀ s t : State, RosterWf s → QueuesWf s → step s = .next t → QueuesWf t) ∧
  (∀ s t : State, PairsWf s → step s = .next t → PairsWf t) ∧
  ∀ s : State, PairsWf s → s.pairs.length ≤ 16

/-- R9, R10, R12, R15, R17, R34, R147, R152: every step keeps the marks and flags of the body records, the node state's
agreement with tracking and the hold latch, and a running copy free of a commit and of bodies on staging. -/
def Obligations.StepKeepsBodiesAndNode : Prop :=
  (∀ s t : State, MarksWf s → step s = .next t → MarksWf t) ∧
  (∀ s t : State, NodeWf s → step s = .next t → NodeWf t) ∧
  ∀ s t : State, CopyWf s → step s = .next t → CopyWf t

/-- R86, R90, R91, R94, R112, R120, R121, R177, R181: every step keeps each gun's flags and the overdue factor those of the
counts, each sequencer's command its job's and its reply-loss count below 8, and the conditions of CHECK, TRACK_LOST
and TEST_ERROR shown in the summary. -/
def Obligations.StepKeepsJobsWearAndAlarms : Prop :=
  (∀ s t : State, WearWf s → step s = .next t → WearWf t) ∧
  (∀ s t : State, SeqsWf s → step s = .next t → SeqsWf t) ∧
  ∀ s t : State, AlarmsWf s → step s = .next t → AlarmsWf t

/-- The state after power-on reset satisfies every invariant. -/
def Obligations.ResetMeetsInvariants : Prop :=
  CurvesWf State.reset ∧ MapsWf State.reset ∧ RosterWf State.reset ∧ QueuesWf State.reset ∧ PairsWf State.reset ∧
  MarksWf State.reset ∧ NodeWf State.reset ∧ CopyWf State.reset ∧ WearWf State.reset ∧ SeqsWf State.reset ∧
  AlarmsWf State.reset

end
end

