-- ==== Sys2Proof/Laws/State.lean ====
section
/-! SUPPORT. One lemma for each field of the state under each of the shared updates, and what the register
operations read back. -/

namespace Sys2Proof.Machine

/-! ### setSeq -/

@[simp] theorem setSeq_pins (c : ChanNo) (q : Seq) (s : State) : (setSeq c q s).pins = s.pins := rfl
@[simp] theorem setSeq_node (c : ChanNo) (q : Seq) (s : State) : (setSeq c q s).node = s.node := rfl
@[simp] theorem setSeq_sweep (c : ChanNo) (q : Seq) (s : State) : (setSeq c q s).sweep = s.sweep := rfl
@[simp] theorem setSeq_track (c : ChanNo) (q : Seq) (s : State) : (setSeq c q s).track = s.track := rfl
@[simp] theorem setSeq_bank (c : ChanNo) (q : Seq) (s : State) : (setSeq c q s).bank = s.bank := rfl
@[simp] theorem setSeq_chans (c : ChanNo) (q : Seq) (s : State) : (setSeq c q s).chans = s.chans := rfl
@[simp] theorem setSeq_pairs (c : ChanNo) (q : Seq) (s : State) : (setSeq c q s).pairs = s.pairs := rfl
@[simp] theorem setSeq_wear (c : ChanNo) (q : Seq) (s : State) : (setSeq c q s).wear = s.wear := rfl
@[simp] theorem setSeq_curves (c : ChanNo) (q : Seq) (s : State) : (setSeq c q s).curves = s.curves := rfl
@[simp] theorem setSeq_mgmt (c : ChanNo) (q : Seq) (s : State) : (setSeq c q s).mgmt = s.mgmt := rfl
@[simp] theorem setSeq_report (c : ChanNo) (q : Seq) (s : State) : (setSeq c q s).report = s.report := rfl
@[simp] theorem setSeq_path (c : ChanNo) (q : Seq) (s : State) : (setSeq c q s).path = s.path := rfl
@[simp] theorem setSeq_sent (c : ChanNo) (q : Seq) (s : State) : (setSeq c q s).sent = s.sent := rfl
@[simp] theorem setSeq_choice (c : ChanNo) (q : Seq) (s : State) : (setSeq c q s).choice = s.choice := rfl
@[simp] theorem setSeq_pending (c : ChanNo) (q : Seq) (s : State) : (setSeq c q s).pending = s.pending := rfl

/-! ### setChan -/

@[simp] theorem setChan_pins (c : ChanNo) (r : ChanRec) (s : State) : (setChan c r s).pins = s.pins := rfl
@[simp] theorem setChan_node (c : ChanNo) (r : ChanRec) (s : State) : (setChan c r s).node = s.node := rfl
@[simp] theorem setChan_sweep (c : ChanNo) (r : ChanRec) (s : State) : (setChan c r s).sweep = s.sweep := rfl
@[simp] theorem setChan_track (c : ChanNo) (r : ChanRec) (s : State) : (setChan c r s).track = s.track := rfl
@[simp] theorem setChan_bank (c : ChanNo) (r : ChanRec) (s : State) : (setChan c r s).bank = s.bank := rfl
@[simp] theorem setChan_pairs (c : ChanNo) (r : ChanRec) (s : State) : (setChan c r s).pairs = s.pairs := rfl
@[simp] theorem setChan_seqs (c : ChanNo) (r : ChanRec) (s : State) : (setChan c r s).seqs = s.seqs := rfl
@[simp] theorem setChan_wear (c : ChanNo) (r : ChanRec) (s : State) : (setChan c r s).wear = s.wear := rfl
@[simp] theorem setChan_curves (c : ChanNo) (r : ChanRec) (s : State) : (setChan c r s).curves = s.curves := rfl
@[simp] theorem setChan_mgmt (c : ChanNo) (r : ChanRec) (s : State) : (setChan c r s).mgmt = s.mgmt := rfl
@[simp] theorem setChan_report (c : ChanNo) (r : ChanRec) (s : State) : (setChan c r s).report = s.report := rfl
@[simp] theorem setChan_path (c : ChanNo) (r : ChanRec) (s : State) : (setChan c r s).path = s.path := rfl
@[simp] theorem setChan_sent (c : ChanNo) (r : ChanRec) (s : State) : (setChan c r s).sent = s.sent := rfl
@[simp] theorem setChan_choice (c : ChanNo) (r : ChanRec) (s : State) : (setChan c r s).choice = s.choice := rfl
@[simp] theorem setChan_pending (c : ChanNo) (r : ChanRec) (s : State) : (setChan c r s).pending = s.pending := rfl

/-! ### setWear -/

@[simp] theorem setWear_pins (c : ChanNo) (w : ChanWear) (s : State) : (setWear c w s).pins = s.pins := rfl
@[simp] theorem setWear_node (c : ChanNo) (w : ChanWear) (s : State) : (setWear c w s).node = s.node := rfl
@[simp] theorem setWear_sweep (c : ChanNo) (w : ChanWear) (s : State) : (setWear c w s).sweep = s.sweep := rfl
@[simp] theorem setWear_track (c : ChanNo) (w : ChanWear) (s : State) : (setWear c w s).track = s.track := rfl
@[simp] theorem setWear_bank (c : ChanNo) (w : ChanWear) (s : State) : (setWear c w s).bank = s.bank := rfl
@[simp] theorem setWear_chans (c : ChanNo) (w : ChanWear) (s : State) : (setWear c w s).chans = s.chans := rfl
@[simp] theorem setWear_pairs (c : ChanNo) (w : ChanWear) (s : State) : (setWear c w s).pairs = s.pairs := rfl
@[simp] theorem setWear_seqs (c : ChanNo) (w : ChanWear) (s : State) : (setWear c w s).seqs = s.seqs := rfl
@[simp] theorem setWear_curves (c : ChanNo) (w : ChanWear) (s : State) : (setWear c w s).curves = s.curves := rfl
@[simp] theorem setWear_mgmt (c : ChanNo) (w : ChanWear) (s : State) : (setWear c w s).mgmt = s.mgmt := rfl
@[simp] theorem setWear_report (c : ChanNo) (w : ChanWear) (s : State) : (setWear c w s).report = s.report := rfl
@[simp] theorem setWear_path (c : ChanNo) (w : ChanWear) (s : State) : (setWear c w s).path = s.path := rfl
@[simp] theorem setWear_sent (c : ChanNo) (w : ChanWear) (s : State) : (setWear c w s).sent = s.sent := rfl
@[simp] theorem setWear_choice (c : ChanNo) (w : ChanWear) (s : State) : (setWear c w s).choice = s.choice := rfl
@[simp] theorem setWear_pending (c : ChanNo) (w : ChanWear) (s : State) : (setWear c w s).pending = s.pending := rfl

/-! ### setAlarm -/

@[simp] theorem setAlarm_pins (a : Alarm) (s : State) : (setAlarm a s).pins = s.pins := rfl
@[simp] theorem setAlarm_node (a : Alarm) (s : State) : (setAlarm a s).node = s.node := rfl
@[simp] theorem setAlarm_sweep (a : Alarm) (s : State) : (setAlarm a s).sweep = s.sweep := rfl
@[simp] theorem setAlarm_track (a : Alarm) (s : State) : (setAlarm a s).track = s.track := rfl
@[simp] theorem setAlarm_bank (a : Alarm) (s : State) : (setAlarm a s).bank = s.bank := rfl
@[simp] theorem setAlarm_chans (a : Alarm) (s : State) : (setAlarm a s).chans = s.chans := rfl
@[simp] theorem setAlarm_pairs (a : Alarm) (s : State) : (setAlarm a s).pairs = s.pairs := rfl
@[simp] theorem setAlarm_seqs (a : Alarm) (s : State) : (setAlarm a s).seqs = s.seqs := rfl
@[simp] theorem setAlarm_wear (a : Alarm) (s : State) : (setAlarm a s).wear = s.wear := rfl
@[simp] theorem setAlarm_curves (a : Alarm) (s : State) : (setAlarm a s).curves = s.curves := rfl
@[simp] theorem setAlarm_mgmt (a : Alarm) (s : State) : (setAlarm a s).mgmt = s.mgmt := rfl
@[simp] theorem setAlarm_path (a : Alarm) (s : State) : (setAlarm a s).path = s.path := rfl
@[simp] theorem setAlarm_sent (a : Alarm) (s : State) : (setAlarm a s).sent = s.sent := rfl
@[simp] theorem setAlarm_choice (a : Alarm) (s : State) : (setAlarm a s).choice = s.choice := rfl
@[simp] theorem setAlarm_pending (a : Alarm) (s : State) : (setAlarm a s).pending = s.pending := rfl

/-! ### mark -/

@[simp] theorem mark_pins (m : Mark) (chs : Mask) (id : Nat) (s : State) : (mark m chs id s).pins = s.pins := rfl
@[simp] theorem mark_node (m : Mark) (chs : Mask) (id : Nat) (s : State) : (mark m chs id s).node = s.node := rfl
@[simp] theorem mark_sweep (m : Mark) (chs : Mask) (id : Nat) (s : State) : (mark m chs id s).sweep = s.sweep := rfl
@[simp] theorem mark_bank (m : Mark) (chs : Mask) (id : Nat) (s : State) : (mark m chs id s).bank = s.bank := rfl
@[simp] theorem mark_chans (m : Mark) (chs : Mask) (id : Nat) (s : State) : (mark m chs id s).chans = s.chans := rfl
@[simp] theorem mark_pairs (m : Mark) (chs : Mask) (id : Nat) (s : State) : (mark m chs id s).pairs = s.pairs := rfl
@[simp] theorem mark_seqs (m : Mark) (chs : Mask) (id : Nat) (s : State) : (mark m chs id s).seqs = s.seqs := rfl
@[simp] theorem mark_wear (m : Mark) (chs : Mask) (id : Nat) (s : State) : (mark m chs id s).wear = s.wear := rfl
@[simp] theorem mark_curves (m : Mark) (chs : Mask) (id : Nat) (s : State) : (mark m chs id s).curves = s.curves := rfl
@[simp] theorem mark_mgmt (m : Mark) (chs : Mask) (id : Nat) (s : State) : (mark m chs id s).mgmt = s.mgmt := rfl
@[simp] theorem mark_report (m : Mark) (chs : Mask) (id : Nat) (s : State) : (mark m chs id s).report = s.report := rfl
@[simp] theorem mark_path (m : Mark) (chs : Mask) (id : Nat) (s : State) : (mark m chs id s).path = s.path := rfl
@[simp] theorem mark_sent (m : Mark) (chs : Mask) (id : Nat) (s : State) : (mark m chs id s).sent = s.sent := rfl
@[simp] theorem mark_choice (m : Mark) (chs : Mask) (id : Nat) (s : State) : (mark m chs id s).choice = s.choice := rfl
@[simp] theorem mark_pending (m : Mark) (chs : Mask) (id : Nat) (s : State) : (mark m chs id s).pending = s.pending := rfl

/-! ### One register file under an update of another -/

@[simp] theorem chanRec_setSeq (d c : ChanNo) (q : Seq) (s : State) : chanRec (setSeq c q s) d = chanRec s d := rfl
@[simp] theorem wearOf_setSeq (d c : ChanNo) (q : Seq) (s : State) : wearOf (setSeq c q s) d = wearOf s d := rfl
@[simp] theorem seqOf_setChan (d c : ChanNo) (r : ChanRec) (s : State) : seqOf (setChan c r s) d = seqOf s d := rfl
@[simp] theorem wearOf_setChan (d c : ChanNo) (r : ChanRec) (s : State) : wearOf (setChan c r s) d = wearOf s d := rfl
@[simp] theorem seqOf_setWear (d c : ChanNo) (w : ChanWear) (s : State) : seqOf (setWear c w s) d = seqOf s d := rfl
@[simp] theorem chanRec_setWear (d c : ChanNo) (w : ChanWear) (s : State) : chanRec (setWear c w s) d = chanRec s d := rfl
@[simp] theorem seqOf_mark (d : ChanNo) (m : Mark) (chs : Mask) (id : Nat) (s : State) :
    seqOf (mark m chs id s) d = seqOf s d := rfl
@[simp] theorem chanRec_mark (d : ChanNo) (m : Mark) (chs : Mask) (id : Nat) (s : State) :
    chanRec (mark m chs id s) d = chanRec s d := rfl
@[simp] theorem wearOf_mark (d : ChanNo) (m : Mark) (chs : Mask) (id : Nat) (s : State) :
    wearOf (mark m chs id s) d = wearOf s d := rfl
@[simp] theorem seqOf_setAlarm (d : ChanNo) (a : Alarm) (s : State) : seqOf (setAlarm a s) d = seqOf s d := rfl
@[simp] theorem chanRec_setAlarm (d : ChanNo) (a : Alarm) (s : State) : chanRec (setAlarm a s) d = chanRec s d := rfl
@[simp] theorem wearOf_setAlarm (d : ChanNo) (a : Alarm) (s : State) : wearOf (setAlarm a s) d = wearOf s d := rfl

/-! ### Reading back -/

@[simp] theorem seqOf_setSeq_self (c : ChanNo) (q : Seq) (s : State) : seqOf (setSeq c q s) c = q := by
  simp [seqOf, setSeq]

theorem seqOf_setSeq_of_ne {c d : ChanNo} (h : d ≠ c) (q : Seq) (s : State) : seqOf (setSeq c q s) d = seqOf s d := by
  have : c.val ≠ d.val := fun e => h (Fin.ext e.symm)
  simp [seqOf, setSeq, this]

@[simp] theorem chanRec_setChan_self (c : ChanNo) (r : ChanRec) (s : State) : chanRec (setChan c r s) c = r := by
  simp [chanRec, setChan]

theorem chanRec_setChan_of_ne {c d : ChanNo} (h : d ≠ c) (r : ChanRec) (s : State) :
    chanRec (setChan c r s) d = chanRec s d := by
  have : c.val ≠ d.val := fun e => h (Fin.ext e.symm)
  simp [chanRec, setChan, this]

@[simp] theorem wearOf_setWear_self (c : ChanNo) (w : ChanWear) (s : State) : wearOf (setWear c w s) c = w := by
  simp [wearOf, setWear]

theorem wearOf_setWear_of_ne {c d : ChanNo} (h : d ≠ c) (w : ChanWear) (s : State) :
    wearOf (setWear c w s) d = wearOf s d := by
  have : c.val ≠ d.val := fun e => h (Fin.ext e.symm)
  simp [wearOf, setWear, this]

@[simp] theorem setAlarm_alarms (a : Alarm) (s : State) :
    (setAlarm a s).report.alarms = s.report.alarms ||| a.mask := rfl

@[simp] theorem setAlarm_log (a : Alarm) (s : State) : (setAlarm a s).report.log = s.report.log := rfl

@[simp] theorem setAlarm_further (a : Alarm) (s : State) : (setAlarm a s).report.further = s.report.further := rfl

@[simp] theorem mark_uncertain (m : Mark) (chs : Mask) (id : Nat) (s : State) :
    (mark m chs id s).track.uncertain = s.track.uncertain := rfl

@[simp] theorem mark_image (m : Mark) (chs : Mask) (id : Nat) (s : State) :
    (mark m chs id s).track.image = s.track.image := rfl

@[simp] theorem mark_announced (m : Mark) (chs : Mask) (id : Nat) (s : State) :
    (mark m chs id s).track.announced = s.track.announced := rfl

@[simp] theorem mark_baseline (m : Mark) (chs : Mask) (id : Nat) (s : State) :
    (mark m chs id s).track.baseline = s.track.baseline := rfl

/-- Storing a channel record over itself changes nothing. -/
@[simp] theorem setChan_chanRec (c : ChanNo) (s : State) : setChan c (chanRec s c) s = s := by
  simp [setChan, chanRec]

/-- Storing a sequencer over itself changes nothing. -/
@[simp] theorem setSeq_seqOf (c : ChanNo) (s : State) : setSeq c (seqOf s c) s = s := by
  simp [setSeq, seqOf]

/-- Every channel stands in the list of all channels. -/
theorem mem_allChannels (c : ChanNo) : c ∈ allChannels := by revert c; decide

end Sys2Proof.Machine
end

