-- ==== Sys2Proof/Laws/Events.lean ====
section
/-! SUPPORT. The elementary changes a command is made of. `SeqStep` lists what can happen to one sequencer, `Inner` what
can happen inside the part, `Touch` what a command can do besides; `Steps` and `Touches` are runs of them. -/

namespace Sys2Proof.Machine

/-- One elementary change of a channel sequencer. -/
inductive SeqStep : Seq → Seq → Prop where
  /-- A reply is read (R88, R89). -/
  | reply (q : Seq) (h : Option History) (st : Option Data7) : SeqStep q { q with history := h, stable := st }
  /-- The watch count changes (R96, R104). -/
  | watch (q : Seq) (n : Nat) : SeqStep q { q with watchCount := n }
  /-- The reply-loss count changes; it never stands at 8 (R90). -/
  | loss (q : Seq) (n : Nat) (h : n < 8) : SeqStep q { q with lossCount := n }
  /-- A withdrawal (R105), whatever happens to the list. -/
  | withdraw (q : Seq) (l : List Dispatch) : SeqStep q { q.withdraw with list := l }
  /-- The list changes while no BODY job runs on its head. -/
  | relist (q : Seq) (l : List Dispatch) (h : ∀ ph n, q.job = some (.body ph n) → q.list = []) :
      SeqStep q { q with list := l }
  /-- The list changes behind its head. -/
  | behind (q : Seq) (r : Dispatch) (rest l : List Dispatch) (h : q.list = r :: rest) :
      SeqStep q { q with list := r :: l }
  /-- A RUNNING job becomes an orphan (R79). -/
  | orphan (q : Seq) (r : Dispatch) (rest l : List Dispatch) (n : BitVec 4) (h : q.list = r :: rest)
      (hj : q.job = some (.body .running n)) : SeqStep q { q.toOrphan r with list := l }
  /-- A maintenance job starts (R94). -/
  | maint (q : Seq) (g : Gun) (kind : Maint) (program : Byte) (hj : q.job = none) :
      SeqStep q { q with
        job := some (.maint .selecting kind g program (nextSel q.cmd.sel))
        cmd := { program := program, sel := nextSel q.cmd.sel, kind := kind.kind, gun := g, boost := 0, spots := 0,
                 tag := 0, cover := false }
        watchCount := 0 }
  /-- A BODY job starts on the head record (R94). -/
  | body (q : Seq) (r : Dispatch) (rest : List Dispatch) (boost : Byte) (h : q.list = r :: rest)
      (hj : q.job = none) :
      SeqStep q { q with
        job := some (.body .selecting (nextSel q.cmd.sel))
        cmd := { program := r.program, sel := nextSel q.cmd.sel, kind := .body, gun := r.gun, boost := boost,
                 spots := r.spots, tag := r.tag, cover := r.role == .cover }
        watchCount := 0 }
  /-- The job's phase changes (R95, R97). -/
  | phase (q : Seq) (ph : JobPhase) : SeqStep q { q with job := q.job.map (Job.toPhase ph) }
  /-- The job is over; the command stays (R86). -/
  | finish (q : Seq) (l : List Dispatch) : SeqStep q { q with list := l, job := none }

/-- Any number of changes of one sequencer. -/
abbrev SeqSteps : Seq → Seq → Prop := Relation.ReflTransGen SeqStep

/-- One elementary change of the bank store in state `s`. -/
inductive BankStep (s : State) : BankStore → Prop where
  /-- Contents of the banks are written. -/
  | write (x y : Bank) : BankStep s { s.bank with bank0 := x, bank1 := y }
  /-- COPY BANK passes its gate (R34). -/
  | start (r : LongResult) (hb : s.bank.busy = false) (ha : s.bank.armed = false) (hu : stagingInUse s = false) :
      BankStep s { s.bank with copy := .running 1, result := r }
  /-- A copy step (R35). -/
  | step (x y : Bank) (n m : Nat) (h : s.bank.copy = .running n) :
      BankStep s { s.bank with bank0 := x, bank1 := y, copy := .running m }
  /-- A copy ends, by completion or by a stop (R35 to R37). -/
  | idle (torn : Bool) (r : LongResult) : BankStep s { s.bank with copy := .idle, torn := torn, result := r }
  /-- A commit arms (R30). -/
  | arm (hb : s.bank.busy = false) : BankStep s { s.bank with armed := true }
  /-- A commit is disarmed (R33). -/
  | disarm : BankStep s { s.bank with armed := false }
  /-- The flip (R31). -/
  | flip (ha : s.bank.armed = true) : BankStep s { s.bank with live := s.bank.live.other, armed := false }

/-- The UNCERTAIN flag on every record, the flag of the tracking unit, the alarm, and SUSPENDED (R15, R152). -/
def uncertainEvent (s : State) : State :=
  setAlarm .trackLost { s with
    track := { s.track with
      uncertain := true
      queue := s.track.queue.map fun p => p.map fun b => { b with uncertain := true } }
    node := { s.node with
      state := if s.node.state = .run ∨ s.node.state = .held then .suspended else s.node.state } }

/-- RETRACK APPLY with the node state it leaves (R18, R19). -/
def applyEvent (s : State) : State :=
  { applyImage s with node := { s.node with
      state := if s.node.state = .suspended then enteredState s else s.node.state } }

/-- A gun's record is stored with its flags, and the roster's overdue factor with it (R120, R121). -/
def wearEvent (c : ChanNo) (g : Gun) (r : GunRec) (s : State) : State :=
  let w := (wearOf s c).put g (r.evaluated ((chanRec s c).counts g))
  setChan c { chanRec s c with overdue := w.overdue (chanRec s c).twoGuns } (setWear c w s)

/-- A channel record is stored; where the gun count changes, both guns are evaluated and the overdue factor
follows (R42, R44). -/
def channelEvent (c : ChanNo) (r : ChanRec) (s : State) : State :=
  if r.twoGuns = (chanRec s c).twoGuns then setChan c r s
  else
    let w : ChanWear := { gun1 := (wearOf s c).gun1.evaluated true, gun2 := (wearOf s c).gun2.evaluated r.twoGuns }
    setChan c { r with overdue := w.overdue r.twoGuns } (setWear c w s)

/-- One elementary change inside the part: it touches no pin, no frame, no queue and not the map in force. -/
inductive Inner : State → State → Prop where
  | mgmt (s : State) (m : Agent) : Inner s { s with mgmt := m }
  | addressed (s : State) :
      Inner s { s with sweep := { s.sweep with
        outstanding := s.sweep.outstanding.map fun o => { o with addressed := true } } }
  | watch (s : State) (w : Option Half) : Inner s { s with sweep := { s.sweep with watch := w } }
  | storeMap (s : State) (m : SlotMap) (h : m.legal = true) :
      Inner s { s with sweep := { s.sweep with storedMap := m } }
  | path (s : State) (p : PathTester) (h : p.bitErrors = s.path.bitErrors ∨ p.bitErrors = 0) :
      Inner s { s with path := p }
  | bitErrors (s : State) (p : PathTester) : Inner s (setAlarm .testError { s with path := p })
  | alarm (s : State) (a : Alarm) : Inner s (setAlarm a s)
  | log (s : State) (e : LogRec) : Inner s (logError e s)
  | clearAlarms (s : State) (mask : Byte) :
      Inner s { s with report := { s.report with alarms := clearedAlarms mask s } }
  | clearLog (s : State) : Inner s { s with report := { s.report with log := none, further := 0 } }
  | exit (s : State) (x : ExitReport) (n : BitVec 5) :
      Inner s { s with report := { s.report with exit := x, exitCount := n } }
  | baseline (s : State) (b : Baseline) : Inner s { s with track := { s.track with baseline := some b } }
  | announce (s : State) (a : Announcement) (h : s.track.announced.length < 4) :
      Inner s { s with track := { s.track with announced := s.track.announced ++ [a] } }
  | admitNext (s : State) (h : s.track.uncertain = false) : Inner s (admitNext s)
  | mark (s : State) (m : Mark) (chs : Mask) (id : Nat) : Inner s (mark m chs id s)
  | uncertain (s : State) : Inner s (uncertainEvent s)
  | seqs (s : State) (v : Vector Seq 32) (h : ∀ c : Fin 32, SeqSteps s.seqs[c.val] v[c.val]) :
      Inner s { s with seqs := v }
  | chan (s : State) (c : ChanNo) (f : Option Cause) (o : Bool) :
      Inner s (setChan c { chanRec s c with failed := f, out := o } s)
  | wear (s : State) (c : ChanNo) (g : Gun) (r : GunRec) : Inner s (wearEvent c g r s)
  | channel (s : State) (c : ChanNo) (r : ChanRec) (hf : r.failed = (chanRec s c).failed)
      (ho : r.overdue = (chanRec s c).overdue) (hs : r.station < s.node.stations) (hl : r.lead ≤ 3)
      (hls : r.lead ≤ r.station) (hw : r.selectWatch ≠ 0) (hp : separates s c r = false) :
      Inner s (channelEvent c r s)
  | addPair (s : State) (a b : ChanNo) (hab : a ≠ b) (ha : paired s a = false) (hb : paired s b = false)
      (hs : (chanRec s a).station = (chanRec s b).station) (hl : (chanRec s a).lead = (chanRec s b).lead) :
      Inner s { s with pairs := s.pairs ++ [(a, b)] }
  | dropPair (s : State) (c : ChanNo) : Inner s { s with pairs := s.pairs.filter fun p => p.1 != c && p.2 != c }
  | settings (s : State) (n : Nat) (i : Half) (m : LogMode) (h1 : 1 ≤ n) (h16 : n ≤ 16)
      (h : n = s.node.stations ∨ (s.track.queue.all Option.isNone = true ∧ ∀ c, (chanRec s c).station < n)) :
      Inner s (storeSettings n i m s)
  | image (s : State) (im : List (Option Retrack)) (hl : im.length = s.track.image.length)
      (hm : ∀ r, some r ∈ im → some r ∈ s.track.image ∨ r.done &&& r.owed = 0) :
      Inner s { s with track := { s.track with image := im } }
  | apply (s : State) (h : retrackOpen s = true) : Inner s (applyEvent s)
  | start (s : State) (h : s.node.state = .config) (hu : s.track.uncertain = false) :
      Inner s { s with node := { s.node with state := enteredState s } }
  | stop (s : State) : Inner s { s with node := { s.node with state := .config } }
  | hold (s : State) : Inner s (setHold s)
  | release (s : State) :
      Inner s { s with node := { s.node with
        latch := false, state := if s.node.state = .held then .run else s.node.state } }
  | cellTrack (s : State) :
      Inner s { s with
        node := { s.node with state := .config }
        track := s.track.cellReset s.node.stations
        report := s.report.cellReset
        path := s.path.cellReset }
  | curves (s : State) (i : Fin 4) (k : Curve) (h : k.valid = true) :
      Inner s { s with curves := s.curves.set i.val k }
  | bank (s : State) (b : BankStore) (h : BankStep s b) : Inner s { s with bank := b }

/-- Any number of elementary changes inside the part. -/
abbrev Steps : State → State → Prop := Relation.ReflTransGen Inner

/-- One elementary change of a command. -/
inductive Touch : State → State → Prop where
  | inner (s t : State) (h : Inner s t) : Touch s t
  | pins (s : State) (p : Pins) (h : p.inReset = s.pins.inReset) : Touch s { s with pins := p }
  | sent (s : State) (l : List Sent) : Touch s { s with sent := l }
  | choice (s : State) (n : Nat) : Touch s { s with choice := n }
  | link (s : State) (l : LinkState) : Touch s { s with sweep := { s.sweep with link := l } }
  | outstanding (s : State) (o : Option Outstanding) : Touch s { s with sweep := { s.sweep with outstanding := o } }
  | closure (s : State) (f : Option Frame) : Touch s { s with sweep := { s.sweep with closure := f } }
  | enterMap (s : State) : Touch s { s with sweep := { s.sweep with mapInForce := some s.sweep.storedMap } }
  | enterReset (s : State) : Touch s (enterReset s)
  | powerOn (s : State) (straps : BitVec 4) : Touch s (powerOn straps s)

/-- Any number of elementary changes of a command. -/
abbrev Touches : State → State → Prop := Relation.ReflTransGen Touch

end Sys2Proof.Machine
end

