-- ==== Sys2Proof/Laws/Dispatch.lean ====
section
/-! SUPPORT. What the dispatch machinery can do, operation by operation: every operation of the resolver, the roster, the
wear unit and the sequencers is a run of elementary changes inside the part. -/

namespace Sys2Proof.Machine

/-! ### Runs -/

/-- One elementary change is a run. -/
theorem Inner.steps {s t : State} (h : Inner s t) : Steps s t := .single h

/-- One change of a sequencer is a run. -/
theorem SeqStep.steps {q r : Seq} (h : SeqStep q r) : SeqSteps q r := .single h

/-- A fold of runs is a run. -/
theorem steps_foldl {α : Type} {f : State → α → State} (h : ∀ s a, Steps s (f s a)) (l : List α) (s : State) :
    Steps s (l.foldl f s) := by
  induction l generalizing s with
  | nil => exact .refl
  | cons a l ih => exact (h s a).trans (ih (f s a))

/-- Changing one sequencer by its own changes is an elementary change. -/
theorem Inner.seq (s : State) (c : ChanNo) {q : Seq} (h : SeqSteps (seqOf s c) q) : Inner s (setSeq c q s) := by
  refine Inner.seqs s _ fun d => ?_
  by_cases hd : c.val = d.val
  · simpa [Vector.getElem_set, hd, seqOf] using h
  · simpa [Vector.getElem_set, hd] using Relation.ReflTransGen.refl

/-- One change of one sequencer, as a run. -/
theorem steps_setSeq (s : State) (c : ChanNo) {q : Seq} (h : SeqStep (seqOf s c) q) : Steps s (setSeq c q s) :=
  (Inner.seq s c h.steps).steps

/-! ### Pending lists -/

/-- A change of the list that keeps the head of a list whose head has a BODY job. -/
theorem SeqStep.keepHead (q : Seq) (l : List Dispatch)
    (h : ∀ ph n r rest, q.job = some (.body ph n) → q.list = r :: rest → ∃ l', l = r :: l') :
    SeqStep q { q with list := l } := by
  by_cases h0 : ∀ ph n, q.job = some (.body ph n) → q.list = []
  · exact .relist q l h0
  · push Not at h0
    obtain ⟨ph, n, hj, hl⟩ := h0
    obtain ⟨r, rest, hl⟩ := List.exists_cons_of_ne_nil hl
    obtain ⟨l', rfl⟩ := h ph n r rest hj hl
    exact .behind q r rest l' hl

theorem insertRecord_steps (c : ChanNo) (r : Dispatch) (s : State) : Steps s (insertRecord c r s) := by
  unfold insertRecord
  dsimp only
  split
  · next hj hl => exact steps_setSeq s c (.behind _ _ _ _ hl)
  · next hj hl =>
    split
    · exact steps_setSeq s c (.withdraw _ _)
    · exact steps_setSeq s c (.behind _ _ _ _ hl)
  · next h1 h2 =>
    refine steps_setSeq s c (.relist _ _ fun ph n hj => ?_)
    cases hl : (seqOf s c).list with
    | nil => rfl
    | cons x xs => exact absurd hl (h2 ph n x xs hj)

theorem Seq.headJob_none {q : Seq} {id : Nat} (h : q.headJob id = none) {ph : JobPhase} {n : BitVec 4} {r : Dispatch}
    {rest : List Dispatch} (hj : q.job = some (.body ph n)) (hl : q.list = r :: rest) : r.body ≠ id := by
  intro e
  simp [Seq.headJob, hj, hl, e] at h

theorem replaceRecord_steps (c : ChanNo) (r : Dispatch) (s : State) : Steps s (replaceRecord c r s) := by
  unfold replaceRecord
  dsimp only
  split
  · exact steps_setSeq s c (.withdraw _ _)
  · next h =>
    have h : (seqOf s c).headJob r.body = none := by simpa using h
    refine steps_setSeq s c (.keepHead _ _ fun ph n x rest hj hl => ?_)
    have := Seq.headJob_none h hj hl
    exact ⟨rest.map fun x => if x.body = r.body then r else x, by simp [hl, this]⟩

theorem giveRecord_steps (c : ChanNo) (r : Option Dispatch) (s : State) : Steps s (giveRecord c r s) := by
  unfold giveRecord
  split
  · exact insertRecord_steps _ _ _
  · exact .refl

theorem mark_steps (m : Mark) (chs : Mask) (id : Nat) (s : State) : Steps s (mark m chs id s) := (Inner.mark s m chs id).steps

/-! ### Settlement (R63 to R69) -/

theorem settleAlone_steps (c : ChanNo) (b : Body) (s : State) : Steps s (settleAlone c b s) := by
  unfold settleAlone
  dsimp only
  split
  · exact (giveRecord_steps _ _ _).trans (mark_steps _ _ _ _)
  · split <;> exact mark_steps _ _ _ _

theorem settleIdle_steps (c : ChanNo) (b : Body) (s : State) : Steps s (settleIdle c b s) := by
  unfold settleIdle
  split
  · split <;> exact mark_steps _ _ _ _
  · exact .refl

theorem settleCover_steps (a x : ChanNo) (b : Body) (s : State) : Steps s (settleCover a x b s) := by
  unfold settleCover
  split
  · exact (insertRecord_steps _ _ _).trans (mark_steps _ _ _ _)
  · exact ((giveRecord_steps _ _ _).trans (mark_steps _ _ _ _)).trans (settleIdle_steps _ _ _)

theorem settlePair_steps (a p : ChanNo) (b : Body) (s : State) : Steps s (settlePair a p b s) := by
  unfold settlePair
  split
  · exact ((giveRecord_steps _ _ _).trans (giveRecord_steps _ _ _)).trans (mark_steps _ _ _ _)
  · exact settleCover_steps _ _ _ _
  · exact settleCover_steps _ _ _ _
  · exact (settleIdle_steps _ _ _).trans (settleIdle_steps _ _ _)

theorem settle_steps (c : ChanNo) (k : Nat) (s : State) : Steps s (settle c k s) := by
  unfold settle
  split
  · exact .refl
  · split
    · exact .refl
    · split
      · exact settleAlone_steps _ _ _
      · split
        · exact settleAlone_steps _ _ _
        · exact settlePair_steps _ _ _ _

theorem resolveWhere_steps (sel : ChanRec → Nat → Bool) (s : State) : Steps s (resolveWhere sel s) := by
  unfold resolveWhere
  refine steps_foldl (fun s k => steps_foldl (fun s c => ?_) _ _) _ _
  split
  · exact settle_steps _ _ _
  · exact .refl

theorem takeArrivals_steps (s : State) : Steps s (takeArrivals s) := by
  unfold takeArrivals
  split
  · exact resolveWhere_steps _ _
  · exact .refl

theorem catchUp_steps (s : State) : Steps s (catchUp s) := resolveWhere_steps _ _

/-! ### Cover moves and losses of service (R72 to R76) -/

theorem placeWork_steps (x : ChanNo) (r : Dispatch) (s : State) : Steps s (placeWork x r s) := by
  unfold placeWork
  split
  · split
    · exact mark_steps _ _ _ _
    · split
      · exact mark_steps _ _ _ _
      · split
        · exact mark_steps _ _ _ _
        · split
          · exact replaceRecord_steps _ _ _
          · exact insertRecord_steps _ _ _
  · exact mark_steps _ _ _ _

theorem placeAll_steps (x : ChanNo) (rs : List Dispatch) (s : State) : Steps s (placeAll x rs s) :=
  steps_foldl (fun _ _ => placeWork_steps _ _ _) _ _

theorem loseService_steps (x : ChanNo) (kind : Loss) (s : State) : Steps s (loseService x kind s) := by
  unfold loseService
  dsimp only
  split
  · next hj hl => exact (steps_setSeq s x (.behind _ _ _ [] hl)).trans (placeAll_steps _ _ _)
  · exact ((steps_setSeq s x (.withdraw _ [])).trans (mark_steps _ _ _ _)).trans (placeAll_steps _ _ _)
  · exact (steps_setSeq s x (.withdraw _ [])).trans (placeAll_steps _ _ _)
  · exact (steps_setSeq s x (.withdraw _ [])).trans (placeAll_steps _ _ _)
  · next h1 h2 h3 h4 =>
    refine (steps_setSeq s x (.relist _ [] fun ph n hj => ?_)).trans (placeAll_steps _ _ _)
    exact absurd hj (by intro e; simp_all)

/-! ### Departures, STOP and suspension (R78, R82, R83) -/

theorem oweAll_steps (rs : List Dispatch) (s : State) : Steps s (oweAll rs s) :=
  steps_foldl (fun _ _ => mark_steps _ _ _ _) _ _

/-- A job that runs on the head record of body `id` in a given phase. -/
theorem Seq.headJob_some {q : Seq} {id : Nat} {ph : JobPhase} (h : q.headJob id = some ph) :
    ∃ n r rest, q.job = some (.body ph n) ∧ q.list = r :: rest := by
  unfold Seq.headJob at h
  split at h
  · next n r rest hj hl =>
    split at h
    · cases h; exact ⟨n, r, rest, hj, hl⟩
    · cases h
  · cases h

theorem depart_steps (c : ChanNo) (id : Nat) (s : State) : Steps s (depart c id s) := by
  unfold depart
  dsimp only
  refine Relation.ReflTransGen.trans (steps_setSeq s c ?_) (oweAll_steps _ _)
  split
  · next r rest hh hl =>
    obtain ⟨n, r', rest', hj, _⟩ := Seq.headJob_some hh
    exact .orphan _ r rest _ n hl hj
  · exact .withdraw _ _
  · next hh =>
    refine .keepHead _ _ fun ph n r rest hj hl => ?_
    have := Seq.headJob_none hh hj hl
    exact ⟨rest.filter fun r => r.body != id, by simp [hl, this]⟩

theorem takeDepartures_steps (s : State) : Steps s (takeDepartures s) := by
  refine steps_foldl (fun s c => ?_) _ _
  split
  · exact depart_steps _ _ _
  · exact .refl

/-- Emptying a list is one change of its sequencer (R82, R83). -/
theorem Seq.cleared_step (q : Seq) : SeqStep q q.cleared := by
  unfold Seq.cleared
  split
  · next hj hl => exact .orphan q _ _ [] _ hl hj
  · exact .withdraw q []
  · next h1 h2 => exact .relist q [] fun ph n hj => absurd hj (by intro e; simp_all)

theorem stopLists_steps (s : State) : Steps s (stopLists s) :=
  steps_foldl (fun s c => (steps_setSeq s c (Seq.cleared_step _)).trans (oweAll_steps _ _)) _ _

theorem clearLists_steps (s : State) : Steps s (clearLists s) :=
  (Inner.seqs s _ fun c => by simpa using (Seq.cleared_step _).steps).steps

/-! ### Failures and availability (R51 to R54, R104) -/

theorem setAlarm_steps (a : Alarm) (s : State) : Steps s (setAlarm a s) := (Inner.alarm s a).steps

/-- Replacing the failed cause and the out factor of a channel. -/
theorem setFactors_steps (c : ChanNo) (f : Option Cause) (o : Bool) (s : State) :
    Steps s (setChan c { chanRec s c with failed := f, out := o } s) := (Inner.chan s c f o).steps

theorem takeFailure_steps (c : ChanNo) (cause : Cause) (s : State) : Steps s (takeFailure c cause s) := by
  unfold takeFailure
  dsimp only
  refine (setAlarm_steps .channelFailed s).trans ?_
  split
  · exact .refl
  · exact (setFactors_steps c _ (chanRec (setAlarm .channelFailed s) c).out _).trans (loseService_steps _ _ _)

theorem endMaintenance_steps (c : ChanNo) (s : State) : Steps s (endMaintenance c s) := by
  unfold endMaintenance
  split
  · exact steps_setSeq s c (.withdraw _ (seqOf s c).list)
  · exact .refl

/-- The two counts set to 0. -/
theorem zeroCounts_steps (c : ChanNo) (s : State) :
    Steps s (setSeq c { seqOf s c with watchCount := 0, lossCount := 0 } s) :=
  (Inner.seq s c (.trans (SeqStep.watch _ 0).steps (SeqStep.loss _ 0 (by decide)).steps)).steps

theorem reportFailure_steps (c : ChanNo) (cause : Cause) (s : State) : Steps s (reportFailure c cause s) := by
  unfold reportFailure
  dsimp only
  refine Relation.ReflTransGen.trans ((takeFailure_steps c cause s).trans (endMaintenance_steps c _)) ?_
  split
  · exact zeroCounts_steps _ _
  · exact .refl

/-! ### Wear (R113, R120, R121, R124) -/

theorem setGunRec_eq (c : ChanNo) (g : Gun) (r : GunRec) (s : State) :
    setGunRec c g r s = wearEvent c g r s ∨ setGunRec c g r s = loseService c .orderly (wearEvent c g r s) := by
  have hrec : chanRec (setWear c ((wearOf s c).put g (r.evaluated ((chanRec s c).counts g))) s) c = chanRec s c := rfl
  simp only [setGunRec, reportOverdue, changeFactor, wearEvent, wearOf_setWear_self, hrec]
  split
  · next h =>
    left
    have : ({ chanRec s c with overdue := (chanRec s c).overdue } : ChanRec) = chanRec s c := rfl
    rw [h, this]
    exact (setChan_chanRec c _).symm
  · split
    · exact .inr rfl
    · exact .inl rfl

theorem setGunRec_steps (c : ChanNo) (g : Gun) (r : GunRec) (s : State) : Steps s (setGunRec c g r s) := by
  have h := (Inner.wear s c g r).steps
  rcases setGunRec_eq c g r s with e | e <;> rw [e]
  · exact h
  · exact h.trans (loseService_steps _ _ _)

theorem addSpots_steps (c : ChanNo) (g : Gun) (spots : Byte) (s : State) : Steps s (addSpots c g spots s) :=
  setGunRec_steps _ _ _ _

theorem completeMaint_steps (c : ChanNo) (g : Gun) (kind : Maint) (s : State) :
    Steps s (completeMaint c g kind s) := setGunRec_steps _ _ _ _

/-! ### The sequencers (05) -/

theorem movePhase_steps (c : ChanNo) (ph : JobPhase) (s : State) : Steps s (movePhase c ph s) :=
  steps_setSeq s c (.phase _ ph)

theorem endJob_steps (c : ChanNo) (s : State) : Steps s (endJob c s) :=
  steps_setSeq s c (.finish _ (seqOf s c).list)

theorem startMaint_steps (c : ChanNo) (g : Gun) (kind : Maint) (program : Byte) (s : State)
    (hj : (seqOf s c).job = none) : Steps s (startMaint c g kind program s) :=
  steps_setSeq s c (.maint _ g kind program hj)

theorem startBody_steps (c : ChanNo) (r : Dispatch) (rest : List Dispatch) (s : State) (hj : (seqOf s c).job = none)
    (hl : (seqOf s c).list = r :: rest) : Steps s (startBody c r s) :=
  steps_setSeq s c (.body _ r rest _ hl hj)

theorem opportunity_steps (c : ChanNo) (s : State) : Steps s (opportunity c s) := by
  unfold opportunity
  split
  · next h =>
    split
    · exact startMaint_steps _ _ _ _ _ h.2.2
    · split
      · next r rest hl =>
        split
        · exact startBody_steps _ _ rest _ h.2.2 hl
        · exact .refl
      · exact .refl
  · exact .refl

theorem actSelecting_steps (c : ChanNo) (d : Data7) (st : ReplyState) (s : State) :
    Steps s (actSelecting c d st s) := by
  unfold actSelecting
  dsimp only
  split
  · split
    · exact movePhase_steps _ _ _
    · exact reportFailure_steps _ _ _
  all_goals first | exact .refl | (split <;> first | exact .refl | exact reportFailure_steps _ _ _)

theorem actBusy_steps (c : ChanNo) (d : Data7) (placed : Bool) (s : State) : Steps s (actBusy c d placed s) := by
  unfold actBusy
  split
  · exact reportFailure_steps _ _ _
  · split
    · exact reportFailure_steps _ _ _
    · exact movePhase_steps _ _ _

theorem actBusyJob_steps (c : ChanNo) (d : Data7) (s : State) (j : Job) : Steps s (actBusyJob c d s j) := by
  unfold actBusyJob
  split
  · exact actBusy_steps _ _ _ _
  · exact actBusy_steps _ _ _ _
  · exact .refl

theorem completeBody_steps (c : ChanNo) (r : Dispatch) (spots : Byte) (s : State) :
    Steps s (completeBody c r spots s) :=
  (mark_steps _ _ _ s).trans ((steps_setSeq _ c (.finish _ _)).trans (addSpots_steps _ _ _ _))

theorem failDone_steps (c : ChanNo) (x : Detail) (s : State) : Steps s (failDone c x s) := by
  unfold failDone
  split
  · exact (movePhase_steps _ _ _).trans (reportFailure_steps _ _ _)
  · exact reportFailure_steps _ _ _

theorem actDoneJob_steps (c : ChanNo) (d : Data7) (s : State) (j : Job) : Steps s (actDoneJob c d s j) := by
  unfold actDoneJob
  split
  · unfold actDoneBody
    split
    · exact .refl
    · split
      · exact failDone_steps _ _ _
      · exact completeBody_steps _ _ _ _
  · unfold actDoneMaint
    split
    · exact reportFailure_steps _ _ _
    · exact (endJob_steps c s).trans (completeMaint_steps _ _ _ _)
  · exact (endJob_steps c s).trans (addSpots_steps _ _ _ _)

theorem actMatching_steps (c : ChanNo) (j : Job) (d : Data7) (st : ReplyState) (s : State) :
    Steps s (actMatching c j d st s) := by
  unfold actMatching
  split
  · exact actSelecting_steps _ _ _ _
  · split
    · exact actBusyJob_steps _ _ _ _
    · exact actDoneJob_steps _ _ _ _
    all_goals exact .refl

theorem actOn_steps (c : ChanNo) (d : Data7) (s : State) : Steps s (actOn c d s) := by
  unfold actOn
  split
  · exact .refl
  · exact .refl
  · exact reportFailure_steps _ _ _
  · split
    · split
      · exact actMatching_steps _ _ _ _ _
      · exact .refl
    · exact .refl

theorem logError_steps (e : LogRec) (s : State) : Steps s (logError e s) := (Inner.log s e).steps

theorem judgeReply_steps (sweep : Half) (got : Option (Nat × Slot)) (s : State) :
    Steps s (judgeReply sweep got s).2 := by
  unfold judgeReply
  split
  · exact .refl
  · split
    · split
      · exact .refl
      · exact logError_steps _ _
    · exact logError_steps _ _

theorem takeReply_steps (c : ChanNo) (sweep : Half) (reply : Option Data7) (s : State) :
    Steps s (takeReply c sweep reply s) := by
  unfold takeReply
  dsimp only
  split
  · split
    · exact (steps_setSeq s c (.reply _ _ _)).trans (actOn_steps _ _ _)
    · exact steps_setSeq s c (.reply _ _ (seqOf s c).stable)
  · exact steps_setSeq s c (.reply _ _ (seqOf s c).stable)

theorem replyLost_steps (c : ChanNo) (s : State) : Steps s (replyLost c s) :=
  (reportFailure_steps c .replyLost s).trans (steps_setSeq _ c (.loss _ 0 (by decide)))

theorem countLoss_steps (c : ChanNo) (reply : Option Data7) (s : State) : Steps s (countLoss c reply s) := by
  unfold countLoss
  dsimp only
  split
  · exact steps_setSeq s c (.loss _ 0 (by decide))
  · split
    · split
      · exact replyLost_steps _ _
      · next h => exact steps_setSeq s c (.loss _ _ (by unfold replyLossMax at h; omega))
    · exact .refl

theorem countWatch_steps (c : ChanNo) (s : State) : Steps s (countWatch c s) := by
  unfold countWatch
  dsimp only
  split
  · refine Relation.ReflTransGen.trans (steps_setSeq s c (.watch _ ((seqOf s c).watchCount + 1))) ?_
    split
    · exact reportFailure_steps _ _ _
    · exact .refl
  · exact .refl

theorem replyEvent_steps (lossFirst : Bool) (c : ChanNo) (sweep : Half) (got : Option (Nat × Slot)) (s : State) :
    Steps s (replyEvent lossFirst c sweep got s) := by
  unfold replyEvent
  dsimp only
  refine Relation.ReflTransGen.trans
    ((judgeReply_steps sweep got s).trans (takeReply_steps c sweep (judgeReply sweep got s).1 _)) ?_
  split
  · exact (countLoss_steps _ _ _).trans (countWatch_steps _ _)
  · exact (countWatch_steps _ _).trans (countLoss_steps _ _ _)

end Sys2Proof.Machine
end

