-- ==== Sys2Proof/Laws/Requests.lean ====
section
/-! SUPPORT. What the tracking unit and every management request can do: each is a run of elementary changes inside the part. -/

namespace Sys2Proof.Machine

/-! ### The tracking unit (01) -/

theorem reportExit_steps (tag : Half) (o : Outcome) (owed : Mask) (s : State) : Steps s (reportExit tag o owed s) := by
  unfold reportExit
  dsimp only
  split
  · exact (Inner.exit s _ _).steps.trans (setAlarm_steps _ _)
  · exact (Inner.exit s _ _).steps

theorem takeExit_steps (s : State) : Steps s (takeExit s) := by
  unfold takeExit
  split
  · exact reportExit_steps _ _ _ _
  · exact .refl

theorem takeFlip_steps (s : State) : Steps s (takeFlip s) := by
  unfold takeFlip
  split
  · next h => exact (Inner.bank s _ (.flip h)).steps
  · exact .refl

theorem takeExit_track (s : State) : (takeExit s).track = s.track := by
  unfold takeExit reportExit
  split
  · dsimp only
    split <;> rfl
  · rfl

theorem oweAll_uncertain (rs : List Dispatch) (s : State) : (oweAll rs s).track.uncertain = s.track.uncertain := by
  unfold oweAll
  induction rs generalizing s with
  | nil => rfl
  | cons r rs ih => exact ih _

theorem takeDepartures_uncertain (s : State) : (takeDepartures s).track.uncertain = s.track.uncertain := by
  unfold takeDepartures
  generalize allChannels = l
  induction l generalizing s with
  | nil => rfl
  | cons c l ih =>
    refine (ih _).trans ?_
    dsimp only
    split
    · exact oweAll_uncertain _ _
    · rfl

theorem takeFlip_track (s : State) : (takeFlip s).track = s.track := by
  unfold takeFlip
  split <;> rfl

/-- A transfer is a run of elementary changes; it is taken only while tracking is certain (R3). -/
theorem transfer_steps (s : State) (hu : s.track.uncertain = false) : Steps s (transfer s) := by
  have h : (takeFlip (takeDepartures (takeExit s))).track.uncertain = false := by
    rw [takeFlip_track, takeDepartures_uncertain, takeExit_track, hu]
  exact ((((takeExit_steps s).trans (takeDepartures_steps _)).trans (takeFlip_steps _)).trans
    (Inner.admitNext _ h).steps).trans (takeArrivals_steps _)

/-- Becoming uncertain is the event of R15, and the lists are cleared when the node was in RUN or HELD. -/
theorem becomeUncertain_eq (s : State) :
    becomeUncertain s =
      if s.node.state = .run ∨ s.node.state = .held then clearLists (uncertainEvent s) else uncertainEvent s := by
  unfold becomeUncertain uncertainEvent
  dsimp only [setAlarm]
  split <;> rfl

theorem becomeUncertain_steps (s : State) : Steps s (becomeUncertain s) := by
  rw [becomeUncertain_eq]
  split
  · exact (Inner.uncertain s).steps.trans (clearLists_steps _)
  · exact (Inner.uncertain s).steps

theorem takeAnnouncement_steps (old : Baseline) (d : Data7) (s : State) : Steps s (takeAnnouncement old d s) := by
  unfold takeAnnouncement
  split
  · exact .refl
  · split
    · next h => exact (Inner.announce s _ h).steps
    · exact setAlarm_steps _ _

theorem takeDifference_steps (old : Baseline) (d : Data7) (s : State) : Steps s (takeDifference old d s) := by
  unfold takeDifference
  dsimp only
  split
  · exact .refl
  · split
    · split
      · exact .refl
      · next h => exact transfer_steps _ (by simpa using h)
    · split
      · exact setAlarm_steps _ _
      · exact becomeUncertain_steps _

theorem setBaseline_steps (d : Data7) (s : State) : Steps s (setBaseline d s) := (Inner.baseline s _).steps

theorem takeLine_steps (d : Data7) (s : State) : Steps s (takeLine d s) := by
  unfold takeLine
  split
  · exact setBaseline_steps _ _
  · exact ((takeAnnouncement_steps _ _ _).trans (takeDifference_steps _ _ _)).trans (setBaseline_steps _ _)

/-! ### Retrack requests -/

theorem foldl_set_length {α : Type} (xs : List (Nat × α)) (im : List (Option α)) :
    (xs.foldl (fun im x => im.set x.1 (some x.2)) im).length = im.length := by
  induction xs generalizing im with
  | nil => rfl
  | cons x xs ih => simp [ih]

theorem mem_foldl_set {α : Type} (xs : List (Nat × α)) (im : List (Option α)) (r : α)
    (h : some r ∈ xs.foldl (fun im x => im.set x.1 (some x.2)) im) : some r ∈ im ∨ r ∈ xs.map Prod.snd := by
  induction xs generalizing im with
  | nil => exact .inl h
  | cons x xs ih =>
    rcases ih _ h with h | h
    · rcases List.mem_or_eq_of_mem_set h with h | h
      · exact .inl h
      · right; simp at h; simp [h]
    · right; simp only [List.map_cons, List.mem_cons]; exact .inr h

theorem retrackOf_disjoint {x : RawRetrack} {r : Retrack} (h : retrackOf x = some r) : r.done &&& r.owed = 0 := by
  unfold retrackOf at h
  split at h
  · next hc => cases h; exact hc.2.2
  · cases h

theorem retracksOf_disjoint {n : Nat} {xs : List RawRetrack} {l : List (Nat × Retrack)} (h : retracksOf n xs = some l)
    (r : Retrack) (hr : r ∈ l.map Prod.snd) : r.done &&& r.owed = 0 := by
  induction xs generalizing l with
  | nil => simp only [retracksOf, Option.some.injEq] at h; subst h; simp at hr
  | cons x xs ih =>
    simp only [retracksOf] at h
    split at h
    · next y ys hy hys =>
      split at h
      · cases h
        simp only [List.map_cons, List.mem_cons] at hr
        rcases hr with rfl | hr
        · exact retrackOf_disjoint hy
        · exact ih hys hr
      · cases h
    · cases h

theorem serveRetrackLoad_steps (rs : List RawRetrack) (s : State) : Steps s (serveRetrackLoad rs s).state := by
  unfold serveRetrackLoad
  split
  · exact .refl
  · split
    · exact .refl
    · next xs hxs =>
      split
      · refine (Inner.image s _ (foldl_set_length _ _) fun r hr => ?_).steps
        rcases mem_foldl_set _ _ _ hr with h | h
        · exact .inl h
        · exact .inr (retracksOf_disjoint hxs r h)
      · exact .refl

theorem serveRetrackApply_steps (s : State) : Steps s (serveRetrackApply s).state := by
  unfold serveRetrackApply
  split
  · exact .refl
  · next h =>
    have h : retrackOpen s = true := by simpa using h
    have ha := (Inner.apply s h).steps
    dsimp only
    split
    · next hs =>
      have e : applyEvent s = { applyImage s with node := { s.node with state := enteredState (applyImage s) } } := by
        simp only [applyEvent, if_pos hs]; rfl
      rw [e] at ha
      exact ha.trans (catchUp_steps _)
    · next hs =>
      have e : applyEvent s = applyImage s := by simp only [applyEvent, if_neg hs]; rfl
      rwa [e] at ha

theorem serveReadTracking_steps (first : Byte) (s : State) : Steps s (serveReadTracking first s).state := by
  unfold serveReadTracking
  split <;> exact .refl

/-! ### Bank requests -/

/-- A run of one change of the bank store. -/
theorem bank_steps (s : State) (b : BankStore) (h : BankStep s b) : Steps s { s with bank := b } := (Inner.bank s b h).steps

/-- Replacing the contents of one bank replaces nothing else. -/
theorem BankStore.put_eq (b : BankStore) (i : BankIx) (x : Bank) :
    b.put i x = { b with bank0 := (b.put i x).bank0, bank1 := (b.put i x).bank1 } := by
  cases i <;> rfl

theorem putStaging_steps (i : Fin 63) (r : StyleRec) (s : State) : Steps s (putStaging i r s) := by
  unfold putStaging
  dsimp only
  rw [BankStore.put_eq]
  exact bank_steps s _ (.write _ _)

theorem gated_steps {serve : State → Answer} {s : State} (h : gate s = none → Steps s (serve s).state) :
    Steps s (gated serve s).state := by
  unfold gated
  split
  · exact .refl
  · next e => exact h e

theorem serveWriteEntries_steps (style first : Byte) (raws : List RawEntry) (s : State) :
    Steps s (serveWriteEntries style first raws s).state := by
  refine gated_steps fun _ => ?_
  unfold storeEntries
  split
  · split
    · exact putStaging_steps _ _ _
    · exact .refl
  · exact .refl

theorem serveEnableStyle_steps (style flag : Byte) (s : State) : Steps s (serveEnableStyle style flag s).state := by
  refine gated_steps fun _ => ?_
  unfold storeEnabled
  split
  · exact putStaging_steps _ _ _
  · exact .refl

/-- What an open gate says (R26). -/
theorem gate_none {s : State} (h : gate s = none) :
    s.bank.busy = false ∧ s.bank.armed = false ∧ stagingInUse s = false := by
  unfold gate at h
  split at h
  · cases h
  · split at h
    · cases h
    · split at h
      · cases h
      · simp_all

theorem serveCopyBank_steps (s : State) : Steps s (serveCopyBank s).state :=
  gated_steps fun h =>
    have g := gate_none h
    bank_steps s _ (.start .none g.1 g.2.1 g.2.2)

theorem serveReadEntries_steps (bank style first count : Byte) (s : State) :
    Steps s (serveReadEntries bank style first count s).state := by
  unfold serveReadEntries
  repeat' split
  all_goals exact .refl

theorem serveCommit_steps (s : State) : Steps s (serveCommit s).state := by
  unfold serveCommit
  split
  · exact .refl
  · next h =>
    split
    · exact .refl
    · split
      · exact .refl
      · exact bank_steps s _ (.arm (by simpa using h))

theorem serveDisarm_steps (s : State) : Steps s (serveDisarm s).state := bank_steps s _ .disarm

theorem stopCopy_steps (s : State) : Steps s { s with bank := s.bank.stopCopy } := by
  unfold BankStore.stopCopy
  split
  · exact bank_steps s _ (.idle true .aborted)
  · exact .refl

theorem serveAbort_steps (s : State) : Steps s (serveAbort s).state := stopCopy_steps s

theorem copyStep_steps (s : State) : Steps s { s with bank := s.bank.copyStep } := by
  unfold BankStore.copyStep
  split
  · next n hn =>
    split
    · unfold BankStore.copyStyle
      cases s.bank.staging
      · exact bank_steps s _ (.step _ s.bank.bank1 n (n + 1) hn)
      · exact bank_steps s _ (.step s.bank.bank0 _ n (n + 1) hn)
    · exact .refl
  · exact .refl

theorem complete_steps (s : State) : Steps s { s with bank := s.bank.complete } := by
  unfold BankStore.complete
  split
  · split
    · exact bank_steps s _ (.idle false .done)
    · exact .refl
  · exact .refl

/-! ### Roster requests -/

theorem evaluateGuns_eq (c : ChanNo) (r : ChanRec) (s : State) (h : r.twoGuns ≠ (chanRec s c).twoGuns) :
    evaluateGuns c (setChan c r s) = channelEvent c r s ∨
      evaluateGuns c (setChan c r s) = loseService c .orderly (channelEvent c r s) := by
  simp only [channelEvent, if_neg h, evaluateGuns, reportOverdue, changeFactor, wearOf_setWear_self]
  have e1 : ∀ w, chanRec (setWear c w (setChan c r s)) c = r := fun w => chanRec_setChan_self c r s
  have e2 : wearOf (setChan c r s) c = wearOf s c := rfl
  simp only [e1, e2, chanRec_setChan_self]
  have e3 : ∀ w (x : ChanRec), setChan c x (setWear c w (setChan c r s)) = setChan c x (setWear c w s) := by
    intro w x
    simp [setChan, setWear]
  split
  · next ho =>
    left
    rw [ho, ← e3]
    exact (setChan_chanRec c _).symm.trans (by rw [e1])
  · split
    · right; rw [e3]
    · left; rw [e3]

theorem storeChannel_steps (c : ChanNo) (r : ChanRec) (s : State) (h : Inner s (channelEvent c r s)) :
    Steps s (storeChannel c r s) := by
  unfold storeChannel
  dsimp only
  split
  · next e =>
    have : channelEvent c r s = setChan c r s := by simp only [channelEvent, if_pos e]
    exact this ▸ h.steps
  · next e =>
    rcases evaluateGuns_eq c r s e with h' | h' <;> rw [h']
    · exact h.steps
    · exact h.steps.trans (loseService_steps _ _ _)

theorem serveWriteChannel_steps (channel station lead gunCount selectWatch : Byte) (s : State) :
    Steps s (serveWriteChannel channel station lead gunCount selectWatch s).state := by
  unfold serveWriteChannel
  split
  · exact .refl
  · split
    · next c g hc hg =>
      split
      · next hr =>
        dsimp only
        split
        · exact .refl
        · next hp =>
          refine storeChannel_steps _ _ _ (Inner.channel s c _ rfl rfl hr.1 ?_ (Nat.min_le_right _ _) ?_ (by simpa using hp))
          · exact (Nat.min_le_left _ _).trans hr.2
          · simp only [channelRecord]
            split
            · decide
            · next h => exact h
      · exact .refl
    · exact .refl

theorem serveReadChannel_steps (channel : Byte) (s : State) : Steps s (serveReadChannel channel s).state := by
  unfold serveReadChannel
  split <;> exact .refl

theorem serveWritePair_steps (channelA channelB : Byte) (s : State) :
    Steps s (serveWritePair channelA channelB s).state := by
  unfold serveWritePair
  split
  · exact .refl
  · split
    · next a b _ _ =>
      split
      · exact .refl
      · next hab =>
        split
        · exact .refl
        · next h =>
          simp only [Bool.or_eq_true, bne_iff_ne, ne_eq, not_or, Bool.not_eq_true, Decidable.not_not] at h
          exact (Inner.addPair s a b hab h.1.1.1 h.1.1.2 h.1.2 h.2).steps
    · exact .refl

theorem serveClearPair_steps (channel : Byte) (s : State) : Steps s (serveClearPair channel s).state := by
  unfold serveClearPair
  split
  · exact .refl
  · split
    · exact (Inner.dropPair s _).steps
    · exact .refl

theorem setOut_steps (c : ChanNo) (s : State) : Steps s (setOut c s) := by
  unfold setOut changeFactor
  dsimp only
  split
  · exact .refl
  · split
    · exact (setFactors_steps c (chanRec s c).failed true s).trans (loseService_steps _ _ _)
    · exact setFactors_steps c (chanRec s c).failed true s

theorem setIn_steps (c : ChanNo) (s : State) : Steps s (setIn c s).state := by
  unfold setIn
  split
  · exact .refl
  · exact setFactors_steps c none false s

theorem serveSetService_steps (channel action : Byte) (s : State) :
    Steps s (serveSetService channel action s).state := by
  unfold serveSetService
  split
  · exact .refl
  · split
    · exact setOut_steps _ _
    · split
      · exact setIn_steps _ _
      · exact .refl

/-! ### Wear requests -/

theorem serveWriteCurve_steps (index : Byte) (k : Curve) (s : State) : Steps s (serveWriteCurve index k s).state := by
  unfold serveWriteCurve
  split
  · exact .refl
  · split
    · next h => exact (Inner.curves s _ k h).steps
    · exact .refl

theorem serveReadCurve_steps (index : Byte) (s : State) : Steps s (serveReadCurve index s).state := by
  unfold serveReadCurve
  split <;> exact .refl

theorem serveWriteGun_steps (channel gun curve : Byte) (threshold grace : Half)
    (capLimit dressProgram capProgram : Byte) (s : State) :
    Steps s (serveWriteGun channel gun curve threshold grace capLimit dressProgram capProgram s).state := by
  unfold serveWriteGun
  split
  · exact setGunRec_steps _ _ _ _
  · exact .refl

theorem serveWriteWear_steps (channel gun : Byte) (weld : Half) (dresses : Byte) (s : State) :
    Steps s (serveWriteWear channel gun weld dresses s).state := by
  unfold serveWriteWear
  split
  · exact setGunRec_steps _ _ _ _
  · exact .refl

theorem serveReadWear_steps (channel gun : Byte) (s : State) : Steps s (serveReadWear channel gun s).state := by
  unfold serveReadWear
  split <;> exact .refl

/-! ### Report requests -/

theorem serveClearAlarms_steps (mask : Byte) (s : State) : Steps s (serveClearAlarms mask s).state :=
  (Inner.clearAlarms s mask).steps

theorem serveClearLog_steps (s : State) : Steps s (serveClearLog s).state := (Inner.clearLog s).steps

/-! ### Node requests -/

theorem serveStart_steps (s : State) : Steps s (serveStart s).state := by
  unfold serveStart
  split
  · exact .refl
  · next hc =>
    split
    · exact .refl
    · next hu =>
      split
      · exact (Inner.start s (by simpa using hc) (by simpa using hu)).steps.trans (catchUp_steps _)
      · exact .refl

theorem serveStop_steps (s : State) : Steps s (serveStop s).state := by
  unfold serveStop
  split
  · exact .refl
  · exact (stopLists_steps s).trans (Inner.stop _).steps

theorem setHold_steps (s : State) : Steps s (setHold s) := (Inner.hold s).steps

theorem serveRelease_steps (s : State) : Steps s (serveRelease s).state := by
  unfold serveRelease
  split
  · exact (Inner.release s).steps
  · exact .refl

theorem Seq.cellReset_steps (q : Seq) : SeqSteps q q.cellReset :=
  .trans (.trans (SeqStep.withdraw q []).steps (SeqStep.watch _ 0).steps) (SeqStep.loss _ 0 (by decide)).steps

theorem cellReset_steps (s : State) : Steps s (cellReset s) := by
  have h1 := (Inner.cellTrack s).steps
  have h2 := stopCopy_steps { s with
        node := { s.node with state := .config }
        track := s.track.cellReset s.node.stations
        report := s.report.cellReset
        path := s.path.cellReset }
  refine (h1.trans h2).trans ((bank_steps _ _ .disarm).trans ?_)
  refine (Inner.seqs _ (s.seqs.map Seq.cellReset) fun c => ?_).steps
  simpa using Seq.cellReset_steps _

theorem serveWriteNodeSettings_steps (stations : Byte) (interval : Half) (logMode : Byte) (s : State) :
    Steps s (serveWriteNodeSettings stations interval logMode s).state := by
  unfold serveWriteNodeSettings
  split
  · exact .refl
  · split
    · exact .refl
    · next hr =>
      have h1 : 1 ≤ stations.toNat := by
        rcases Nat.eq_zero_or_pos stations.toNat with h | h
        · exact absurd (.inl (BitVec.eq_of_toNat_eq h)) hr
        · exact h
      have h16 : stations.toNat ≤ 16 := Nat.le_of_not_lt fun h => hr (.inr h)
      split
      · next h => exact (Inner.settings s _ _ _ h1 h16 (.inl h)).steps
      · split
        · exact .refl
        · next hm =>
          split
          · exact .refl
          · next hs =>
            refine (Inner.settings s _ _ _ h1 h16 (.inr ⟨?_, fun c => ?_⟩)).steps
            · simp [mayResize] at hm
              simpa using hm.2
            · simp only [List.any_eq_true, decide_eq_true_eq, not_exists, not_and, Nat.not_le] at hs
              exact hs c (mem_allChannels c)

/-! ### Map and path-test requests -/

theorem serveWriteSlotMap_steps (first : Byte) (entries : List RawMapEntry) (s : State) :
    Steps s (serveWriteSlotMap first entries s).state := by
  unfold serveWriteSlotMap
  split
  · exact .refl
  · split
    · exact .refl
    · split
      · exact .refl
      · dsimp only
        split
        · next h => exact (Inner.storeMap s _ h).steps
        · exact .refl

theorem serveReadSlotMap_steps (first count : Byte) (s : State) : Steps s (serveReadSlotMap first count s).state := by
  unfold serveReadSlotMap
  split <;> exact .refl

theorem serveTestStart_steps (pattern : Byte) (s : State) : Steps s (serveTestStart pattern s).state := by
  unfold serveTestStart
  split
  · exact .refl
  · exact (Inner.path s _ (.inr rfl)).steps

theorem serveTestStop_steps (s : State) : Steps s (serveTestStop s).state :=
  (Inner.path s { s.path with running := false, expected := [], inject := false } (.inl rfl)).steps

theorem serveTestInject_steps (s : State) : Steps s (serveTestInject s).state :=
  (Inner.path s { s.path with inject := true } (.inl rfl)).steps

theorem serveReadTestCounts_steps (s : State) : Steps s (serveReadTestCounts s).state :=
  (Inner.path s _ (.inr rfl)).steps

/-! ### Every request by its code -/

theorem serveRequest_steps (k : ReqCode) (p : List Byte) (s : State) : Steps s (serveRequest k p s).state := by
  cases k
  · exact .refl
  · exact serveStart_steps s
  · exact serveStop_steps s
  · exact setHold_steps s
  · exact serveRelease_steps s
  · exact cellReset_steps s
  · exact serveWriteNodeSettings_steps _ _ _ s
  · exact serveWriteSlotMap_steps _ _ s
  · exact serveReadSlotMap_steps _ _ s
  · exact serveWriteChannel_steps _ _ _ _ _ s
  · exact serveReadChannel_steps _ s
  · exact serveWritePair_steps _ _ s
  · exact serveClearPair_steps _ s
  · exact serveSetService_steps _ _ s
  · exact serveWriteEntries_steps _ _ _ s
  · exact serveReadEntries_steps _ _ _ _ s
  · exact serveEnableStyle_steps _ _ s
  · exact serveCopyBank_steps s
  · exact serveCommit_steps s
  · exact serveDisarm_steps s
  · exact serveAbort_steps s
  · exact serveWriteCurve_steps _ _ s
  · exact serveReadCurve_steps _ s
  · exact serveWriteGun_steps _ _ _ _ _ _ _ _ s
  · exact serveWriteWear_steps _ _ _ _ s
  · exact serveReadWear_steps _ _ s
  · exact serveReadTracking_steps _ s
  · exact serveRetrackLoad_steps _ s
  · exact serveRetrackApply_steps s
  · exact .refl
  · exact serveClearLog_steps s
  · exact serveClearAlarms_steps _ s
  · exact serveTestStart_steps _ s
  · exact serveTestStop_steps s
  · exact serveTestInject_steps s
  · exact serveReadTestCounts_steps s

/-! ### The management agent (R161 to R166) -/

theorem noteHeader_steps (v : Via) (s : State) : Steps s (noteHeader v s) := by
  cases v
  · exact (Inner.addressed s).steps
  · exact .refl

theorem record_steps (h : ReqHead) (code : Byte) {a : Answer} {s : State} (ha : Steps s a.state) :
    Steps s (record h code a) := ha.trans (Inner.mgmt _ _).steps

theorem takeRequest_steps (h : ReqHead) (k : ReqCode) (len : Nat) {serve : State → Answer}
    (hs : ∀ s, Steps s (serve s).state) (s : State) : Steps s (takeRequest h k len serve s) := by
  unfold takeRequest
  dsimp only
  refine (noteHeader_steps h.via s).trans ?_
  split
  · refine record_steps _ _ ?_
    split
    · exact hs _
    · exact .refl
  · exact .refl

theorem takeUnknown_steps (h : ReqHead) (code : Byte) (s : State) : Steps s (takeUnknown h code s) := by
  unfold takeUnknown
  dsimp only
  refine (noteHeader_steps h.via s).trans ?_
  split
  · exact record_steps _ _ .refl
  · exact .refl

theorem takeByCode_steps (h : ReqHead) (code : Byte) (s : State) : Steps s (takeByCode h code s) := by
  unfold takeByCode
  split
  · exact takeUnknown_steps _ _ _
  · exact takeRequest_steps _ _ _ (fun s => serveRequest_steps _ _ s) _

theorem logSlot_steps (kind : ErrKind) (sweep : Half) (pass : Pass) (x : Nat × Slot) (s : State) :
    Steps s (logSlot kind sweep pass x s) := logError_steps _ _

theorem takeCarried_steps (key : Nat → Nat) (m : SlotMap) (sweep : Half) (sls : List Slot) (h : ReqHead)
    (k : ReqCode) (len : Nat) (s : State) : Steps s (takeCarried key m sweep sls h k len s) := by
  unfold takeCarried
  split
  · exact takeRequest_steps _ _ _ (fun s => .refl) _
  · dsimp only
    split
    · exact (noteHeader_steps h.via s).trans (steps_foldl (fun s x => logSlot_steps _ _ _ x s) _ _)
    · exact takeRequest_steps _ _ _ (fun s => serveRequest_steps _ _ s) _

theorem requestEvent_steps (key : Nat → Nat) (m : SlotMap) (sweep : Half) (sls : List Slot) (s : State) :
    Steps s (requestEvent key m sweep sls s) := by
  unfold requestEvent
  split
  · exact .refl
  · split
    · exact logSlot_steps _ _ _ _ _
    · dsimp only
      split
      · exact .refl
      · split
        · exact takeUnknown_steps _ _ _
        · exact takeCarried_steps _ _ _ _ _ _ _ _

end Sys2Proof.Machine
end

