-- ==== Sys2Proof/Laws/Passes.lean ====
section
/-! SUPPORT. What the two passes and every command can do: each command ends in a next state that a run of elementary
changes reaches; what the changes inside the part leave alone; and how a frame's slots are read and written. -/

namespace Sys2Proof.Machine

/-! ### Runs of a command -/

theorem Touch.touches {s t : State} (h : Touch s t) : Touches s t := .single h

/-- A run inside the part is a run of a command. -/
theorem Steps.touches {s t : State} (h : Steps s t) : Touches s t := by
  induction h with
  | refl => exact .refl
  | tail _ h ih => exact ih.tail (.inner _ _ h)

/-! ### The hand-overs of a pass -/

theorem restartWatch_steps (s : State) : Steps s (restartWatch s) := (Inner.watch s _).steps

theorem fillSlots_bitErrors (ks : List Nat) (t : PathTester) (sls : List Slot) :
    (fillSlots ks t sls).1.bitErrors = t.bitErrors := by
  induction ks generalizing t sls with
  | nil => rfl
  | cons k ks ih => simp only [fillSlots]; rw [ih]

theorem fillTests_steps (m : SlotMap) (p : InPass) : Steps p.state (fillTests m p).state := by
  unfold fillTests
  split
  · exact (Inner.path _ _ (.inl (fillSlots_bitErrors _ _ _))).steps
  · exact .refl

theorem lineEvent_steps (m : SlotMap) (sweep : Half) (sls : List Slot) (s : State) :
    Steps s (lineEvent m sweep sls s) := by
  unfold lineEvent
  split
  · exact .refl
  · split
    · exact takeLine_steps _ _
    · exact logSlot_steps _ _ _ _ _

theorem outEvent_steps (key : Nat → Nat) (m : SlotMap) (sweep : Half) (e : OutEvent) (p : InPass) :
    Steps p.state (outEvent key m sweep e p).state := by
  cases e with
  | line => exact lineEvent_steps _ _ _ _
  | request => exact requestEvent_steps _ _ _ _ _
  | watch => exact restartWatch_steps _
  | testFill => exact fillTests_steps _ _
  | opportunity c => exact opportunity_steps _ _
  | command c =>
    simp only [outEvent, commandEvent]
    split <;> exact .refl

theorem handOut_steps (key : Nat → Nat) (m : SlotMap) (sweep : Half) (p : InPass) :
    Steps p.state (handOut key m sweep p).state := by
  unfold handOut
  generalize orderBy _ _ = l
  induction l generalizing p with
  | nil => exact .refl
  | cons e l ih => exact (outEvent_steps _ _ _ e p).trans (ih _)

theorem compareTests_steps (sls : List Slot) (s : State) : Steps s (compareTests sls s) := by
  unfold compareTests
  dsimp only
  split
  · next h =>
    refine (Inner.path s _ (.inl ?_)).steps
    apply BitVec.eq_of_toNat_eq
    have := s.path.bitErrors.isLt
    rw [h, BitVec.toNat_ofNat, Nat.add_zero, Nat.min_eq_right (by omega)]
    exact Nat.mod_eq_of_lt this
  · exact (Inner.bitErrors s _).steps

theorem backEvent_steps (key : Nat → Nat) (m : SlotMap) (sweep : Half) (sls : List Slot) (e : BackEvent) (s : State) :
    Steps s (backEvent key m sweep sls e s) := by
  cases e with
  | compare => exact compareTests_steps _ _
  | reply c =>
    simp only [backEvent]
    split
    · exact replyEvent_steps _ _ _ _ _
    · exact .refl

theorem handBack_steps (key : Nat → Nat) (m : SlotMap) (sweep : Half) (sls : List Slot) (s : State) :
    Steps s (handBack key m sweep sls s) := steps_foldl (fun s e => backEvent_steps _ _ _ _ e s) _ _

/-! ### Frames, links and lost sweeps -/

theorem send_touches (p : Port) (isSweep : Bool) (f : Frame) (s : State) : Touches s (send p isSweep f s) := by
  unfold send
  dsimp only
  cases p <;> dsimp only <;> split <;> first
    | exact (Touch.sent s (s.sent ++ [_])).touches
    | exact .refl

theorem forwardFromA_touches (isSweep : Bool) (f : Frame) (s : State) : Touches s (forwardFromA isSweep f s) := by
  unfold forwardFromA
  split <;> exact send_touches _ _ _ _

theorem forwardFromB_touches (isSweep : Bool) (f : Frame) (s : State) : Touches s (forwardFromB isSweep f s) :=
  send_touches _ _ _ _

theorem loseSweep_touches (s : State) : Touches s (loseSweep s) := by
  unfold loseSweep
  split
  · exact .refl
  · have h1 : Inner { s with sweep := { s.sweep with outstanding := none } }
        { s with
          sweep := { s.sweep with outstanding := none }
          seqs := s.seqs.map fun q => { q with history := none } } :=
      Inner.seqs _ _ fun c => by
        simpa using (SeqStep.reply s.seqs[c.val] none s.seqs[c.val].stable).steps
    exact ((Touch.outstanding s none).touches.trans h1.steps.touches).trans
      (Inner.path { s with
          sweep := { s.sweep with outstanding := none }
          seqs := s.seqs.map fun q => { q with history := none } }
        { s.path with expected := [], lostSweeps := satHalf s.path.lostSweeps } (.inl rfl)).steps.touches

theorem linkLost_touches (s : State) : Touches s (linkLost s) :=
  ((Touch.link s .lost).touches.trans (setAlarm_steps _ _).touches).trans (loseSweep_touches _)

theorem noteHeaderCheck_steps (pass : Pass) (f : Frame) (s : State) : Steps s (noteHeaderCheck pass f s) := by
  unfold noteHeaderCheck
  split
  · split
    · exact .refl
    · exact logSlot_steps _ _ _ _ _
  · exact .refl

theorem enterMap_touches (s : State) : Touches s (enterMap s) :=
  (Touch.enterMap s).touches.trans (steps_foldl (fun _ _ => loseService_steps _ _ _) _ _).touches

/-! ### The passes -/

theorem processReturn_touches (key : Nat → Nat) (m : SlotMap) (o : Outstanding) (f : Frame) (s : State) :
    Touches s (processReturn key m o f s) := by
  have h : Touches s (handBack key m o.number (slotsOf f.payload) (restartWatch (linkUp s))) :=
    ((Touch.link s .up).touches.trans (restartWatch_steps _).touches).trans (handBack_steps _ _ _ _ _).touches
  unfold processReturn
  dsimp only
  refine h.trans ?_
  generalize handBack key m o.number (slotsOf f.payload) (restartWatch (linkUp s)) = u
  exact (Touch.outstanding u none).touches.trans (forwardFromB_touches _ _ _)

theorem returnFrame_touches (key : Nat → Nat → Nat) (f : Frame) (s : State) : Touches s (returnFrame key f s) := by
  unfold returnFrame
  split
  · split
    · exact (processReturn_touches _ _ _ _ _).trans (Touch.choice _ _).touches
    · exact forwardFromB_touches _ _ _
  · exact forwardFromB_touches _ _ _
  · exact (noteHeaderCheck_steps _ _ _).touches.trans (forwardFromB_touches _ _ _)

theorem settleClosure_touches (key : Nat → Nat → Nat) (s : State) : Touches s (settleClosure key s) := by
  unfold settleClosure
  split
  · exact .refl
  · exact (Touch.closure s none).touches.trans (returnFrame_touches _ _ _)

theorem beginOutbound_touches (n : Half) (size : SizeCode) (s : State) : Touches s (beginOutbound n size s) := by
  unfold beginOutbound
  dsimp only
  have h : Touches s (linkUp (enterMap (loseSweep s))) :=
    ((loseSweep_touches s).trans (enterMap_touches _)).trans (Touch.link _ .up).touches
  refine h.trans ?_
  generalize linkUp (enterMap (loseSweep s)) = u
  generalize ({ number := n, size := size, closed := !u.pins.portB, addressed := false } : Outstanding) = o
  refine (Touch.outstanding u (some o)).touches.trans ?_
  exact (Inner.path { u with sweep := { u.sweep with outstanding := some o } } { u.path with expected := [] }
    (.inl rfl)).steps.touches

theorem endOutbound_touches (f : Frame) (s : State) : Touches s (endOutbound f s) := by
  unfold endOutbound
  split
  · exact send_touches _ _ _ _
  · exact (Touch.closure s _).touches

theorem processOutbound_touches (key : Nat → Nat) (n : Half) (size : SizeCode) (f : Frame) (s : State) :
    Touches s (processOutbound key n size f s) :=
  ((beginOutbound_touches n size s).trans (handOut_steps key (beginOutbound n size s).sweep.storedMap n
    { state := beginOutbound n size s, slots := slotsOf f.payload }).touches).trans (endOutbound_touches _ _)

theorem outboundFrame_touches (key : Nat → Nat → Nat) (f : Frame) (s : State) : Touches s (outboundFrame key f s) := by
  unfold outboundFrame
  split
  · exact (processOutbound_touches _ _ _ _ _).trans (Touch.choice _ _).touches
  · exact (noteHeaderCheck_steps _ _ _).touches.trans (forwardFromA_touches _ _ _)

/-! ### Every command -/

/-- A command taken through `live` runs as its body does, from the state with the sent frames forgotten. -/
theorem live_touches {f : State → State} (hf : ∀ s, Touches s (f s)) (s : State) : Touches s (live f s) := by
  unfold live
  dsimp only
  refine (Touch.sent s []).touches.trans ?_
  split
  · exact .refl
  · exact hf _

theorem onPin_touches {set : Pins → Pins} {f : State → State} (hset : ∀ p, (set p).inReset = p.inReset)
    (hf : ∀ s, Touches s (f s)) (s : State) : Touches s (onPin set f s) := by
  unfold onPin
  dsimp only
  refine (Touch.sent s []).touches.trans ((Touch.pins { s with sent := [] } (set s.pins) (hset _)).touches.trans ?_)
  split
  · exact .refl
  · exact hf _

/-- A request command is a run of elementary changes. -/
theorem onRequest_touches (h : ReqHead) (k : ReqCode) (len : Nat) {serve : State → Answer}
    (hs : ∀ s, Steps s (serve s).state) (s : State) :
    ∃ t, onRequest h k len serve s = .next t ∧ Touches s t :=
  ⟨_, rfl, live_touches (fun s => (takeRequest_steps h k len hs s).touches) s⟩

/-- What a command taken through `live` gives. -/
theorem live_next {f : State → State} (hf : ∀ s, Touches s (f s)) (s : State) :
    ∃ t, (.next (live f s) : Host.Outcome State Fault Refusal) = .next t ∧ Touches s t :=
  ⟨_, rfl, live_touches hf s⟩

/-- What a pin command gives. -/
theorem onPin_next {set : Pins → Pins} {f : State → State} (hset : ∀ p, (set p).inReset = p.inReset)
    (hf : ∀ s, Touches s (f s)) (s : State) :
    ∃ t, (.next (onPin set f s) : Host.Outcome State Fault Refusal) = .next t ∧ Touches s t :=
  ⟨_, rfl, onPin_touches hset hf s⟩

/-- Every command ends in a next state that a run of elementary changes reaches. -/
theorem exec_touches (i : Instr) (s : State) : ∃ t, exec i s = .next t ∧ Touches s t := by
  cases i with
  | outboundPass f =>
    exact live_next (fun s => (settleClosure_touches _ s).trans (outboundFrame_touches _ _ _)) s
  | returnPass f => exact live_next (fun s => (settleClosure_touches _ s).trans (returnFrame_touches _ _ _)) s
  | ringClosureReturn => exact live_next (settleClosure_touches _) s
  | foreignFrame p f =>
    refine live_next (fun s => (settleClosure_touches Config.eventKey s).trans ?_) s
    cases p
    · exact forwardFromA_touches _ _ _
    · exact forwardFromB_touches _ _ _
  | portALinkDown => exact onPin_next (set := fun p => { p with portA := false }) (fun _ => rfl) linkLost_touches s
  | portALinkUp => exact onPin_next (set := fun p => { p with portA := true }) (fun _ => rfl) (fun _ => .refl) s
  | portBLinkDown =>
    refine onPin_next (set := fun p => { p with portB := false }) (fun _ => rfl) (fun s => ?_) s
    unfold loseThroughB
    split
    · split
      · exact .refl
      · exact loseSweep_touches _
    · exact .refl
  | portBLinkUp => exact onPin_next (set := fun p => { p with portB := true }) (fun _ => rfl) (fun _ => .refl) s
  | sweepWatchExpiry =>
    refine live_next (fun s => ?_) s
    unfold expireWatch
    split
    · exact .refl
    · exact (Inner.watch s none).steps.touches.trans (linkLost_touches _)
  | holdNFallingEdge => exact onPin_next (set := fun p => { p with holdN := false }) (fun _ => rfl) (fun s => (setHold_steps s).touches) s
  | holdNRisingEdge => exact onPin_next (set := fun p => { p with holdN := true }) (fun _ => rfl) (fun _ => .refl) s
  | resetNLow => exact ⟨_, rfl, (Touch.enterReset s).touches⟩
  | powerOnReset straps =>
    refine ⟨_, rfl, ?_⟩
    unfold leaveReset
    split
    · exact (Touch.powerOn s straps).touches
    · exact (Touch.powerOn s straps).touches.trans (setHold_steps _).touches
  | copyStep => exact live_next (fun s => (copyStep_steps s).touches) s
  | copyCompletion => exact live_next (fun s => (complete_steps s).touches) s
  | replyLossLimit c =>
    refine live_next (fun s => ?_) s
    split
    · exact (replyLost_steps _ _).touches
    · exact .refl
  | selectTimeout c =>
    refine live_next (fun s => ?_) s
    split
    · exact (reportFailure_steps _ _ _).touches
    · exact .refl
  | readStatus h => exact onRequest_touches h _ _ (fun _ => .refl) s
  | start h => exact onRequest_touches h _ _ serveStart_steps s
  | stop h => exact onRequest_touches h _ _ serveStop_steps s
  | hold h => exact onRequest_touches h _ _ setHold_steps s
  | release h => exact onRequest_touches h _ _ serveRelease_steps s
  | cellReset h => exact onRequest_touches h _ _ cellReset_steps s
  | writeNodeSettings h n i m => exact onRequest_touches h _ _ (serveWriteNodeSettings_steps n i m) s
  | writeSlotMap h f es => exact onRequest_touches h _ _ (serveWriteSlotMap_steps f es) s
  | readSlotMap h f n => exact onRequest_touches h _ _ (serveReadSlotMap_steps f n) s
  | writeChannel h c st l g w => exact onRequest_touches h _ _ (serveWriteChannel_steps c st l g w) s
  | readChannel h c => exact onRequest_touches h _ _ (serveReadChannel_steps c) s
  | writePair h a b => exact onRequest_touches h _ _ (serveWritePair_steps a b) s
  | clearPair h c => exact onRequest_touches h _ _ (serveClearPair_steps c) s
  | setServiceOut h c a => exact onRequest_touches h _ _ (serveSetService_steps c a) s
  | setServiceIn h c => exact onRequest_touches h _ _ (serveSetService_steps c 1) s
  | writeEntries h st f es => exact onRequest_touches h _ _ (serveWriteEntries_steps st f es) s
  | readEntries h b st f n => exact onRequest_touches h _ _ (serveReadEntries_steps b st f n) s
  | enableStyle h st f => exact onRequest_touches h _ _ (serveEnableStyle_steps st f) s
  | copyBank h => exact onRequest_touches h _ _ serveCopyBank_steps s
  | commit h => exact onRequest_touches h _ _ serveCommit_steps s
  | disarm h => exact onRequest_touches h _ _ serveDisarm_steps s
  | abort h => exact onRequest_touches h _ _ serveAbort_steps s
  | writeCurve h i c1 c2 c3 c4 b1 b2 b3 b4 => exact onRequest_touches h _ _ (serveWriteCurve_steps i _) s
  | readCurve h i => exact onRequest_touches h _ _ (serveReadCurve_steps i) s
  | writeGun h c g k d gr n dp cp => exact onRequest_touches h _ _ (serveWriteGun_steps c g k d gr n dp cp) s
  | writeWear h c g w d => exact onRequest_touches h _ _ (serveWriteWear_steps c g w d) s
  | readWear h c g => exact onRequest_touches h _ _ (serveReadWear_steps c g) s
  | readTracking h f => exact onRequest_touches h _ _ (serveReadTracking_steps f) s
  | retrackLoad h rs => exact onRequest_touches h _ _ (serveRetrackLoad_steps rs) s
  | retrackApply h => exact onRequest_touches h _ _ serveRetrackApply_steps s
  | readLog h => exact onRequest_touches h _ _ (fun _ => .refl) s
  | clearLog h => exact onRequest_touches h _ _ serveClearLog_steps s
  | clearAlarms h m => exact onRequest_touches h _ _ (serveClearAlarms_steps m) s
  | testStart h p => exact onRequest_touches h _ _ (serveTestStart_steps p) s
  | testStop h => exact onRequest_touches h _ _ serveTestStop_steps s
  | testInject h => exact onRequest_touches h _ _ serveTestInject_steps s
  | readTestCounts h => exact onRequest_touches h _ _ serveReadTestCounts_steps s
  | unknownRequest h code => exact live_next (fun s => (takeByCode_steps h code s).touches) s

/-- A run that keeps a property at every elementary change keeps it. -/
theorem Touches.keeps {P : State → Prop} (hP : ∀ s t, Touch s t → P s → P t) {s t : State} (h : Touches s t)
    (hs : P s) : P t := by
  induction h with
  | refl => exact hs
  | tail _ h ih => exact hP _ _ h ih

/-- A property that every elementary change keeps, and that does not read the queue, is kept by every step. -/
theorem step_keeps {P : State → Prop} (hP : ∀ s t, Touch s t → P s → P t)
    (hq : ∀ s q, P s → P { s with pending := q }) {s t : State} (hs : P s) (h : step s = .next t) : P t := by
  unfold step at h
  split at h
  · cases h; exact hs
  · next c rest _ =>
    obtain ⟨u, hu, ht⟩ := exec_touches c { s with pending := rest }
    rw [hu] at h
    cases h
    exact ht.keeps hP (hq _ _ hs)

end Sys2Proof.Machine
end

