-- ==== Sys2Proof/Laws/Answers.lean ====
section
/-! SUPPORT. What a request command answers when it is taken and when it is not, and what a run of changes inside the part
leaves as it was. -/

namespace Sys2Proof.Machine

/-! ### Requests -/

/-- Reading a header, with the frames of the last command forgotten. -/
theorem noteHeader_noticed (h : ReqHead) (s : State) : noteHeader h.via { s with sent := [] } = noticed h s := by
  unfold noteHeader noticed
  cases h.via <;> rfl

/-- A recorded answer is the state of the answer with its tag and response. -/
theorem record_answered (h : ReqHead) (code : Byte) (a : Answer) :
    record h code a = answered h code a.result a.payload a.state := by
  unfold record answered
  cases h.via <;> rfl

@[simp] theorem noticed_mgmt (h : ReqHead) (s : State) : (noticed h s).mgmt = s.mgmt := by
  unfold noticed; cases h.via <;> rfl
@[simp] theorem noticed_pins (h : ReqHead) (s : State) : (noticed h s).pins = s.pins := by
  unfold noticed; cases h.via <;> rfl
@[simp] theorem noticed_node (h : ReqHead) (s : State) : (noticed h s).node = s.node := by
  unfold noticed; cases h.via <;> rfl
@[simp] theorem noticed_track (h : ReqHead) (s : State) : (noticed h s).track = s.track := by
  unfold noticed; cases h.via <;> rfl
@[simp] theorem noticed_bank (h : ReqHead) (s : State) : (noticed h s).bank = s.bank := by
  unfold noticed; cases h.via <;> rfl
@[simp] theorem noticed_chans (h : ReqHead) (s : State) : (noticed h s).chans = s.chans := by
  unfold noticed; cases h.via <;> rfl
@[simp] theorem noticed_pairs (h : ReqHead) (s : State) : (noticed h s).pairs = s.pairs := by
  unfold noticed; cases h.via <;> rfl
@[simp] theorem noticed_seqs (h : ReqHead) (s : State) : (noticed h s).seqs = s.seqs := by
  unfold noticed; cases h.via <;> rfl
@[simp] theorem noticed_wear (h : ReqHead) (s : State) : (noticed h s).wear = s.wear := by
  unfold noticed; cases h.via <;> rfl
@[simp] theorem noticed_curves (h : ReqHead) (s : State) : (noticed h s).curves = s.curves := by
  unfold noticed; cases h.via <;> rfl
@[simp] theorem noticed_report (h : ReqHead) (s : State) : (noticed h s).report = s.report := by
  unfold noticed; cases h.via <;> rfl
@[simp] theorem noticed_path (h : ReqHead) (s : State) : (noticed h s).path = s.path := by
  unfold noticed; cases h.via <;> rfl
@[simp] theorem noticed_sent (h : ReqHead) (s : State) : (noticed h s).sent = [] := by
  unfold noticed; cases h.via <;> rfl
@[simp] theorem noticed_choice (h : ReqHead) (s : State) : (noticed h s).choice = s.choice := by
  unfold noticed; cases h.via <;> rfl
@[simp] theorem noticed_pending (h : ReqHead) (s : State) : (noticed h s).pending = s.pending := by
  unfold noticed; cases h.via <;> rfl
@[simp] theorem noticed_storedMap (h : ReqHead) (s : State) : (noticed h s).sweep.storedMap = s.sweep.storedMap := by
  unfold noticed; cases h.via <;> rfl
@[simp] theorem noticed_mapInForce (h : ReqHead) (s : State) : (noticed h s).sweep.mapInForce = s.sweep.mapInForce := by
  unfold noticed; cases h.via <;> rfl
@[simp] theorem noticed_watch (h : ReqHead) (s : State) : (noticed h s).sweep.watch = s.sweep.watch := by
  unfold noticed; cases h.via <;> rfl
@[simp] theorem noticed_link (h : ReqHead) (s : State) : (noticed h s).sweep.link = s.sweep.link := by
  unfold noticed; cases h.via <;> rfl
@[simp] theorem noticed_chanRec (h : ReqHead) (s : State) (c : ChanNo) : chanRec (noticed h s) c = chanRec s c := by
  unfold noticed; cases h.via <;> rfl
@[simp] theorem noticed_seqOf (h : ReqHead) (s : State) (c : ChanNo) : seqOf (noticed h s) c = seqOf s c := by
  unfold noticed; cases h.via <;> rfl
@[simp] theorem noticed_wearOf (h : ReqHead) (s : State) (c : ChanNo) : wearOf (noticed h s) c = wearOf s c := by
  unfold noticed; cases h.via <;> rfl
@[simp] theorem noticed_present (h : ReqHead) (s : State) (c : ChanNo) : present (noticed h s) c = present s c := by
  unfold noticed; cases h.via <;> rfl
@[simp] theorem noticed_available (h : ReqHead) (s : State) (c : ChanNo) :
    available (noticed h s) c = available s c := by
  unfold noticed; cases h.via <;> rfl
@[simp] theorem noticed_partner (h : ReqHead) (s : State) (c : ChanNo) : partner (noticed h s) c = partner s c := by
  unfold noticed; cases h.via <;> rfl
@[simp] theorem noticed_stagingInUse (h : ReqHead) (s : State) : stagingInUse (noticed h s) = stagingInUse s := by
  unfold noticed; cases h.via <;> rfl
@[simp] theorem noticed_failedCount (h : ReqHead) (s : State) : failedCount (noticed h s) = failedCount s := by
  unfold noticed; cases h.via <;> rfl

/-- A request that is taken, of a length its code allows, is executed on the state after its header and answered. -/
theorem onRequest_taken {h : ReqHead} {k : ReqCode} {len : Nat} {serve : State → Answer} {s : State} (ht : Taken h s)
    (hl : k.allows len = true) :
    onRequest h k len serve s =
      .next (answered h k.byte (serve (noticed h s)).result (serve (noticed h s)).payload (serve (noticed h s)).state) := by
  obtain ⟨h1, h2, h3⟩ := ht
  have hn : isNew h (noticed h s) = true := by simpa [isNew, h3] using h2
  simp only [onRequest, live, h1, Bool.false_eq_true, if_false, takeRequest, noteHeader_noticed, hn, hl, if_true,
    record_answered]

/-- A request whose tag is not new is not executed. -/
theorem onRequest_stale {h : ReqHead} {k : ReqCode} {len : Nat} {serve : State → Answer} {s : State}
    (h1 : s.pins.inReset = false) (h2 : h.tag = 0 ∨ h.tag = s.mgmt.lastTag) :
    onRequest h k len serve s = .next (noticed h s) := by
  have hn : isNew h (noticed h s) = false := by
    rcases h2 with h2 | h2 <;> simp [isNew, h2]
  simp only [onRequest, live, h1, Bool.false_eq_true, if_false, takeRequest, noteHeader_noticed, hn]

/-! ### What the changes inside the part leave alone -/

/-- The fields no change inside the part touches; of the outstanding sweep it can set only the addressed flag. -/
structure SameOutside (s t : State) : Prop where
  pins : t.pins = s.pins
  sent : t.sent = s.sent
  choice : t.choice = s.choice
  pending : t.pending = s.pending
  mapInForce : t.sweep.mapInForce = s.sweep.mapInForce
  link : t.sweep.link = s.sweep.link
  closure : t.sweep.closure = s.sweep.closure
  address : t.node.address = s.node.address
  outstanding : (t.sweep.outstanding.map fun o => { o with addressed := true }) =
    s.sweep.outstanding.map fun o => { o with addressed := true }

theorem SameOutside.refl (s : State) : SameOutside s s := ⟨rfl, rfl, rfl, rfl, rfl, rfl, rfl, rfl, rfl⟩

theorem SameOutside.trans {s t u : State} (a : SameOutside s t) (b : SameOutside t u) : SameOutside s u :=
  ⟨b.pins.trans a.pins, b.sent.trans a.sent, b.choice.trans a.choice, b.pending.trans a.pending,
   b.mapInForce.trans a.mapInForce, b.link.trans a.link, b.closure.trans a.closure,
   b.address.trans a.address, b.outstanding.trans a.outstanding⟩

/-- A change inside the part. -/
theorem Inner.sameOutside {s t : State} (h : Inner s t) : SameOutside s t := by
  cases h with
  | addressed =>
    refine ⟨rfl, rfl, rfl, rfl, rfl, rfl, rfl, rfl, ?_⟩
    dsimp only
    cases s.sweep.outstanding <;> rfl
  | channel c r =>
    unfold channelEvent
    split <;> exact ⟨rfl, rfl, rfl, rfl, rfl, rfl, rfl, rfl, rfl⟩
  | settings n i m =>
    simp only [storeSettings]
    split <;> exact ⟨rfl, rfl, rfl, rfl, rfl, rfl, rfl, rfl, rfl⟩
  | _ => exact ⟨rfl, rfl, rfl, rfl, rfl, rfl, rfl, rfl, rfl⟩

/-- A run of changes inside the part. -/
theorem Steps.sameOutside {s t : State} (h : Steps s t) : SameOutside s t := by
  induction h with
  | refl => exact .refl _
  | tail _ h ih => exact ih.trans h.sameOutside

end Sys2Proof.Machine
end

