-- ==== Sys2Proof/Laws/Formats.lean ====
section
/-! SUPPORT. The byte layouts of chapter 12 read back what they were written from: 2-byte fields, channel masks, the
repeated groups of the management payloads, slots and whole payloads. -/

namespace Sys2Proof.Machine

/-- A 2-byte field is its two bytes. -/
@[simp] theorem half_bytes (w : Half) : half (hiByte w) (loByte w) = w := by
  unfold half hiByte loByte
  ext i hi
  simp only [BitVec.getElem_append, BitVec.getElem_extractLsb']
  split
  · simp [BitVec.getLsbD_eq_getElem hi]
  · next h =>
    have : 8 + (i - 8) = i := by omega
    simp [this, BitVec.getLsbD_eq_getElem hi]

/-- A channel mask is its four bytes. -/
@[simp] theorem mask_bytes (m : Mask) :
    maskOf (m.extractLsb' 24 8) (m.extractLsb' 16 8) (m.extractLsb' 8 8) (m.extractLsb' 0 8) = m := by
  unfold maskOf
  ext i hi
  have hg : m.getLsbD i = m[i] := BitVec.getLsbD_eq_getElem hi
  simp only [BitVec.getElem_append, BitVec.getElem_extractLsb']
  split
  · simpa using hg
  · split
    · have : 8 + (i - 8) = i := by omega
      simpa [this] using hg
    · split
      · have : 16 + (i - 8 - 8) = i := by omega
        simpa [this] using hg
      · have : 24 + (i - 8 - 8 - 8) = i := by omega
        simpa [this] using hg

/-- Groups of `n` bytes laid end to end are cut apart again. -/
theorem chunks_flatten (n : Nat) (ls : List (List Byte)) (h : ∀ l ∈ ls, l.length = n) :
    chunks n ls.length ls.flatten = ls := by
  induction ls with
  | nil => rfl
  | cons l ls ih =>
    have e := h l (by simp)
    simp only [List.length_cons, chunks, List.flatten_cons]
    rw [List.take_left' e, List.drop_left' e, ih fun l hl => h l (by simp [hl])]

/-- Groups written by `f` and read by `g` are read as they were written. -/
theorem chunks_flatMap {α : Type} (n : Nat) (hn : 0 < n) (f : α → List Byte) (g : List Byte → α)
    (hf : ∀ a, (f a).length = n) (hg : ∀ a, g (f a) = a) (as : List α) :
    (chunks n ((as.flatMap f).length / n) (as.flatMap f)).map g = as := by
  have hl : (as.flatMap f).length = n * as.length := by
    induction as with
    | nil => simp
    | cons a as ih => simp [hf, ih]; ring
  have hc := chunks_flatten n (as.map f) (by simp [hf])
  rw [List.length_map] at hc
  rw [hl, Nat.mul_div_cancel_left _ hn, List.flatMap_def, hc, List.map_map]
  exact (List.map_congr_left fun a _ => hg a).trans (List.map_id as)

@[simp] theorem rawMapEntries_bytes (es : List RawMapEntry) : rawMapEntries (es.flatMap RawMapEntry.bytes) = es :=
  chunks_flatMap 2 (by omega) _ _ (fun _ => rfl) (fun _ => rfl) es

@[simp] theorem rawEntries_bytes (es : List RawEntry) : rawEntries (es.flatMap RawEntry.bytes) = es :=
  chunks_flatMap 7 (by omega) _ _ (fun _ => rfl) (fun _ => rfl) es

@[simp] theorem rawRetracks_bytes (rs : List RawRetrack) : rawRetracks (rs.flatMap RawRetrack.bytes) = rs :=
  chunks_flatMap 13 (by omega) _ _ (fun _ => rfl)
    (fun r => by simp [rawRetrack, RawRetrack.bytes, halfBytes, maskBytes]) rs

/-- A written slot passes its check (R190). -/
@[simp] theorem toSlot_ok (d : Data7) : d.toSlot.ok = true := by
  simp [Slot.ok, Data7.toSlot]

/-- The slots of a payload made of slots are those slots. -/
@[simp] theorem slotsOf_payloadOf (sls : List Slot) : slotsOf (payloadOf sls) = sls := by
  induction sls with
  | nil => rfl
  | cons sl sls ih =>
    have : payloadOf (sl :: sls) = sl.bytes ++ payloadOf sls := rfl
    rw [this]
    simp only [Slot.bytes, Data7.bytes, List.cons_append, List.nil_append, slotsOf, ih]

/-- A payload made of `n` slots is `8 * n` bytes long. -/
@[simp] theorem payloadOf_length (sls : List Slot) : (payloadOf sls).length = 8 * sls.length := by
  induction sls with
  | nil => rfl
  | cons sl sls ih =>
    have : payloadOf (sl :: sls) = sl.bytes ++ payloadOf sls := rfl
    rw [this, List.length_append, ih]
    simp [Slot.bytes, Data7.bytes]
    ring

/-- A payload of `8 * n` bytes has `n` slots. -/
theorem slotsOf_length : ∀ (n : Nat) (p : List Byte), p.length = 8 * n → (slotsOf p).length = n
  | 0, p, h => by
    have : p = [] := List.length_eq_zero_iff.1 (by omega)
    subst this
    rfl
  | n + 1, p, h => by
    match p, h with
    | b0 :: b1 :: b2 :: b3 :: b4 :: b5 :: b6 :: c :: rest, h =>
      simp only [List.length_cons] at h
      simp only [slotsOf, List.length_cons, slotsOf_length n rest (by omega)]

/-- Writing a slot changes no length. -/
@[simp] theorem writeSlot_length (m : SlotMap) (r : Role) (d : Data7) (sls : List Slot) :
    (writeSlot m r d sls).length = sls.length := by
  unfold writeSlot
  split <;> simp

/-- What a written slot reads as. -/
theorem writeSlot_self {m : SlotMap} {r : Role} {n : Nat} (d : Data7) {sls : List Slot} (h : m.slotOf r = some n)
    (hn : n < sls.length) : (writeSlot m r d sls)[n]? = some d.toSlot := by
  simp [writeSlot, h, hn]

/-- Writing the slot of a role leaves every other slot. -/
theorem writeSlot_other {m : SlotMap} {r : Role} {n : Nat} (d : Data7) (sls : List Slot) (h : m.slotOf r ≠ some n) :
    (writeSlot m r d sls)[n]? = sls[n]? := by
  unfold writeSlot
  split
  · rfl
  · next k hk =>
    have : k ≠ n := fun e => h (by rw [hk, e])
    simp [List.getElem?_set_ne this]

/-- Ordering by keys loses and adds nothing. -/
theorem insertByKey_perm {α : Type} (key : α → Nat) (x : α) (l : List α) : (insertByKey key x l).Perm (x :: l) := by
  induction l with
  | nil => exact .refl _
  | cons y ys ih =>
    unfold insertByKey
    split
    · exact .refl _
    · exact (ih.cons y).trans (List.Perm.swap x y ys)

theorem orderBy_perm {α : Type} (key : α → Nat) (l : List α) : (orderBy key l).Perm l := by
  induction l with
  | nil => exact .refl _
  | cons x xs ih => exact (insertByKey_perm key x _).trans (ih.cons x)

/-- The slot a role stands in holds that role. -/
theorem slotOf_spec {m : SlotMap} {r : Role} {n : Nat} (h : m.slotOf r = some n) :
    0 < n ∧ ∃ hn : n - 1 < 183, m[n - 1] = r := by
  unfold SlotMap.slotOf at h
  rw [Option.map_eq_some_iff] at h
  obtain ⟨i, hi, rfl⟩ := h
  rw [List.findIdx?_eq_some_iff_getElem] at hi
  obtain ⟨hlt, hr, _⟩ := hi
  refine ⟨by omega, by simpa using hlt, ?_⟩
  simpa using hr

end Sys2Proof.Machine
end

