-- ==== Sys2Proof/Laws/Lookups.lean ====
section
/-! SUPPORT. What payload bytes name and give: channels, guns, roles, entries and retrack records,
when each is refused, and where a run of them lands; the gate of the banks and the pairs. -/

namespace Sys2Proof.Machine

/-! ### Bytes, channels, guns -/

/-- A byte above 31 names no channel. -/
theorem chanOf_eq_none {b : Byte} (h : 31 < b.toNat) : chanOf b = none := by
  unfold chanOf; rw [dif_neg]; omega

/-- A byte up to 31 names its channel. -/
theorem chanOf_eq_some {b : Byte} {c : ChanNo} (h : c.val = b.toNat) : chanOf b = some c := by
  unfold chanOf; rw [dif_pos (by omega)]; simp [← h]

/-- A byte is 0 when its number is. -/
theorem byte_eq_zero_iff {b : Byte} : b = 0 ↔ b.toNat = 0 := by
  constructor
  · rintro rfl; rfl
  · intro h; exact BitVec.eq_of_toNat_eq h

/-- The bytes that name no gun. -/
theorem gunOf_eq_none_iff {g : Byte} : gunOf g.toNat = none ↔ g = 0 ∨ 2 < g.toNat := by
  unfold gunOf; rw [byte_eq_zero_iff]; constructor
  · intro h; split at h
    · cases h
    · split at h
      · cases h
      · omega
  · intro h; rw [if_neg (by omega), if_neg (by omega)]

/-- The gun a byte names, read back. -/
theorem gunOf_byte {g : Byte} {x} (h : gunOf g.toNat = some x) : (x == .gun2) = (g == 2) ∧ (if (g == 2) then (2:Byte)
    else 1) = g := by
  unfold gunOf at h
  split at h
  · next e => cases h; have : g = 1 := BitVec.eq_of_toNat_eq e; subst this; decide
  · split at h
    · next e => cases h; have : g = 2 := BitVec.eq_of_toNat_eq e; subst this; decide
    · cases h

/-- A byte above 3 names no curve. -/
theorem curveOf_eq_none {b : Byte} (h : 3 < b.toNat) : curveOf b = none := by
  unfold curveOf; rw [dif_neg]; omega

/-- A byte up to 3 names its curve. -/
theorem curveOf_eq_some {b : Byte} {c : Fin 4} (h : c.val = b.toNat) : curveOf b = some c := by
  unfold curveOf; rw [dif_pos (by omega)]; simp [← h]

/-- A clamped boost is at most 250. -/
theorem clampBoost_le (b : Byte) : (clampBoost b).toNat ≤ 250 := by
  unfold clampBoost; split
  · decide
  · omega

/-- The reply states that 12.2 defines. -/
theorem replyState_some_iff (d : Data7) : (∃ x, replyState d = some x) ↔ (d.b1.extractLsb' 4 3).toNat < 6 := by
  unfold replyState
  generalize (d.b1.extractLsb' 4 3).toNat = n
  constructor
  · rintro ⟨x, h⟩
    by_contra hn
    have : n = n - 6 + 6 := by omega
    rw [this] at h; cases h
  · intro h
    have : n = 0 ∨ n = 1 ∨ n = 2 ∨ n = 3 ∨ n = 4 ∨ n = 5 := by omega
    rcases this with rfl | rfl | rfl | rfl | rfl | rfl <;> exact ⟨_, rfl⟩

/-! ### Map entries -/

/-- One bad map entry spoils the list. -/
theorem rolesOf_eq_none_iff {es : List RawMapEntry} : rolesOf es = none ↔ ∃ e ∈ es, roleOf e = none := by
  induction es with
  | nil => simp [rolesOf]
  | cons e es ih =>
    simp only [rolesOf]
    cases h1 : roleOf e <;> cases h2 : rolesOf es <;> simp_all

/-- The roles of a list of map entries. -/
theorem rolesOf_eq_some {es : List RawMapEntry} {rs} (h : rolesOf es = some rs) : rs.length = es.length ∧ ∀ k (hk : k
    < es.length), rs[k]? = roleOf es[k] := by
  induction es generalizing rs with
  | nil => simp [rolesOf] at h; subst h; simp
  | cons e es ih =>
    simp only [rolesOf] at h
    cases h1 : roleOf e <;> cases h2 : rolesOf es <;> simp_all
    subst h
    refine ⟨by simp [ih.1], fun k hk => ?_⟩
    cases k with
    | zero => simp [h1]
    | succ k => simp [ih.2 k (by simpa using hk)]

/-- Where a run of roles lands in the map. -/
theorem slotMap_put_getElem (m : SlotMap) (f : Nat) (rs : List Role) (hf : 1 ≤ f) (i : Nat) (hi : i < 183) :
    (m.put f rs)[i] = if h : f ≤ i + 1 ∧ i + 1 - f < rs.length then rs[i+1-f] else m[i] := by
  induction rs generalizing m f with
  | nil => simp [SlotMap.put]
  | cons r rs ih =>
    rw [SlotMap.put, ih _ _ (by omega)]
    by_cases h1 : f = i + 1
    · subst h1; simp
    · by_cases h2 : f + 1 ≤ i + 1 ∧ i + 1 - (f + 1) < rs.length
      · rw [dif_pos h2, dif_pos ⟨by omega, by simp; omega⟩]
        have : i + 1 - f = (i + 1 - (f + 1)) + 1 := by omega
        simp [this]
      · rw [dif_neg h2, dif_neg (by simp; omega)]
        rw [Vector.getElem_setIfInBounds_ne]; omega

/-- The check of R140 on a list of roles. -/
theorem noRoleTwice_iff (l : List Role) : noRoleTwice l = true ↔ ∀ i j (hi : i < l.length) (hj : j < l.length), l[i]
    = l[j] → i = j ∨ l[i] = .pass ∨ l[i] = .test := by
  induction l with
  | nil => simp [noRoleTwice]
  | cons r rs ih =>
    simp only [noRoleTwice, Bool.and_eq_true, ih]
    constructor
    · rintro ⟨h1, h2⟩ i j hi hj e
      match i, j with
      | 0, 0 => simp
      | 0, j+1 =>
        simp at e hj ⊢
        have hm := List.getElem_mem hj
        rw [← e] at hm
        cases r <;> simp_all [Role.unique]
      | i+1, 0 =>
        simp at e hi ⊢
        have hm := List.getElem_mem hi
        rw [e] at hm ⊢
        cases r <;> simp_all [Role.unique]
      | i+1, j+1 =>
        have := h2 i j (by simpa using hi) (by simpa using hj) (by simpa using e)
        simpa using this
    · intro h
      refine ⟨?_, fun i j hi hj e => ?_⟩
      · cases hu : r.unique <;> simp
        intro hm
        obtain ⟨j, hj, e⟩ := List.getElem_of_mem hm
        have := h 0 (j+1) (by simp) (by simpa using hj) (by simp [e])
        rcases this with h | h | h
        · omega
        · simp at h; simp [h, Role.unique] at hu
        · simp at h; simp [h, Role.unique] at hu
      · have := h (i+1) (j+1) (by simpa using hi) (by simpa using hj) (by simpa using e)
        simpa using this

/-- The check of R140 is legality. -/
theorem slotMap_legal_iff (m : SlotMap) : m.legal = true ↔ MapOk m := by
  unfold SlotMap.legal MapOk SlotMap.holds
  rw [Bool.and_eq_true, noRoleTwice_iff]
  constructor
  · rintro ⟨h1, h2⟩
    refine ⟨fun i j e => ?_, ?_⟩
    · have := h1 i.val j.val (by simp) (by simp) (by simpa using e)
      simpa [Fin.ext_iff] using this
    · simp at h2
      obtain ⟨j, hj, e⟩ := Vector.getElem_of_mem h2
      exact ⟨⟨j, hj⟩, e⟩
  · rintro ⟨h1, i, h2⟩
    refine ⟨fun i j hi hj e => ?_, ?_⟩
    · have := h1 ⟨i, by simpa using hi⟩ ⟨j, by simpa using hj⟩ (by simpa using e)
      simpa [Fin.ext_iff] using this
    · simp; rw [← h2]; exact Vector.getElem_mem _

/-! ### Style entries -/

/-- Bytes that name no style. -/
theorem styleIx_eq_none {b : Byte} (h : b = 0 ∨ 63 < b.toNat) : styleIx b = none := by
  unfold styleIx; rw [dif_neg]; rw [byte_eq_zero_iff] at h; omega

/-- Bytes that name a style. -/
theorem styleIx_eq_some {b : Byte} {i : Fin 63} (h : i.val + 1 = b.toNat) : styleIx b = some i := by
  unfold styleIx; rw [dif_pos (by omega)]; congr 1; apply Fin.ext; simp; omega

/-- The entries R27 refuses. -/
theorem entryOf_eq_none_iff {e : RawEntry} : entryOf e = none ↔ (4 < (e.sel.extractLsb' 0 3).toNat ∨
    (e.sel.extractLsb' 4 2 ≠ 1#2 ∧ e.sel.extractLsb' 4 2 ≠ 2#2)) := by
  unfold entryOf gunOf
  have a1 : ∀ x : BitVec 2, x.toNat = 1 ↔ x = 1#2 := by decide
  have a2 : ∀ x : BitVec 2, x.toNat = 2 ↔ x = 2#2 := by decide
  simp only [a1, a2]
  by_cases h1 : e.sel.extractLsb' 4 2 = 1#2
  · simp [h1]; omega
  · by_cases h2 : e.sel.extractLsb' 4 2 = 2#2
    · simp [h2]; omega
    · simp [h1, h2]

/-- The entry seven bytes give. -/
theorem entryOf_eq_some {e : RawEntry} {x : Entry} (h : entryOf e = some x) : 
    x = { base := e.base
          baseSpots := e.baseSpots
          option := Fin.ofNat 5 (e.sel.extractLsb' 0 3).toNat
          variant := e.variant
          variantSpots := e.variantSpots
          backup := e.backup
          backupSpots := e.backupSpots
          gun := if e.sel.extractLsb' 4 2 = 1#2 then Gun.gun1 else Gun.gun2 } := by
  unfold entryOf gunOf at h
  have a1 : ∀ x : BitVec 2, x.toNat = 1 ↔ x = 1#2 := by decide
  have a2 : ∀ x : BitVec 2, x.toNat = 2 ↔ x = 2#2 := by decide
  simp only [a1, a2] at h
  have fo : ∀ n (hn : n < 5), (⟨n, hn⟩ : Fin 5) = Fin.ofNat 5 n := by intro n hn; apply Fin.ext; simp [Fin.ofNat, Nat.mod_eq_of_lt hn]
  by_cases h1 : e.sel.extractLsb' 4 2 = 1#2
  · rw [if_pos h1] at h; simp only at h; split at h
    · cases h; simp [h1, fo]
    · cases h
  · rw [if_neg h1] at h; split at h
    · cases h
    · next hg => split at hg
                 · cases hg; split at h
                   · cases h; simp [h1, fo]
                   · cases h
                 · cases hg

/-- One bad entry spoils the list. -/
theorem entriesOf_eq_none_iff {es : List RawEntry} : entriesOf es = none ↔ ∃ e ∈ es, entryOf e = none := by
  induction es with
  | nil => simp [entriesOf]
  | cons e es ih =>
    simp only [entriesOf]
    cases h1 : entryOf e <;> cases h2 : entriesOf es <;> simp_all

/-- The entries of a list. -/
theorem entriesOf_eq_some {es : List RawEntry} {rs} (h : entriesOf es = some rs) : rs.length = es.length ∧ ∀ k (hk :
    k < es.length), rs[k]? = entryOf es[k] := by
  induction es generalizing rs with
  | nil => simp [entriesOf] at h; subst h; simp
  | cons e es ih =>
    simp only [entriesOf] at h
    cases h1 : entryOf e <;> cases h2 : entriesOf es <;> simp_all
    subst h
    refine ⟨by simp [ih.1], fun k hk => ?_⟩
    cases k with
    | zero => simp [h1]
    | succ k => simp [ih.2 k (by simpa using hk)]

/-- Where a run of entries lands in a style record. -/
theorem putEntries_getElem (m : Vector Entry 32) (f : Nat) (rs : List Entry) (i : Nat) (hi : i < 32) :
    (putEntries m f rs)[i] = if h : f ≤ i ∧ i - f < rs.length then rs[i-f] else m[i] := by
  induction rs generalizing m f with
  | nil => simp [putEntries]
  | cons r rs ih =>
    rw [putEntries, ih _ _]
    by_cases h1 : f = i
    · subst h1; simp
    · by_cases h2 : f + 1 ≤ i ∧ i - (f + 1) < rs.length
      · rw [dif_pos h2, dif_pos ⟨by omega, by simp; omega⟩]
        have : i - f = (i - (f + 1)) + 1 := by omega
        simp [this]
      · rw [dif_neg h2, dif_neg (by simp; omega)]
        rw [Vector.getElem_setIfInBounds_ne]; omega

/-- The entry of a body's style in its bound bank. -/
theorem entryFor_eq (s : State) (b : Body) (c : ChanNo) (hb : b.style ≠ 0) : entryFor s b c = ((s.bank.get b.bank)[b.style.toNat - 1]'(by have := b.style.isLt; omega)).entries[c.val] := by
  unfold entryFor styleRec
  have : b.style.toNat ≠ 0 := fun h => hb (BitVec.eq_of_toNat_eq h)
  rw [dif_neg this]

/-! ### Banks and their gate -/

/-- Staging is in use when some body is bound to the bank that is not live. -/
theorem stagingInUse_iff (s : State) : stagingInUse s = true ↔ ∃ b, some b ∈ s.track.queue ∧ b.bank ≠ s.bank.live :=
    by
  simp only [stagingInUse, List.any_eq_true]
  have hl : ∀ x : BankIx, x = s.bank.staging ↔ x ≠ s.bank.live := by
    intro x; simp only [BankStore.staging]; cases s.bank.live <;> cases x <;> simp [BankIx.other]
  constructor
  · rintro ⟨p, hp, h⟩
    cases p with
    | none => simp at h
    | some b => exact ⟨b, hp, (hl _).1 (by simpa using h)⟩
  · rintro ⟨b, hb, h⟩
    exact ⟨some b, hb, by simpa using (hl _).2 h⟩

/-- A copy runs. -/
theorem bankStore_busy_iff (b : BankStore) : b.busy = true ↔ b.copy ≠ .idle := by simp [BankStore.busy]

/-- When the gate of R25 is open. -/
theorem gate_eq_none {s : State} (h1 : s.bank.copy = .idle) (h2 : s.bank.armed = false) (h3 : ∀ b, some b ∈
    s.track.queue → b.bank = s.bank.live) : gate s = none := by
  have : stagingInUse s = false := by
    rw [← Bool.not_eq_true, stagingInUse_iff]; push Not; exact fun b hb => h3 b hb
  simp [gate, BankStore.busy, h1, h2, this]

/-! ### Pairs -/

/-- A channel is paired when it stands in a pair. -/
theorem paired_iff (s : State) (a : ChanNo) : paired s a = true ↔ ∃ p ∈ s.pairs, p.1 = a ∨ p.2 = a := by
  unfold paired partner
  rw [List.findSome?_isSome_iff]
  constructor
  · rintro ⟨p, h, e⟩
    refine ⟨p, h, ?_⟩
    by_cases h1 : p.1 = a
    · exact .inl h1
    · by_cases h2 : p.2 = a
      · exact .inr h2
      · simp [h1, h2] at e
  · rintro ⟨p, h, e⟩
    refine ⟨p, h, ?_⟩
    by_cases h1 : p.1 = a
    · simp [h1]
    · rcases e with e | e
      · exact absurd e h1
      · simp [h1, e]

/-- A channel without a partner stands in no pair. -/
theorem partner_eq_none_iff (s : State) (c : ChanNo) : partner s c = none ↔ ∀ p ∈ s.pairs, p.1 ≠ c ∧ p.2 ≠ c := by
  have := paired_iff s c
  unfold paired at this
  rw [← Option.not_isSome_iff_eq_none, this]; push Not; rfl

/-- The partners of a pair are each other's. -/
theorem partner_of_mem {s : State} (hn : (s.pairs.flatMap fun p => [p.1, p.2]).Nodup) {p : ChanNo × ChanNo}
    (hp : p ∈ s.pairs) : partner s p.1 = some p.2 ∧ partner s p.2 = some p.1 := by
  unfold partner
  generalize s.pairs = l at hn hp
  induction l with
  | nil => cases hp
  | cons q l ih =>
    simp only [List.flatMap_cons, List.nodup_append, List.mem_cons] at hn hp
    obtain ⟨n1, n2, n3⟩ := hn
    simp at n1
    rcases hp with rfl | hp
    · constructor
      · simp
      · simp [n1]
    · have a1 := n3 q.1 (by simp) p.1 (List.mem_flatMap.2 ⟨p, hp, by simp⟩)
      have a2 := n3 q.1 (by simp) p.2 (List.mem_flatMap.2 ⟨p, hp, by simp⟩)
      have a3 := n3 q.2 (by simp) p.1 (List.mem_flatMap.2 ⟨p, hp, by simp⟩)
      have a4 := n3 q.2 (by simp) p.2 (List.mem_flatMap.2 ⟨p, hp, by simp⟩)
      have := ih n2 hp
      simp [a1, a2, a3, a4, this]

/-! ### Retrack records -/

/-- The retrack records R17 refuses. -/
theorem retrackOf_eq_none_iff {r : RawRetrack} : retrackOf r = none ↔ 63 < r.style.toNat ∨ 15 < r.options.toNat ∨ ∃ c
    : ChanNo, inMask r.done c = true ∧ inMask r.owed c = true := by
  unfold retrackOf
  have : r.done &&& r.owed = 0 ↔ ¬ ∃ c : ChanNo, inMask r.done c = true ∧ inMask r.owed c = true := by
    constructor
    · rintro h ⟨c, h1, h2⟩
      have := congrArg (fun x : Mask => x.getLsbD c.val) h
      simp [inMask] at h1 h2 this
      simp [h1, h2] at this
    · intro h
      push Not at h
      ext i hi
      have := h ⟨i, hi⟩
      simp [inMask, BitVec.getLsbD_eq_getElem hi] at this
      simp
      exact this
  split
  · next h =>
      have h3 := this.1 h.2.2
      simp only [reduceCtorEq, false_iff, not_or]
      exact ⟨by omega, by omega, h3⟩
  · next h => simp only [true_iff]; by_contra hh; push Not at hh; exact h ⟨by omega, by omega, this.2 (by push Not; exact hh.2.2)⟩

/-- The retrack record a payload record gives. -/
theorem retrackOf_eq_some {r : RawRetrack} {x} (h : retrackOf r = some x) : x =
    { tag := r.tag, style := r.style.setWidth 6, options := r.options.setWidth 4, done := r.done, owed := r.owed } := by
  unfold retrackOf at h
  split at h
  · exact (Option.some.inj h).symm
  · cases h

/-- One bad record spoils the list. -/
theorem retracksOf_eq_none_iff {n : Nat} {rs : List RawRetrack} : retracksOf n rs = none ↔ ∃ r ∈ rs, n ≤
    r.station.toNat ∨ retrackOf r = none := by
  induction rs with
  | nil => simp [retracksOf]
  | cons r rs ih =>
    simp only [retracksOf]
    cases h1 : retrackOf r <;> cases h2 : retracksOf n rs <;> simp_all

/-- The records of a list with their stations. -/
theorem retracksOf_eq_some {n : Nat} {rs : List RawRetrack} {xs} (h : retracksOf n rs = some xs) : 
    xs = rs.map fun r => (r.station.toNat,
      ({ tag := r.tag, style := r.style.setWidth 6, options := r.options.setWidth 4, done := r.done, owed := r.owed } : Retrack)) := by
  induction rs generalizing xs with
  | nil => simp [retracksOf] at h; subst h; rfl
  | cons r rs ih =>
    simp only [retracksOf] at h
    cases h1 : retrackOf r <;> cases h2 : retracksOf n rs <;> simp_all
    rw [← h.2, ← retrackOf_eq_some h1]

/-- Where a list of records lands in the image. -/
theorem imageFold_getElem {α} (xs : List (Nat × α)) (im : List (Option α)) (hn : (xs.map Prod.fst).Nodup) :
   (∀ x ∈ xs, x.1 < im.length → (xs.foldl (fun im x => im.set x.1 (some x.2)) im)[x.1]? = some (some x.2)) ∧
   (∀ k, (∀ x ∈ xs, x.1 ≠ k) → (xs.foldl (fun im x => im.set x.1 (some x.2)) im)[k]? = im[k]?) := by
  induction xs generalizing im with
  | nil => simp
  | cons y ys ih =>
    simp only [List.map_cons, List.nodup_cons] at hn
    have := ih (im.set y.1 (some y.2)) hn.2
    refine ⟨fun x hx hl => ?_, fun k hk => ?_⟩
    · rcases List.mem_cons.1 hx with rfl | hx
      · simp only [List.foldl_cons]
        rw [this.2]
        · simp [hl]
        · intro z hz e; exact hn.1 (e ▸ List.mem_map_of_mem hz)
      · exact this.1 x hx (by simpa using hl)
    · simp only [List.foldl_cons]
      rw [this.2 k (fun x hx => hk x (List.mem_cons_of_mem _ hx))]
      rw [List.getElem?_set_ne (hk y (by simp))]

/-- The body at a station after RETRACK APPLY. -/
theorem retrackBodies_getElem (bank : BankStore) (id : Nat) (l : List (Option Retrack)) (k : Nat) : (retrackBodies
    bank id l)[k]? = (l[k]?).map fun p => some (retrackBody bank (id + k) p) := by
  induction l generalizing id k with
  | nil => simp [retrackBodies]
  | cons p ps ih =>
    cases k with
    | zero => simp [retrackBodies]
    | succ k => simp [retrackBodies, ih, Nat.add_comm, Nat.add_left_comm]

/-- One body for each position. -/
theorem retrackBodies_length (bank : BankStore) (id : Nat) (l : List (Option Retrack)) : (retrackBodies bank id
    l).length = l.length := by
  induction l generalizing id with
  | nil => rfl
  | cons p ps ih => simp [retrackBodies, ih]

end Sys2Proof.Machine
end

