-- ==== Sys2Proof/Laws/Settle.lean ====
section
/-! SUPPORT. What the settlement of bodies can change: pending lists with their jobs, and marks on body records; nothing else.
Marks only add channels to a body's resolved mask. -/

namespace Sys2Proof.Machine

/-! ### Marks on one body -/

@[simp] theorem Body.mark_bare (m : Mark) (chs : Mask) (b : Body) : (b.mark m chs).bare = b.bare := by
  cases m <;> rfl

@[simp] theorem Body.mark_id (m : Mark) (chs : Mask) (b : Body) : (b.mark m chs).id = b.id := by cases m <;> rfl

/-- A mark takes no channel out of the resolved mask. -/
theorem Body.mark_resolved (m : Mark) (chs : Mask) (b : Body) (c : ChanNo) (h : inMask b.resolved c = true) :
    inMask (b.mark m chs).resolved c = true := by
  cases m <;> simp only [Body.mark, inMask, BitVec.getLsbD_or] at h ⊢ <;> simp [h]

/-- Marks of one kind on one body add up. -/
theorem Body.mark_owed_owed (a c : Mask) (b : Body) :
    (b.mark .owed a).mark .owed c = b.mark .owed (a ||| c) := by
  have h : b.owed ||| a &&& ~~~b.done ||| c &&& ~~~b.done = b.owed ||| (a ||| c) &&& ~~~b.done := by
    ext i hi
    simp only [BitVec.getElem_or, BitVec.getElem_and, BitVec.getElem_not, Bool.and_or_distrib_right, Bool.or_assoc]
  have h' : b.resolved ||| a &&& ~~~b.done ||| c &&& ~~~b.done = b.resolved ||| (a ||| c) &&& ~~~b.done := by
    ext i hi
    simp only [BitVec.getElem_or, BitVec.getElem_and, BitVec.getElem_not, Bool.and_or_distrib_right, Bool.or_assoc]
  simp only [Body.mark, h, h']

/-- An owed mark on no channel changes nothing. -/
@[simp] theorem Body.mark_owed_zero (b : Body) : b.mark .owed 0#32 = b := by
  have h : ∀ x : Mask, x ||| 0#32 &&& ~~~b.done = x := by
    intro x
    ext i hi
    simp
  simp only [Body.mark, h]

/-! ### Lists and marks alone -/

/-- `t` is `s` but for sequencers and for masks of the body records. -/
structure ListsAndMarks (s t : State) : Prop where
  eq : t = { s with seqs := t.seqs, track := { s.track with queue := t.track.queue } }
  bodies : t.track.queue.map (Option.map Body.bare) = s.track.queue.map (Option.map Body.bare)

theorem ListsAndMarks.refl (s : State) : ListsAndMarks s s := ⟨rfl, rfl⟩

theorem ListsAndMarks.trans {s t u : State} (a : ListsAndMarks s t) (b : ListsAndMarks t u) : ListsAndMarks s u := by
  refine ⟨?_, b.bodies.trans a.bodies⟩
  rw [b.eq, a.eq]

theorem setSeq_listsAndMarks (c : ChanNo) (q : Seq) (s : State) : ListsAndMarks s (setSeq c q s) := ⟨rfl, rfl⟩

theorem mark_listsAndMarks (m : Mark) (chs : Mask) (id : Nat) (s : State) : ListsAndMarks s (mark m chs id s) := by
  refine ⟨rfl, ?_⟩
  simp only [mark, List.map_map]
  apply List.map_congr_left
  intro p _
  cases p with
  | none => rfl
  | some b =>
    simp only [Function.comp, Option.map_some]
    split <;> simp

theorem listsAndMarks_foldl {α : Type} {f : State → α → State} (hf : ∀ s a, ListsAndMarks s (f s a)) (l : List α)
    (s : State) : ListsAndMarks s (l.foldl f s) := by
  induction l generalizing s with
  | nil => exact .refl s
  | cons a l ih => exact (hf s a).trans (ih _)

theorem insertRecord_listsAndMarks (c : ChanNo) (r : Dispatch) (s : State) : ListsAndMarks s (insertRecord c r s) := by
  unfold insertRecord
  dsimp only
  split
  · exact setSeq_listsAndMarks _ _ _
  · split <;> exact setSeq_listsAndMarks _ _ _
  · exact setSeq_listsAndMarks _ _ _

theorem replaceRecord_listsAndMarks (c : ChanNo) (r : Dispatch) (s : State) :
    ListsAndMarks s (replaceRecord c r s) := by
  unfold replaceRecord
  dsimp only
  split <;> exact setSeq_listsAndMarks _ _ _

theorem giveRecord_listsAndMarks (c : ChanNo) (r : Option Dispatch) (s : State) :
    ListsAndMarks s (giveRecord c r s) := by
  cases r
  · exact .refl s
  · exact insertRecord_listsAndMarks _ _ _

theorem settleAlone_listsAndMarks (c : ChanNo) (b : Body) (s : State) : ListsAndMarks s (settleAlone c b s) := by
  unfold settleAlone
  dsimp only
  split
  · exact (giveRecord_listsAndMarks _ _ _).trans (mark_listsAndMarks _ _ _ _)
  · split <;> exact mark_listsAndMarks _ _ _ _

theorem settleIdle_listsAndMarks (c : ChanNo) (b : Body) (s : State) : ListsAndMarks s (settleIdle c b s) := by
  unfold settleIdle
  split
  · split <;> exact mark_listsAndMarks _ _ _ _
  · exact .refl s

theorem settleCover_listsAndMarks (a x : ChanNo) (b : Body) (s : State) : ListsAndMarks s (settleCover a x b s) := by
  unfold settleCover
  split
  · exact (insertRecord_listsAndMarks _ _ _).trans (mark_listsAndMarks _ _ _ _)
  · exact ((giveRecord_listsAndMarks _ _ _).trans (mark_listsAndMarks _ _ _ _)).trans (settleIdle_listsAndMarks _ _ _)

theorem settlePair_listsAndMarks (a p : ChanNo) (b : Body) (s : State) : ListsAndMarks s (settlePair a p b s) := by
  unfold settlePair
  split
  · exact ((giveRecord_listsAndMarks _ _ _).trans (giveRecord_listsAndMarks _ _ _)).trans (mark_listsAndMarks _ _ _ _)
  · exact settleCover_listsAndMarks _ _ _ _
  · exact settleCover_listsAndMarks _ _ _ _
  · exact (settleIdle_listsAndMarks _ _ _).trans (settleIdle_listsAndMarks _ _ _)

theorem settle_listsAndMarks (c : ChanNo) (k : Nat) (s : State) : ListsAndMarks s (settle c k s) := by
  unfold settle
  split
  · exact .refl s
  · split
    · exact .refl s
    · split
      · exact settleAlone_listsAndMarks _ _ _
      · split
        · exact settleAlone_listsAndMarks _ _ _
        · exact settlePair_listsAndMarks _ _ _ _

/-- An arrival and a catch-up change only lists and marks. -/
theorem resolveWhere_listsAndMarks (sel : ChanRec → Nat → Bool) (s : State) : ListsAndMarks s (resolveWhere sel s) := by
  refine listsAndMarks_foldl (fun s k => listsAndMarks_foldl (fun s c => ?_) _ _) _ _
  split
  · exact settle_listsAndMarks _ _ _
  · exact .refl s

theorem placeWork_listsAndMarks (x : ChanNo) (r : Dispatch) (s : State) : ListsAndMarks s (placeWork x r s) := by
  unfold placeWork
  split
  · split
    · exact mark_listsAndMarks _ _ _ _
    · split
      · exact mark_listsAndMarks _ _ _ _
      · split
        · exact mark_listsAndMarks _ _ _ _
        · split
          · exact replaceRecord_listsAndMarks _ _ _
          · exact insertRecord_listsAndMarks _ _ _
  · exact mark_listsAndMarks _ _ _ _

theorem placeAll_listsAndMarks (x : ChanNo) (rs : List Dispatch) (s : State) : ListsAndMarks s (placeAll x rs s) :=
  listsAndMarks_foldl (fun s r => placeWork_listsAndMarks x r s) rs s

/-- A loss of service changes only lists and marks. -/
theorem loseService_listsAndMarks (x : ChanNo) (kind : Loss) (s : State) :
    ListsAndMarks s (loseService x kind s) := by
  unfold loseService
  dsimp only
  split
  · exact (setSeq_listsAndMarks _ _ _).trans (placeAll_listsAndMarks _ _ _)
  · exact ((setSeq_listsAndMarks _ _ _).trans (mark_listsAndMarks _ _ _ _)).trans (placeAll_listsAndMarks _ _ _)
  · exact (setSeq_listsAndMarks _ _ _).trans (placeAll_listsAndMarks _ _ _)
  · exact (setSeq_listsAndMarks _ _ _).trans (placeAll_listsAndMarks _ _ _)
  · exact (setSeq_listsAndMarks _ _ _).trans (placeAll_listsAndMarks _ _ _)

theorem oweAll_listsAndMarks (rs : List Dispatch) (s : State) : ListsAndMarks s (oweAll rs s) :=
  listsAndMarks_foldl (fun s _ => mark_listsAndMarks _ _ _ s) rs s

/-- STOP's settlement changes only lists and marks. -/
theorem stopLists_listsAndMarks (s : State) : ListsAndMarks s (stopLists s) :=
  listsAndMarks_foldl (fun s c => (setSeq_listsAndMarks c _ s).trans (oweAll_listsAndMarks _ _)) _ s

/-- Departures change only lists and marks. -/
theorem takeDepartures_listsAndMarks (s : State) : ListsAndMarks s (takeDepartures s) := by
  refine listsAndMarks_foldl (fun s c => ?_) _ s
  split
  · exact (setSeq_listsAndMarks _ _ _).trans (oweAll_listsAndMarks _ _)
  · exact .refl s

end Sys2Proof.Machine
end

