-- ==== Sys2Proof/Laws/Shared.lean ====
section
/-! SUPPORT. What the shared operations do: insertion into a list, the placing of work that moves, the overdue report, marks,
flags and alarms. -/

namespace Sys2Proof.Machine

/-! ### Sequencers and lists -/

/-- Ahead is farther downstream. -/
theorem aheadOf_iff (s : State) (x y : Nat) (hx : (stationOf s x).isSome = true) (hy : (stationOf s y).isSome = true)
    :
   aheadOf s x y = true ↔ ∃ j k, stationOf s x = some j ∧ stationOf s y = some k ∧ k < j := by
  unfold aheadOf
  cases h1 : stationOf s x <;> cases h2 : stationOf s y <;> simp_all

/-- An insertion adds the record and nothing else. -/
theorem insertInOrder_perm (s : State) (r : Dispatch) (l : List Dispatch) : (insertInOrder s r l).Perm (r :: l) := by
  induction l with
  | nil => exact .refl _
  | cons x xs ih =>
    unfold insertInOrder
    split
    · exact .refl _
    · exact (ih.cons x).trans (List.Perm.swap r x xs)

/-- An insertion keeps the order of R61. -/
theorem insertInOrder_ordered (s : State) (r : Dispatch) (l : List Dispatch)
   (h1 : ∀ x ∈ r :: l, (stationOf s x.body).isSome = true)
   (h2 : l.Pairwise fun x y => ∃ j k, stationOf s x.body = some j ∧ stationOf s y.body = some k ∧ k < j)
   (h3 : ∀ x ∈ l, stationOf s x.body ≠ stationOf s r.body) :
   (insertInOrder s r l).Pairwise fun x y => ∃ j k, stationOf s x.body = some j ∧ stationOf s y.body = some k ∧ k < j := by
  induction l with
  | nil => simp [insertInOrder]
  | cons x xs ih =>
    unfold insertInOrder
    have hx := h1 x (by simp)
    have hr := h1 r (by simp)
    rw [List.pairwise_cons] at h2
    split
    · next ha =>
      rw [aheadOf_iff _ _ _ hr hx] at ha
      rw [List.pairwise_cons, List.pairwise_cons]
      refine ⟨?_, h2⟩
      intro y hy
      rcases List.mem_cons.1 hy with rfl | hy
      · exact ha
      · obtain ⟨j, k, a, b, c⟩ := ha
        obtain ⟨j', k', a', b', c'⟩ := h2.1 y hy
        rw [b] at a'; cases a'
        exact ⟨j, k', a, b', by omega⟩
    · next ha =>
      rw [List.pairwise_cons]
      refine ⟨fun y hy => ?_, ih (fun y hy => h1 y (by rcases List.mem_cons.1 hy with rfl | h <;> simp_all)) h2.2 (fun y hy => h3 y (by simp [hy]))⟩
      rcases List.mem_cons.1 ((insertInOrder_perm s r xs).mem_iff.1 hy) with rfl | hy
      · rw [aheadOf_iff _ _ _ hr hx] at ha
        obtain ⟨j, hj⟩ := Option.isSome_iff_exists.1 hx
        obtain ⟨k, hk⟩ := Option.isSome_iff_exists.1 hr
        refine ⟨j, k, hj, hk, ?_⟩
        have := h3 x (by simp)
        rw [hj, hk] at this
        have h' : ¬ j < k := fun hh => ha ⟨k, j, hk, hj, hh⟩
        have : j ≠ k := fun e => this (by rw [e])
        omega
      · exact h2.1 y hy

/-- A record joins one list alone. -/
theorem insertRecord_seqOf_of_ne (c r s d) (h : d ≠ c) : seqOf (insertRecord c r s) d = seqOf s d := by
  unfold insertRecord
  dsimp only
  split
  · exact seqOf_setSeq_of_ne h _ _
  · split <;> exact seqOf_setSeq_of_ne h _ _
  · exact seqOf_setSeq_of_ne h _ _

/-- A record is replaced in one list alone. -/
theorem replaceRecord_seqOf_of_ne (c r s d) (h : d ≠ c) : seqOf (replaceRecord c r s) d = seqOf s d := by
  unfold replaceRecord
  dsimp only
  split <;> exact seqOf_setSeq_of_ne h _ _

/-- Work that leaves a channel reaches its partner's sequencer alone. -/
theorem placeWork_seqOf (x r s d) (h : partner s x ≠ some d) : seqOf (placeWork x r s) d = seqOf s d := by
  unfold placeWork
  split
  · next b p h1 h2 =>
    have : d ≠ p := fun e => h (by rw [h2, e])
    split
    · rfl
    · split
      · rfl
      · split
        · rfl
        · split
          · exact replaceRecord_seqOf_of_ne _ _ _ _ this
          · exact insertRecord_seqOf_of_ne _ _ _ _ this
  · rfl

/-- Settlement leaves the pairs alone. -/
theorem listsAndMarks_partner {s t : State} (h : ListsAndMarks s t) (x) : partner t x = partner s x := by rw [h.eq]; rfl

/-- All the work that leaves a channel reaches its partner's sequencer alone. -/
theorem placeAll_seqOf (x rs s d) (h : partner s x ≠ some d) : seqOf (placeAll x rs s) d = seqOf s d := by
  induction rs generalizing s with
  | nil => rfl
  | cons r rs ih =>
    have : placeAll x (r :: rs) s = placeAll x rs (placeWork x r s) := rfl
    rw [this, ih, placeWork_seqOf _ _ _ _ h]
    rw [listsAndMarks_partner (placeWork_listsAndMarks x r s)]; exact h

/-! ### Overdue and guns -/

/-- A report of the overdue factor: the factor is stored, and the loss of service follows an availability that ends. -/
theorem reportOverdue_eq (c : ChanNo) (s : State) :
    reportOverdue c s = let o := (wearOf s c).overdue (chanRec s c).twoGuns
      let u := setChan c { chanRec s c with overdue := o } s
      if available s c = true ∧ o = true then loseService c .orderly u else u := by
  simp only [reportOverdue]
  by_cases h : (wearOf s c).overdue (chanRec s c).twoGuns = (chanRec s c).overdue
  · rw [if_pos h, if_neg]
    · rw [h]; exact (setChan_chanRec c s).symm
    · rintro ⟨h1, h2⟩
      rw [h] at h2
      simp [available] at h1
      simp [chanRec, h1.2] at h2
  · rw [if_neg h]
    simp only [changeFactor]
    have key : available s c = true → available (setChan c { chanRec s c with overdue := (wearOf s c).overdue (chanRec s c).twoGuns } s) c = !((wearOf s c).overdue (chanRec s c).twoGuns) := by
      intro ha
      simp [available] at ha
      have hp : present (setChan c { chanRec s c with overdue := (wearOf s c).overdue (chanRec s c).twoGuns } s) c = present s c := rfl
      simp only [available, hp]
      simp [setChan, chanRec, ha]
    by_cases ha : available s c = true
    · simp only [ha, key ha, Bool.not_not, Bool.true_and, true_and]
    · simp only [ha, Bool.false_and, Bool.false_eq_true, if_false, false_and]

/-- A gun's record stored with its flags, its channel's factor and the loss of service. -/
theorem setGunRec_settled (c : ChanNo) (g : Gun) (r : GunRec) (s : State) : setGunRec c g r s =
   let w := (wearOf s c).put g (r.evaluated ((chanRec s c).counts g))
   let o := w.overdue (chanRec s c).twoGuns
   let u := setChan c { chanRec s c with overdue := o } (setWear c w s)
   if available s c = true ∧ o = true then loseService c .orderly u else u := by
  simp only [setGunRec, reportOverdue_eq]
  have e1 : ∀ w, wearOf (setWear c w s) c = w := by intro w; simp
  have e2 : ∀ w, chanRec (setWear c w s) c = chanRec s c := by intro w; simp
  have e3 : ∀ w, available (setWear c w s) c = available s c := by intro w; rfl
  simp only [e1, e2, e3]

/-! ### Body records -/

/-- Masks within a mask add up within it. -/
theorem mask_or_sub (a b c : Mask) (h1 : a &&& c = a) (h2 : b &&& c = b) : (a ||| b) &&& c = a ||| b := by
  rw [BitVec.and_comm, BitVec.and_or_distrib_left, BitVec.and_comm, h1, BitVec.and_comm, h2]

/-- A wider mask still covers. -/
theorem mask_and_or (d r c : Mask) (h : d &&& r = d) : d &&& (r ||| c) = d := by
  rw [BitVec.and_or_distrib_left, h]
  ext i hi
  simp only [BitVec.getElem_or, BitVec.getElem_and]
  cases d[i] <;> simp

/-- A verdict on channels that do not hold the other one keeps the two apart and within the resolved mask (R12). -/
theorem mask_add_verdict (d o r c : Mask) (h1 : d &&& o = 0#32) (h2 : d &&& r = d) (h3 : o &&& r = o) :
    (d ||| c &&& ~~~o) &&& o = 0#32 ∧ (d ||| c &&& ~~~o) &&& (r ||| c &&& ~~~o) = (d ||| c &&& ~~~o) ∧
      o &&& (r ||| c &&& ~~~o) = o := by
  have e1 := fun i (hi : i < 32) => congrArg (fun m : Mask => m.getLsbD i) h1
  have e2 := fun i (hi : i < 32) => congrArg (fun m : Mask => m.getLsbD i) h2
  simp only [BitVec.getLsbD_and, BitVec.getLsbD_zero] at e1 e2
  refine ⟨?_, ?_, mask_and_or _ _ _ h3⟩
  · apply BitVec.eq_of_getLsbD_eq
    intro i hi
    have := e1 i hi
    simp only [BitVec.getLsbD_and, BitVec.getLsbD_or, BitVec.getLsbD_not, BitVec.getLsbD_zero, hi, decide_true,
      Bool.true_and]
    revert this
    cases d.getLsbD i <;> cases o.getLsbD i <;> cases c.getLsbD i <;> simp
  · apply BitVec.eq_of_getLsbD_eq
    intro i hi
    have := e2 i hi
    simp only [BitVec.getLsbD_and, BitVec.getLsbD_or, BitVec.getLsbD_not, hi, decide_true, Bool.true_and]
    revert this
    cases d.getLsbD i <;> cases o.getLsbD i <;> cases c.getLsbD i <;> cases r.getLsbD i <;> simp

/-- A mark keeps a body record well kept. -/
theorem mark_bodyOk {u : Bool} {b : Body} (m : Mark) (chs : Mask) (h : BodyOk u b) : BodyOk u (b.mark m chs) := by
  obtain ⟨h1, h2, h3, h4⟩ := h
  cases m
  · refine ⟨h1, ?_, ?_, h4⟩
    · exact mask_and_or _ _ _ h2
    · exact mask_and_or _ _ _ h3
  · exact ⟨(mask_add_verdict b.done b.owed b.resolved chs h1 h2 h3).1, (mask_add_verdict b.done b.owed b.resolved chs h1 h2 h3).2.1, (mask_add_verdict b.done b.owed b.resolved chs h1 h2 h3).2.2, h4⟩
  · have := mask_add_verdict b.owed b.done b.resolved chs (by rw [BitVec.and_comm]; exact h1) h3 h2
    exact ⟨by rw [BitVec.and_comm]; exact this.1, this.2.2, this.2.1, h4⟩

/-- A new body record is well kept. -/
theorem boundBody_bodyOk (bank : BankStore) (id : Nat) (tag : Half) (st : BitVec 6) (o : BitVec 4) (d w : Mask) (h :
    d &&& w = 0) :
    BodyOk false (boundBody bank id tag st o d w) := by
  refine ⟨h, ?_, ?_, rfl, ?_, rfl⟩
  · simp only [boundBody]; apply BitVec.eq_of_getLsbD_eq; intro i hi; simp; intro h; simp [h]
  · simp only [boundBody]; apply BitVec.eq_of_getLsbD_eq; intro i hi; simp; intro h; simp [h]
  · simp only [boundBody]; intro h; simp at h; simp [h]

/-- The bodies of RETRACK APPLY are well kept. -/
theorem retrackBodies_bodyOk (bank : BankStore) (id : Nat) (l : List (Option Retrack)) (h : ∀ r, some r ∈ l → r.done
    &&& r.owed = 0) :
    ∀ b, some b ∈ retrackBodies bank id l → BodyOk false b := by
  induction l generalizing id with
  | nil => intro b hb; cases hb
  | cons p ps ih =>
    intro b hb
    simp only [retrackBodies, List.mem_cons] at hb
    rcases hb with hb | hb
    · cases hb
      cases p with
      | none => exact boundBody_bodyOk _ _ _ _ _ _ _ (by decide)
      | some r => exact boundBody_bodyOk _ _ _ _ _ _ _ (h r (by simp))
    · exact ih _ (fun r hr => h r (by simp [hr])) b hb

/-- The bodies of RETRACK APPLY are bound to the live bank. -/
theorem retrackBodies_bank (bank : BankStore) (id : Nat) (l : List (Option Retrack)) :
    ∀ b, some b ∈ retrackBodies bank id l → b.bank = bank.live := by
  induction l generalizing id with
  | nil => intro b hb; cases hb
  | cons p ps ih =>
    intro b hb
    simp only [retrackBodies, List.mem_cons] at hb
    rcases hb with hb | hb
    · cases hb
      cases p <;> rfl
    · exact ih _ b hb

/-! ### Flags and alarms -/

/-- Evaluated flags are those of the counts. -/
theorem evaluated_gunOk (g : GunRec) (k : Bool) : GunOk k (g.evaluated k) := by
  simp [GunOk, GunRec.evaluated, GunRec.reachesDue, GunRec.reachesOverdue]

/-- An alarm stays when another is set. -/
theorem alarmed_setAlarm {s : State} (a b : Alarm) (h : alarmed s b = true) : alarmed (setAlarm a s) b = true := by
  simp only [alarmed, setAlarm, BitVec.getLsbD_or] at h ⊢; simp [h]

/-- An alarm is set when it is set. -/
theorem alarmed_setAlarm_self (s : State) (a : Alarm) : alarmed (setAlarm a s) a = true := by
  simp only [alarmed, setAlarm, BitVec.getLsbD_or]; cases a <;> simp [Alarm.mask, Alarm.bit]

/-- CLEAR ALARMS leaves a bit whose condition holds. -/
theorem cleared_kept (mask : Byte) (s : State) (a : Alarm) (hk : alarmKept s a = true) (h : alarmed s a = true) :
   alarmed { s with report := { s.report with alarms := clearedAlarms mask s } } a = true := by
  simp only [alarmed, clearedAlarms] at h ⊢
  have : ∀ (l : List Alarm) (b : Byte), b.getLsbD a.bit = true → (l.foldl (fun b a => if (mask.getLsbD a.bit && !alarmKept s a) = true then b &&& ~~~a.mask else b) b).getLsbD a.bit = true := by
    intro l
    induction l with
    | nil => exact fun _ => id
    | cons x l ih =>
      intro b hb
      refine ih _ ?_
      dsimp only
      split
      · next e =>
        have : x ≠ a := by rintro rfl; simp [hk] at e
        simp only [BitVec.getLsbD_and, hb, Bool.true_and]
        revert this; revert x; cases a <;> intro x <;> cases x <;> simp [Alarm.mask, Alarm.bit]
      · exact hb
  exact this _ _ h

end Sys2Proof.Machine
end

