-- ==== Sys2Proof/Laws/Orders.lean ====
section
/-! SUPPORT. R71: the arrival of a body and a loss of service of one channel of a pair, taken in either order, leave the
same state outside the corners of log 35; with what a run of marks and a list of one record do. -/

namespace Sys2Proof.Machine

/-! ### Marks on one body of the queue -/

/-- The masks of the body record that a run of marks leaves. -/
def Body.marks (ms : List (Mark × Mask)) (b : Body) : Body := ms.foldl (fun b m => b.mark m.1 m.2) b

/-- A run of marks on the body record named `id`. -/
def markAll (ms : List (Mark × Mask)) (id : Nat) (s : State) : State := ms.foldl (fun s m => mark m.1 m.2 id s) s

/-- A run of marks keeps the name. -/
@[simp] theorem Body.marks_id (ms : List (Mark × Mask)) (b : Body) : (b.marks ms).id = b.id := by
  induction ms generalizing b with
  | nil => rfl
  | cons m ms ih => exact (ih _).trans (Body.mark_id _ _ _)

/-- A run of marks changes one body record of the queue. -/
theorem markAll_eq (ms : List (Mark × Mask)) (id : Nat) (s : State) :
    markAll ms id s = { s with track := { s.track with
      queue := s.track.queue.map fun p => p.map fun b => if b.id = id then b.marks ms else b } } := by
  induction ms generalizing s with
  | nil =>
    have : (fun p : Option Body => p.map fun b => if b.id = id then b.marks [] else b) = fun p => p := by
      funext p; cases p <;> simp [Body.marks]
    simp [markAll, this]
  | cons m ms ih =>
    have h : markAll (m :: ms) id s = markAll ms id (mark m.1 m.2 id s) := rfl
    rw [h, ih]
    simp only [mark, List.map_map]
    congr 3
    funext p
    cases p with
    | none => rfl
    | some b =>
      simp only [Function.comp, Option.map_some]
      by_cases e : b.id = id <;> simp [e, Body.marks]

/-- Two runs of marks that agree on the one body of that name leave the same state. -/
theorem markAll_congr {ms ns : List (Mark × Mask)} {b : Body} {s : State}
    (hu : ∀ b', some b' ∈ s.track.queue → b'.id = b.id → b' = b) (h : b.marks ms = b.marks ns) :
    markAll ms b.id s = markAll ns b.id s := by
  rw [markAll_eq, markAll_eq]
  have key : (s.track.queue.map fun p => p.map fun b' => if b'.id = b.id then b'.marks ms else b') =
      s.track.queue.map fun p => p.map fun b' => if b'.id = b.id then b'.marks ns else b' := by
    refine List.map_congr_left fun p hp => ?_
    cases p with
    | none => rfl
    | some b' =>
      simp only [Option.map_some]
      by_cases e : b'.id = b.id
      · rw [hu b' hp e, if_pos rfl, if_pos rfl, h]
      · rw [if_neg e, if_neg e]
  rw [key]

/-- A mark on the body of a name is a mark on the body read by that name. -/
@[simp] theorem bodyOf_mark (m : Mark) (chs : Mask) (id : Nat) (s : State) :
    bodyOf (mark m chs id s) id = (bodyOf s id).map (Body.mark m chs) := by
  simp only [bodyOf, mark, List.find?_map]
  have e : (isBody id ∘ fun p => p.map fun b' => if b'.id = id then b'.mark m chs else b') = isBody id := by
    funext p
    cases p with
    | none => rfl
    | some b' =>
      simp only [Function.comp, Option.map_some, isBody]
      split <;> simp
  rw [e]
  cases hf : s.track.queue.find? (isBody id) with
  | none => rfl
  | some p =>
    have := List.find?_some hf
    cases p with
    | none => rfl
    | some b' => simp only [isBody, beq_iff_eq] at this; simp [this]

/-- A mark changes no program: the own record is the same. -/
@[simp] theorem ownRecord_bodyMark (s : State) (m : Mark) (chs : Mask) (b : Body) (c : ChanNo) :
    ownRecord s (b.mark m chs) c = ownRecord s b c := by cases m <;> rfl

/-- A mark changes no program: the COVER record is the same. -/
@[simp] theorem coverRecord_bodyMark (s : State) (m : Mark) (chs : Mask) (b : Body) (c x : ChanNo) :
    coverRecord s (b.mark m chs) c x = coverRecord s b c x := by cases m <;> rfl

/-! ### Lists that hold one record -/

/-- The state with the pending list of `c` replaced. -/
def withList (c : ChanNo) (l : List Dispatch) (s : State) : State := setSeq c { seqOf s c with list := l } s

/-- The sequencer has no job and no record. -/
def idleSeq (s : State) (c : ChanNo) : Prop := (seqOf s c).job = none ∧ (seqOf s c).list = []

@[simp] theorem withList_mark (c : ChanNo) (l : List Dispatch) (m : Mark) (chs : Mask) (id : Nat) (s : State) :
    withList c l (mark m chs id s) = mark m chs id (withList c l s) := rfl

@[simp] theorem setChan_mark (c : ChanNo) (r : ChanRec) (m : Mark) (chs : Mask) (id : Nat) (s : State) :
    setChan c r (mark m chs id s) = mark m chs id (setChan c r s) := rfl

@[simp] theorem setChan_withList (c d : ChanNo) (r : ChanRec) (l : List Dispatch) (s : State) :
    setChan c r (withList d l s) = withList d l (setChan c r s) := rfl

@[simp] theorem seqOf_withList_self (c : ChanNo) (l : List Dispatch) (s : State) :
    seqOf (withList c l s) c = { seqOf s c with list := l } := seqOf_setSeq_self _ _ _

/-- One list alone is replaced. -/
theorem seqOf_withList_of_ne {c d : ChanNo} (h : d ≠ c) (l : List Dispatch) (s : State) :
    seqOf (withList c l s) d = seqOf s d := seqOf_setSeq_of_ne h _ _

@[simp] theorem withList_withList (c : ChanNo) (l l' : List Dispatch) (s : State) :
    withList c l (withList c l' s) = withList c l s := by
  simp [withList, setSeq, seqOf]

/-- Lists of two channels are replaced in either order. -/
theorem withList_comm {c d : ChanNo} (h : c ≠ d) (l l' : List Dispatch) (s : State) :
    withList c l (withList d l' s) = withList d l' (withList c l s) := by
  have hv : c.val ≠ d.val := fun e => h (Fin.ext e)
  simp only [withList, setSeq, seqOf]
  rw [Vector.getElem_set_ne _ _ hv.symm, Vector.getElem_set_ne _ _ hv, Vector.set_comm _ _ hv]

/-- A sequencer that holds nothing keeps its empty list. -/
theorem withList_nil {s : State} {c : ChanNo} (h : idleSeq s c) : withList c [] s = s := by
  have : ({ seqOf s c with list := [] } : Seq) = seqOf s c := by rw [← h.2]
  rw [withList, this]
  simp [setSeq, seqOf]

/-- A record joins a list of none. -/
theorem insertRecord_idle {s : State} {c : ChanNo} (h : idleSeq s c) (r : Dispatch) :
    insertRecord c r s = withList c [r] s := by
  simp [insertRecord, h.1, h.2, insertInOrder, withList]

/-- A record, if there is one, joins a list of none. -/
theorem giveRecord_idle {s : State} {c : ChanNo} (h : idleSeq s c) (o : Option Dispatch) :
    giveRecord c o s = withList c o.toList s := by
  cases o with
  | none => exact (withList_nil h).symm
  | some r => exact insertRecord_idle h r

/-- The one record of a list without a job is replaced. -/
theorem replaceRecord_single {s : State} {c : ChanNo} {r r' : Dispatch} (hj : (seqOf s c).job = none)
    (hl : (seqOf s c).list = [r']) (hb : r'.body = r.body) : replaceRecord c r s = withList c [r] s := by
  simp [replaceRecord, hj, hl, hb, withList, Seq.headJob]

/-- R72, R73: a loss of service of a channel without a job places the work of every record. -/
theorem loseService_noJob {s : State} {x : ChanNo} (h : (seqOf s x).job = none) (kind : Loss) :
    loseService x kind s = placeAll x (seqOf s x).list (withList x [] s) := by
  simp only [loseService, h, withList]

/-! ### The two orders -/

/-- A channel that is not resolved is not done. -/
theorem not_done_of_not_resolved {b : Body} {c : ChanNo} (hd : b.done &&& b.resolved = b.done)
    (h : inMask b.resolved c = false) : inMask b.done c = false := by
  have e := congrArg (fun m : Mask => m.getLsbD c.val) hd
  simp only [inMask, BitVec.getLsbD_and] at h e ⊢
  rw [← e, h, Bool.and_false]

/-- A mask of one channel that is not done loses nothing to the done mask. -/
theorem chanBit_and_not_done {b : Body} {c : ChanNo} (h : inMask b.done c = false) :
    chanBit c &&& ~~~b.done = chanBit c := by
  apply BitVec.eq_of_getLsbD_eq
  intro i hi
  simp only [BitVec.getLsbD_and, BitVec.getLsbD_not, hi, decide_true, Bool.true_and]
  by_cases e : i = c.val
  · subst e; simp only [inMask] at h; rw [h]; simp
  · have : (chanBit c).getLsbD i = false := by
      simp [chanBit]; omega
    simp [this]

/-! Fields that settlement reads, under the changes it makes. -/

@[simp] theorem ownRecord_mark (m : Mark) (chs : Mask) (id : Nat) (s : State) (b : Body) (c : ChanNo) :
    ownRecord (mark m chs id s) b c = ownRecord s b c := rfl
@[simp] theorem ownRecord_withList (d : ChanNo) (l : List Dispatch) (s : State) (b : Body) (c : ChanNo) :
    ownRecord (withList d l s) b c = ownRecord s b c := rfl
@[simp] theorem ownRecord_setChan (d : ChanNo) (r : ChanRec) (s : State) (b : Body) (c : ChanNo) :
    ownRecord (setChan d r s) b c = ownRecord s b c := rfl
@[simp] theorem coverRecord_mark (m : Mark) (chs : Mask) (id : Nat) (s : State) (b : Body) (c x : ChanNo) :
    coverRecord (mark m chs id s) b c x = coverRecord s b c x := rfl
@[simp] theorem coverRecord_withList (d : ChanNo) (l : List Dispatch) (s : State) (b : Body) (c x : ChanNo) :
    coverRecord (withList d l s) b c x = coverRecord s b c x := rfl
@[simp] theorem coverRecord_setChan (d : ChanNo) (r : ChanRec) (s : State) (b : Body) (c x : ChanNo) :
    coverRecord (setChan d r s) b c x = coverRecord s b c x := rfl
@[simp] theorem available_mark (m : Mark) (chs : Mask) (id : Nat) (s : State) (c : ChanNo) :
    available (mark m chs id s) c = available s c := rfl
@[simp] theorem available_withList (d : ChanNo) (l : List Dispatch) (s : State) (c : ChanNo) :
    available (withList d l s) c = available s c := rfl
@[simp] theorem present_mark (m : Mark) (chs : Mask) (id : Nat) (s : State) (c : ChanNo) :
    present (mark m chs id s) c = present s c := rfl
@[simp] theorem present_withList (d : ChanNo) (l : List Dispatch) (s : State) (c : ChanNo) :
    present (withList d l s) c = present s c := rfl
@[simp] theorem present_setChan (d : ChanNo) (r : ChanRec) (s : State) (c : ChanNo) :
    present (setChan d r s) c = present s c := rfl
@[simp] theorem partner_mark (m : Mark) (chs : Mask) (id : Nat) (s : State) (c : ChanNo) :
    partner (mark m chs id s) c = partner s c := rfl
@[simp] theorem partner_withList (d : ChanNo) (l : List Dispatch) (s : State) (c : ChanNo) :
    partner (withList d l s) c = partner s c := rfl
@[simp] theorem partner_setChan (d : ChanNo) (r : ChanRec) (s : State) (c : ChanNo) :
    partner (setChan d r s) c = partner s c := rfl
@[simp] theorem bodyOf_withList (d : ChanNo) (l : List Dispatch) (s : State) (id : Nat) :
    bodyOf (withList d l s) id = bodyOf s id := rfl
@[simp] theorem bodyOf_setChan (d : ChanNo) (r : ChanRec) (s : State) (id : Nat) :
    bodyOf (setChan d r s) id = bodyOf s id := rfl

/-- A channel's record decides its own availability alone. -/
theorem available_setChan_of_ne {c d : ChanNo} (h : d ≠ c) (r : ChanRec) (s : State) :
    available (setChan c r s) d = available s d := by
  have hv : c.val ≠ d.val := fun e => h (Fin.ext e.symm)
  simp [available, setChan, hv]; rfl

/-- A body at a station whose name no other record has is the body of that name. -/
theorem bodyOf_of_bodyAt {s : State} {b : Body} {k : Nat} (hk : bodyAt s k = some b)
    (hu : ∀ b', some b' ∈ s.track.queue → b'.id = b.id → b' = b) : bodyOf s b.id = some b := by
  have hm : some b ∈ s.track.queue := by
    unfold bodyAt at hk
    rw [List.getD_eq_getElem?_getD] at hk
    cases h : s.track.queue[k]? with
    | none => simp [h] at hk
    | some p => simp only [h, Option.getD_some] at hk; subst hk; exact List.mem_of_getElem? h
  unfold bodyOf
  cases hf : s.track.queue.find? (isBody b.id) with
  | none => simpa [isBody] using List.find?_eq_none.1 hf _ hm
  | some p =>
    have h1 := List.mem_of_find?_eq_some hf
    have h2 := List.find?_some hf
    cases p with
    | none => simp [isBody] at h2
    | some b' => simp [isBody] at h2; rw [hu b' h1 h2]; rfl

/-- An own record is for the body and accounts for its channel. -/
theorem ownRecord_body {s : State} {b : Body} {c : ChanNo} {w : Dispatch} (h : ownRecord s b c = some w) :
    w.body = b.id ∧ w.accounts = chanBit c := by
  unfold ownRecord at h
  dsimp only at h
  split at h
  · cases h
  · cases h; exact ⟨rfl, rfl⟩

/-- A COVER record is for the body and accounts for both channels. -/
theorem coverRecord_body {s : State} {b : Body} {c x : ChanNo} {w : Dispatch} (h : coverRecord s b c x = some w) :
    w.body = b.id ∧ w.accounts = chanBit c ||| chanBit x := by
  unfold coverRecord at h
  dsimp only at h
  split at h
  · cases h
  · cases h; exact ⟨rfl, rfl⟩

/-- There is none or there is one. -/
theorem none_or_some {α : Type} (o : Option α) : o = none ∨ ∃ a, o = some a := by cases o <;> simp

/-- A loss of service of a channel without a job and with at most one record. -/
theorem loseService_one {s : State} {x : ChanNo} {o : Option Dispatch} (hj : (seqOf s x).job = none)
    (hl : (seqOf s x).list = o.toList) (kind : Loss) :
    loseService x kind s = o.elim (withList x [] s) fun w => placeWork x w (withList x [] s) := by
  rw [loseService_noJob hj, hl]
  cases o <;> rfl

/-- R76, cases 1 to 3: work that is owed. -/
theorem placeWork_owed {s : State} {x p : ChanNo} {w : Dispatch} {b : Body} (hb : bodyOf s w.body = some b)
    (hp : partner s x = some p)
    (h : available s p = true → (coverRecord s b p x).isSome = true → inMask b.done p = true) :
    placeWork x w s = mark .owed w.accounts w.body s := by
  simp only [placeWork, hb, hp]
  rcases none_or_some (coverRecord s b p x) with hc | ⟨cv, hc⟩ <;> cases ha : available s p <;> simp [hc]
  simp [hc, ha] at h
  simp [h]

/-- R76, cases 4 and 5: work that becomes a COVER record of the partner. -/
theorem placeWork_cover {s : State} {x p : ChanNo} {w cv : Dispatch} {b : Body} (hb : bodyOf s w.body = some b)
    (hp : partner s x = some p) (ha : available s p = true) (hc : coverRecord s b p x = some cv)
    (hr : (seqOf s p).job = none) (hd : inMask b.done p = false) :
    placeWork x w s = if (seqOf s p).holds w.body = true then replaceRecord p cv s else insertRecord p cv s := by
  have hr : runningOn s p w.body = false := by simp [runningOn, Seq.headJob, hr]
  simp [placeWork, hb, hp, ha, hc, hr, hd]

/-- Marks on channels that are not done, joined. -/
theorem marks_join {b : Body} {X P : Mask} (hX : X &&& ~~~b.done = X) (hP : P &&& ~~~b.done = P) :
    b.marks [(.resolved, X), (.owed, X)] = b.marks [(.owed, X)] ∧
    b.marks [(.resolved, X ||| P)] = b.marks [(.resolved, P), (.resolved, X)] ∧
    b.marks [(.resolved, X ||| P), (.owed, X)] = b.marks [(.resolved, P), (.owed, X)] ∧
    b.marks [(.resolved, X ||| P), (.owed, X ||| P)] = b.marks [(.owed, X), (.owed, P)] ∧
    b.marks [(.resolved, X), (.owed, P), (.owed, X)] = b.marks [(.owed, X), (.owed, P)] ∧
    b.marks [(.resolved, X), (.resolved, P), (.owed, X)] = b.marks [(.owed, X), (.resolved, P)] := by
  have hXP : (X ||| P) &&& ~~~b.done = X ||| P := by
    rw [BitVec.and_comm, BitVec.and_or_distrib_left, BitVec.and_comm, hX, BitVec.and_comm, hP]
  have key : ∀ {x y : Mask}, (∀ i (hi : i < 32), x[i] = y[i]) → x = y :=
    fun h => BitVec.eq_of_getElem_eq (by simpa using h)
  simp only [Body.marks, Body.mark, List.foldl_cons, List.foldl_nil, hX, hP, hXP, Body.mk.injEq, true_and, and_true]
  refine ⟨?_, ?_, ?_, ⟨?_, ?_⟩, ⟨?_, ?_⟩, ?_⟩ <;>
  · refine key fun i hi => ?_
    simp only [BitVec.getElem_or]
    cases b.resolved[i] <;> cases b.owed[i] <;> cases X[i] <;> cases P[i] <;> rfl

/-- R68: the mark of a channel that receives nothing, the same in every state that agrees on its presence and work. -/
theorem settleIdle_marks (s : State) (b : Body) (p : ChanNo) :
    ∃ f : List (Mark × Mask), (f = [] ∨ f = [(.owed, chanBit p)] ∨ f = [(.resolved, chanBit p)]) ∧
      ∀ u, present u p = present s p → ownRecord u b p = ownRecord s b p → settleIdle p b u = markAll f b.id u := by
  cases hpp : present s p with
  | false => exact ⟨[], .inl rfl, fun u e _ => by simp [settleIdle, e, markAll]⟩
  | true =>
    rcases none_or_some (ownRecord s b p) with hq | ⟨q, hq⟩
    · exact ⟨_, .inr (.inr rfl), fun u e e' => by simp [settleIdle, e, e', hq, markAll]⟩
    · exact ⟨_, .inr (.inl rfl), fun u e e' => by simp [settleIdle, e, e', hq, markAll]⟩

/-- R71: the arrival of a body at the pre-select point of a pair and a loss of service of its channel `x` (its record
becomes `r`), taken in either order, leave the same state, for a pair with no job and no other record. The premises
`covered` and `image` shut out the corners of log 35, in which R68, R69 and R76 give the two orders different
outcomes: the first the COVER record of an absent or unavailable partner's work, the second the partner resolved by an
image. -/
theorem arrival_loss_comm {s : State} {b : Body} {k : Nat} {x p : ChanNo} {r : ChanRec}
    (hk : bodyAt s k = some b) (hu : ∀ b', some b' ∈ s.track.queue → b'.id = b.id → b' = b)
    (hd : b.done &&& b.resolved = b.done) (hpx : partner s x = some p) (hxp : p ≠ x)
    (hx : available s x = true) (hr : available (setChan x r s) x = false) (ix : idleSeq s x) (ip : idleSeq s p)
    (covered : available s p = false → inMask b.resolved p = false → (ownRecord s b p).isSome = true →
      (coverRecord s b x p).isSome = true → present s p = true ∧ (ownRecord s b x).isSome = true)
    (image : available s p = true → inMask b.resolved p = true → inMask b.done p = false →
      (coverRecord s b p x).isSome = true → ownRecord s b x = none) (kind : Loss) :
    loseService x kind (setChan x r (settle x k s)) = settle x k (loseService x kind (setChan x r s)) := by
  have hb := bodyOf_of_bodyAt hk hu
  have px : present s x = true := by
    simp only [available, Bool.and_eq_true] at hx; exact hx.1.1.1
  have ix' : idleSeq (setChan x r s) x := ix
  have ip' : idleSeq (setChan x r s) p := ip
  have loss0 : loseService x kind (setChan x r s) = setChan x r s := by
    rw [loseService_noJob ix'.1, ix'.2]; exact withList_nil ix'
  have ap := available_setChan_of_ne hxp r s
  have hk' : bodyAt (setChan x r s) k = some b := hk
  have marks : ∀ (ms ns : List (Mark × Mask)) (p : ChanNo) (l : List Dispatch), b.marks ms = b.marks ns →
      markAll ms b.id (withList p l (setChan x r s)) = markAll ns b.id (withList p l (setChan x r s)) :=
    fun ms ns p l h => markAll_congr (s := withList p l (setChan x r s)) hu h
  have marks' : ∀ (ms ns : List (Mark × Mask)), b.marks ms = b.marks ns →
      markAll ms b.id (setChan x r s) = markAll ns b.id (setChan x r s) :=
    fun ms ns h => markAll_congr (s := setChan x r s) hu h
  rw [loss0]
  simp only [settle, hk, hk', partner_setChan, hpx]
  split
  · exact loss0
  next hn =>
  have rx : inMask b.resolved x = false := by
    simp only [Bool.or_eq_true, not_or, Bool.not_eq_true] at hn; exact hn.2
  have dx := chanBit_and_not_done (not_done_of_not_resolved hd rx)
  split
  · next rp =>
    simp only [settleAlone, hx, hr, if_true, ownRecord_setChan, giveRecord_idle ix, Bool.false_eq_true, if_false,
      setChan_mark, setChan_withList]
    rw [loseService_one (o := ownRecord s b x) (by simpa using ix.1) (by simp)]
    rcases none_or_some (ownRecord s b x) with ho | ⟨w, ho⟩
    · simp [ho, withList_nil ix']
    · obtain ⟨wb, wa⟩ := ownRecord_body ho
      have fin : mark .owed (chanBit x) b.id (mark .resolved (chanBit x) b.id (setChan x r s)) =
          mark .owed (chanBit x) b.id (setChan x r s) := by
        exact marks' [(.resolved, chanBit x), (.owed, chanBit x)] [(.owed, chanBit x)] (marks_join dx dx).1
      simp only [ho, withList_mark, withList_withList, Option.toList, withList_nil ix', Option.isSome_some, if_true]
      have h : available s p = true → (coverRecord s b p x).isSome = true → inMask b.done p = true := by
        intro ha hc
        by_contra hn
        have := image ha rp (by simpa using hn) hc
        rw [this] at ho; cases ho
      simp only [Option.elim]
      rw [placeWork_owed (b := b.mark .resolved (chanBit x)) (by simp [wb, hb]) (by simpa using hpx) (by
          have hd' : (b.mark .resolved (chanBit x)).done = b.done := rfl
          simpa [ap, hd'] using h)]
      rw [wb, wa, fin]
  next rp' =>
  have rp : inMask b.resolved p = false := by simpa using rp'
  have dpb := not_done_of_not_resolved hd rp
  have dp := chanBit_and_not_done dpb
  have dp' : ∀ m, inMask (b.mark .resolved m).done p = false := fun _ => dpb
  have nx := hxp.symm
  by_cases hap : available s p = true
  · simp only [settlePair, hx, hr, ap, hap]
    have ip2 : ∀ l, idleSeq (withList x l s) p := fun l => by
      unfold idleSeq; rw [seqOf_withList_of_ne hxp]; exact ip
    simp only [giveRecord_idle ix, giveRecord_idle (ip2 _)]
    have wx : ∀ l l', withList x [] (withList p l (withList x l' (setChan x r s))) = withList p l (setChan x r s) := by
      intro l l'
      rw [withList_comm nx, withList_withList, withList_nil ix']
    rw [loseService_one (o := ownRecord s b x) (by simpa [seqOf_withList_of_ne nx] using ix.1)
      (by simp [seqOf_withList_of_ne nx])]
    rcases none_or_some (ownRecord s b x) with ho | ⟨w, ho⟩
    · have e := marks [(.resolved, chanBit x ||| chanBit p)] [(.resolved, chanBit p), (.resolved, chanBit x)] p
        (ownRecord s b p).toList (marks_join dx dp).2.1
      simp only [markAll, List.foldl_cons, List.foldl_nil] at e
      simp [settleCover, settleIdle, ho, px, giveRecord_idle ip', wx, e]
    · obtain ⟨wb, wa⟩ := ownRecord_body ho
      simp only [ho]
      simp only [setChan_mark, setChan_withList, withList_mark, wx]
      simp only [Option.elim]
      have hb2 : bodyOf (mark .resolved (chanBit x ||| chanBit p) b.id
          (withList p (ownRecord s b p).toList (setChan x r s))) w.body = some (b.mark .resolved (chanBit x ||| chanBit p)) := by simp [wb, hb]
      rcases none_or_some (coverRecord s b p x) with hc | ⟨cv, hc⟩
      · rw [placeWork_owed hb2 (by simpa using hpx) (by simp [hc])]
        have e := marks [(.resolved, chanBit x ||| chanBit p), (.owed, chanBit x)]
          [(.resolved, chanBit p), (.owed, chanBit x)] p
          (ownRecord s b p).toList (marks_join dx dp).2.2.1
        simp only [markAll, List.foldl_cons, List.foldl_nil] at e
        simp [settleCover, settleIdle, ho, hc, px, giveRecord_idle ip', wb, wa, e]
      · rw [placeWork_cover hb2 (by simpa using hpx) (by simpa [ap] using hap) (by simpa using hc)
          (by simpa using ip.1) (dp' _)]
        obtain ⟨cb, ca⟩ := coverRecord_body hc
        simp only [settleCover, ownRecord_setChan, coverRecord_setChan, ho, hc, insertRecord_idle ip']
        rcases none_or_some (ownRecord s b p) with hq | ⟨q, hq⟩
        · have hh : (seqOf (mark .resolved (chanBit x ||| chanBit p) b.id
              (withList p (none : Option Dispatch).toList (setChan x r s))) p).holds w.body = false := by
            simp [Seq.holds]
          have hi : idleSeq (mark .resolved (chanBit x ||| chanBit p) b.id
              (withList p (none : Option Dispatch).toList (setChan x r s))) p := by
            simp [idleSeq, ip.1]
          rw [hq, hh, if_neg Bool.false_ne_true, insertRecord_idle hi]
          simp [BitVec.or_comm (chanBit x)]
        · obtain ⟨qb, qa⟩ := ownRecord_body hq
          have hh : (seqOf (mark .resolved (chanBit x ||| chanBit p) b.id
              (withList p (some q).toList (setChan x r s))) p).holds w.body = true := by
            simp [Seq.holds, qb, wb]
          rw [hq, hh, if_pos rfl, replaceRecord_single (r' := q) (by simpa using ip.1) (by simp) (by rw [qb, cb])]
          simp [BitVec.or_comm (chanBit x)]
  · simp only [settlePair, hx, hr, ap, hap]
    have wx : ∀ l', withList x [] (withList x l' (setChan x r s)) = setChan x r s := by
      intro l'
      rw [withList_withList, withList_nil ix']
    by_cases hcov : (ownRecord s b p).isSome = true ∧ (coverRecord s b x p).isSome = true
    · obtain ⟨pp, hox⟩ := covered (by simpa using hap) rp hcov.1 hcov.2
      obtain ⟨q, hq⟩ := Option.isSome_iff_exists.1 hcov.1
      obtain ⟨cv, hc⟩ := Option.isSome_iff_exists.1 hcov.2
      obtain ⟨w, ho⟩ := Option.isSome_iff_exists.1 hox
      obtain ⟨cb, ca⟩ := coverRecord_body hc
      simp only [settleCover, hq, hc, insertRecord_idle ix]
      rw [loseService_one (o := some cv) (by simpa using ix.1) (by simp)]
      simp only [Option.elim, setChan_mark, setChan_withList, withList_mark, wx]
      rw [placeWork_owed (b := b.mark .resolved (chanBit x ||| chanBit p)) (by simp [cb, hb]) (by simpa using hpx)
        (by simp [ap, hap])]
      have e := marks' [(.resolved, chanBit x ||| chanBit p), (.owed, chanBit x ||| chanBit p)]
        [(.owed, chanBit x), (.owed, chanBit p)] (marks_join dx dp).2.2.2.1
      simp only [markAll, List.foldl_cons, List.foldl_nil] at e
      simp [settleIdle, px, pp, ho, hq, cb, ca, e]
    · have h : settleCover x p b s =
          settleIdle p b (mark .resolved (chanBit x) b.id (giveRecord x (ownRecord s b x) s)) := by
        unfold settleCover
        rcases none_or_some (ownRecord s b p) with hq | ⟨q, hq⟩ <;>
          rcases none_or_some (coverRecord s b x p) with hc | ⟨cv, hc⟩ <;> simp [hq, hc] at hcov ⊢
      simp only [h, giveRecord_idle ix]
      obtain ⟨f, hf, hi⟩ := settleIdle_marks s b p
      have ji := marks_join dx dp
      rw [hi _ (by simp) (by simp), hi _ (by
        simp only [settleIdle]; split <;> [split <;> rfl; rfl]) (by simp only [settleIdle]; split <;> [split <;> rfl; rfl])]
      rcases none_or_some (ownRecord s b x) with ho | ⟨w, ho⟩
      · have e : settleIdle x b (setChan x r s) = mark .resolved (chanBit x) b.id (setChan x r s) := by
          simp [settleIdle, px, ho]
        rw [e]
        rcases hf with rfl | rfl | rfl <;>
        · simp only [markAll, List.foldl_cons, List.foldl_nil, ho]
          rw [loseService_one (o := none) (by simpa using ix.1) (by simp)]
          simp [wx]
      · obtain ⟨wb, wa⟩ := ownRecord_body ho
        have e : settleIdle x b (setChan x r s) = mark .owed (chanBit x) b.id (setChan x r s) := by
          simp [settleIdle, px, ho]
        rw [e]
        have lossOwed : ∀ u b', (seqOf u x).job = none → (seqOf u x).list = [w] →
            bodyOf u b.id = some b' → partner u x = some p →
            available u p = false → loseService x kind u = mark .owed (chanBit x) b.id (withList x [] u) := by
          intro u b' h1 h2 h3 h4 h5
          rw [loseService_one (o := some w) h1 (by simpa using h2)]
          simp only [Option.elim]
          rw [placeWork_owed (b := b') (by simpa [wb] using h3) (by simpa using h4) (by simp [h5]), wb, wa]
        have hap : available (setChan x r s) p = false := by simpa [ap] using hap
        rcases hf with rfl | rfl | rfl <;> simp only [markAll, List.foldl_cons, List.foldl_nil, ho]
        · rw [lossOwed _ (b.mark .resolved (chanBit x)) (by simpa using ix.1) (by simp) (by simp [hb]) (by simpa using hpx)
            (by simpa using hap)]
          simpa [wx, markAll] using marks' _ _ ji.1
        · rw [lossOwed _ ((b.mark .resolved (chanBit x)).mark .owed (chanBit p)) (by simpa using ix.1) (by simp)
            (by simp [hb]) (by simpa using hpx) (by simpa using hap)]
          simpa [wx, markAll] using marks' _ _ ji.2.2.2.2.1
        · rw [lossOwed _ ((b.mark .resolved (chanBit x)).mark .resolved (chanBit p)) (by simpa using ix.1) (by simp)
            (by simp [hb]) (by simpa using hpx) (by simpa using hap)]
          simpa [wx, markAll] using marks' _ _ ji.2.2.2.2.2

/-- Marks other than done are made in either order. -/
theorem mark_comm {m n : Mark} (hm : m ≠ .done) (hn : n ≠ .done) (X P : Mask) (id : Nat) (s : State) :
    mark m X id (mark n P id s) = mark n P id (mark m X id s) := by
  have key : ∀ b : Body, (b.mark n P).mark m X = (b.mark m X).mark n P := by
    intro b
    have r : ∀ u v w : Mask, u ||| v ||| w = u ||| w ||| v := fun u v w => by
      rw [BitVec.or_assoc, BitVec.or_comm v, BitVec.or_assoc]
    cases m <;> cases n <;> first | exact absurd rfl hm | exact absurd rfl hn | skip
    all_goals
      simp only [Body.mark]
      rw [r b.resolved]
    rw [r b.owed]
  simp only [mark, List.map_map]
  congr 3
  funext p
  cases p with
  | none => rfl
  | some b =>
    simp only [Function.comp, Option.map_some]
    by_cases e : b.id = id <;> simp [e, key]

/-- The two channels of a pair that hold nothing are settled in either order. -/
theorem settlePair_comm {s : State} {b : Body} {x p : ChanNo} (hxp : p ≠ x) (ix : idleSeq s x) (ip : idleSeq s p) :
    settlePair p x b s = settlePair x p b s := by
  have ip2 : idleSeq (withList x (ownRecord s b x).toList s) p := by
    unfold idleSeq; rw [seqOf_withList_of_ne hxp]; exact ip
  have ix2 : idleSeq (withList p (ownRecord s b p).toList s) x := by
    unfold idleSeq; rw [seqOf_withList_of_ne hxp.symm]; exact ix
  unfold settlePair
  cases hx : available s x <;> cases hp : available s p
  · dsimp only
    rcases settleIdle_marks s b x with ⟨f, hf, fe⟩
    rcases settleIdle_marks s b p with ⟨g, hg, ge⟩
    rw [fe s rfl rfl, ge s rfl rfl, fe (markAll g b.id s), ge (markAll f b.id s)] <;>
    rcases hf with rfl | rfl | rfl <;> rcases hg with rfl | rfl | rfl <;>
    first
    | rfl
    | simp only [markAll, List.foldl_cons, List.foldl_nil]
      exact mark_comm (by decide) (by decide) _ _ _ _
  · rfl
  · rfl
  · dsimp only
    rw [giveRecord_idle ix, giveRecord_idle ip2, giveRecord_idle ip, giveRecord_idle ix2, withList_comm hxp,
      BitVec.or_comm]

/-- R71 as `arrival_loss_comm` has it, where the arrival settles the body for the partner of the lost channel. -/
theorem arrival_partnerLoss_comm {s : State} {b : Body} {k : Nat} {x p : ChanNo} {r : ChanRec}
    (hk : bodyAt s k = some b) (hu : ∀ b', some b' ∈ s.track.queue → b'.id = b.id → b' = b)
    (hd : b.done &&& b.resolved = b.done) (hpx : partner s x = some p) (hpp : partner s p = some x) (hxp : p ≠ x)
    (hx : available s x = true) (hr : available (setChan x r s) x = false) (ix : idleSeq s x) (ip : idleSeq s p)
    (covered : available s p = false → inMask b.resolved p = false → (ownRecord s b p).isSome = true →
      (coverRecord s b x p).isSome = true → present s p = true ∧ (ownRecord s b x).isSome = true) (kind : Loss) :
    loseService x kind (setChan x r (settle p k s)) = settle p k (loseService x kind (setChan x r s)) := by
  have ix' : idleSeq (setChan x r s) x := ix
  have ip' : idleSeq (setChan x r s) p := ip
  have loss0 : loseService x kind (setChan x r s) = setChan x r s := by
    rw [loseService_noJob ix'.1, ix'.2]; exact withList_nil ix'
  have hk' : bodyAt (setChan x r s) k = some b := hk
  by_cases hn : (b.passedOver || inMask b.resolved p) = true
  · simp only [loss0, settle, hk, hk', hn, if_true]
  simp only [Bool.or_eq_true, not_or, Bool.not_eq_true] at hn
  by_cases rx : inMask b.resolved x = true
  · simp only [loss0, settle, hk, hk', hn, rx, partner_setChan, hpp, Bool.or_self, Bool.false_eq_true, if_false, if_true,
      settleAlone, available_setChan_of_ne hxp, ownRecord_setChan, giveRecord_idle ip, giveRecord_idle ip']
    have loss1 : ∀ u, (seqOf u x).job = none → (seqOf u x).list = [] → loseService x kind u = u := fun u h h' => by
      rw [loseService_noJob h, h']; exact withList_nil ⟨h, h'⟩
    split <;> [skip; split] <;> simp only [setChan_mark, setChan_withList] <;> refine loss1 _ ?_ ?_ <;>
      simp [seqOf_withList_of_ne hxp.symm, ix.1, ix.2]
  · have rx : inMask b.resolved x = false := by simpa using rx
    have e : ∀ u, bodyAt u k = some b → partner u x = some p → partner u p = some x → idleSeq u x → idleSeq u p →
        settle p k u = settle x k u := fun u h1 h2 h3 h4 h5 => by
      simp only [settle, h1, h2, h3, hn, rx, Bool.or_self, Bool.false_eq_true, if_false, settlePair_comm hxp h4 h5]
    rw [loss0, e s hk hpx hpp ix ip, e _ hk' hpx hpp ix' ip',
      arrival_loss_comm hk hu hd hpx hxp hx hr ix ip covered (fun _ h => by simp [hn.2] at h) kind, loss0]

end Sys2Proof.Machine
end

