-- ==== Sys2Proof/Laws/Reach.lean ====
section
/-! SUPPORT. What a catch-up and the arrivals of a transfer reach: the settlement of every body in a channel's reach leaves
each of them resolved for it; the owed marks of a list of
records, and all departures at once. -/

namespace Sys2Proof.Machine

/-! ### The settlement of a reach -/

/-- Two folds agree whose steps agree where an invariant of the first holds. -/
theorem foldl_congr_of {α : Type} {P : State → Prop} {f g : State → α → State} (hP : ∀ s a, P s → P (f s a))
    (he : ∀ s a, P s → f s a = g s a) (l : List α) (s : State) (hs : P s) : l.foldl f s = l.foldl g s := by
  induction l generalizing s with
  | nil => rfl
  | cons a l ih => rw [List.foldl_cons, List.foldl_cons, ← he s a hs]; exact ih _ (hP s a hs)

/-- The meaning's settlement picks its stations by the channel's record, the statements' by the reach. -/
theorem settledWhere_eq_resolveWhere (reach : ChanNo → Nat → Prop) [∀ c k, Decidable (reach c k)]
    (sel : ChanRec → Nat → Bool) (s : State) (h : ∀ c k, reach c k ↔ sel (chanRec s c) k = true) :
    settledWhere reach s = resolveWhere sel s := by
  unfold settledWhere resolveWhere
  let P (t : State) : Prop := t.chans = s.chans ∧ t.sweep = s.sweep
  have hst : ∀ k t c, P t → P (if reach c k ∧ present s c = true then settle c k t else t) := by
    intro k t c ht
    split
    · rw [(settle_listsAndMarks c k t).eq]; exact ht
    · exact ht
  have hin : ∀ k t (l : List ChanNo), P t →
      P (l.foldl (fun t c => if reach c k ∧ present s c = true then settle c k t else t) t) := by
    intro k t l ht
    induction l generalizing t with
    | nil => exact ht
    | cons c l ih => exact ih _ (hst k t c ht)
  refine foldl_congr_of (P := P) (fun t k ht => hin k t _ ht) (fun t k ht => ?_) _ _ ⟨rfl, rfl⟩
  refine foldl_congr_of (P := P) (fun t c ht => hst k t c ht) (fun t c ht => ?_) _ _ ht
  have hc : chanRec t c = chanRec s c := by simp [chanRec, ht.1]
  have hp : present t c = present s c := by simp [present, ht.2]
  simp only [Bool.and_eq_true, hc, hp, h c k]

/-- The catch-up is the settlement of every window (R64). -/
theorem catchUp_eq_settledWhere (s : State) :
    catchUp s = settledWhere (fun c k => (chanRec s c).preselect ≤ k ∧ k ≤ (chanRec s c).station) s :=
  (settledWhere_eq_resolveWhere _ _ _ fun c k => by simp).symm

/-- The arrivals are the settlement of the pre-select points (R63). -/
theorem takeArrivals_eq_settledWhere (s : State) (h : s.node.state = .run ∨ s.node.state = .held) :
    takeArrivals s = settledWhere (fun c k => (chanRec s c).preselect = k) s := by
  unfold takeArrivals
  rw [if_pos h]
  exact (settledWhere_eq_resolveWhere _ _ _ fun c k => by simp).symm

/-- A settlement of a reach changes only lists and marks. -/
theorem settledWhere_listsAndMarks (reach : ChanNo → Nat → Prop) [∀ c k, Decidable (reach c k)] (s : State) :
    ListsAndMarks s (settledWhere reach s) := by
  refine listsAndMarks_foldl (fun t k => listsAndMarks_foldl (fun t c => ?_) _ _) _ _
  split
  · exact settle_listsAndMarks _ _ _
  · exact .refl _

/-! ### What a settlement reaches -/

/-- A verdict other than DONE resolves the channels it names on a well-kept body. -/
theorem Body.mark_sets {u : Bool} {b : Body} (m : Mark) (hm : m ≠ .done) (chs : Mask) (c : ChanNo) (h : BodyOk u b)
    (hc : inMask chs c = true) : inMask (b.mark m chs).resolved c = true := by
  cases m with
  | resolved => simp only [Body.mark, inMask, BitVec.getLsbD_or] at hc ⊢; simp [hc]
  | done => exact absurd rfl hm
  | owed =>
    by_cases hd : inMask b.done c = true
    · refine Body.mark_resolved _ _ _ _ ?_
      have := congrArg (fun x : Mask => x.getLsbD c.val) h.2.1
      simp only [inMask, BitVec.getLsbD_and] at this hd ⊢
      simpa [hd] using this
    · simp only [Body.mark, inMask, BitVec.getLsbD_or, BitVec.getLsbD_and, BitVec.getLsbD_not] at hc hd ⊢
      simp only [Bool.not_eq_true] at hd
      simp only [hc, hd]
      simp

/-- What marks keep at every station: the body but for its masks, its resolved channels, and that it is well kept. -/
def Marked (s t : State) : Prop :=
  ∀ (k : Nat) (b : Body), s.track.queue[k]? = some (some b) →
    ∃ b', t.track.queue[k]? = some (some b') ∧ b'.bare = b.bare ∧
      (∀ c, inMask b.resolved c = true → inMask b'.resolved c = true) ∧ ∀ u, BodyOk u b → BodyOk u b'

theorem Marked.refl (s : State) : Marked s s := fun _ b h => ⟨b, h, rfl, fun _ => id, fun _ => id⟩

theorem Marked.of_track {s t : State} (h : t.track = s.track) : Marked s t :=
  fun _ b hb => ⟨b, h ▸ hb, rfl, fun _ => id, fun _ => id⟩

theorem Marked.trans {s t u : State} (a : Marked s t) (b : Marked t u) : Marked s u := by
  intro k x hx
  obtain ⟨y, h1, h2, h3, h4⟩ := a k x hx
  obtain ⟨z, g1, g2, g3, g4⟩ := b k y h1
  exact ⟨z, g1, g2.trans h2, fun c hc => g3 c (h3 c hc), fun v h => g4 v (h4 v h)⟩

theorem marked_mark (m : Mark) (chs : Mask) (id : Nat) (s : State) : Marked s (mark m chs id s) := by
  intro k b h
  refine ⟨if b.id = id then b.mark m chs else b, by simp [mark, h], ?_, ?_, ?_⟩
  · split <;> simp
  · intro c hc
    split
    · exact Body.mark_resolved _ _ _ _ hc
    · exact hc
  · intro u ho
    split
    · exact mark_bodyOk _ _ ho
    · exact ho

theorem insertRecord_track (c : ChanNo) (r : Dispatch) (s : State) : (insertRecord c r s).track = s.track := by
  unfold insertRecord
  dsimp only
  split
  · rfl
  · split <;> rfl
  · rfl

theorem giveRecord_track (c : ChanNo) (r : Option Dispatch) (s : State) : (giveRecord c r s).track = s.track := by
  cases r
  · rfl
  · exact insertRecord_track _ _ _

/-- The body at station `k` is resolved for channel `c`. -/
def Reached (c : ChanNo) (k : Nat) (t : State) : Prop :=
  ∃ b, t.track.queue[k]? = some (some b) ∧ inMask b.resolved c = true

theorem Reached.marked {c : ChanNo} {k : Nat} {s t : State} (h : Reached c k s) (m : Marked s t) : Reached c k t := by
  obtain ⟨b, h1, h2⟩ := h
  obtain ⟨b', g1, _, g3, _⟩ := m k b h1
  exact ⟨b', g1, g3 c h2⟩

theorem reached_mark {u : Bool} {c : ChanNo} {k : Nat} {s : State} {b : Body} (m : Mark) (hm : m ≠ .done) (chs : Mask)
    (hb : s.track.queue[k]? = some (some b)) (ho : BodyOk u b) (hc : inMask chs c = true) :
    Reached c k (mark m chs b.id s) :=
  ⟨b.mark m chs, by simp [mark, hb], Body.mark_sets _ hm _ _ ho hc⟩

theorem inMask_chanBit (c : ChanNo) : inMask (chanBit c) c = true := by revert c; decide

theorem inMask_or_left (m : Mask) (c : ChanNo) : inMask (chanBit c ||| m) c = true := by
  have := inMask_chanBit c
  simp only [inMask, BitVec.getLsbD_or] at this ⊢
  simp [this]

theorem inMask_or_right (m : Mask) (c : ChanNo) : inMask (m ||| chanBit c) c = true := by
  rw [BitVec.or_comm]
  exact inMask_or_left m c

theorem settleIdle_marked (c : ChanNo) (b : Body) (s : State) : Marked s (settleIdle c b s) := by
  unfold settleIdle
  split
  · split <;> exact marked_mark _ _ _ _
  · exact .refl _

theorem settleAlone_marked (c : ChanNo) (b : Body) (s : State) : Marked s (settleAlone c b s) := by
  unfold settleAlone
  dsimp only
  split
  · exact (Marked.of_track (giveRecord_track _ _ _)).trans (marked_mark _ _ _ _)
  · split <;> exact marked_mark _ _ _ _

theorem settleCover_marked (a x : ChanNo) (b : Body) (s : State) : Marked s (settleCover a x b s) := by
  unfold settleCover
  split
  · exact (Marked.of_track (insertRecord_track _ _ _)).trans (marked_mark _ _ _ _)
  · exact ((Marked.of_track (giveRecord_track _ _ _)).trans (marked_mark _ _ _ _)).trans (settleIdle_marked _ _ _)

theorem settlePair_marked (a p : ChanNo) (b : Body) (s : State) : Marked s (settlePair a p b s) := by
  unfold settlePair
  split
  · exact ((Marked.of_track (giveRecord_track _ _ _)).trans (Marked.of_track (giveRecord_track _ _ _))).trans
      (marked_mark _ _ _ _)
  · exact settleCover_marked _ _ _ _
  · exact settleCover_marked _ _ _ _
  · exact (settleIdle_marked _ _ _).trans (settleIdle_marked _ _ _)

theorem settle_marked (c : ChanNo) (k : Nat) (s : State) : Marked s (settle c k s) := by
  unfold settle
  split
  · exact .refl _
  · split
    · exact .refl _
    · split
      · exact settleAlone_marked _ _ _
      · split
        · exact settleAlone_marked _ _ _
        · exact settlePair_marked _ _ _ _

theorem settleIdle_reached {u : Bool} {c : ChanNo} {k : Nat} {s : State} {b : Body} (hp : present s c = true)
    (hb : s.track.queue[k]? = some (some b)) (ho : BodyOk u b) : Reached c k (settleIdle c b s) := by
  unfold settleIdle
  rw [if_pos hp]
  split <;> exact reached_mark _ (by simp) _ hb ho (inMask_chanBit c)

theorem settleAlone_reached {u : Bool} {c : ChanNo} {k : Nat} {s : State} {b : Body}
    (hb : s.track.queue[k]? = some (some b)) (ho : BodyOk u b) : Reached c k (settleAlone c b s) := by
  unfold settleAlone
  dsimp only
  split
  · exact reached_mark _ (by simp) _ (by rw [giveRecord_track]; exact hb) ho (inMask_chanBit c)
  · split <;> exact reached_mark _ (by simp) _ hb ho (inMask_chanBit c)

theorem settleCover_reached_left {u : Bool} {a x : ChanNo} {k : Nat} {s : State} {b : Body}
    (hb : s.track.queue[k]? = some (some b)) (ho : BodyOk u b) : Reached a k (settleCover a x b s) := by
  unfold settleCover
  split
  · exact reached_mark _ (by simp) _ (by rw [insertRecord_track]; exact hb) ho (inMask_or_left _ _)
  · exact (reached_mark _ (by simp) _ (by rw [giveRecord_track]; exact hb) ho (inMask_chanBit a)).marked
      (settleIdle_marked _ _ _)

theorem giveRecord_present (d c : ChanNo) (r : Option Dispatch) (s : State) :
    present (giveRecord c r s) d = present s d := by
  rw [(giveRecord_listsAndMarks c r s).eq]
  rfl

theorem settleCover_reached_right {u : Bool} {a x : ChanNo} {k : Nat} {s : State} {b : Body} (hp : present s x = true)
    (hb : s.track.queue[k]? = some (some b)) (ho : BodyOk u b) : Reached x k (settleCover a x b s) := by
  unfold settleCover
  split
  · exact reached_mark _ (by simp) _ (by rw [insertRecord_track]; exact hb) ho (inMask_or_right _ _)
  · have hm := ((Marked.of_track (giveRecord_track a (ownRecord s b a) s)).trans
      (marked_mark .resolved (chanBit a) b.id _)) k b hb
    have hp' : present (mark .resolved (chanBit a) b.id (giveRecord a (ownRecord s b a) s)) x = true :=
      (giveRecord_present x a _ s).trans hp
    generalize mark .resolved (chanBit a) b.id (giveRecord a (ownRecord s b a) s) = v at hm hp' ⊢
    obtain ⟨b', h1, h2, _, h4⟩ := hm
    have hid : b'.id = b.id := by
      have := congrArg Body.id h2
      exact this
    unfold settleIdle
    rw [if_pos hp']
    split <;> rw [← hid] <;> exact reached_mark _ (by simp) _ h1 (h4 u ho) (inMask_chanBit x)

/-- R63, R64: a body that is not passed over is resolved for the present channel it is settled for. -/
theorem settle_reached {u : Bool} {c : ChanNo} {k : Nat} {s : State} {b : Body} (hp : present s c = true)
    (hb : s.track.queue[k]? = some (some b)) (ho : BodyOk u b) (hpo : b.passedOver = false) :
    Reached c k (settle c k s) := by
  have hat : bodyAt s k = some b := by simp [bodyAt, List.getD_eq_getElem?_getD, hb]
  unfold settle
  rw [hat]
  dsimp only
  split
  · next h => simp [hpo] at h; exact ⟨b, hb, h⟩
  · split
    · exact settleAlone_reached hb ho
    · split
      · exact settleAlone_reached hb ho
      · unfold settlePair
        split
        · exact reached_mark _ (by simp) _ (by rw [giveRecord_track, giveRecord_track]; exact hb) ho (inMask_or_left _ _)
        · exact settleCover_reached_left hb ho
        · exact settleCover_reached_right hp hb ho
        · exact (settleIdle_reached hp hb ho).marked (settleIdle_marked _ _ _)

/-- A fold reaches what one of its steps reaches, where every step keeps the premise and the goal. -/
theorem foldl_reaches {α : Type} (f : State → α → State) (Q H : State → Prop) (l : List α) (a : α) (ha : a ∈ l)
    (hQ : ∀ s a, Q s → Q (f s a)) (hH : ∀ s a, H s → H (f s a)) (hit : ∀ s, Q s → H (f s a)) (s : State) (hs : Q s) :
    H (l.foldl f s) := by
  have keep : ∀ (l : List α) (s : State), H s → H (l.foldl f s) := by
    intro l
    induction l with
    | nil => exact fun _ => id
    | cons y l ih => exact fun s h => ih _ (hH _ _ h)
  induction l generalizing s with
  | nil => cases ha
  | cons x l ih =>
    rcases List.mem_cons.1 ha with rfl | h
    · exact keep l _ (hit _ hs)
    · exact ih h _ (hQ _ _ hs)

theorem foldl_keeps {α : Type} {f : State → α → State} {P : State → Prop} (h : ∀ s a, P s → P (f s a)) (l : List α)
    (s : State) (hs : P s) : P (l.foldl f s) := by
  induction l generalizing s with
  | nil => exact hs
  | cons a l ih => exact ih _ (h _ _ hs)

/-- R63, R64: after the settlement of a reach every body in it that is not passed over is resolved. -/
theorem settledWhere_reached {u : Bool} (reach : ChanNo → Nat → Prop) [∀ c k, Decidable (reach c k)] (s : State)
    (c : ChanNo) (k : Nat) (b : Body) (hp : present s c = true) (hk : k < s.node.stations) (hr : reach c k)
    (hb : s.track.queue[k]? = some (some b)) (ho : BodyOk u b) (hpo : b.passedOver = false) :
    Reached c k (settledWhere reach s) := by
  unfold settledWhere
  let Q (t : State) : Prop := ListsAndMarks s t ∧ Marked s t
  have step : ∀ k' t d, Q t → Q (if reach d k' ∧ present s d = true then settle d k' t else t) := by
    intro k' t d ht
    split
    · exact ⟨ht.1.trans (settle_listsAndMarks _ _ _), ht.2.trans (settle_marked _ _ _)⟩
    · exact ht
  have hstep : ∀ k' t d, Reached c k t →
      Reached c k (if reach d k' ∧ present s d = true then settle d k' t else t) := by
    intro k' t d ht
    split
    · exact ht.marked (settle_marked _ _ _)
    · exact ht
  refine foldl_reaches _ Q (Reached c k) _ k (by simpa using hk) (fun t k' ht => foldl_keeps (step k') _ _ ht)
    (fun t k' ht => foldl_keeps (hstep k') _ _ ht) (fun t ht => ?_) s ⟨.refl _, .refl _⟩
  refine foldl_reaches _ Q (Reached c k) _ c (mem_allChannels c) (step k) (hstep k) (fun t ht => ?_) t ht
  obtain ⟨b', g1, g2, _, g4⟩ := ht.2 k b hb
  have hp' : present t c = true := by rw [ht.1.eq]; exact hp
  rw [if_pos ⟨hr, hp⟩]
  exact settle_reached hp' g1 (g4 u ho) ((congrArg Body.passedOver g2).trans hpo)

/-- The same of the body as the settlement leaves it, over a queue of well-kept bodies. -/
theorem settledWhere_resolves (reach : ChanNo → Nat → Prop) [∀ c k, Decidable (reach c k)] (s : State)
    (hok : ∀ b, some b ∈ s.track.queue → ∃ u, BodyOk u b) (c : ChanNo) (k : Nat) (b : Body)
    (hp : present s c = true) (hk : k < s.node.stations) (hr : reach c k)
    (hb : (settledWhere reach s).track.queue[k]? = some (some b)) (hpo : b.passedOver = false) :
    inMask b.resolved c = true := by
  have hl := congrArg (fun l => l[k]?) (settledWhere_listsAndMarks reach s).bodies
  simp only [List.getElem?_map, hb, Option.map_some] at hl
  obtain ⟨p, h1, h2⟩ := Option.map_eq_some_iff.1 hl.symm
  obtain ⟨b0, rfl, h4⟩ := Option.map_eq_some_iff.1 h2
  obtain ⟨u, ho⟩ := hok b0 (List.mem_of_getElem? h1)
  obtain ⟨b1, q1, q2⟩ := settledWhere_reached reach s c k b0 hp hk hr h1 ho
    ((congrArg Body.passedOver h4).trans hpo)
  rw [hb] at q1
  cases q1
  exact q2

/-! ### Owed marks of a list of records -/

/-- The channels that a list's records for one body account for. -/
def accounted (rs : List Dispatch) (id : Nat) : Mask :=
  rs.foldl (fun m r => if r.body = id then m ||| r.accounts else m) 0

theorem foldl_or (f : Dispatch → Mask) (l : List Dispatch) (m : Mask) :
    l.foldl (fun m r => m ||| f r) m = m ||| l.foldl (fun m r => m ||| f r) 0 := by
  induction l generalizing m with
  | nil => simp
  | cons a l ih => simp only [List.foldl_cons]; rw [ih, ih (0 ||| f a)]; simp [BitVec.or_assoc]

theorem accounted_from (rs : List Dispatch) (id : Nat) (m : Mask) :
    rs.foldl (fun m r => if r.body = id then m ||| r.accounts else m) m = m ||| accounted rs id := by
  have e : (fun (m : Mask) (r : Dispatch) => if r.body = id then m ||| r.accounts else m) =
      fun m r => m ||| (if r.body = id then r.accounts else 0) := by
    funext m r
    split <;> simp
  unfold accounted
  rw [e]
  exact foldl_or _ _ _

theorem accounted_cons (r : Dispatch) (rs : List Dispatch) (id : Nat) :
    accounted (r :: rs) id = (if r.body = id then r.accounts else 0) ||| accounted rs id := by
  unfold accounted
  rw [List.foldl_cons, accounted_from]
  congr 1
  by_cases h : r.body = id <;> simp [h]

/-- A channel is accounted for exactly when some record of the body names it. -/
theorem inMask_accounted (rs : List Dispatch) (id : Nat) (x : ChanNo) :
    inMask (accounted rs id) x = true ↔ ∃ r ∈ rs, r.body = id ∧ inMask r.accounts x = true := by
  induction rs with
  | nil => simp [accounted, inMask]
  | cons r rs ih =>
    have : inMask (accounted (r :: rs) id) x =
        (inMask (if r.body = id then r.accounts else 0) x || inMask (accounted rs id) x) := by
      rw [accounted_cons]
      simp [inMask]
    rw [this, Bool.or_eq_true, ih]
    by_cases hr : r.body = id <;> simp [hr, inMask]

/-- Marking a list's records owed is one owed mark on each body, with the channels the list accounts for. -/
theorem oweAll_eq (rs : List Dispatch) (s : State) :
    oweAll rs s = { s with track := { s.track with
      queue := s.track.queue.map (Option.map fun b => b.mark .owed (accounted rs b.id)) } } := by
  unfold oweAll
  induction rs generalizing s with
  | nil =>
    have : (s.track.queue.map (Option.map fun b => b.mark .owed 0)) = s.track.queue := by
      conv => rhs; rw [← List.map_id s.track.queue]
      exact List.map_congr_left fun p _ => by cases p <;> simp
    simp only [List.foldl_nil, accounted, this]
  | cons r rs ih =>
    rw [List.foldl_cons, ih]
    simp only [mark, List.map_map]
    congr 2
    refine List.map_congr_left fun p _ => ?_
    cases p with
    | none => rfl
    | some b =>
      simp only [Function.comp, Option.map_some]
      congr 1
      rw [accounted_cons, ← Body.mark_owed_owed]
      by_cases e : b.id = r.body
      · simp [e]
      · have e' : r.body ≠ b.id := fun h => e h.symm
        simp [e, e']

/-! ### All departures of a transfer -/

/-- The sequencer of a channel that has taken the departure of body `id` (R78). -/
def departed (q : Seq) (id : Nat) : Seq :=
  let keep := q.list.filter fun r => r.body != id
  match q.headJob id, q.list with
  | some .running, r :: _ => { q.toOrphan r with list := keep }
  | some _, _ => { q.withdraw with list := keep }
  | none, _ => { q with list := keep }

theorem depart_eq (c : ChanNo) (id : Nat) (s : State) :
    depart c id s = oweAll ((seqOf s c).list.filter fun r => r.body == id) (setSeq c (departed (seqOf s c) id) s) := rfl

/-- The records that leave the list of `c` by the departure from its station, for a body of this name. -/
def Leaves (s : State) (c : ChanNo) (id : Nat) (r : Dispatch) : Prop :=
  (∃ b, bodyAt s (chanRec s c).station = some b ∧ b.id = id) ∧ r ∈ (seqOf s c).list ∧ r.body = id

theorem bodyAt_bare {s t : State} (h : t.track.queue.map (Option.map Body.bare) = s.track.queue.map (Option.map Body.bare))
    (k : Nat) : (bodyAt t k).map Body.bare = (bodyAt s k).map Body.bare := by
  have := congrArg (fun l => l[k]?) h
  simp only [List.getElem?_map] at this
  simp only [bodyAt, List.getD_eq_getElem?_getD]
  cases h1 : t.track.queue[k]? <;> cases h2 : s.track.queue[k]? <;> simp_all

/-- No channel stands twice in the list of all channels. -/
theorem nodup_allChannels : allChannels.Nodup := by decide +kernel

/-- R11, R78: what the departures of a transfer do to the sequencers, and one owed mark on each body. -/
theorem takeDepartures_spec (s : State) :
    (∃ m : Nat → Mask,
      (takeDepartures s).track.queue = s.track.queue.map (Option.map fun b => b.mark .owed (m b.id)) ∧
      ∀ id x, inMask (m id) x = true ↔ ∃ c r, Leaves s c id r ∧ inMask r.accounts x = true) ∧
    ∀ c, seqOf (takeDepartures s) c =
      match bodyAt s (chanRec s c).station with
      | some b => departed (seqOf s c) b.id
      | none => seqOf s c := by
  have key : ∀ (l : List ChanNo) (t : State), l.Nodup → ListsAndMarks s t → (∀ c ∈ l, seqOf t c = seqOf s c) →
      let u := l.foldl (fun s c =>
        match bodyAt s (chanRec s c).station with
        | some b => depart c b.id s
        | none => s) t
      (∃ m : Nat → Mask, u.track.queue = t.track.queue.map (Option.map fun b => b.mark .owed (m b.id)) ∧
        ∀ id x, inMask (m id) x = true ↔ ∃ c ∈ l, ∃ r, Leaves s c id r ∧ inMask r.accounts x = true) ∧
      ∀ c, seqOf u c =
        if c ∈ l then
          match bodyAt s (chanRec s c).station with
          | some b => departed (seqOf s c) b.id
          | none => seqOf s c
        else seqOf t c := by
    intro l
    induction l with
    | nil =>
      intro t _ _ _
      refine ⟨⟨fun _ => 0, ?_, by simp [inMask]⟩, by simp⟩
      conv => lhs; rw [List.foldl_nil, ← List.map_id t.track.queue]
      exact List.map_congr_left fun p _ => by cases p <;> simp
    | cons c l ih =>
      intro t hn hl hs
      obtain ⟨hc, hn⟩ := List.nodup_cons.1 hn
      have hb := bodyAt_bare hl.bodies (chanRec s c).station
      have hch : chanRec t c = chanRec s c := by simp only [chanRec]; rw [hl.eq]
      have hq : seqOf t c = seqOf s c := hs c (by simp)
      rw [List.foldl_cons, hch]
      cases h : bodyAt s (chanRec s c).station with
      | none =>
        rw [h] at hb
        have : bodyAt t (chanRec s c).station = none := by simpa using hb
        rw [this]
        obtain ⟨⟨m, e1, e2⟩, e3⟩ := ih t hn hl fun d hd => hs d (by simp [hd])
        refine ⟨⟨m, e1, fun id x => ?_⟩, fun d => ?_⟩
        · rw [e2]
          have : ∀ r, ¬Leaves s c id r := fun r hr => by obtain ⟨⟨b, h1, _⟩, _⟩ := hr; rw [h] at h1; cases h1
          simp [this]
        · rw [e3 d]
          by_cases hd : d = c
          · subst hd; simp [hc, h, hq]
          · simp [hd]
      | some b =>
        rw [h] at hb
        obtain ⟨b', h1, h2⟩ := Option.map_eq_some_iff.1 (hb.trans rfl)
        have hid : b'.id = b.id := by
          have := congrArg Body.id h2
          exact this
        rw [h1]
        dsimp only
        rw [depart_eq, hid, hq, oweAll_eq]
        obtain ⟨⟨m, e1, e2⟩, e3⟩ := ih
          { setSeq c (departed (seqOf s c) b.id) t with track := { t.track with
              queue := t.track.queue.map (Option.map fun x =>
                x.mark .owed (accounted ((seqOf s c).list.filter fun r => r.body == b.id) x.id)) } }
          hn (hl.trans ⟨rfl, by
            simp only [List.map_map]
            exact List.map_congr_left fun p _ => by cases p <;> simp⟩)
          (fun d hd => by
            have hne : d ≠ c := fun e => hc (e ▸ hd)
            exact (seqOf_setSeq_of_ne hne _ t).trans (hs d (by simp [hd])))
        refine ⟨⟨fun id => accounted ((seqOf s c).list.filter fun r => r.body == b.id) id ||| m id, ?_, fun id x => ?_⟩,
          fun d => ?_⟩
        · refine e1.trans ?_
          simp only [List.map_map]
          refine List.map_congr_left fun p _ => ?_
          cases p with
          | none => rfl
          | some y => simp [Function.comp, Body.mark_owed_owed]
        · have : inMask (accounted ((seqOf s c).list.filter fun r => r.body == b.id) id ||| m id) x =
              (inMask (accounted ((seqOf s c).list.filter fun r => r.body == b.id) id) x || inMask (m id) x) := by
            simp [inMask]
          rw [this, Bool.or_eq_true, inMask_accounted, e2]
          constructor
          · rintro (⟨r, hr, hid', hx⟩ | ⟨d, hd, r, hr, hx⟩)
            · rw [List.mem_filter] at hr
              have hbid : r.body = b.id := by simpa using hr.2
              exact ⟨c, by simp, r, ⟨⟨b, h, hbid.symm.trans hid'⟩, hr.1, hid'⟩, hx⟩
            · exact ⟨d, by simp [hd], r, hr, hx⟩
          · rintro ⟨d, hd, r, hr, hx⟩
            rcases List.mem_cons.1 hd with rfl | hd
            · obtain ⟨⟨b2, g1, g2⟩, g3, g4⟩ := hr
              rw [h] at g1
              cases g1
              exact .inl ⟨r, by rw [List.mem_filter]; exact ⟨g3, by simp [g4, g2]⟩, g4, hx⟩
            · exact .inr ⟨d, hd, r, hr, hx⟩
        · refine (e3 d).trans ?_
          by_cases hd : d = c
          · subst hd
            rw [if_neg hc, if_pos (by simp), h]
            exact seqOf_setSeq_self d (departed (seqOf s d) b.id) t
          · by_cases hdl : d ∈ l
            · simp [hdl]
            · rw [if_neg hdl, if_neg (by simp [hd, hdl])]
              exact seqOf_setSeq_of_ne hd (departed (seqOf s c) b.id) t
  have hn := nodup_allChannels
  have hm := mem_allChannels
  unfold takeDepartures
  generalize allChannels = l at hn hm ⊢
  obtain ⟨⟨m, e1, e2⟩, e3⟩ := key l s hn (.refl s) fun _ _ => rfl
  refine ⟨⟨m, e1, fun id x => (e2 id x).trans ⟨?_, ?_⟩⟩, fun c => (e3 c).trans (if_pos (hm c))⟩
  · rintro ⟨c, _, r, h⟩
    exact ⟨c, r, h⟩
  · rintro ⟨c, r, h⟩
    exact ⟨c, hm c, r, h⟩

end Sys2Proof.Machine
end

