-- ==== Sys2Proof/WellFormed.lean ====
section
/-! DEFINITION. Which commands are well formed: those a sender on the ring, a pin or the clock can give.
exec is total on every command; these checks say which terms name a row of the table exactly. -/

namespace Sys2Proof

/-- The request codes that 9.6 and 12.4 define. -/
def definedCodes : List Byte :=
  [0x01, 0x02, 0x03, 0x04, 0x05, 0x06, 0x07, 0x10, 0x11, 0x18, 0x19, 0x1A, 0x1B, 0x1C] ++
  [0x20, 0x21, 0x22, 0x23, 0x24, 0x25, 0x26, 0x28, 0x29, 0x2A, 0x2B, 0x2C] ++
  [0x30, 0x31, 0x32, 0x38, 0x39, 0x3A, 0x40, 0x41, 0x42, 0x43]

/-- The request header of a request command; none for the commands that are no request. -/
def Instr.head? : Instr → Option ReqHead
  | .outboundPass _ | .returnPass _ | .ringClosureReturn | .foreignFrame _ _ => none
  | .portALinkDown | .portALinkUp | .portBLinkDown | .portBLinkUp => none
  | .sweepWatchExpiry | .holdNFallingEdge | .holdNRisingEdge | .resetNLow | .powerOnReset _ => none
  | .copyStep | .copyCompletion | .replyLossLimit _ | .selectTimeout _ => none
  | .readStatus h | .start h | .stop h | .hold h | .release h | .cellReset h => some h
  | .writeNodeSettings h _ _ _ | .writeSlotMap h _ _ | .readSlotMap h _ _ => some h
  | .writeChannel h _ _ _ _ _ | .readChannel h _ | .writePair h _ _ | .clearPair h _ => some h
  | .setServiceOut h _ _ | .setServiceIn h _ => some h
  | .writeEntries h _ _ _ | .readEntries h _ _ _ _ | .enableStyle h _ _ => some h
  | .copyBank h | .commit h | .disarm h | .abort h => some h
  | .writeCurve h _ _ _ _ _ _ _ _ _ | .readCurve h _ | .writeGun h _ _ _ _ _ _ _ _ => some h
  | .writeWear h _ _ _ _ | .readWear h _ _ => some h
  | .readTracking h _ | .retrackLoad h _ | .retrackApply h => some h
  | .readLog h | .clearLog h | .clearAlarms h _ => some h
  | .testStart h _ | .testStop h | .testInject h | .readTestCounts h => some h
  | .unknownRequest h _ => some h

/-- The operands a row's own form does not allow: a map write of no or more than 24 entries (R140), an
entry write of no or more than six (R27), a retrack load of no or more than three records (R17), a
SET_SERVICE_OUT whose action byte is IN (R57), an UNKNOWN_REQUEST whose code is defined (R163). -/
def Instr.operandsOk : Instr → Bool
  | .writeSlotMap _ _ es => 1 ≤ es.length && es.length ≤ 24
  | .writeEntries _ _ _ es => 1 ≤ es.length && es.length ≤ 6
  | .retrackLoad _ rs => 1 ≤ rs.length && rs.length ≤ 3
  | .setServiceOut _ _ action => action != 1
  | .unknownRequest _ code => !definedCodes.contains code
  | .outboundPass _ | .returnPass _ | .ringClosureReturn | .foreignFrame _ _ => true
  | .portALinkDown | .portALinkUp | .portBLinkDown | .portBLinkUp => true
  | .sweepWatchExpiry | .holdNFallingEdge | .holdNRisingEdge | .resetNLow | .powerOnReset _ => true
  | .copyStep | .copyCompletion | .replyLossLimit _ | .selectTimeout _ => true
  | .readStatus _ | .start _ | .stop _ | .hold _ | .release _ | .cellReset _ => true
  | .writeNodeSettings _ _ _ _ | .readSlotMap _ _ _ => true
  | .writeChannel _ _ _ _ _ _ | .readChannel _ _ | .writePair _ _ _ | .clearPair _ _ => true
  | .setServiceIn _ _ | .readEntries _ _ _ _ _ | .enableStyle _ _ _ => true
  | .copyBank _ | .commit _ | .disarm _ | .abort _ => true
  | .writeCurve _ _ _ _ _ _ _ _ _ _ | .readCurve _ _ | .writeGun _ _ _ _ _ _ _ _ _ => true
  | .writeWear _ _ _ _ _ | .readWear _ _ _ => true
  | .readTracking _ _ | .retrackApply _ => true
  | .readLog _ | .clearLog _ | .clearAlarms _ _ => true
  | .testStart _ _ | .testStop _ | .testInject _ | .readTestCounts _ => true

/-- A request command carries a tag other than 0 (R160: tag 0 carries no request). -/
def Instr.tagOk (i : Instr) : Bool :=
  match i.head? with
  | some h => h.tag != 0
  | none => true

/-- A command is well formed when its operands and its tag are. -/
def Instr.wellFormed (i : Instr) : Bool := i.operandsOk && i.tagOk

end Sys2Proof
end

