-- ==== Sys2Proof/Tests/Slice0.lean ====
section
/-! SUPPORT. The model's own tests: the well-formedness checks refuse what they must; the worked numbers of the manual; and
for every statement with hypotheses a state and operands that meet them, clause by clause. -/

namespace Sys2Proof.Tests

open Sys2Proof Sys2Proof.Machine

/-! ### Helpers -/

/-- An addressed request with tag 1. -/
def hd : ReqHead := { via := .addressed, tag := 1 }

/-- A broadcast request with tag 2. -/
def bc : ReqHead := { via := .broadcast, tag := 2 }

/-- A slot map with LINE at 9, STATUS at 10, EXIT at 11, channels 0 and 1 at 12 to 15, and TEST at 16 and 18. -/
def map1 : SlotMap :=
  SlotMap.reset.put 9 [.line, .status, .exit, .command 0, .reply 0, .command 1, .reply 1, .test, .pass, .test]

/-- The same map with channel 0 alone and no LINE slot. -/
def map0 : SlotMap := SlotMap.reset.put 10 [.status, .exit, .command 0, .reply 0, .pass, .pass, .test]

/-- A dispatch record for body 7. -/
def rec7 : Dispatch :=
  { body := 7, tag := 0x2100, program := 9, spots := 4, gun := .gun1, role := .own, accounts := chanBit 0 }

/-- A body of style 1 bound to bank 0. -/
def body7 : Body :=
  { id := 7, tag := 0x2100, style := 1, options := 0, bank := .bank0, empty := false, unresolved := false,
    uncertain := false, resolved := 0, done := 0, owed := 0 }

/-- An entry with base program 9, backup program 5. -/
def entry9 : Entry :=
  { base := 9, baseSpots := 4, option := 0, variant := 0, variantSpots := 0, backup := 5, backupSpots := 8, gun := .gun1 }

/-- A bank whose style 1 is enabled, with `entry9` for every channel. -/
def bank9 : Bank := Bank.reset.set 0 { enabled := true, entries := Vector.replicate 32 entry9 }

/-- The part in CONFIG with `map1` stored and in force, body 7 at station 1 and channels 0 and 1 at station 1. -/
def cell : State :=
  { State.reset with
    node := { NodeCtl.reset with address := 5 }
    sweep := { SweepIf.reset with storedMap := map1, mapInForce := some map1 }
    track := { Tracking.reset with queue := (List.replicate 8 none).set 1 (some body7), nextId := 8 }
    bank := { BankStore.reset with bank0 := bank9, result := .aborted }
    chans := (State.reset.chans.set 0 { ChanRec.reset with station := 1 }).set 1 { ChanRec.reset with station := 1, lead := 1 } }

/-- The same in another node state. -/
def inState (n : NodeState) (s : State) : State := { s with node := { s.node with state := n } }

/-- `s` with the list and job of channel 0. -/
def withJob (l : List Dispatch) (j : Option Job) (s : State) : State :=
  setSeq 0 { seqOf s 0 with list := l, job := j } s

/-- A frame of 24 slots for sweep 7 with these slots behind its header. -/
def frame7 (sls : List Slot) : Frame :=
  let d : Data7 := { b0 := 0xC5, b1 := 0, b2 := 0, b3 := 7, b4 := 0, b5 := 0, b6 := 0 }
  { envelope := [], payload := (payloadOf (d.toSlot :: sls) ++ List.replicate 192 0).take 192 }

/-! ### Well-formedness -/

theorem test_wellFormed_refuses_an_empty_map_write : (Instr.writeSlotMap hd 1 []).wellFormed = false := by decide
theorem test_wellFormed_refuses_a_long_map_write :
    (Instr.writeSlotMap hd 1 (List.replicate 25 ⟨0, 0⟩)).wellFormed = false := by decide
theorem test_wellFormed_refuses_an_empty_entry_write : (Instr.writeEntries hd 1 0 []).wellFormed = false := by decide
theorem test_wellFormed_refuses_a_long_entry_write :
    (Instr.writeEntries hd 1 0 (List.replicate 7 ⟨0, 0, 0, 0, 0, 0, 0x10⟩)).wellFormed = false := by decide
theorem test_wellFormed_refuses_an_empty_retrack_load : (Instr.retrackLoad hd []).wellFormed = false := by decide
theorem test_wellFormed_refuses_a_long_retrack_load :
    (Instr.retrackLoad hd (List.replicate 4 ⟨0, 0, 0, 0, 0, 0⟩)).wellFormed = false := by decide
theorem test_wellFormed_refuses_in_as_out : (Instr.setServiceOut hd 0 1).wellFormed = false := by decide
theorem test_wellFormed_refuses_a_defined_unknown : (Instr.unknownRequest hd 0x43).wellFormed = false := by decide
theorem test_wellFormed_refuses_tag_zero : (Instr.start { hd with tag := 0 }).wellFormed = false := by decide
theorem test_wellFormed_takes_full_lists :
    (Instr.writeSlotMap hd 1 (List.replicate 24 ⟨0, 0⟩)).wellFormed = true ∧
    (Instr.retrackLoad hd (List.replicate 3 ⟨0, 0, 0, 0, 0, 0⟩)).wellFormed = true ∧
    (Instr.unknownRequest hd 0x44).wellFormed = true := by decide

/-! ### Numbers of the manual -/

/-- 7.2: the header of sweep 1200 with size code 3 has check byte 0x72. -/
theorem test_header_of_sweep_1200 :
    headerOf ([0xC5, 0x03, 0x04, 0xB0, 0x00, 0x00, 0x00, 0x72] ++ List.replicate 1464 0) = some (1200, .slots184) := by
  decide +kernel

/-- A header with a wrong check byte is no header. -/
theorem test_header_with_wrong_check :
    headerOf ([0xC5, 0x00, 0x04, 0xB0, 0x00, 0x00, 0x00, 0x72] ++ List.replicate 184 0) = none := by decide +kernel

/-- A COMMAND slot, byte by byte from 12.2. -/
theorem test_command_slot :
    (commandData { program := 0x2D, sel := 7, kind := .body, gun := .gun1, boost := 0x4E, spots := 0x21, tag := 0x0A31,
                   cover := true } false).toSlot.bytes = [0x2D, 0x17, 0x4E, 0x21, 0x0A, 0x31, 0x01, 0x6F] := by decide

/-- An EXIT slot, byte by byte from 12.2. -/
theorem test_exit_slot :
    (exitData { Report.reset with exit := { tag := 0x0D01, outcome := .incomplete, owed := 0x20 }, exitCount := 5 }).toSlot.bytes =
      [0x0D, 0x01, 0x29, 0x00, 0x00, 0x00, 0x20, 0x05] := by decide

/-- R118: the boosts of one curve around its four points. -/
theorem test_boosts_of_a_curve :
    let k : Curve := { c1 := 200, c2 := 400, c3 := 800, c4 := 1600, b1 := 20, b2 := 40, b3 := 60, b4 := 100 }
    [0, 100, 199, 200, 201, 399, 400, 799, 800, 1599, 1600, 65535].map (fun n => (k.boost (BitVec.ofNat 16 n)).toNat) =
      [0, 10, 19, 20, 20, 39, 40, 59, 60, 99, 100, 100] := by decide +kernel

/-- R185: the first seven bytes of SEQ15 after the start, and their check byte. -/
theorem test_first_seq15_slot :
    (nextPattern .seq15 (BitVec.allOnes 15)).1.toSlot.bytes = [0x00, 0x02, 0x00, 0x0C, 0x00, 0x28, 0x00, 0x26] := by
  decide +kernel

/-- R92: the selection number runs from 15 back to 1. -/
theorem test_selection_numbers : nextSel 0 = 1 ∧ nextSel 14 = 15 ∧ nextSel 15 = 1 := by decide

/-! ### Single steps -/

theorem test_idle_step : step cell = .next cell := rfl

theorem test_step_takes_the_front :
    step { cell with pending := [.portALinkUp, .portBLinkUp] } =
      .next { cell with pins := { cell.pins with portA := true }, pending := [.portBLinkUp] } := rfl

/-- The outcome's state, or the state given where there is none. -/
def after (i : Instr) (s : State) : State :=
  match exec i s with
  | .next t => t
  | _ => s

theorem test_start_dispatches_the_body_in_the_window :
    ((seqOf (after (.start hd) cell) 0).list.map fun r => (r.body, r.program, r.spots, r.accounts)) = [(7, 9, 4, 1)] ∧
    ((seqOf (after (.start hd) cell) 1).list.map fun r => (r.body, r.program, r.spots, r.accounts)) = [(7, 9, 4, 2)] ∧
    (after (.start hd) cell).node.state = .run ∧ (after (.start hd) cell).mgmt.stored.result = .ok := by decide +kernel

theorem test_pair_with_one_channel_out_gets_a_cover :
    let s := { setChan 1 { chanRec cell 1 with out := true } cell with pairs := [(0, 1)] }
    ((seqOf (after (.start hd) s) 0).list.map fun r => (r.program, r.spots, r.role == .cover, r.accounts)) =
      [(5, 8, true, 3)] ∧ (seqOf (after (.start hd) s) 1).list = [] := by decide +kernel

theorem test_reset_low_then_high_reads_the_straps :
    (after (.powerOnReset 11) (after .resetNLow cell)).node = { NodeCtl.reset with address := 11 } := by decide +kernel

theorem test_unknown_request_is_answered :
    (after (.unknownRequest hd 0x7F) cell).mgmt =
      { lastTag := 1, stored := { code := 0x7F, tag := 1, result := .unknown, payload := [] } } := by decide +kernel

theorem test_eight_losses_take_the_channel_out :
    let s := setSeq 0 { seqOf cell 0 with lossCount := 7 } (inState .run cell)
    (chanRec (countLoss 0 none s) 0).failed = some .replyLost ∧ (seqOf (countLoss 0 none s) 0).lossCount = 0 ∧
    alarmed (countLoss 0 none s) .channelFailed = true := by decide +kernel

/-! ### Witnesses: the whole part and the requests (00, 08, 09) -/

theorem witness_Taken : Taken hd cell ∧ Taken bc cell := by unfold Taken; decide

theorem witness_CellResetClearsRunningState : Taken hd cell := witness_Taken.1

theorem witness_FaultLogIsKeptAndRead : Taken bc cell := witness_Taken.2

theorem witness_ClearAlarmsReadsConditions : Taken hd (inState .suspended cell) := by unfold Taken; decide

theorem witness_AlarmOutputFollowsSummary : Taken hd (inState .run cell) := by unfold Taken; decide

theorem witness_PathTestRequests : Taken hd cell ∧ 2 < (3 : Byte).toNat ∧ ¬2 < (2 : Byte).toNat := by
  unfold Taken; decide

theorem witness_ReadChannelPayload : 31 < (32 : Byte).toNat ∧ (31 : ChanNo).val = (31 : Byte).toNat := by decide

theorem witness_ReadCurveShowsStoredCurve : 3 < (4 : Byte).toNat ∧ (3 : Fin 4).val = (3 : Byte).toNat := by decide

theorem witness_ReadWearPayload :
    (31 : ChanNo).val = (31 : Byte).toNat ∧ ((2 : Byte) = 1 ∨ (2 : Byte) = 2) ∧
    ¬((31 : Byte).toNat ≤ 31 ∧ ((0 : Byte) = 1 ∨ (0 : Byte) = 2)) ∧ ¬(32 : Byte).toNat ≤ 31 := by decide

theorem witness_RequestRowsAreTheirPayloads :
    carries (.testStart hd 2) = some (hd, .testStart, [2]) ∧ ReqCode.testStart.allows 1 = true ∧
    ReqCode.writeSlotMap.allows (1 + 2 * 24) = true ∧ ReqCode.writeSlotMap.allows 1 = false ∧
    carries (.writeSlotMap hd 9 []) = some (hd, .writeSlotMap, [9]) ∧
    ReqCode.retrackLoad.allows 39 = true ∧ ReqCode.retrackLoad.allows 52 = false ∧
    (cell.pins.inReset = false ∧ ({ hd with tag := 0 } : ReqHead).tag = 0) ∧
    hd.tag = ({ cell with mgmt := { cell.mgmt with lastTag := 1 } } : State).mgmt.lastTag ∧ reqCodeOf 0x00 = none ∧
    reqCodeOf 0x44 = none := by decide

/-- A frame that carries TEST START with pattern 2, addressed to node 5 or broadcast to it. -/
def carrying (h : ReqHead) : Frame :=
  frame7 [(requestHeader 5 0x0020 h .testStart 1).toSlot, (data7Of [2]).toSlot]

theorem witness_CarriedRequestIsItsRow :
    ∀ h ∈ [hd, bc], carries (.testStart h 2) = some (h, .testStart, [2]) ∧ h.tag ≠ 0 ∧
      ReqCode.testStart.allows 1 = true ∧ (0x0020 : Half).getLsbD cell.node.address.toNat = true ∧
      cell.pins.inReset = false ∧ cell.sweep.closure = none ∧
      headerOf (carrying h).payload = some (7, .slots24) ∧ h.tag ≠ cell.mgmt.lastTag ∧
      Carried cell.sweep.storedMap (slotsOf (carrying h).payload) cell.node.address 0x0020 h .testStart [2] := by
  intro h hh
  refine ⟨?_, ?_, ?_, ?_, ?_, ?_, ?_, ?_, ⟨1, ?_, ?_⟩, ?_⟩
  all_goals (revert h; decide +kernel)

/-- The header slot of a request of tag 1 with this target, code and length. -/
def header (target code : Byte) (len : Nat) : Slot :=
  Data7.toSlot { b0 := target, b1 := 0, b2 := 0x20, b3 := code, b4 := 1, b5 := byteOf len, b6 := 0 }

/-- The slots of a frame that carries it with these payload slots. -/
def mgmt (target code : Byte) (len : Nat) (sls : List Slot) : List Slot :=
  { data := data7Of [], check := 0 } :: header target code len :: sls

theorem witness_CarriedRequestIsItsRow_otherwise :
    (let bad : Slot := { data := data7Of [5], check := 0 }
     slotFor map1 [bad, bad] (.mgmt 0) = some (1, bad) ∧ bad.ok = false) ∧
    (let x := header 6 2 0
     slotFor map1 (mgmt 6 2 0 []) (.mgmt 0) = some (1, x) ∧ x.ok = true ∧
      x.data.b0 ≠ cell.node.address.setWidth 8 ∧ x.data.b0 ≠ 0xFF) ∧
    (let x := header 0xFF 0x7F 0
     slotFor map1 (mgmt 0xFF 0x7F 0 []) (.mgmt 0) = some (1, x) ∧ x.ok = true ∧ x.data.b4 = hd.tag ∧
      (x.data.b0 = 0xFF ∧ (x.data.b1 ++ x.data.b2).getLsbD cell.node.address.toNat = true) ∧
      reqCodeOf x.data.b3 = none) ∧
    (hd.tag ≠ 0 ∧ hd.tag ≠ cell.mgmt.lastTag ∧ reqCodeOf 0x40 = some .testStart ∧ ReqCode.testStart.allows 2 = false) ∧
    (ReqCode.writeSlotMap.allows 49 = true ∧ (7 : Fin 8) ≠ 0 ∧ 7 * ((7 : Fin 8).val - 1) < 49 ∧
      slotFor map1 (mgmt 5 0x10 49 []) (.mgmt 7) = none) ∧
    (let bad : Slot := { data := data7Of [5], check := 0 }
     slotFor map1 (mgmt 5 0x40 1 [bad]) (.mgmt 1) = some (2, bad) ∧ bad.ok = false ∧
     ∀ i : Fin 8, i ≠ 0 ∧ 7 * (i.val - 1) < 1 → slotFor map1 (mgmt 5 0x40 1 [bad]) (.mgmt i) ≠ none) := by
  decide +kernel

/-- A failing payload slot is logged and its request not taken; one that is unmapped is answered LENGTH. -/
theorem test_payload_slots_are_checked :
    (let bad : Slot := { data := data7Of [5], check := 0 }
     let t := requestEvent id map1 9 (mgmt 5 0x40 1 [bad]) cell
     t.report.log = some { kind := .slotCheck, sweep := 9, slot := 2, pass := .outbound, raw := bad } ∧
     t.mgmt = cell.mgmt) ∧
    (requestEvent id map1 9 (mgmt 5 0x40 1 []) cell).mgmt.stored = { code := 0x40, tag := 1, result := .length, payload := [] } := by
  decide +kernel

theorem witness_ResetFreezesPart :
    (after .resetNLow cell).pins.inReset = true ∧ Instr.start hd ≠ .resetNLow ∧
    (∀ straps, Instr.start hd ≠ .powerOnReset straps) ∧
    Instr.start hd ∉ ([.portALinkDown, .portALinkUp, .portBLinkDown, .portBLinkUp, .holdNFallingEdge, .holdNRisingEdge] : List Instr) := by
  refine ⟨by decide +kernel, by decide, nofun, by decide⟩

theorem witness_HoldLatchIsSetAndReleased :
    cell.pins.inReset = false ∧ cell.pins.holdN = true ∧
    ({ cell with pins := { cell.pins with holdN := false } } : State).pins.holdN = false := by decide

theorem witness_StartEntersRunAndCatchesUp :
    Taken hd cell ∧ cell.node.state = .config ∧ cell.track.uncertain = false ∧
    cell.sweep.storedMap.holds .line = true ∧ QueuesWf cell ∧ MarksWf cell ∧
    (∀ c : Fin 2, ∃ b, present cell ⟨c.val, by omega⟩ = true ∧ 1 < cell.node.stations ∧
      (chanRec cell ⟨c.val, by omega⟩).preselect ≤ 1 ∧ 1 ≤ (chanRec cell ⟨c.val, by omega⟩).station ∧
      (after (.start hd) cell).track.queue[1]? = some (some b) ∧ b.passedOver = false) := by
  refine ⟨by unfold Taken; decide, by decide, by decide, by decide +kernel, by unfold QueuesWf; decide, ?_, ?_⟩
  · refine ⟨fun b hb => ?_, fun r hr => ?_⟩
    · have : b = body7 := by simpa [cell, List.replicate, List.set] using hb
      subst this
      unfold BodyOk
      decide
    · simp [cell, Tracking.reset] at hr
  · intro c
    refine ⟨{ body7 with resolved := 3 }, ?_⟩
    revert c
    decide +kernel

theorem witness_StopSettlesLists :
    cell.node.state = .config ∧ (inState .held cell).node.state ≠ .config ∧ Taken hd (inState .held cell) := by
  unfold Taken; decide

theorem witness_NodeSettingsAreCheckedAndStored :
    (17 : Byte).toNat > 16 ∧ (16 : Byte).toNat ≤ 16 ∧ 1 < (2 : Byte).toNat ∧
    ((9 : Byte).toNat ≠ cell.node.stations ∧ some body7 ∈ cell.track.queue) ∧
    ((1 : Byte).toNat ≠ State.reset.node.stations ∧ State.reset.node.state = .config ∧
      (∀ b, some b ∉ State.reset.track.queue)) ∧
    (∃ c, (1 : Byte).toNat ≤ (chanRec (setChan 3 { ChanRec.reset with station := 1 } State.reset) c).station) ∧
    ∀ c, (chanRec State.reset c).station < (1 : Byte).toNat := by
  refine ⟨by decide, by decide, by decide, ⟨by decide, by decide⟩, ⟨by decide, by decide, ?_⟩, ⟨3, by decide⟩, by decide⟩
  intro b hb
  simp [State.reset, Tracking.reset] at hb

theorem witness_NodeStateRefusals :
    (inState .run cell).node.state = .run ∧ (inState .held cell).node.state = .held ∧
    Taken hd (inState .run cell) ∧ Taken hd { cell with track := { cell.track with uncertain := true } } ∧
    State.reset.sweep.storedMap.holds .line = false ∧ State.reset.track.uncertain = false ∧
    (List.replicate 24 (⟨0, 0⟩ : RawMapEntry)).length ≤ 24 ∧ 1 ≤ [(⟨0, 0, 0, 0, 0, 0⟩ : RawRetrack)].length := by
  unfold Taken; decide +kernel

theorem witness_ReadStatusPayload :
    cell.track.announced.length ≤ 4 ∧
    ({ cell with track := { cell.track with announced := List.replicate 4 ⟨0, 0, 0⟩ } } : State).track.announced.length ≤ 4 := by
  decide

/-! ### Witnesses: the maps, the roster and the banks (07, 03, 02) -/

theorem witness_WriteSlotMapStoresLegalMap :
    (cell.node.state = .config ∧ ((0 : Byte) = 0 ∨ 184 < (161 : Byte).toNat + 24 ∨ False)) ∧
    roleOf ⟨8, 0⟩ = none ∧ roleOf ⟨2, 32⟩ = none ∧ roleOf ⟨4, 8⟩ = none ∧
    (¬184 < (160 : Byte).toNat + 24 ∧ (roleOf ⟨5, 0⟩).isSome = true) ∧
    (∀ i : Fin 183, some (map1.put 183 [.test])[i.val] =
      if h : (183 : Byte).toNat ≤ i.val + 1 ∧ i.val + 1 - (183 : Byte).toNat < [(⟨7, 0⟩ : RawMapEntry)].length
      then roleOf [(⟨7, 0⟩ : RawMapEntry)][i.val + 1 - (183 : Byte).toNat] else some cell.sweep.storedMap[i.val]) ∧
    MapOk (map1.put 183 [.test]) ∧
    (∀ i : Fin 183, some (map1.put 183 [.line])[i.val] =
      if h : (183 : Byte).toNat ≤ i.val + 1 ∧ i.val + 1 - (183 : Byte).toNat < [(⟨1, 0⟩ : RawMapEntry)].length
      then roleOf [(⟨1, 0⟩ : RawMapEntry)][i.val + 1 - (183 : Byte).toNat] else some cell.sweep.storedMap[i.val]) ∧
    ¬MapOk (map1.put 183 [.line]) := by
  rw [← slotMap_legal_iff, ← slotMap_legal_iff]
  decide +kernel

theorem witness_ReadSlotMapShowsStoredMap :
    (24 < (25 : Byte).toNat ∧ 184 < (161 : Byte).toNat + (24 : Byte).toNat) ∧
    ¬((160 : Byte) = 0 ∨ (24 : Byte) = 0 ∨ 24 < (24 : Byte).toNat ∨ 184 < (160 : Byte).toNat + (24 : Byte).toNat) := by
  decide

theorem witness_WriteChannelStoresRecord :
    cell.node.state = .config ∧ 31 < (32 : Byte).toNat ∧ (0 : ChanNo).val = (0 : Byte).toNat ∧
    (31 : ChanNo).val = (31 : Byte).toNat ∧
    ¬(cell.node.stations ≤ (7 : Byte).toNat ∨ 3 < (3 : Byte).toNat ∨ (2 : Byte) = 0 ∨ 2 < (2 : Byte).toNat) ∧
    cell.node.stations ≤ (8 : Byte).toNat ∧ partner cell 0 = none ∧
    partner { cell with pairs := [(0, 1)] } 0 = some 1 ∧ (chanRec cell 1).station ≠ (2 : Byte).toNat ∧
    ((2 : Byte) == 2) ≠ (chanRec cell 0).twoGuns ∧ ((1 : Byte) == 2) = (chanRec cell 0).twoGuns := by decide +kernel

theorem witness_WritePairIsChecked :
    cell.node.state = .config ∧ 31 < (32 : Byte).toNat ∧ (0 : ChanNo) ≠ 31 ∧ (31 : ChanNo).val = (31 : Byte).toNat ∧
    ((0, 1) ∈ ({ cell with pairs := [(0, 1)] } : State).pairs) ∧ (chanRec cell 0).station ≠ (chanRec cell 31).station ∧
    (chanRec cell 2).station = (chanRec cell 31).station ∧ (chanRec cell 2).lead = (chanRec cell 31).lead ∧
    (inState .suspended cell).node.state ≠ .config := by decide +kernel

theorem witness_ClearPairUnpairsBoth :
    let s : State := { cell with pairs := [(2, 31)] }
    Taken hd s ∧ s.node.state = .config ∧ PairsWf s ∧ partner s 2 = some 31 := by
  refine ⟨by unfold Taken; decide, by decide, ⟨by decide +kernel, by decide +kernel⟩, by decide +kernel⟩

theorem witness_SetServiceSetsAndClearsFactors :
    31 < (32 : Byte).toNat ∧ 1 < (2 : Byte).toNat ∧ available cell 0 = true ∧ (chanRec cell 0).out = false ∧
    available cell 31 = false ∧ (chanRec cell 31).out = false ∧
    (chanRec (setChan 0 { chanRec cell 0 with out := true } cell) 0).out = true ∧
    (let s := setChan 0 { chanRec cell 0 with failed := some .replyLost } cell
     (chanRec s 0).failed.isSome = true ∧ (seqOf s 0).stable = none) ∧
    replyState (data7Of [0, 0x10]) = some .idle := by decide +kernel

theorem witness_GateGuardsStaging :
    let busy : State := { cell with bank := { cell.bank with copy := .running 64 } }
    let armed : State := { cell with bank := { cell.bank with armed := true } }
    let bound : State := { cell with bank := { cell.bank with live := .bank1 } }
    busy.bank.copy ≠ .idle ∧ (armed.bank.copy = .idle ∧ armed.bank.armed = true) ∧
    (bound.bank.copy = .idle ∧ bound.bank.armed = false ∧ some body7 ∈ bound.track.queue ∧ body7.bank ≠ bound.bank.live) ∧
    Taken hd busy ∧ Taken hd armed ∧ Taken hd bound := by
  unfold Taken; decide

theorem witness_EditsReachStagingAlone :
    Taken hd State.reset ∧ State.reset.bank.copy = .idle ∧ State.reset.bank.armed = false ∧
    (∀ b, some b ∈ State.reset.track.queue → b.bank = State.reset.bank.live) ∧ 32 < (27 : Byte).toNat + 6 ∧
    (¬((63 : Byte) = 0 ∨ 63 < (63 : Byte).toNat ∨ 32 < (26 : Byte).toNat + 6) ∧ (0x24 : Byte).extractLsb' 4 2 = 2#2 ∧
      ((0x24 : Byte).extractLsb' 0 3).toNat = 4) ∧
    (4 < ((0x15 : Byte).extractLsb' 0 3).toNat) ∧ (0x30 : Byte).extractLsb' 4 2 = 3#2 ∧
    63 < (64 : Byte).toNat ∧ (62 : Fin 63).val + 1 = (63 : Byte).toNat ∧ (0 : Fin 63).val + 1 = (1 : Byte).toNat := by
  refine ⟨by unfold Taken; decide, by decide, by decide, ?_, by decide, by decide, by decide, by decide, by decide, by decide,
    by decide⟩
  intro b hb
  simp [State.reset, Tracking.reset] at hb

theorem witness_ReadEntriesPayload :
    1 < (2 : Byte).toNat ∧ 6 < (7 : Byte).toNat ∧ 32 < (27 : Byte).toNat + (6 : Byte).toNat ∧
    ¬(1 < (1 : Byte).toNat ∨ (63 : Byte) = 0 ∨ 63 < (63 : Byte).toNat ∨ (6 : Byte) = 0 ∨ 6 < (6 : Byte).toNat ∨
      32 < (26 : Byte).toNat + (6 : Byte).toNat) ∧
    BankIx.bank1 ≠ cell.bank.live ∧
    ({ cell with bank := { cell.bank with copy := .running 1 } } : State).bank.copy ≠ .idle ∧
    (62 : Fin 63).val + 1 = (63 : Byte).toNat := by decide

theorem witness_CommitAndCopy :
    (State.reset.bank.copy = .idle ∧ State.reset.bank.armed = false ∧ State.reset.bank.torn = false) ∧
    (∀ b, some b ∈ State.reset.track.queue → b.bank = State.reset.bank.live) ∧
    ({ State.reset with bank := { State.reset.bank with torn := true } } : State).bank.torn = true ∧
    ({ State.reset with bank := { State.reset.bank with armed := true } } : State).bank.armed = true ∧
    (let s (n : Nat) : State := { State.reset with bank := { State.reset.bank with copy := .running n } }
     (s 1).bank.copy = .running ((0 : Fin 63).val + 1) ∧ (s 63).bank.copy = .running ((62 : Fin 63).val + 1) ∧
     (s 64).bank.copy = .running 64 ∧ (s 64).bank.copy ≠ .idle ∧ (s 64).pins.inReset = false) := by
  refine ⟨by decide, ?_, by decide, by decide, by decide⟩
  intro b hb
  simp [State.reset, Tracking.reset] at hb

theorem witness_WholeCopyMakesBanksEqual :
    let s := after (.copyBank hd) State.reset
    s.pins.inReset = false ∧ s.bank.copy = .running 1 := by decide +kernel

/-! ### Witnesses: wear, tracking, reports, the path test (06, 01, 10, 11) -/

theorem witness_WriteCurveStoresWholeCurve :
    3 < (4 : Byte).toNat ∧ (3 : Fin 4).val = (3 : Byte).toNat ∧
    (1 ≤ (1 : Half).toNat ∧ (1 : Half).toNat < (2 : Half).toNat ∧ (2 : Half).toNat < (3 : Half).toNat ∧
      (3 : Half).toNat < (65535 : Half).toNat) ∧ ¬1 ≤ (0 : Half).toNat ∧ ¬(7 : Half).toNat < (7 : Half).toNat ∧
    250 < (251 : Byte).toNat ∧ ¬250 < (250 : Byte).toNat := by decide

theorem witness_BoostInterpolatesCurve : CurveOk Curve.reset := by unfold CurveOk; decide

theorem witness_WearWritesEvaluateFlags :
    ((31 : Byte).toNat ≤ 31 ∧ ((1 : Byte) = 1 ∨ (1 : Byte) = 2) ∧ (3 : Byte).toNat ≤ 3) ∧
    ¬((31 : Byte).toNat ≤ 31 ∧ ((3 : Byte) = 1 ∨ (3 : Byte) = 2)) ∧ ¬(4 : Byte).toNat ≤ 3 ∧
    4095 < (4096 : Half).toNat ∧ available cell 0 = true := by decide +kernel

theorem witness_ReadTrackingPayload :
    cell.node.stations ≤ (8 : Byte).toNat ∧ (7 : Byte).toNat < cell.node.stations := by decide

/-- A retrack record for a station. -/
def retrack (st : Byte) (style options : Byte) (done owed : Mask) : RawRetrack :=
  { station := st, tag := 3, style := style, options := options, done := done, owed := owed }

theorem witness_RetrackLoadStoresRecords :
    cell.node.state = .config ∧ (inState .suspended cell).node.state = .suspended ∧
    (retrackOf (retrack 0 63 15 1 2)).isSome = true ∧ 63 < (retrack 0 64 0 0 0).style.toNat ∧
    15 < (retrack 0 0 16 0 0).options.toNat ∧
    (inMask (retrack 0 1 0 4 4).done 2 = true ∧ inMask (retrack 0 1 0 4 4).owed 2 = true) ∧
    (retrack 7 1 0 0 0).station.toNat < cell.node.stations ∧ cell.node.stations ≤ (retrack 8 1 0 0 0).station.toNat ∧
    (retrack 7 1 0 0 0).station.toNat < cell.track.image.length ∧
    ¬([retrack 7 1 0 0 0, retrack 7 2 0 0 0].map RawRetrack.station).Nodup ∧
    ([retrack 7 1 0 0 0, retrack 0 2 0 0 0].map RawRetrack.station).Nodup := by decide +kernel

/-- Tracking lost, with one body loaded into the image at station 1. -/
def lost : State :=
  { inState .suspended cell with track := { Tracking.reset with
      uncertain := true, image := (List.replicate 8 none).set 1 (some { tag := 3, style := 1, options := 0, done := 0, owed := 2 }) } }

theorem witness_RetrackApplyReplacesQueue :
    Taken hd lost ∧ lost.node.state = .suspended ∧ lost.track.image.length = 8 ∧ cell.node.state = .config ∧
    QueuesWf lost ∧ MarksWf lost ∧
    (present lost 0 = true ∧ 1 < lost.node.stations ∧ (chanRec lost 0).preselect ≤ 1 ∧ 1 ≤ (chanRec lost 0).station ∧
     ∃ b, (after (.retrackApply hd) lost).track.queue[1]? = some (some b) ∧ b.passedOver = false ∧ inMask b.resolved 0 = true) := by
  refine ⟨by unfold Taken; decide, by decide, by decide, by decide, by unfold QueuesWf; decide, ⟨fun b hb => ?_, fun r hr => ?_⟩,
    by decide +kernel, by decide, by decide, by decide,
    ⟨{ body7 with id := 1, tag := 3, owed := 2, resolved := 3 }, by decide +kernel, by decide, by decide⟩⟩
  · simp [lost, Tracking.reset] at hb
  · have : r = { tag := 3, style := 1, options := 0, done := 0, owed := 2 } := by simpa [lost, List.replicate, List.set] using hr
    subst this
    decide

theorem witness_FirstVerdictStands :
    (∀ b, some b ∈ State.reset.track.queue → b.id ≠ 7) ∧ BodyOk false body7 := by
  refine ⟨fun b hb => ?_, by unfold BodyOk; decide⟩
  simp [State.reset, Tracking.reset] at hb

/-! ### Witnesses: lists, settlement, loss of service (04) -/

/-- Body 7 at station 1 and body 6 behind it, at station 0. -/
def two : State :=
  { cell with track := { cell.track with
      queue := [some { body7 with id := 6 }, some body7, none, none, none, none, none, none] } }

theorem witness_RecordsStandInBodyOrder :
    let r6 := { rec7 with body := 6 }
    let job ph : State := withJob [rec7] (some (.body ph 1)) two
    let late : State := withJob [r6] (some (.body .selecting 1)) two
    (stationOf two 7 = some 1 ∧ stationOf two 6 = some 0) ∧
    ((seqOf (job .running) 0).list = [rec7] ∧ (seqOf (job .running) 0).job = some (.body .running 1)) ∧
    ((seqOf late 0).list = [r6] ∧ (seqOf late 0).job = some (.body .selecting 1)) := by decide +kernel

theorem witness_BodiesAreSettled :
    bodyAt cell 2 = none ∧
    (let gap : Body := { body7 with style := 0, empty := true }
     bodyAt { cell with track := { cell.track with queue := [some gap] } } 0 = some gap ∧ gap.passedOver = true) ∧
    bodyAt cell 1 = some body7 ∧ body7.style ≠ 0 ∧ body7.passedOver = false ∧ inMask body7.resolved 0 = false ∧
    partner cell 0 = none ∧ available cell 0 = true ∧ available cell 1 = true ∧
    (let s : State := { cell with pairs := [(0, 1)] }
     let out (c : ChanNo) (u : State) := setChan c { chanRec u c with out := true } u
     partner s 0 = some 1 ∧ available (out 1 s) 1 = false ∧ available (out 1 s) 0 = true ∧ entry9.backup ≠ 0 ∧
     (ownRecord s body7 1).isSome = true ∧ available (out 0 (out 1 s)) 0 = false ∧
     inMask ({ body7 with resolved := 2 } : Body).resolved 1 = true) := by decide +kernel

theorem witness_LossOfServiceMovesWork :
    let s : State := { withJob [rec7] (some (.body .running 1)) cell with pairs := [(0, 1)] }
    partner s 0 ≠ some 0 ∧ partner s 0 = some 1 ∧ bodyOf s rec7.body = some body7 ∧ body7.style ≠ 0 ∧
    available s 1 = true ∧ (∀ y ∈ (seqOf s 1).list, y.body ≠ rec7.body) ∧
    available (setChan 1 { chanRec s 1 with out := true } s) 1 = false ∧ entry9.backup ≠ 0 ∧ Entry.reset.backup = 0 ∧
    (let t := setSeq 1 { seqOf s 1 with list := [rec7], job := some (.body .running 2) } s
     (seqOf t 1).job = some (.body .running 2) ∧ (seqOf t 1).list = [rec7]) ∧
    (partner cell 0 = none ∧ bodyOf cell 9 = none) ∧
    (let t := setSeq 1 { seqOf s 1 with list := [rec7], job := some (.body .loaded 2) } s
     (seqOf t 1).job = some (.body .loaded 2) ∧ rec7 ∈ (seqOf t 1).list ∧
     (seqOf (loseService 0 .orderly t) 0).list = [rec7] ∧ (seqOf (loseService 0 .failed t) 0).job = none) := by decide +kernel

/-- R71: the premises under which an arrival and a loss of service commute hold of a pair with both channels in service,
and the two orders leave a COVER record in the partner's list. -/
theorem witness_arrival_loss_comm :
    let s : State := { cell with pairs := [(0, 1)] }
    let out (u : State) : State := setChan 0 { chanRec u 0 with out := true } u
    bodyAt s 1 = some body7 ∧ (∀ b, some b ∈ s.track.queue → b.id = body7.id → b = body7) ∧
    body7.done &&& body7.resolved = body7.done ∧ partner s 0 = some 1 ∧ available s 0 = true ∧ available s 1 = true ∧
    available (out s) 0 = false ∧ inMask body7.resolved 1 = false ∧ (seqOf s 0).job = none ∧
    (seqOf s 0).list = [] ∧ (seqOf s 1).job = none ∧ (seqOf s 1).list = [] ∧
    ((seqOf (loseService 0 .failed (out (settle 0 1 s))) 1).list.map fun r => (r.program, r.accounts)) = [(5, 3)] := by
  refine ⟨rfl, ?_, ?_⟩
  · intro b hb _
    simpa [cell] using hb
  · decide +kernel

/-- The masks (resolved, done, owed) of the body at station 1 when it arrives for the pair of channels 0 and 1 before, and
after, channel 0 is taken out. -/
def twoOrders (s : State) : List (Option (Mask × Mask × Mask)) :=
  let s := { s with pairs := [(0, 1)] }
  let lose (u : State) : State := loseService 0 .orderly (setChan 0 { chanRec u 0 with out := true } u)
  [lose (settle 0 1 s), settle 0 1 (lose s)].map fun u => (bodyAt u 1).map fun b => (b.resolved, b.done, b.owed)

/-- The three corners of log 35: each order has the bits that R68, R69 and R76 state for it. Corner 1: channel 1 is out
and channel 0 has no own program (R76 case 1; R68, last row). Corner 2: channel 1 is absent (R76 case 1; R68, "no
mark in the other rows"). Corner 3: channel 1 is owed by an image (R76 case 5; R69). -/
theorem test_corners_of_R71_follow_R68_R69_R76 :
    let idle0 : Bank := Bank.reset.set 0
      { enabled := true, entries := (Vector.replicate 32 entry9).set 0 { entry9 with base := 0 } }
    let owed1 : Body := { body7 with resolved := 2, owed := 2 }
    twoOrders { setChan 1 { chanRec cell 1 with out := true } cell with bank := { cell.bank with bank0 := idle0 } } =
      [some (3, 0, 3), some (3, 0, 2)] ∧
    twoOrders { cell with sweep := { cell.sweep with mapInForce := some map0 } } =
      [some (3, 0, 3), some (1, 0, 1)] ∧
    twoOrders { cell with track := { cell.track with queue := (List.replicate 8 none).set 1 (some owed1) } } =
      [some (3, 0, 2), some (3, 0, 3)] := by decide +kernel

/-- A pending record moves to the partner as a COVER record in the place of the partner's own, whose job is withdrawn. -/
theorem test_cover_replaces_the_partners_record :
    let s : State := { withJob [rec7] none cell with pairs := [(0, 1)] }
    let t := setSeq 1 { seqOf s 1 with list := [{ rec7 with accounts := 2 }], job := some (.body .loaded 2) } s
    let u := loseService 0 .orderly t
    ((seqOf u 1).list.map fun r => (r.program, r.spots, r.accounts)) = [(5, 8, 3)] ∧ (seqOf u 1).job = none ∧
    (seqOf u 0).list = [] ∧ u.track.queue[1]? = some (some body7) := by decide +kernel

/-! ### Witnesses: the handshake (05) -/

theorem witness_OpportunityStartsJob :
    let s := withJob [rec7] none (inState .run cell)
    (s.node.state = .run ∧ present s 0 = true ∧ (seqOf s 0).job = none ∧ available s 0 = true) ∧
    (let due : GunRec := { GunRec.reset with due := true, dressProgram := 3 }
     let t := setWear 0 { gun1 := due, gun2 := due } (withJob [] none s)
     (chanRec t 0).failed = none ∧ (seqOf t 0).list = [] ∧ (wearOf t 0).gun1.due = true) ∧
    ((chanRec (setChan 0 { chanRec s 0 with twoGuns := true } s) 0).twoGuns = true) ∧
    (available (setChan 0 { chanRec s 0 with out := true } s) 0 = false) := by decide +kernel

/-- A reply: program, byte 1, spots, gun, fault code, tag. -/
def reply (program b1 spots gun fault tag : Byte) : Data7 :=
  { b0 := program, b1 := b1, b2 := spots, b3 := gun, b4 := fault, b5 := tag, b6 := 0 }

theorem witness_ReplyBecomesStable :
    (replyState (reply 9 0x57 0 0 0 0) = some .fault ∧ replyState (reply 9 0x67 0 0 0 0) = none) ∧
    (let d := reply 9 0x21 0 0 0 0
     let s := setSeq 0 { seqOf cell 0 with history := some { sweep := 65535, reply := some d } } cell
     (seqOf s 0).stable ≠ some d ∧ (seqOf s 0).history = some { sweep := 65535, reply := some d } ∧
     (0 : Half) = 65535 + 1) := by decide +kernel

theorem witness_StableReplyActsByPhase :
    let s ph := setSeq 0 { seqOf cell 0 with
      list := [rec7], job := some (.body ph 1)
      cmd := { program := 9, sel := 1, kind := .body, gun := .gun1, boost := 0, spots := 4, tag := 0x2100, cover := false } } cell
    let job ph : Job := .body ph 1
    (∀ ph, (seqOf (s ph) 0).job = some (job ph) ∧ (seqOf (s ph) 0).list = [rec7] ∧ (seqOf (s ph) 0).cmd.program = 9) ∧
    stationOf (s .loaded) rec7.body = some (chanRec (s .loaded) 0).station ∧
    (∀ b1 ∈ [(0x01 : Byte), 0x11, 0x21, 0x31, 0x41, 0x51, 0x61, 0x71], selEcho (reply 9 b1 4 0 0 0) = (job .running).sel) ∧
    (completeBody 0 rec7 4 (s .running)).track.queue[1]? = some (some { body7 with resolved := 1, done := 1 }) ∧
    actOn 0 (reply 9 0x41 4 0 0 0) (s .running) = completeBody 0 rec7 4 (s .running) ∧
    (let d := reply 9 0x41 4 1 0 7
     (d.b1.extractLsb' 4 3).toNat = 4 ∧ d.b1.extractLsb' 0 4 = (job .loaded).sel ∧ (job .loaded).phase ≠ .selecting ∧
     d.b0 = (seqOf (s .loaded) 0).cmd.program ∧ d.b5 ≠ loByte rec7.tag) := by
  refine ⟨?_, by decide +kernel, by decide, by decide +kernel, rfl, by decide +kernel⟩
  intro ph
  cases ph <;> decide +kernel

theorem witness_CompletionsWearGun :
    (seqOf (withJob [rec7] (some (.body .running 1)) cell) 0).list = rec7 :: [] ∧
    (rec7.spots.toNat ≤ (4 : Byte).toNat ∧ ¬rec7.spots.toNat ≤ (3 : Byte).toNat) := by decide +kernel

theorem witness_FailureTakesChannelOut :
    (partner cell 0 ≠ some 0 ∧ (chanRec cell 0).failed = none ∧ cell.pins.inReset = false) ∧
    (let s := setChan 0 { chanRec cell 0 with failed := some .replyLost }
       (withJob [] (some (.maint .running .dress .gun1 3 2)) cell)
     (chanRec s 0).failed.isSome = true ∧ (seqOf s 0).job = some (.maint .running .dress .gun1 3 2)) ∧
    (let s := withJob [rec7] (some (.body .loaded 2)) cell
     (chanRec s 0).failed = none ∧ (seqOf s 0).job.isSome = true ∧ partner s 0 ≠ some 0 ∧ (seqOf cell 0).job = none ∧
     (chanRec (setChan 0 { chanRec s 0 with failed := some .replyLost } s) 0).failed.isSome = true ∧
     ∀ ph k g p n, (seqOf s 0).job ≠ some (.maint ph k g p n)) ∧
    (let s n := setSeq 0 { seqOf cell 0 with lossCount := n } cell
     8 ≤ (seqOf (s 8) 0).lossCount ∧ (seqOf (s 7) 0).lossCount < 8) ∧
    (let s := setSeq 0 { seqOf cell 0 with list := [rec7], job := some (.body .selecting 1), watchCount := 200 } (inState .run cell)
     s.node.state = .run ∧ (seqOf s 0).job = some (.body .selecting 1) ∧
     (chanRec s 0).selectWatch.toNat ≤ (seqOf s 0).watchCount) := by
  refine ⟨by decide +kernel, by decide +kernel, ⟨by decide +kernel, by decide +kernel, by decide +kernel, by decide +kernel,
    by decide +kernel, nofun⟩, by decide +kernel, by decide +kernel⟩

theorem witness_PassesCountTowardLimits :
    let s l w := setSeq 0 { seqOf cell 0 with list := [rec7], job := some (.body .selecting 1), lossCount := l, watchCount := w }
      (inState .run cell)
    (replyState (reply 9 0x51 0 0 0 0)).isSome = true ∧ ((reply 9 0x51 0 0 0 0).b1.extractLsb' 4 3).toNat = 5 ∧
    ((reply 9 0x01 0 0 0 0).b1.extractLsb' 4 3).toNat = 0 ∧
    (s 6 198).node.state = .run ∧ (seqOf (s 6 198) 0).lossCount + 1 < 8 ∧ 8 ≤ (seqOf (s 7 199) 0).lossCount + 1 ∧
    (seqOf (s 6 198) 0).watchCount + 1 < (chanRec (s 6 198) 0).selectWatch.toNat ∧
    (chanRec (s 7 199) 0).selectWatch.toNat ≤ (seqOf (s 7 199) 0).watchCount + 1 := by decide +kernel

/-! ### Witnesses: tracking and the passes (01, 07) -/

/-- A LINE slot. -/
def line (transfer sequence : Byte) : Data7 :=
  { b0 := transfer, b1 := sequence, b2 := 0x21, b3 := 1, b4 := 1, b5 := 0, b6 := 0 }

/-- A frame whose LINE slot, slot 9, is this one. -/
def lineFrame (sl : Slot) : Frame := frame7 (List.replicate 8 (data7Of [0xEE]).toSlot ++ [sl])

theorem no_request_in (f : Frame) (sl : Slot) (h1 : slotFor map1 (slotsOf f.payload) (.mgmt 0) = some (1, sl))
    (h2 : viaOf 5 sl.data = none) : NoRequest map1 (slotsOf f.payload) cell.node.address := by
  intro x hx _
  rw [h1] at hx
  cases hx
  exact h2

theorem witness_LineSlotMovesTracking :
    (cell.track.baseline = none ∧ cell.track.uncertain = false) ∧
    ((line 0 0).b0 - (line 255 0).b0 = 1 ∧ 2 ≤ ((line 1 0).b0 - (line 255 0).b0).toNat ∧ (line 9 0).b0 - (line 9 1).b0 = 0) ∧
    (cell.pins.inReset = false ∧ cell.sweep.closure = none ∧ cell.sweep.mapInForce = some cell.sweep.storedMap ∧
      cell.sweep.storedMap.slotOf .line = some 9) ∧
    (let f := lineFrame (line 1 0).toSlot
     headerOf f.payload = some (7, .slots24) ∧ NoRequest map1 (slotsOf f.payload) cell.node.address ∧
     (slotsOf f.payload)[9]? = some (line 1 0).toSlot ∧ (line 1 0).toSlot.ok = true) ∧
    (let bad : Slot := { data := line 1 0, check := 0 }
     let f := lineFrame bad
     headerOf f.payload = some (7, .slots24) ∧ NoRequest map1 (slotsOf f.payload) cell.node.address ∧
     (slotsOf f.payload)[9]? = some bad ∧ bad.ok = false) := by
  refine ⟨by decide, by decide, ?_, ⟨by decide +kernel, no_request_in _ (data7Of [0xEE]).toSlot ?_ ?_, ?_, ?_⟩,
    ⟨?_, no_request_in _ (data7Of [0xEE]).toSlot ?_ ?_, ?_, ?_⟩⟩ <;> decide +kernel

theorem witness_TransferMovesQueue :
    let s := inState .run cell
    QueuesWf s ∧ MarksWf s ∧ s.track.uncertain = false ∧ s.node.state = .run ∧ present s 1 = true ∧
    0 < s.node.stations ∧ (chanRec s 1).preselect = 0 ∧ (transfer s).track.queue[2]? = some (some body7) ∧
    (bodyAt s (chanRec s 31).station = none ∧ bodyAt s (chanRec s 0).station = some body7) ∧
    (∃ b, (transfer { s with track := { s.track with announced := [{ tag := 1, style := 1, options := 0 }] } }).track.queue[0]? =
      some (some b) ∧ b.passedOver = false) := by
  refine ⟨by unfold QueuesWf; decide, ?_, by decide, by decide, by decide +kernel, by decide, by decide +kernel,
    by decide +kernel, by decide +kernel,
    ⟨{ body7 with id := 8, tag := 1, resolved := 2 }, by decide +kernel, by decide⟩⟩
  refine ⟨fun b hb => ?_, fun r hr => ?_⟩
  · have : b = body7 := by simpa [inState, cell, List.replicate, List.set] using hb
    subst this
    unfold BodyOk
    decide
  · simp [inState, cell, Tracking.reset] at hr

/-- A transfer in CONFIG takes the departure of a RUNNING and of a LOADED record: an orphan, a withdrawal, owed marks. -/
theorem witness_TransferMovesQueue_departures :
    ¬(cell.node.state = .run ∨ cell.node.state = .held) ∧ bodyAt cell (chanRec cell 0).station = some body7 ∧
    (let s ph := withJob [rec7] (some (.body ph 1)) cell
     (seqOf (s .running) 0).job = some (.body .running 1) ∧ (seqOf (s .running) 0).list = rec7 :: [] ∧ rec7.body = body7.id ∧
     (seqOf (transfer (s .running)) 0).job = some (.orphan 9 .gun1 0x2100 1) ∧
     (seqOf (transfer (s .loaded)) 0).job = none ∧ (seqOf (transfer (s .loaded)) 0).list = [] ∧
     (transfer (s .loaded)).track.queue[2]? = some (some { body7 with owed := 1, resolved := 1 })) := by decide +kernel

/-- The sweep that is awaited. -/
def awaited (closed : Bool) : Outstanding := { number := 7, size := .slots24, closed := closed, addressed := true }

/-- The part with channel 0 alone present and an awaited sweep. -/
def waiting (closed : Bool) : State :=
  { cell with sweep := { cell.sweep with
      storedMap := map0, mapInForce := some map0, outstanding := some (awaited closed), watch := some 50 } }

theorem witness_LinksAndWatch :
    cell.pins.inReset = false ∧ (cell.sweep.outstanding = none ∧ cell.sweep.closure = none ∧ cell.pins.portA = false) ∧
    headerOf (frame7 []).payload = some (7, .slots24) ∧
    ((waiting false).sweep.outstanding = some (awaited false) ∧ (awaited false).closed = false ∧
      (waiting false).sweep.watch ≠ none) ∧
    (awaited true).closed = true ∧ cell.sweep.watch = none := by decide +kernel

theorem witness_FramesAreForwarded :
    cell.pins.inReset = false ∧ cell.sweep.closure = none ∧
    ({ cell with sweep := { cell.sweep with closure := some (frame7 []) } } : State).sweep.closure = some (frame7 []) ∧
    headerOf [0xC5] = none ∧ headerOf (frame7 []).payload = some (7, .slots24) ∧
    (∀ o, cell.sweep.outstanding = some o → o.number ≠ 7 ∨ o.size ≠ .slots24) := by
  refine ⟨rfl, rfl, rfl, by decide, by decide +kernel, nofun⟩

theorem witness_OutboundPassIsProcessed :
    cell.pins.inReset = false ∧ headerOf (frame7 []).payload = some (7, .slots24) ∧
    (map1[8] ≠ .test ∧ map1[8] = .line) ∧ map1.slotOf (.command 1) = some 14 ∧ 14 < SizeCode.slots24.slots := by
  decide +kernel

theorem witness_QuietOutboundPass :
    let s := waiting false
    let sls := slotsOf (lineFrame (line 0 0).toSlot).payload
    s.pins.inReset = false ∧ s.sweep.closure = none ∧ s.sweep.mapInForce = some s.sweep.storedMap ∧
    headerOf (lineFrame (line 0 0).toSlot).payload = some (7, .slots24) ∧ slotFor map0 sls .line = none ∧
    (∀ x, slotFor map0 sls (.mgmt 0) = some x → x.2.ok = true ∧ viaOf s.node.address x.2.data = none) ∧
    present s 0 = true ∧ map0.slotOf (.command 0) = some 12 ∧ testSlots map0 24 = [16] := by
  refine ⟨by decide, by decide, by decide +kernel, by decide +kernel, by decide +kernel, ?_, by decide +kernel,
    by decide +kernel, by decide +kernel⟩
  intro x hx
  have h1 : slotFor map0 (slotsOf (lineFrame (line 0 0).toSlot).payload) (.mgmt 0) = some (1, (data7Of [0xEE]).toSlot) := by
    decide +kernel
  rw [h1] at hx
  cases hx
  decide +kernel

theorem witness_ReturnPassIsProcessed :
    let s := waiting false
    s.pins.inReset = false ∧ s.sweep.closure = none ∧ s.sweep.outstanding = some (awaited false) ∧
    s.sweep.mapInForce = some map0 ∧
    headerOf (frame7 []).payload = some ((awaited false).number, (awaited false).size) ∧
    (map0.slotOf .status = some 10 ∧ map0.slotOf .exit = some 11 ∧ map0.slotOf (.mgmt 7) = some 8) ∧
    present s 0 = true ∧ (∀ d, d ≠ 0 → present s d = false) ∧ (awaited false).addressed = true ∧
    State.reset.track.announced.length ≤ 4 := by decide +kernel

/-- R186: a TEST slot that came back with three bits wrong counts three, and TEST_ERROR is set. -/
theorem test_comparison_counts_bits :
    let sent := (data7Of [0x0F]).toSlot
    let s : State := { cell with path := { cell.path with expected := [(0, (data7Of [0x08]))], bitErrors := 65533 } }
    (compareTests [sent] s).path.bitErrors = 65535 ∧ (compareTests [sent] s).path.expected = [] ∧
    alarmed (compareTests [sent] s) .testError = true ∧ alarmed (compareTests [sent] cell) .testError = false := by
  decide +kernel

/-- A STATUS slot and a response header, byte by byte from 12.2. -/
theorem test_status_and_response_bytes :
    (statusData { cell with track := { cell.track with baseline := some { transfer := 7, sequence := 9 } } }).toSlot.bytes =
      [0x00, 0x00, 0x09, 0x07, 0x20, 0x05, 0x00, 0x2B] ∧
    (responseHeader 5 { code := 0x20, tag := 3, result := .torn, payload := [1, 2] }).toSlot.bytes =
      [0x05, 0x20, 0x03, 0x06, 0x02, 0x00, 0x00, 0x22] := by decide +kernel

/-! ### Witnesses: the invariants -/

/-- Every invariant holds right after power-on reset, and a step from there leads on. -/
theorem witness_invariants :
    CurvesWf State.reset ∧ RosterWf State.reset ∧ QueuesWf State.reset ∧ PairsWf State.reset ∧ NodeWf State.reset ∧
    CopyWf State.reset ∧ WearWf State.reset ∧ step State.reset = .next State.reset ∧
    (∃ t, step { State.reset with pending := [.portALinkUp] } = .next t) := by
  refine ⟨by unfold CurvesWf CurveOk; decide, by unfold RosterWf; decide, by unfold QueuesWf; decide, ⟨by decide +kernel, nofun⟩,
    trivial, nofun, by unfold WearWf GunOk; decide, rfl, ⟨_, rfl⟩⟩

theorem witness_MapsWf : MapsWf State.reset ∧ MapsWf cell := by
  refine ⟨⟨?_, by intro m h; cases h⟩, ⟨?_, ?_⟩⟩
  · rw [← slotMap_legal_iff]; decide +kernel
  · rw [← slotMap_legal_iff]; decide +kernel
  · intro m h
    obtain rfl : map1 = m := Option.some.inj h
    rw [← slotMap_legal_iff]
    decide +kernel

theorem witness_MarksWf : MarksWf State.reset := by
  refine ⟨?_, ?_⟩ <;> intro b hb <;> simp [State.reset, Tracking.reset] at hb

theorem witness_SeqsWf : SeqsWf State.reset := by
  intro c
  have : seqOf State.reset c = Seq.reset := by simp [seqOf, State.reset]
  rw [this]
  exact ⟨trivial, by decide⟩

theorem witness_AlarmsWf : AlarmsWf State.reset := by
  refine ⟨fun _ => rfl, fun _ => ⟨?_, ?_, ?_⟩⟩ <;> intro h <;> revert h <;> decide

end Sys2Proof.Tests
end

/-! ## Proofs: the pair and read requests of the channel roster (03, R48, R49, R58) -/

namespace Sys2Proof.Machine

/-! ### A taken request, by what its service answers -/

/-- A request command that is taken is answered with what its service makes of the state after the header. -/
theorem onRequest_of_serve {h : ReqHead} {k : ReqCode} {len : Nat} {serve : State → Answer} {s : State} {a : Answer}
    (ht : Taken h s) (hl : k.allows len = true) (ha : serve (noticed h s) = a) :
    onRequest h k len serve s = .next (answered h k.byte a.result a.payload a.state) :=
  ha ▸ onRequest_taken ht hl

@[simp] theorem noticed_paired (h : ReqHead) (s : State) (c : ChanNo) : paired (noticed h s) c = paired s c := by
  simp [paired]

/-! ### READ CHANNEL -/

/-- READ_CHANNEL is a request of one payload byte. -/
theorem exec_readChannel (h : ReqHead) (ch : Byte) (s : State) :
    exec (.readChannel h ch) s = onRequest h .readChannel 1 (serveReadChannel ch) s :=
  rfl

/-- No channel above 31 is read. -/
theorem serveReadChannel_of_range {ch : Byte} (hr : 31 < ch.toNat) (s : State) :
    serveReadChannel ch s = refuse .range s := by
  simp only [serveReadChannel, chanOf_eq_none hr]

/-- A channel up to 31 is read in every node state, and reading it leaves the state as it is. -/
theorem serveReadChannel_of_chan {ch : Byte} {c : ChanNo} (hc : c.val = ch.toNat) (s : State) :
    serveReadChannel ch s = okayWith (readChannelBytes s c) s := by
  simp only [serveReadChannel, chanOf_eq_some hc]

/-- Reading a header changes none of the bytes that READ CHANNEL shows. -/
@[simp] theorem noticed_readChannelBytes (h : ReqHead) (s : State) (c : ChanNo) :
    readChannelBytes (noticed h s) c = readChannelBytes s c := by
  simp [readChannelBytes]

/-- The ten bytes with the detail byte and the byte of phase and kind given in another form. -/
theorem readChannelBytes_eq_of {s : State} {c : ChanNo} {detail job : Byte}
    (hdetail : causeDetail (chanRec s c).failed = detail)
    (hjob : phaseByte (seqOf s c).job ||| (kindByte (seqOf s c).job <<< 2) = job) :
    readChannelBytes s c = channelBytes (chanRec s c) ++
      [partnerByte (partner s c),
       flagAt 0 (present s c) ||| flagAt 1 (available s c) ||| flagAt 2 (chanRec s c).out |||
         flagAt 3 (chanRec s c).overdue,
       causeByte (chanRec s c).failed, detail, job, byteOf (seqOf s c).list.length] := by
  subst hdetail hjob
  rfl

/-- Settles O18: out of range there is no channel to read; otherwise the payload is that of the state before the
request, with the two coded bytes split by failed cause and by job. -/
theorem readChannelPayload : Obligations.ReadChannelPayload := by
  intro h ch s ht
  rw [exec_readChannel]
  refine ⟨fun hr => onRequest_of_serve ht rfl (serveReadChannel_of_range hr _), fun c hc => ?_⟩
  have hserve : serveReadChannel ch (noticed h s) = okayWith (readChannelBytes s c) (noticed h s) := by
    rw [serveReadChannel_of_chan hc, noticed_readChannelBytes]
  refine (onRequest_of_serve ht rfl hserve).trans
    (congrArg (fun p => Host.Outcome.next (answered h 0x19 .ok p (noticed h s))) (readChannelBytes_eq_of ?detail ?job))
  case detail =>
    rcases (chanRec s c).failed with _ | _ | code | (_ | _ | _ | _) | _ <;> rfl
  case job =>
    rcases (seqOf s c).job with _ | ⟨_ | _ | _, n⟩ | ⟨p, g, t, n⟩ | ⟨_ | _ | _, _ | _, g, p, n⟩ <;>
      simp [phaseByte, kindByte, Job.phase]

/-! ### WRITE PAIR -/

/-- WRITE_PAIR is a request of two payload bytes. -/
theorem exec_writePair (h : ReqHead) (x y : Byte) (s : State) :
    exec (.writePair h x y) s = onRequest h .writePair 2 (serveWritePair x y) s :=
  rfl

/-- What stands against a pair of `a` and `b` (R49): one of them is in a pair, or their stations or leads differ. -/
def PairConflict (s : State) (a b : ChanNo) : Prop :=
  (∃ p ∈ s.pairs, p.1 = a ∨ p.2 = a ∨ p.1 = b ∨ p.2 = b) ∨
    (chanRec s a).station ≠ (chanRec s b).station ∨ (chanRec s a).lead ≠ (chanRec s b).lead

/-- The test that WRITE PAIR makes is that of the conflict. -/
theorem writePair_test_iff (s : State) (a b : ChanNo) :
    (paired s a || paired s b || (chanRec s a).station != (chanRec s b).station ||
      (chanRec s a).lead != (chanRec s b).lead) = true ↔ PairConflict s a b := by
  have hpaired : (paired s a = true ∨ paired s b = true) ↔
      ∃ p ∈ s.pairs, p.1 = a ∨ p.2 = a ∨ p.1 = b ∨ p.2 = b := by
    simp only [paired_iff, ← exists_or, ← and_or_left, or_assoc]
  simp only [Bool.or_eq_true, bne_iff_ne, hpaired, PairConflict, or_assoc]

/-- Reading a header makes no conflict and removes none. -/
@[simp] theorem noticed_pairConflict (h : ReqHead) (s : State) (a b : ChanNo) :
    PairConflict (noticed h s) a b ↔ PairConflict s a b := by
  simp [PairConflict]

/-- The first check: pairs are written in CONFIG only. -/
theorem serveWritePair_of_state {s : State} (hs : s.node.state ≠ .config) (x y : Byte) :
    serveWritePair x y s = refuse .state s := by
  rw [serveWritePair, if_pos hs]

/-- The second check: a channel above 31, or twice the same. -/
theorem serveWritePair_of_range {s : State} (hs : s.node.state = .config) {x y : Byte}
    (hr : 31 < x.toNat ∨ 31 < y.toNat ∨ x = y) : serveWritePair x y s = refuse .range s := by
  rw [serveWritePair, if_neg (not_not_intro hs)]
  rcases hr with hx | hy | rfl
  · simp only [chanOf_eq_none hx]
  · cases chanOf x <;> simp only [chanOf_eq_none hy]
  · cases chanOf x <;> simp

/-- The third check, of two different channels. -/
theorem serveWritePair_of_chans {s : State} (hs : s.node.state = .config) {x y : Byte} {a b : ChanNo} (hab : a ≠ b)
    (ha : a.val = x.toNat) (hb : b.val = y.toNat) :
    (PairConflict s a b → serveWritePair x y s = refuse .conflict s) ∧
    (¬PairConflict s a b → serveWritePair x y s = okay { s with pairs := s.pairs ++ [(a, b)] }) := by
  simp only [← writePair_test_iff, serveWritePair, hs, chanOf_eq_some ha, chanOf_eq_some hb, hab, ne_eq,
    not_true_eq_false, if_false]
  exact ⟨fun hc => if_pos hc, fun hc => if_neg hc⟩

/-- Settles O19: the three checks in their order, each made on the state after the header, which shows the node state,
the pairs and the channel records of the state before. -/
theorem writePairIsChecked : Obligations.WritePairIsChecked := by
  intro h x y s ht
  rw [exec_writePair]
  refine ⟨fun hs => ?state, fun hs hr => ?range, fun hs a b hab ha hb => ?chans⟩
  case state =>
    exact onRequest_of_serve ht rfl (serveWritePair_of_state (by rwa [noticed_node]) x y)
  case range =>
    exact onRequest_of_serve ht rfl (serveWritePair_of_range (by rwa [noticed_node]) hr)
  case chans =>
    obtain ⟨hconflict, hfree⟩ := serveWritePair_of_chans (s := noticed h s) (by rwa [noticed_node]) hab ha hb
    rw [noticed_pairConflict] at hconflict hfree
    rw [noticed_pairs] at hfree
    exact ⟨fun hc => onRequest_of_serve ht rfl (hconflict hc), fun hc => onRequest_of_serve ht rfl (hfree hc)⟩

end Sys2Proof.Machine

/-! ## Proofs: the sequencers at power-on reset (05, R110) -/

namespace Sys2Proof.Machine

/-- POWER_ON_RESET always has a next state, that of `leaveReset`. -/
theorem exec_powerOnReset (straps : BitVec 4) (s : State) :
    exec (.powerOnReset straps) s = .next (leaveReset straps s) :=
  rfl

/-- The power-on state holds the reset sequencer at every channel, whatever the straps and the state before. -/
@[simp] theorem powerOn_seqOf (straps : BitVec 4) (s : State) (c : ChanNo) :
    seqOf (powerOn straps s) c = Seq.reset :=
  Vector.getElem_replicate c.isLt

/-- Setting the hold latch changes no sequencer. -/
@[simp] theorem setHold_seqOf (s : State) (c : ChanNo) : seqOf (setHold s) c = seqOf s c :=
  rfl

/-- At either level of HOLD_N the part leaves reset with every sequencer reset: a hold found asserted is taken on top
of the power-on state, and touches none of them (R156). -/
theorem leaveReset_seqOf (straps : BitVec 4) (s : State) (c : ChanNo) :
    seqOf (leaveReset straps s) c = Seq.reset := by
  unfold leaveReset
  split
  case isTrue => exact powerOn_seqOf straps s c
  case isFalse => rw [setHold_seqOf, powerOn_seqOf]

/-- Settles O7: the values of R110, with the command of R86, are those of the reset sequencer, which every channel holds
when the part leaves reset. -/
theorem powerOnResetSequencerValues : Obligations.PowerOnResetSequencerValues := fun straps s =>
  ⟨leaveReset straps s, exec_powerOnReset straps s, leaveReset_seqOf straps s⟩

end Sys2Proof.Machine

/-! ## Proofs: the curve requests of the wear unit (06, R115 to R117) -/

namespace Sys2Proof.Machine

/-! ### What a stored curve satisfies -/

/-- The test that WRITE CURVE makes of a curve is that of R115. -/
theorem curve_valid_iff (k : Curve) : k.valid = true ↔ CurveOk k := by
  simp only [Curve.valid, CurveOk, Bool.and_eq_true, decide_eq_true_eq, and_assoc]

/-- Of a clamped curve the bound of 250 needs no test: R115 asks for ascending counts and clamped boosts that do not
decrease. -/
theorem clampedCurve_ok_iff (c1 c2 c3 c4 : Half) (b1 b2 b3 b4 : Byte) :
    CurveOk (clampedCurve c1 c2 c3 c4 b1 b2 b3 b4) ↔
      1 ≤ c1.toNat ∧ c1.toNat < c2.toNat ∧ c2.toNat < c3.toNat ∧ c3.toNat < c4.toNat ∧
      (clampBoost b1).toNat ≤ (clampBoost b2).toNat ∧ (clampBoost b2).toNat ≤ (clampBoost b3).toNat ∧
      (clampBoost b3).toNat ≤ (clampBoost b4).toNat := by
  simp only [CurveOk, clampedCurve, clampBoost_le, and_true]

/-! ### WRITE CURVE -/

/-- WRITE_CURVE is a request of thirteen payload bytes, served with the clamped curve. -/
theorem exec_writeCurve (h : ReqHead) (i : Byte) (c1 c2 c3 c4 : Half) (b1 b2 b3 b4 : Byte) (s : State) :
    exec (.writeCurve h i c1 c2 c3 c4 b1 b2 b3 b4) s =
      onRequest h .writeCurve 13 (serveWriteCurve i (clampedCurve c1 c2 c3 c4 b1 b2 b3 b4)) s :=
  rfl

/-- No curve above 3 is written. -/
theorem serveWriteCurve_of_range {i : Byte} (hr : 3 < i.toNat) (k : Curve) (s : State) :
    serveWriteCurve i k s = refuse .range s := by
  simp only [serveWriteCurve, curveOf_eq_none hr]

/-- A curve that R115 does not allow is refused at every index. -/
theorem serveWriteCurve_of_not_ok {k : Curve} (hk : ¬CurveOk k) (i : Byte) (s : State) :
    serveWriteCurve i k s = refuse .range s := by
  rw [← curve_valid_iff] at hk
  unfold serveWriteCurve
  split
  case h_1 => rfl
  case h_2 => exact if_neg hk

/-- A curve of R115 replaces the named one whole, in every node state. -/
theorem serveWriteCurve_of_ok {k : Curve} (hk : CurveOk k) {i : Byte} {n : Fin 4} (hn : n.val = i.toNat) (s : State) :
    serveWriteCurve i k s = okay { s with curves := s.curves.set n.val k } := by
  simp only [serveWriteCurve, curveOf_eq_some hn, (curve_valid_iff k).2 hk, if_true]

/-- Settles O27: the two grounds of refusal, and the write, each made on the state after the header, which shows the
curves of the state before. -/
theorem writeCurveStoresWholeCurve : Obligations.WriteCurveStoresWholeCurve := by
  intro h i c1 c2 c3 c4 b1 b2 b3 b4 s ht cap good
  have hgood : CurveOk (clampedCurve c1 c2 c3 c4 b1 b2 b3 b4) ↔ good := clampedCurve_ok_iff c1 c2 c3 c4 b1 b2 b3 b4
  rw [exec_writeCurve]
  refine ⟨?refused, fun hg n hn => ?stored⟩
  case refused =>
    rintro (hr | hbad)
    · exact onRequest_of_serve ht rfl (serveWriteCurve_of_range hr _ _)
    · exact onRequest_of_serve ht rfl (serveWriteCurve_of_not_ok (mt hgood.1 hbad) i _)
  case stored =>
    have hserve := serveWriteCurve_of_ok (hgood.2 hg) hn (noticed h s)
    rw [noticed_curves] at hserve
    exact onRequest_of_serve ht rfl hserve

/-! ### READ CURVE -/

/-- READ_CURVE is a request of one payload byte. -/
theorem exec_readCurve (h : ReqHead) (i : Byte) (s : State) :
    exec (.readCurve h i) s = onRequest h .readCurve 1 (serveReadCurve i) s :=
  rfl

/-- No curve above 3 is read. -/
theorem serveReadCurve_of_range {i : Byte} (hr : 3 < i.toNat) (s : State) :
    serveReadCurve i s = refuse .range s := by
  simp only [serveReadCurve, curveOf_eq_none hr]

/-- A curve up to 3 is read in every node state, and reading it leaves the state as it is. -/
theorem serveReadCurve_of_curve {i : Byte} {n : Fin 4} (hn : n.val = i.toNat) (s : State) :
    serveReadCurve i s = okayWith (curveBytes s.curves[n.val]) s := by
  simp only [serveReadCurve, curveOf_eq_some hn]

/-- Settles O28: out of range there is no curve to read; otherwise the twelve bytes are those of the curve stored in the
state before the request. -/
theorem readCurveShowsStoredCurve : Obligations.ReadCurveShowsStoredCurve := by
  intro h i s ht
  rw [exec_readCurve]
  refine ⟨fun hr => onRequest_of_serve ht rfl (serveReadCurve_of_range hr _), fun n hn => ?_⟩
  have hserve : serveReadCurve i (noticed h s) = okayWith (curveBytes s.curves[n.val]) (noticed h s) := by
    simp only [serveReadCurve_of_curve hn, noticed_curves]
  exact onRequest_of_serve ht rfl hserve

end Sys2Proof.Machine

/-! ## Proofs: the requests of the stored slot map (07, R140, R141) -/

namespace Sys2Proof.Machine

/-! ### The map that a write asks for -/

/-- `m` is the map `old` with the slots from `first` on replaced by the roles that `es` names (R140). -/
def IsRewrite (old : SlotMap) (first : Nat) (es : List RawMapEntry) (m : SlotMap) : Prop :=
  ∀ i : Fin 183, some m[i.val] =
    if h : first ≤ i.val + 1 ∧ i.val + 1 - first < es.length then roleOf es[i.val + 1 - first] else some old[i.val]

/-- The rewritten map is the one that the request builds from the roles of its entries. -/
theorem isRewrite_iff_eq_put {old m : SlotMap} {first : Nat} {es : List RawMapEntry} {rs : List Role}
    (hfirst : 1 ≤ first) (hroles : rolesOf es = some rs) : IsRewrite old first es m ↔ m = old.put first rs := by
  obtain ⟨hlen, hrole⟩ := rolesOf_eq_some hroles
  have hput : IsRewrite old first es (old.put first rs) := by
    intro i
    rw [slotMap_put_getElem old first rs hfirst i.val i.isLt]
    by_cases hnamed : first ≤ i.val + 1 ∧ i.val + 1 - first < es.length
    · have hnamed' : first ≤ i.val + 1 ∧ i.val + 1 - first < rs.length := hlen ▸ hnamed
      rw [dif_pos hnamed, dif_pos hnamed', ← hrole _ hnamed.2, List.getElem?_eq_getElem hnamed'.2]
    · rw [dif_neg hnamed, dif_neg (hlen ▸ hnamed)]
  constructor
  · intro hm
    exact Vector.ext fun i hi => Option.some.inj ((hm ⟨i, hi⟩).trans (hput ⟨i, hi⟩).symm)
  · rintro rfl
    exact hput

/-! ### WRITE SLOT MAP -/

/-- The second check of R140: a run of slots that leaves 1 to 183, or an entry that names no role. -/
def WriteOutOfRange (f : Byte) (es : List RawMapEntry) : Prop :=
  f = 0 ∨ 184 < f.toNat + es.length ∨ ∃ e ∈ es, roleOf e = none

/-- A write in range starts at a slot from 1 on, and its entries name roles that end within the map. -/
theorem rolesOf_of_not_writeOutOfRange {f : Byte} {es : List RawMapEntry} (hr : ¬WriteOutOfRange f es) :
    1 ≤ f.toNat ∧ ∃ rs, rolesOf es = some rs ∧ ¬(f = 0 ∨ 184 < f.toNat + rs.length) := by
  obtain ⟨hf, hlast, hnamed⟩ : f ≠ 0 ∧ ¬184 < f.toNat + es.length ∧ ¬∃ e ∈ es, roleOf e = none := by
    simpa only [WriteOutOfRange, not_or] using hr
  obtain ⟨rs, hroles⟩ := Option.ne_none_iff_exists'.1 (mt rolesOf_eq_none_iff.1 hnamed)
  refine ⟨Nat.one_le_iff_ne_zero.2 (mt byte_eq_zero_iff.2 hf), rs, hroles, ?_⟩
  rw [(rolesOf_eq_some hroles).1]
  exact not_or.2 ⟨hf, hlast⟩

/-- WRITE_SLOT_MAP is a request of one payload byte and two for each entry. -/
theorem exec_writeSlotMap (h : ReqHead) (f : Byte) (es : List RawMapEntry) (s : State) :
    exec (.writeSlotMap h f es) s = onRequest h .writeSlotMap (1 + 2 * es.length) (serveWriteSlotMap f es) s :=
  rfl

/-- A payload of 1 to 24 entries is never answered LENGTH. -/
theorem writeSlotMap_allows {n : Nat} (hlo : 1 ≤ n) (hhi : n ≤ 24) :
    ReqCode.writeSlotMap.allows (1 + 2 * n) = true := by
  simp only [ReqCode.allows, Bool.and_eq_true, beq_iff_eq, decide_eq_true_eq]
  omega

/-- The first check: the map is written in CONFIG only. -/
theorem serveWriteSlotMap_of_state {s : State} (hs : s.node.state ≠ .config) (f : Byte) (es : List RawMapEntry) :
    serveWriteSlotMap f es s = refuse .state s := by
  rw [serveWriteSlotMap, if_pos hs]

/-- The second check: a write out of range is refused, whether a slot or an entry makes it so. -/
theorem serveWriteSlotMap_of_range {s : State} (hs : s.node.state = .config) {f : Byte} {es : List RawMapEntry}
    (hr : WriteOutOfRange f es) : serveWriteSlotMap f es s = refuse .range s := by
  rw [serveWriteSlotMap, if_neg (not_not_intro hs)]
  cases hroles : rolesOf es with
  | none => rfl
  | some rs =>
    have hnamed : ¬∃ e ∈ es, roleOf e = none := mt rolesOf_eq_none_iff.2 (by simp [hroles])
    have hslots : f = 0 ∨ 184 < f.toNat + rs.length := by
      rw [(rolesOf_eq_some hroles).1]
      exact hr.imp_right fun h => h.resolve_right hnamed
    exact if_pos hslots

/-- The third check, of the map as it would stand: a legal one is stored, another refused. -/
theorem serveWriteSlotMap_of_rewrite {s : State} (hs : s.node.state = .config) {f : Byte} {es : List RawMapEntry}
    (hr : ¬WriteOutOfRange f es) {m : SlotMap} (hm : IsRewrite s.sweep.storedMap f.toNat es m) :
    (¬MapOk m → serveWriteSlotMap f es s = refuse .conflict s) ∧
    (MapOk m → serveWriteSlotMap f es s = okay { s with sweep := { s.sweep with storedMap := m } }) := by
  obtain ⟨hfirst, rs, hroles, hslots⟩ := rolesOf_of_not_writeOutOfRange hr
  obtain rfl := (isRewrite_iff_eq_put hfirst hroles).1 hm
  simp only [← slotMap_legal_iff, serveWriteSlotMap, hs, hroles, hslots, ne_eq, not_true_eq_false, if_false]
  exact ⟨fun hc => if_neg hc, fun hc => if_pos hc⟩

/-- Settles O15: the three checks in their order, each made on the state after the header, which shows the node state
and the stored map of the state before. -/
theorem writeSlotMapStoresLegalMap : Obligations.WriteSlotMapStoresLegalMap := by
  intro h f es m s ht hlo hhi
  rw [exec_writeSlotMap]
  have hlen := writeSlotMap_allows hlo hhi
  refine ⟨fun hs => ?state, fun hs hr => ?range, fun hs hr hm => ?rewrite⟩
  case state =>
    exact onRequest_of_serve ht hlen (serveWriteSlotMap_of_state (by rwa [noticed_node]) f es)
  case range =>
    exact onRequest_of_serve ht hlen (serveWriteSlotMap_of_range (by rwa [noticed_node]) hr)
  case rewrite =>
    have hrewrite : IsRewrite (noticed h s).sweep.storedMap f.toNat es m := by rwa [noticed_storedMap]
    obtain ⟨hconflict, hstored⟩ := serveWriteSlotMap_of_rewrite (by rwa [noticed_node]) hr hrewrite
    exact ⟨fun hc => onRequest_of_serve ht hlen (hconflict hc), fun hc => onRequest_of_serve ht hlen (hstored hc)⟩

/-! ### READ SLOT MAP -/

/-- READ_SLOT_MAP is a request of two payload bytes. -/
theorem exec_readSlotMap (h : ReqHead) (f n : Byte) (s : State) :
    exec (.readSlotMap h f n) s = onRequest h .readSlotMap 2 (serveReadSlotMap f n) s :=
  rfl

/-- The check of R141: a run of slots that leaves 1 to 183, or a count that is not 1 to 24. -/
def ReadOutOfRange (f n : Byte) : Prop := f = 0 ∨ n = 0 ∨ 24 < n.toNat ∨ 184 < f.toNat + n.toNat

/-- No slots are read out of range. -/
theorem serveReadSlotMap_of_range {f n : Byte} (hr : ReadOutOfRange f n) (s : State) :
    serveReadSlotMap f n s = refuse .range s := by
  unfold serveReadSlotMap
  exact if_pos hr

/-- A run of slots in range is read in every node state, and reading it leaves the state as it is. -/
theorem serveReadSlotMap_of_slots {f n : Byte} (hr : ¬ReadOutOfRange f n) (s : State) :
    serveReadSlotMap f n s =
      okayWith (((s.sweep.storedMap.toList.drop (f.toNat - 1)).take n.toNat).flatMap roleBytes) s := by
  unfold serveReadSlotMap
  exact if_neg hr

/-- Settles O16: out of range there is nothing to read; otherwise the payload is taken from the map stored in the state
before the request. -/
theorem readSlotMapShowsStoredMap : Obligations.ReadSlotMapShowsStoredMap := by
  intro h f n s ht bad
  rw [exec_readSlotMap]
  refine ⟨fun hr => onRequest_of_serve ht rfl (serveReadSlotMap_of_range hr _), fun hr => ?_⟩
  have hserve := serveReadSlotMap_of_slots hr (noticed h s)
  rw [noticed_storedMap] at hserve
  exact onRequest_of_serve ht rfl hserve

end Sys2Proof.Machine

/-! ## Proofs: the ALARM_N output (10, R178) -/

namespace Sys2Proof.Machine

/-! ### ALARM_N from the bits of the summary -/

/-- A byte is 0 exactly when each of its bits is clear. -/
theorem byte_eq_zero_iff_bits_clear (b : Byte) : b = 0 ↔ ∀ n : Fin 8, b.getLsbD n.val = false := by
  rw [BitVec.eq_of_getLsbD_eq_iff, Fin.forall_iff]
  simp only [BitVec.ofNat_eq_ofNat, BitVec.getLsbD_zero]

/-- ALARM_N is high exactly when the summary is 0. -/
theorem alarmN_eq_true_iff (s : State) : alarmN s = true ↔ s.report.alarms = 0 := beq_iff_eq

/-- ALARM_N is low exactly when a bit of the summary is set: the summary is 0 when all eight are clear. -/
theorem alarmN_eq_false_iff (s : State) :
    alarmN s = false ↔ ∃ n : Fin 8, s.report.alarms.getLsbD n.val = true := by
  rw [← Bool.not_eq_true, alarmN_eq_true_iff, byte_eq_zero_iff_bits_clear]
  simp only [not_forall, Bool.not_eq_false]

/-- Every alarm has its place among the eight bits of the summary. -/
theorem Alarm.bit_lt (a : Alarm) : a.bit < 8 := by cases a <;> decide

/-- A single alarm drives ALARM_N low, whichever it is: the output has no mask. -/
theorem alarmN_of_alarmed {s : State} {a : Alarm} (ha : alarmed s a = true) : alarmN s = false :=
  (alarmN_eq_false_iff s).2 ⟨⟨a.bit, a.bit_lt⟩, ha⟩

/-! ### RESET_N -/

/-- RESET_N low always has a next state, that of `enterReset`. -/
theorem exec_resetNLow (s : State) : exec .resetNLow s = .next (enterReset s) :=
  rfl

/-- In reset the summary holds no bit (R156). -/
@[simp] theorem enterReset_alarms (s : State) : (enterReset s).report.alarms = 0 := rfl

/-- The power-on summary is 0 (R183). -/
@[simp] theorem powerOn_alarms (straps : BitVec 4) (s : State) : (powerOn straps s).report.alarms = 0 := rfl

/-- A hold sets the HOLD alarm, so ALARM_N is low after it (R150). -/
theorem alarmN_setHold (s : State) : alarmN (setHold s) = false :=
  alarmN_of_alarmed (alarmed_setAlarm_self _ .hold)

/-- After power-on reset ALARM_N has the level of HOLD_N: the summary is 0 but for the HOLD alarm of a hold found
asserted. -/
theorem alarmN_leaveReset (straps : BitVec 4) (s : State) : alarmN (leaveReset straps s) = s.pins.holdN := by
  cases hpin : s.pins.holdN with
  | true =>
    rw [leaveReset, if_pos hpin, alarmN_eq_true_iff, powerOn_alarms]
  | false =>
    rw [leaveReset, if_neg (Bool.eq_false_iff.1 hpin), alarmN_setHold]

/-! ### CELL RESET -/

/-- CELL_RESET is a request without payload. -/
theorem exec_cellReset (h : ReqHead) (s : State) :
    exec (.cellReset h) s = onRequest h .cellReset 0 serveCellReset s :=
  rfl

/-- CELL RESET leaves the summary at 0 (R183). -/
@[simp] theorem cellReset_alarms (s : State) : (cellReset s).report.alarms = 0 := rfl

/-- Answering a request changes nothing of the report unit. -/
@[simp] theorem answered_report (h : ReqHead) (code : Byte) (r : Result) (p : List Byte) (t : State) :
    (answered h code r p t).report = t.report := by
  unfold answered
  cases h.via <;> rfl

/-- Settles O37: the output reads the bits of the summary, and each of the resets leaves it at 0, up to the hold that
power-on reset takes on top. -/
theorem alarmOutputFollowsSummary : Obligations.AlarmOutputFollowsSummary := by
  refine ⟨alarmN_eq_false_iff, fun s => ?resetNLow, fun straps s => ?powerOnReset, fun h s ht => ?cellReset⟩
  case resetNLow =>
    exact ⟨enterReset s, exec_resetNLow s, (alarmN_eq_true_iff _).2 (enterReset_alarms s)⟩
  case powerOnReset =>
    exact ⟨leaveReset straps s, exec_powerOnReset straps s, alarmN_leaveReset straps s⟩
  case cellReset =>
    rw [exec_cellReset]
    refine ⟨_, onRequest_of_serve ht rfl rfl, (alarmN_eq_true_iff _).2 ?_⟩
    rw [answered_report]
    exact cellReset_alarms (noticed h s)

end Sys2Proof.Machine

/-! ## Proofs: the invariants at power-on reset, and the changes that can touch each of them -/

namespace Sys2Proof.Machine

/-! ### The invariants at reset (O60) -/

theorem curvesWf_reset : CurvesWf State.reset := by unfold CurvesWf CurveOk; decide

theorem mapsWf_reset : MapsWf State.reset :=
  ⟨(slotMap_legal_iff _).1 (by decide +kernel), nofun⟩

theorem rosterWf_reset : RosterWf State.reset := by unfold RosterWf; decide

theorem queuesWf_reset : QueuesWf State.reset := by unfold QueuesWf; decide

theorem pairsWf_reset : PairsWf State.reset := ⟨List.nodup_nil, nofun⟩

/-- At reset every position of the queue is vacant and nothing is loaded. -/
theorem marksWf_reset : MarksWf State.reset := by
  constructor <;> intro x hx <;> simp [State.reset, Tracking.reset] at hx

theorem wearWf_reset : WearWf State.reset := by unfold WearWf GunOk; decide

/-- Every sequencer is the reset one, which has no job. -/
theorem seqsWf_reset : SeqsWf State.reset := by
  intro c
  have hc : seqOf State.reset c = Seq.reset := by simp [seqOf, State.reset]
  rw [hc]
  exact ⟨trivial, by decide⟩

theorem alarmsWf_reset : AlarmsWf State.reset := by
  refine ⟨fun _ => rfl, fun _ => ⟨?_, ?_, ?_⟩⟩ <;> decide

/-- Settles O60: invariant by invariant; NODE is in CONFIG and no copy runs. -/
theorem resetMeetsInvariants : Obligations.ResetMeetsInvariants :=
  ⟨curvesWf_reset, mapsWf_reset, rosterWf_reset, queuesWf_reset, pairsWf_reset, marksWf_reset, trivial, nofun, wearWf_reset,
    seqsWf_reset, alarmsWf_reset⟩

/-! ### Channel records under the changes of the roster -/

/-- A property that a new record and every old record have holds of every record after a write. -/
theorem chanRec_setChan_forall {p : ChanNo → ChanRec → Prop} {s : State} {c : ChanNo} {r : ChanRec} (hr : p c r)
    (h : ∀ d, p d (chanRec s d)) (d : ChanNo) : p d (chanRec (setChan c r s) d) := by
  by_cases hd : d = c
  · rw [hd, chanRec_setChan_self]
    exact hr
  · rw [chanRec_setChan_of_ne hd]
    exact h d

/-- A channel event stores the record it is given, up to the overdue factor, and of the state only records and wear. -/
theorem channelEvent_eq (c : ChanNo) (r : ChanRec) (s : State) :
    ∃ o w, channelEvent c r s = setChan c { r with overdue := o } (setWear c w s) := by
  unfold channelEvent
  split
  · exact ⟨r.overdue, wearOf s c, by simp [setWear, wearOf]⟩
  · exact ⟨_, _, rfl⟩

/-! ### Curves (R115) -/

/-- Only a curve write touches the curves, and it stores a valid one. -/
theorem inner_keeps_curvesWf {s t : State} (h : Inner s t) (hs : CurvesWf s) : CurvesWf t := by
  cases h with
  | curves i k hk =>
    intro j
    by_cases hj : i.val = j.val
    · simpa [Vector.getElem_set, hj] using (curve_valid_iff k).1 hk
    · simpa [Vector.getElem_set, hj] using hs j
  | channel c r =>
    obtain ⟨o, w, e⟩ := channelEvent_eq c r s
    rw [e]
    exact hs
  | _ => exact hs

theorem touch_keeps_curvesWf {s t : State} (h : Touch s t) (hs : CurvesWf s) : CurvesWf t := by
  cases h with
  | inner _ h => exact inner_keeps_curvesWf h hs
  | powerOn => exact curvesWf_reset
  | _ => exact hs

/-! ### Slot maps (R138 to R140) -/

/-- Inside the part only a map write touches a map, and it stores a legal one. -/
theorem inner_keeps_mapsWf {s t : State} (h : Inner s t) (hs : MapsWf s) : MapsWf t := by
  cases h with
  | storeMap m hm => exact ⟨(slotMap_legal_iff m).1 hm, hs.2⟩
  | channel c r =>
    obtain ⟨o, w, e⟩ := channelEvent_eq c r s
    rw [e]
    exact hs
  | settings n i m =>
    unfold storeSettings MapsWf
    dsimp only
    split <;> exact hs
  | _ => exact hs

/-- The map that comes into force is the stored one. -/
theorem touch_keeps_mapsWf {s t : State} (h : Touch s t) (hs : MapsWf s) : MapsWf t := by
  cases h with
  | inner _ h => exact inner_keeps_mapsWf h hs
  | enterMap => exact ⟨hs.1, fun m hm => Option.some.inj hm ▸ hs.1⟩
  | powerOn => exact mapsWf_reset
  | _ => exact hs

/-! ### Roster (R7, R42, R43) -/

/-- What the roster asks of one channel record at `n` stations. -/
def RecordOk (n : Nat) (r : ChanRec) : Prop :=
  r.station < n ∧ r.lead ≤ 3 ∧ r.lead ≤ r.station ∧ r.selectWatch ≠ 0

/-- A write of a record that is in order keeps the roster. -/
theorem rosterWf_setChan {s : State} (hs : RosterWf s) (c : ChanNo) {r : ChanRec} (hr : RecordOk s.node.stations r) :
    RosterWf (setChan c r s) :=
  ⟨hs.1, hs.2.1, chanRec_setChan_forall (p := fun _ => RecordOk s.node.stations) hr hs.2.2⟩

/-- Records are written with their checks made, and S changes only where every channel stays below it. -/
theorem inner_keeps_rosterWf {s t : State} (h : Inner s t) (hs : RosterWf s) : RosterWf t := by
  cases h with
  | chan c f o => exact rosterWf_setChan hs c (hs.2.2 c)
  | wear c g r => exact rosterWf_setChan hs c (hs.2.2 c)
  | channel c r hf ho hst hl hls hw hp =>
    obtain ⟨o, w, e⟩ := channelEvent_eq c r s
    rw [e]
    exact rosterWf_setChan (s := setWear c w s) hs c ⟨hst, hl, hls, hw⟩
  | settings n i m h1 h16 h =>
    refine ⟨h1, h16, fun c => ⟨?_, (hs.2.2 c).2⟩⟩
    obtain rfl | ⟨-, hbelow⟩ := h
    · exact (hs.2.2 c).1
    · exact hbelow c
  | _ => exact hs

theorem touch_keeps_rosterWf {s t : State} (h : Touch s t) (hs : RosterWf s) : RosterWf t := by
  cases h with
  | inner _ h => exact inner_keeps_rosterWf h hs
  | powerOn => exact rosterWf_reset
  | _ => exact hs

/-! ### Queues (R6, R7, R17) -/

/-- The queue keeps its length under marks and movement, and takes the new S with its resizing. A movement needs a station
to leave, which the roster gives. -/
theorem inner_keeps_queuesWf {s t : State} (h : Inner s t) (hr : RosterWf s) (hs : QueuesWf s) : QueuesWf t := by
  obtain ⟨hqueue, himage, hannounced⟩ := hs
  cases h with
  | announce a hlt => exact ⟨hqueue, himage, by simpa using hlt⟩
  | admitNext hu =>
    have h1 := hr.1
    refine ⟨?_, himage, ?_⟩
    · simp only [admitNext, List.length_cons, List.length_dropLast]
      omega
    · simp only [admitNext, List.length_tail]
      omega
  | mark m chs id => exact ⟨by simpa [mark] using hqueue, himage, hannounced⟩
  | uncertain => exact ⟨by simpa [uncertainEvent] using hqueue, himage, hannounced⟩
  | channel c r =>
    obtain ⟨o, w, e⟩ := channelEvent_eq c r s
    rw [e]
    exact ⟨hqueue, himage, hannounced⟩
  | settings n i m =>
    by_cases hn : n = s.node.stations
    · simp only [storeSettings, hn, if_true]
      exact ⟨hqueue, himage, hannounced⟩
    · simp only [storeSettings, if_neg hn]
      exact ⟨List.length_replicate, List.length_replicate, hannounced⟩
  | image im hl => exact ⟨hqueue, hl.trans himage, hannounced⟩
  | apply =>
    exact ⟨(retrackBodies_length _ _ _).trans himage, (List.length_map _).trans himage, Nat.zero_le _⟩
  | cellTrack => exact ⟨List.length_replicate, List.length_replicate, Nat.zero_le _⟩
  | _ => exact ⟨hqueue, himage, hannounced⟩

theorem touch_keeps_queuesWf {s t : State} (h : Touch s t) (hr : RosterWf s) (hs : QueuesWf s) : QueuesWf t := by
  cases h with
  | inner _ h => exact inner_keeps_queuesWf h hr hs
  | powerOn => exact queuesWf_reset
  | _ => exact hs

/-! ### Pairs (R48) -/

/-- A channel that joins no pair twice stands in at most one: the two of a pair differ. -/
theorem pair_ne {s : State} (hs : PairsWf s) {p : ChanNo × ChanNo} (hp : p ∈ s.pairs) : p.1 ≠ p.2 := by
  obtain ⟨hnodup, -⟩ := hs
  have := (List.nodup_flatMap.1 hnodup).1 p hp
  simpa using this

/-- A record that does not separate its channel from the partner keeps every pair at one station and lead. -/
theorem pairsWf_setChan {s : State} (hs : PairsWf s) {c : ChanNo} {r : ChanRec} (hr : separates s c r = false) :
    PairsWf (setChan c r s) := by
  have hpartner : ∀ {q}, partner s c = some q → (chanRec s q).station = r.station ∧ (chanRec s q).lead = r.lead := by
    intro q hq
    simpa [separates, hq] using hr
  refine ⟨hs.1, fun p hp => ?_⟩
  have hp : p ∈ s.pairs := hp
  obtain ⟨h12, h21⟩ := partner_of_mem hs.1 hp
  have hne := pair_ne hs hp
  by_cases h1 : p.1 = c
  · obtain ⟨est, el⟩ := hpartner (h1 ▸ h12)
    rw [h1, chanRec_setChan_self, chanRec_setChan_of_ne (h1 ▸ hne.symm)]
    exact ⟨est.symm, el.symm⟩
  · rw [chanRec_setChan_of_ne h1]
    by_cases h2 : p.2 = c
    · rw [h2, chanRec_setChan_self]
      exact hpartner (h2 ▸ h21)
    · rw [chanRec_setChan_of_ne h2]
      exact hs.2 p hp

/-- The pair table reads of the records only stations and leads. -/
theorem pairsWf_of_same {s t : State} (hs : PairsWf s) (hpairs : t.pairs = s.pairs)
    (hrec : ∀ c, (chanRec t c).station = (chanRec s c).station ∧ (chanRec t c).lead = (chanRec s c).lead) : PairsWf t := by
  refine ⟨hpairs ▸ hs.1, fun p hp => ?_⟩
  rw [hpairs] at hp
  simp only [hrec]
  exact hs.2 p hp

/-- A record of the channel's own station and lead keeps the pair table. -/
theorem pairsWf_setChan_of_same {s : State} (hs : PairsWf s) {c : ChanNo} {r : ChanRec}
    (hr : r.station = (chanRec s c).station ∧ r.lead = (chanRec s c).lead) : PairsWf (setChan c r s) :=
  pairsWf_of_same hs rfl
    (chanRec_setChan_forall (p := fun d x => x.station = (chanRec s d).station ∧ x.lead = (chanRec s d).lead) hr
      fun _ => ⟨rfl, rfl⟩)

/-- A pair of two channels that are in none, at one station and lead, joins the table. -/
theorem pairsWf_addPair {s : State} (hs : PairsWf s) {a b : ChanNo} (hab : a ≠ b) (ha : paired s a = false)
    (hb : paired s b = false) (hst : (chanRec s a).station = (chanRec s b).station)
    (hl : (chanRec s a).lead = (chanRec s b).lead) : PairsWf { s with pairs := s.pairs ++ [(a, b)] } := by
  have hfree : ∀ {c}, paired s c = false → ∀ p ∈ s.pairs, c ≠ p.1 ∧ c ≠ p.2 := by
    intro c hc p hp
    refine not_or.1 fun h => Bool.eq_false_iff.1 hc ((paired_iff s c).2 ⟨p, hp, ?_⟩)
    exact h.imp Eq.symm Eq.symm
  constructor
  · have hdisj : List.Disjoint (s.pairs.flatMap fun p => [p.1, p.2]) [a, b] := by
      intro c hc hcab
      obtain ⟨p, hp, hcp⟩ := List.mem_flatMap.1 hc
      have hca := hfree ha p hp
      have hcb := hfree hb p hp
      simp only [List.mem_cons, List.not_mem_nil, or_false] at hcp hcab
      obtain rfl | rfl := hcab
      · exact hcp.elim hca.1 hca.2
      · exact hcp.elim hcb.1 hcb.2
    simpa using hs.1.append (by simpa using hab) hdisj
  · intro p hp
    obtain hp | rfl := by simpa using hp
    · exact hs.2 p hp
    · exact ⟨hst, hl⟩

/-- Fewer pairs are a pair table still. -/
theorem pairsWf_filter {s : State} (hs : PairsWf s) (f : ChanNo × ChanNo → Bool) :
    PairsWf { s with pairs := s.pairs.filter f } :=
  ⟨hs.1.sublist (List.filter_sublist.flatMap _), fun p hp => hs.2 p (List.mem_of_mem_filter hp)⟩

/-- Records keep their stations and leads but for a channel write, which separates no pair. -/
theorem inner_keeps_pairsWf {s t : State} (h : Inner s t) (hs : PairsWf s) : PairsWf t := by
  cases h with
  | chan c f o => exact pairsWf_setChan_of_same hs ⟨rfl, rfl⟩
  | wear c g r => exact pairsWf_setChan_of_same (s := setWear c _ s) hs ⟨rfl, rfl⟩
  | channel c r hf ho hst hl hls hw hp =>
    obtain ⟨o, w, e⟩ := channelEvent_eq c r s
    rw [e]
    exact pairsWf_setChan (s := setWear c w s) hs hp
  | addPair a b hab ha hb hst hl => exact pairsWf_addPair hs hab ha hb hst hl
  | dropPair c => exact pairsWf_filter hs _
  | _ => exact hs

theorem touch_keeps_pairsWf {s t : State} (h : Touch s t) (hs : PairsWf s) : PairsWf t := by
  cases h with
  | inner _ h => exact inner_keeps_pairsWf h hs
  | powerOn => exact pairsWf_reset
  | _ => exact hs

/-- Two channels a pair, and each of the 32 in at most one. -/
theorem pairs_length_le {s : State} (hs : PairsWf s) : s.pairs.length ≤ 16 := by
  have hcount : (s.pairs.flatMap fun p => [p.1, p.2]).length = 2 * s.pairs.length := by
    simp [List.length_flatMap, Nat.mul_comm]
  have hle := hs.1.length_le_card
  rw [hcount, Fintype.card_fin] at hle
  omega

/-- Settles O57: each invariant is kept by every elementary change a step is made of; the queues with the roster, whose
S is at least 1. -/
theorem stepKeepsTables : Obligations.StepKeepsTables := by
  refine ⟨fun s t => ?curves, fun s t => ?maps, fun s t => ?roster, fun s t hr hq hstep => ?queues, fun s t => ?pairs,
    fun s => pairs_length_le⟩
  case curves => exact step_keeps (fun _ _ => touch_keeps_curvesWf) fun _ _ => id
  case maps => exact step_keeps (fun _ _ => touch_keeps_mapsWf) fun _ _ => id
  case roster => exact step_keeps (fun _ _ => touch_keeps_rosterWf) fun _ _ => id
  case queues =>
    exact (step_keeps (P := fun u => RosterWf u ∧ QueuesWf u)
      (fun _ _ h hu => ⟨touch_keeps_rosterWf h hu.1, touch_keeps_queuesWf h hu.1 hu.2⟩) (fun _ _ => id) ⟨hr, hq⟩ hstep).2
  case pairs => exact step_keeps (fun _ _ => touch_keeps_pairsWf) fun _ _ => id

end Sys2Proof.Machine

/-! ## Proofs: what every step keeps of bodies, node state and copy (01, 02, 08) -/

namespace Sys2Proof.Machine

/-! ### Marks and flags of the body records (R9, R10, R12, R15, R17) -/

/-- Every record of a mapped queue is the image of a record of the queue. -/
theorem forall_mem_map_queue {p : Body → Prop} {q : List (Option Body)} {f : Body → Body}
    (h : ∀ b, some b ∈ q → p (f b)) (b : Body) (hb : some b ∈ q.map (Option.map f)) : p b := by
  obtain ⟨x, hx, he⟩ := List.mem_map.1 hb
  obtain ⟨a, rfl, rfl⟩ := Option.map_eq_some_iff.1 he
  exact h a hx

/-- A vacant queue has no record. -/
theorem not_mem_vacant {α : Type} {n : Nat} {a : α} (h : some a ∈ List.replicate n none) : False := by
  simp at h

/-- A record well kept under any flag is well kept with the UNCERTAIN flag set. -/
theorem bodyOk_setUncertain {u : Bool} {b : Body} (h : BodyOk u b) : BodyOk true { b with uncertain := true } :=
  ⟨h.1, h.2.1, h.2.2.1, h.2.2.2.1, h.2.2.2.2.1, rfl⟩

/-- Marks keep a record well kept; an admitted or retracked record is well kept from the start. -/
theorem inner_keeps_marksWf {s t : State} (h : Inner s t) (hs : MarksWf s) : MarksWf t := by
  obtain ⟨hbodies, himage⟩ := hs
  cases h with
  | admitNext hu =>
    refine ⟨fun b hb => ?_, himage⟩
    have hnew : (admitNext s).track.uncertain = false := hu
    rw [hnew]
    rcases List.mem_cons.1 hb with hb | hb
    · rw [Option.some.inj hb]
      exact boundBody_bodyOk _ _ _ _ _ _ _ (by decide)
    · exact hu ▸ hbodies b (List.mem_of_mem_dropLast hb)
  | mark m chs id =>
    refine ⟨forall_mem_map_queue fun b hb => ?_, himage⟩
    have hb := hbodies b hb
    split
    · exact mark_bodyOk m chs hb
    · exact hb
  | uncertain => exact ⟨forall_mem_map_queue fun b hb => bodyOk_setUncertain (hbodies b hb), himage⟩
  | channel c r =>
    obtain ⟨o, w, e⟩ := channelEvent_eq c r s
    rw [e]
    exact ⟨hbodies, himage⟩
  | settings n i m =>
    by_cases hn : n = s.node.stations
    · unfold MarksWf storeSettings
      simp only [hn, if_true]
      exact ⟨hbodies, himage⟩
    · unfold MarksWf storeSettings
      simp only [if_neg hn]
      exact ⟨fun b hb => (not_mem_vacant hb).elim, fun r hr => (not_mem_vacant hr).elim⟩
  | image im hl hm => exact ⟨hbodies, fun r hr => (hm r hr).elim (himage r) id⟩
  | apply =>
    refine ⟨retrackBodies_bodyOk _ _ _ himage, fun r hr => ?_⟩
    obtain ⟨x, -, hx⟩ := List.mem_map.1 hr
    cases hx
  | cellTrack => exact ⟨fun b hb => (not_mem_vacant hb).elim, fun r hr => (not_mem_vacant hr).elim⟩
  | _ => exact ⟨hbodies, himage⟩

theorem touch_keeps_marksWf {s t : State} (h : Touch s t) (hs : MarksWf s) : MarksWf t := by
  cases h with
  | inner _ h => exact inner_keeps_marksWf h hs
  | powerOn => exact marksWf_reset
  | _ => exact hs

/-! ### The node state (R147, R152, R153) -/

/-- The agreement of a node state with tracking and the latch. -/
def NodeAgrees (n : NodeState) (uncertain latch : Bool) : Prop :=
  match n with
  | .config => True
  | .run => uncertain = false ∧ latch = false
  | .held => uncertain = false ∧ latch = true
  | .suspended => uncertain = true

theorem nodeWf_iff (s : State) : NodeWf s ↔ NodeAgrees s.node.state s.track.uncertain s.node.latch := by
  unfold NodeWf NodeAgrees
  cases s.node.state <;> rfl

/-- With tracking certain the entered state agrees with the latch. -/
theorem nodeAgrees_entered (s : State) : NodeAgrees (enteredState s) false s.node.latch := by
  unfold enteredState
  cases s.node.latch <;> exact ⟨rfl, rfl⟩

/-- R152: tracking that becomes uncertain leaves no RUN and no HELD. -/
theorem nodeAgrees_uncertain {n : NodeState} {u l : Bool} (h : NodeAgrees n u l) :
    NodeAgrees (if n = .run ∨ n = .held then .suspended else n) true l := by
  cases n with
  | config => exact trivial
  | run => rfl
  | held => rfl
  | suspended => rfl

/-- R150: the latch set leaves no RUN. -/
theorem nodeAgrees_hold {n : NodeState} {u l : Bool} (h : NodeAgrees n u l) :
    NodeAgrees (if n = .run then .held else n) u true := by
  cases n with
  | config => exact trivial
  | run => exact ⟨h.1, rfl⟩
  | held => exact ⟨h.1, rfl⟩
  | suspended => exact h

/-- R151: the latch cleared leaves no HELD. -/
theorem nodeAgrees_release {n : NodeState} {u l : Bool} (h : NodeAgrees n u l) :
    NodeAgrees (if n = .held then .run else n) u false := by
  cases n with
  | config => exact trivial
  | run => exact ⟨h.1, rfl⟩
  | held => exact ⟨h.1, rfl⟩
  | suspended => exact h

/-- The node state moves with the latch and with tracking. -/
theorem inner_keeps_nodeWf {s t : State} (h : Inner s t) (hs : NodeWf s) : NodeWf t := by
  rw [nodeWf_iff] at hs ⊢
  cases h with
  | uncertain => exact nodeAgrees_uncertain hs
  | channel c r =>
    obtain ⟨o, w, e⟩ := channelEvent_eq c r s
    rw [e]
    exact hs
  | settings n i m =>
    by_cases hn : n = s.node.stations
    · simpa [storeSettings, hn] using hs
    · simpa [storeSettings, hn, Tracking.resize] using hs
  | apply hopen =>
    by_cases hsus : s.node.state = .suspended
    · simpa [applyEvent, applyImage, hsus] using nodeAgrees_entered s
    · have hconfig : s.node.state = .config := by simpa [retrackOpen, hsus] using hopen
      simp only [applyEvent, applyImage, hconfig, NodeAgrees, reduceCtorEq, if_false]
  | start hc hu =>
    show NodeAgrees (enteredState s) s.track.uncertain s.node.latch
    exact hu ▸ nodeAgrees_entered s
  | stop => exact trivial
  | hold => exact nodeAgrees_hold hs
  | release => exact nodeAgrees_release hs
  | cellTrack => exact trivial
  | _ => exact hs

theorem touch_keeps_nodeWf {s t : State} (h : Touch s t) (hs : NodeWf s) : NodeWf t := by
  cases h with
  | inner _ h => exact inner_keeps_nodeWf h hs
  | powerOn => exact trivial
  | _ => exact hs

/-! ### The copy (R34) -/

/-- No body of a queue is bound to the staging bank of `b`. -/
def StagingFree (b : BankStore) (q : List (Option Body)) : Prop := ∀ x, some x ∈ q → x.bank = b.live

theorem copyWf_iff (s : State) :
    CopyWf s ↔ (s.bank.busy = true → s.bank.armed = false ∧ StagingFree s.bank s.track.queue) := by
  unfold CopyWf StagingFree
  rw [← Bool.not_eq_true (stagingInUse s), stagingInUse_iff]
  simp only [not_exists, not_and, not_not]

/-- A change of the bank store while the queue stands: a copy starts behind its gate, and a running one meets no arming
and no flip. -/
theorem bankStep_keeps_copy {s : State} {b : BankStore} (h : BankStep s b)
    (hs : s.bank.busy = true → s.bank.armed = false ∧ StagingFree s.bank s.track.queue) :
    b.busy = true → b.armed = false ∧ StagingFree b s.track.queue := by
  cases h with
  | start r hb ha hu =>
    intro _
    refine ⟨ha, fun x hx => ?_⟩
    by_contra hne
    exact Bool.eq_false_iff.1 hu ((stagingInUse_iff s).2 ⟨x, hx, hne⟩)
  | step x y n m hn => exact fun _ => hs (by simp [BankStore.busy, hn])
  | idle torn r => exact fun hbusy => by simp [BankStore.busy] at hbusy
  | arm hb => exact fun hbusy => absurd hbusy (Bool.eq_false_iff.1 hb)
  | disarm => exact fun hbusy => ⟨rfl, (hs hbusy).2⟩
  | flip ha => exact fun hbusy => absurd ha (Bool.eq_false_iff.1 (hs hbusy).1)
  | write x y => exact hs

/-- Records join the queue bound to the live bank, and a running copy meets no flip. -/
theorem inner_keeps_copyWf {s t : State} (h : Inner s t) (hs : CopyWf s) : CopyWf t := by
  rw [copyWf_iff] at hs ⊢
  cases h with
  | admitNext hu =>
    intro hbusy
    obtain ⟨harmed, hfree⟩ := hs hbusy
    refine ⟨harmed, fun x hx => ?_⟩
    rcases List.mem_cons.1 hx with hx | hx
    · rw [Option.some.inj hx]
      rfl
    · exact hfree x (List.mem_of_mem_dropLast hx)
  | mark m chs id =>
    refine fun hbusy => ⟨(hs hbusy).1, forall_mem_map_queue fun x hx => ?_⟩
    have hx := (hs hbusy).2 x hx
    split
    · cases m <;> exact hx
    · exact hx
  | uncertain => exact fun hbusy => ⟨(hs hbusy).1, forall_mem_map_queue fun x hx => (hs hbusy).2 x hx⟩
  | channel c r =>
    obtain ⟨o, w, e⟩ := channelEvent_eq c r s
    rw [e]
    exact hs
  | settings n i m =>
    by_cases hn : n = s.node.stations
    · simpa only [storeSettings, hn, if_true] using hs
    · simp only [storeSettings, if_neg hn]
      exact fun hbusy => ⟨(hs hbusy).1, fun x hx => (not_mem_vacant hx).elim⟩
  | apply => exact fun hbusy => ⟨(hs hbusy).1, retrackBodies_bank _ _ _⟩
  | cellTrack => exact fun hbusy => ⟨(hs hbusy).1, fun x hx => (not_mem_vacant hx).elim⟩
  | bank b hb => exact bankStep_keeps_copy (s := s) hb hs
  | _ => exact hs

/-- RESET_N low ends the copy. -/
theorem touch_keeps_copyWf {s t : State} (h : Touch s t) (hs : CopyWf s) : CopyWf t := by
  cases h with
  | inner _ h => exact inner_keeps_copyWf h hs
  | enterReset => exact fun hbusy => by simp [enterReset, BankStore.busy] at hbusy
  | powerOn => exact nofun
  | _ => exact hs

/-- Settles O58: each of the three is kept by every elementary change a step is made of. -/
theorem stepKeepsBodiesAndNode : Obligations.StepKeepsBodiesAndNode := by
  refine ⟨fun s t => ?marks, fun s t => ?node, fun s t => ?copy⟩
  case marks => exact step_keeps (fun _ _ => touch_keeps_marksWf) fun _ _ => id
  case node => exact step_keeps (fun _ _ => touch_keeps_nodeWf) fun _ _ => id
  case copy => exact step_keeps (fun _ _ => touch_keeps_copyWf) fun _ _ => id

end Sys2Proof.Machine

/-! ## Proofs: what every step keeps of wear flags, jobs and alarms (05, 06, 10) -/

namespace Sys2Proof.Machine

/-! ### Wear flags and the overdue factor (R112, R120, R121) -/

/-- The flags of a channel's guns and its overdue factor are those of the counts. -/
def ChannelWearOk (r : ChanRec) (w : ChanWear) : Prop :=
  GunOk true w.gun1 ∧ GunOk r.twoGuns w.gun2 ∧
    (r.overdue = true ↔ w.gun1.overdue = true ∨ r.twoGuns = true ∧ w.gun2.overdue = true)

/-- The overdue value that is reported is the one the invariant asks for. -/
theorem channelWearOk_reported {r : ChanRec} {w : ChanWear} (h1 : GunOk true w.gun1) (h2 : GunOk r.twoGuns w.gun2) :
    ChannelWearOk { r with overdue := w.overdue r.twoGuns } w :=
  ⟨h1, h2, by simp [ChanWear.overdue]⟩

/-- A channel's record and wear records stored together, in order, keep the invariant. -/
theorem wearWf_store {s : State} (hs : WearWf s) (c : ChanNo) {r : ChanRec} {w : ChanWear} (h : ChannelWearOk r w) :
    WearWf (setChan c r (setWear c w s)) := by
  intro d
  by_cases hd : d = c
  · subst hd
    rw [chanRec_setChan_self, wearOf_setChan, wearOf_setWear_self]
    exact h
  · rw [chanRec_setChan_of_ne hd, chanRec_setWear, wearOf_setChan, wearOf_setWear_of_ne hd]
    exact hs d

/-- Writing a channel's wear records over themselves changes nothing. -/
theorem setWear_wearOf (c : ChanNo) (s : State) : setWear c (wearOf s c) s = s := by
  simp [setWear, wearOf]

/-- A record of the old gun count and overdue factor keeps the invariant. -/
theorem wearWf_setChan_of_same {s : State} (hs : WearWf s) (c : ChanNo) {r : ChanRec}
    (h2 : r.twoGuns = (chanRec s c).twoGuns) (ho : r.overdue = (chanRec s c).overdue) : WearWf (setChan c r s) := by
  have h : ChannelWearOk r (wearOf s c) := by
    unfold ChannelWearOk
    rw [h2, ho]
    exact hs c
  have := wearWf_store hs c h
  rwa [setWear_wearOf] at this

/-- R120: a gun's record is stored with its flags evaluated. -/
theorem wearWf_wearEvent {s : State} (hs : WearWf s) (c : ChanNo) (g : Gun) (r : GunRec) : WearWf (wearEvent c g r s) := by
  refine wearWf_store hs c (channelWearOk_reported ?_ ?_)
  · cases g with
    | gun1 => exact evaluated_gunOk r true
    | gun2 => exact (hs c).1
  · cases g with
    | gun1 => exact (hs c).2.1
    | gun2 => exact evaluated_gunOk r _

/-- R44: a changed gun count evaluates both guns. -/
theorem wearWf_channelEvent {s : State} (hs : WearWf s) (c : ChanNo) {r : ChanRec}
    (ho : r.overdue = (chanRec s c).overdue) : WearWf (channelEvent c r s) := by
  unfold channelEvent
  split
  case isTrue h2 => exact wearWf_setChan_of_same hs c h2 ho
  case isFalse => exact wearWf_store hs c (channelWearOk_reported (evaluated_gunOk _ _) (evaluated_gunOk _ _))

theorem inner_keeps_wearWf {s t : State} (h : Inner s t) (hs : WearWf s) : WearWf t := by
  cases h with
  | chan c f o => exact wearWf_setChan_of_same hs c rfl rfl
  | wear c g r => exact wearWf_wearEvent hs c g r
  | channel c r hf ho => exact wearWf_channelEvent hs c ho
  | _ => exact hs

theorem touch_keeps_wearWf {s t : State} (h : Touch s t) (hs : WearWf s) : WearWf t := by
  cases h with
  | inner _ h => exact inner_keeps_wearWf h hs
  | powerOn => exact wearWf_reset
  | _ => exact hs

/-! ### Jobs and their commands (R86, R91, R94) -/

/-- The agreement of a job with the command in force and the pending list. -/
def JobAgrees (j : Option Job) (k : Command) (l : List Dispatch) : Prop :=
  match j with
  | none => True
  | some (.body _ n) =>
    k.sel = n ∧ k.kind = .body ∧
    ∃ r rest, l = r :: rest ∧ k.program = r.program ∧ k.gun = r.gun ∧ k.spots = r.spots ∧ k.tag = r.tag ∧
      k.cover = (r.role == .cover)
  | some (.orphan p g t n) => k.sel = n ∧ k.kind = .body ∧ k.program = p ∧ k.gun = g ∧ k.tag = t
  | some (.maint _ κ g p n) =>
    k.sel = n ∧ k.kind = κ.kind ∧ k.program = p ∧ k.gun = g ∧ k.boost = 0 ∧ k.spots = 0 ∧ k.tag = 0 ∧ k.cover = false

theorem jobOk_iff (q : Seq) : JobOk q ↔ JobAgrees q.job q.cmd q.list := by
  unfold JobOk JobAgrees
  rcases q.job with _ | _ | _ | _ <;> rfl

/-- A BODY job reads its list at the head, the other jobs not at all. -/
theorem jobAgrees_relist {j : Option Job} {k : Command} {l l' : List Dispatch} (h : JobAgrees j k l)
    (hl : ∀ ph n r rest, j = some (.body ph n) → l = r :: rest → ∃ rest', l' = r :: rest') : JobAgrees j k l' := by
  rcases j with _ | ⟨ph, n⟩ | _ | _
  · exact h
  · obtain ⟨hsel, hkind, r, rest, he, hcmd⟩ := h
    obtain ⟨rest', he'⟩ := hl ph n r rest rfl he
    exact ⟨hsel, hkind, r, rest', he', hcmd⟩
  · exact h
  · exact h

/-- No job reads its phase. -/
theorem jobAgrees_toPhase {j : Option Job} {k : Command} {l : List Dispatch} (h : JobAgrees j k l) (ph : JobPhase) :
    JobAgrees (j.map (Job.toPhase ph)) k l := by
  rcases j with _ | _ | _ | _ <;> exact h

/-- What a sequencer keeps: its command is its job's, and its reply-loss count is below the limit. -/
def SeqWf (q : Seq) : Prop := JobAgrees q.job q.cmd q.list ∧ q.lossCount < 8

theorem seqsWf_iff (s : State) : SeqsWf s ↔ ∀ c, SeqWf (seqOf s c) := by
  simp only [SeqsWf, SeqWf, jobOk_iff]

/-- Jobs start with their command, change their phase under it, and end; a RUNNING job becomes the orphan of its head. -/
theorem seqStep_keeps {q r : Seq} (h : SeqStep q r) (hq : SeqWf q) : SeqWf r := by
  obtain ⟨hjob, hloss⟩ := hq
  cases h with
  | loss n hn => exact ⟨hjob, hn⟩
  | withdraw l => exact ⟨trivial, hloss⟩
  | relist l hl =>
    refine ⟨jobAgrees_relist hjob fun ph n x rest hj he => ?_, hloss⟩
    exact absurd (he.symm.trans (hl ph n hj)) (List.cons_ne_nil _ _)
  | behind x rest l he =>
    refine ⟨jobAgrees_relist hjob fun ph n y rest' hj he' => ?_, hloss⟩
    obtain ⟨rfl, rfl⟩ := List.cons.inj (he.symm.trans he')
    exact ⟨l, rfl⟩
  | orphan x rest l n he hj =>
    rw [hj, he] at hjob
    obtain ⟨hsel, hkind, y, _, hy, hprog, hgun, -, htag, -⟩ := hjob
    obtain ⟨rfl, -⟩ := List.cons.inj hy
    simp only [Seq.toOrphan, hj]
    exact ⟨⟨hsel, hkind, hprog, hgun, htag⟩, hloss⟩
  | maint g κ program hj => exact ⟨⟨rfl, rfl, rfl, rfl, rfl, rfl, rfl, rfl⟩, hloss⟩
  | body x rest boost he hj => exact ⟨⟨rfl, rfl, x, rest, he, rfl, rfl, rfl, rfl, rfl⟩, hloss⟩
  | phase ph => exact ⟨jobAgrees_toPhase hjob ph, hloss⟩
  | finish l => exact ⟨trivial, hloss⟩
  | _ => exact ⟨hjob, hloss⟩

theorem seqSteps_keeps {q r : Seq} (h : SeqSteps q r) (hq : SeqWf q) : SeqWf r := by
  induction h with
  | refl => exact hq
  | tail _ h ih => exact seqStep_keeps h ih

theorem inner_keeps_seqsWf {s t : State} (h : Inner s t) (hs : SeqsWf s) : SeqsWf t := by
  cases h with
  | seqs v hv =>
    rw [seqsWf_iff] at hs ⊢
    exact fun c => seqSteps_keeps (hv c) (hs c)
  | channel c r =>
    obtain ⟨o, w, e⟩ := channelEvent_eq c r s
    rw [e]
    exact hs
  | _ => exact hs

/-- RESET_N low ends every job. -/
theorem touch_keeps_seqsWf {s t : State} (h : Touch s t) (hs : SeqsWf s) : SeqsWf t := by
  cases h with
  | inner _ h => exact inner_keeps_seqsWf h hs
  | enterReset =>
    intro c
    have hc : seqOf (enterReset s) c = { seqOf s c with job := none } := by simp [seqOf, enterReset]
    rw [hc]
    exact ⟨trivial, (hs c).2⟩
  | powerOn => exact seqsWf_reset
  | _ => exact hs

/-! ### Alarms and their conditions (R177, R181, R183) -/

/-- The three conditions that the summary shows. -/
def ConditionsShown (s : State) : Prop :=
  (s.report.log.isSome = true → alarmed s .check = true) ∧
  (s.track.uncertain = true → alarmed s .trackLost = true) ∧
  (s.path.bitErrors ≠ 0 → alarmed s .testError = true)

/-- A further alarm hides no condition. -/
theorem conditionsShown_setAlarm {s : State} (a : Alarm) (h : ConditionsShown s) : ConditionsShown (setAlarm a s) :=
  ⟨fun hl => alarmed_setAlarm a _ (h.1 hl), fun hu => alarmed_setAlarm a _ (h.2.1 hu),
    fun hb => alarmed_setAlarm a _ (h.2.2 hb)⟩

/-- CLEAR ALARMS leaves the alarm of every condition that holds. -/
theorem conditionsShown_clearedAlarms {s : State} (mask : Byte) (h : ConditionsShown s) :
    ConditionsShown { s with report := { s.report with alarms := clearedAlarms mask s } } :=
  ⟨fun hl => cleared_kept mask s .check hl (h.1 hl), fun hu => cleared_kept mask s .trackLost hu (h.2.1 hu),
    fun hb => cleared_kept mask s .testError (by simpa [alarmKept] using hb) (h.2.2 hb)⟩

/-- An error reported to the fault log leaves a record there and sets CHECK. -/
theorem logError_eq (e : LogRec) (s : State) :
    ∃ r : Report, logError e s = setAlarm .check { s with report := r } ∧ r.alarms = s.report.alarms ∧
      r.log.isSome = true := by
  refine ⟨_, rfl, ?_⟩
  cases hl : s.report.log with
  | none => exact ⟨rfl, rfl⟩
  | some x =>
    cases s.node.logMode with
    | first => exact ⟨rfl, by simp⟩
    | latest => exact ⟨rfl, rfl⟩

theorem alarmsWf_logError {s : State} (e : LogRec) (hs : AlarmsWf s) : AlarmsWf (logError e s) := by
  obtain ⟨r, he, halarms, hlog⟩ := logError_eq e s
  have hshown : ∀ a, alarmed s a = true → alarmed (setAlarm .check { s with report := r }) a = true := by
    intro a ha
    exact alarmed_setAlarm .check a (by simpa [alarmed, halarms] using ha)
  rw [he]
  refine ⟨fun hnone => ?_, fun hpin => ⟨fun _ => alarmed_setAlarm_self _ _, fun hu => ?_, fun hb => ?_⟩⟩
  · have hnone : r.log = none := hnone
    rw [hnone] at hlog
    exact absurd hlog (by decide)
  · exact hshown _ ((hs.2 hpin).2.1 hu)
  · exact hshown _ ((hs.2 hpin).2.2 hb)

/-- A condition that comes to hold sets its alarm in the same change; an alarm is cleared with its condition. -/
theorem inner_keeps_alarmsWf {s t : State} (h : Inner s t) (hs : AlarmsWf s) : AlarmsWf t := by
  obtain ⟨hfurther, hshown⟩ := hs
  cases h with
  | path p hp =>
    refine ⟨hfurther, fun hpin => ⟨(hshown hpin).1, (hshown hpin).2.1, fun hb => (hshown hpin).2.2 ?_⟩⟩
    exact hp.elim (fun he => he ▸ hb) fun h0 => absurd h0 hb
  | bitErrors p =>
    refine ⟨hfurther, fun hpin => ⟨fun hl => ?_, fun hu => ?_, fun _ => alarmed_setAlarm_self _ _⟩⟩
    · exact alarmed_setAlarm _ _ ((hshown hpin).1 hl)
    · exact alarmed_setAlarm _ _ ((hshown hpin).2.1 hu)
  | alarm a => exact ⟨hfurther, fun hpin => conditionsShown_setAlarm a (hshown hpin)⟩
  | log e => exact alarmsWf_logError e ⟨hfurther, hshown⟩
  | clearAlarms mask => exact ⟨hfurther, fun hpin => conditionsShown_clearedAlarms mask (hshown hpin)⟩
  | clearLog => exact ⟨fun _ => rfl, fun hpin => ⟨nofun, (hshown hpin).2⟩⟩
  | uncertain =>
    refine ⟨hfurther, fun hpin => ⟨fun hl => ?_, fun _ => alarmed_setAlarm_self _ _, fun hb => ?_⟩⟩
    · exact alarmed_setAlarm _ _ ((hshown hpin).1 hl)
    · exact alarmed_setAlarm _ _ ((hshown hpin).2.2 hb)
  | channel c r =>
    obtain ⟨o, w, e⟩ := channelEvent_eq c r s
    rw [e]
    exact ⟨hfurther, hshown⟩
  | settings n i m =>
    have hu : (storeSettings n i m s).track.uncertain = s.track.uncertain := by
      unfold storeSettings
      dsimp only
      split <;> rfl
    exact ⟨hfurther, fun hpin => ⟨(hshown hpin).1, fun h => (hshown hpin).2.1 (hu ▸ h), (hshown hpin).2.2⟩⟩
  | apply => exact ⟨hfurther, fun hpin => ⟨(hshown hpin).1, nofun, (hshown hpin).2.2⟩⟩
  | hold => exact ⟨hfurther, fun hpin => conditionsShown_setAlarm .hold (hshown hpin)⟩
  | cellTrack => exact ⟨fun _ => rfl, fun _ => ⟨nofun, nofun, fun hb => absurd rfl hb⟩⟩
  | _ => exact ⟨hfurther, hshown⟩

/-- RESET_N low clears the summary, whose conditions are claimed out of reset alone. -/
theorem touch_keeps_alarmsWf {s t : State} (h : Touch s t) (hs : AlarmsWf s) : AlarmsWf t := by
  cases h with
  | inner _ h => exact inner_keeps_alarmsWf h hs
  | pins p hp => exact ⟨hs.1, fun hpin => hs.2 (hp ▸ hpin)⟩
  | enterReset => exact ⟨hs.1, nofun⟩
  | powerOn => exact alarmsWf_reset
  | _ => exact hs

/-- Settles O59: each of the three is kept by every elementary change a step is made of. -/
theorem stepKeepsJobsWearAndAlarms : Obligations.StepKeepsJobsWearAndAlarms := by
  refine ⟨fun s t => ?wear, fun s t => ?seqs, fun s t => ?alarms⟩
  case wear => exact step_keeps (fun _ _ => touch_keeps_wearWf) fun _ _ => id
  case seqs => exact step_keeps (fun _ _ => touch_keeps_seqsWf) fun _ _ => id
  case alarms => exact step_keeps (fun _ _ => touch_keeps_alarmsWf) fun _ _ => id

end Sys2Proof.Machine

/-! ## Proofs: the queue of commands, reset and the hold pin (00, 08) -/

namespace Sys2Proof.Machine

/-! ### The queue of waiting commands (log 7) -/

/-- Settles O1: a step takes the front of the queue and runs it on the rest. -/
theorem stepRunsFrontCommand : Obligations.StepRunsFrontCommand :=
  fun _ _ _ => ⟨rfl, rfl⟩

/-- No elementary change of a command touches the queue. -/
theorem touch_pending {s t : State} (h : Touch s t) : t.pending = s.pending := by
  cases h with
  | inner _ h => exact h.sameOutside.pending
  | _ => rfl

/-- Settles O2: every command is a run of elementary changes, which leave the queue alone. -/
theorem everyCommandReachesNextState : Obligations.EveryCommandReachesNextState := by
  intro i s
  obtain ⟨t, ht, hrun⟩ := exec_touches i s
  exact ⟨t, ht, hrun.keeps (P := fun u => u.pending = s.pending) (fun _ _ h hu => (touch_pending h).trans hu) rfl⟩

/-! ### Commands in and out of reset (R156) -/

/-- Out of reset a command acts on the state with the frames of the last command forgotten. -/
theorem live_of_running {s : State} (hs : s.pins.inReset = false) (f : State → State) :
    live f s = f { s with sent := [] } := by
  simp only [live, hs, Bool.false_eq_true, if_false]

/-- In reset it does nothing more. -/
theorem live_of_reset {s : State} (hs : s.pins.inReset = true) (f : State → State) : live f s = { s with sent := [] } := by
  simp only [live, hs, if_true]

/-- A pin command out of reset: the level follows, and what the level does is done. -/
theorem onPin_of_running {s : State} {set : Pins → Pins} (hs : (set s.pins).inReset = false) (f : State → State) :
    onPin set f s = f { s with sent := [], pins := set s.pins } := by
  simp only [onPin, hs, Bool.false_eq_true, if_false]

/-- A pin command in reset: the level alone follows. -/
theorem onPin_of_reset {s : State} {set : Pins → Pins} (hs : (set s.pins).inReset = true) (f : State → State) :
    onPin set f s = { s with sent := [], pins := set s.pins } := by
  simp only [onPin, hs, if_true]

/-- The commands of the pins and links, which are followed in reset too. -/
def pinCommands : List Instr :=
  [.portALinkDown, .portALinkUp, .portBLinkDown, .portBLinkUp, .holdNFallingEdge, .holdNRisingEdge]

/-- In reset every command but those of the pins and of reset itself does nothing. -/
theorem exec_of_reset {s : State} (hs : s.pins.inReset = true) {i : Instr} (hlow : i ≠ .resetNLow)
    (hhigh : ∀ straps, i ≠ .powerOnReset straps) (hpin : i ∉ pinCommands) : exec i s = .next { s with sent := [] } := by
  cases i with
  | resetNLow => exact absurd rfl hlow
  | powerOnReset straps => exact absurd rfl (hhigh straps)
  | portALinkDown | portALinkUp | portBLinkDown | portBLinkUp | holdNFallingEdge | holdNRisingEdge =>
    exact absurd (by simp [pinCommands]) hpin
  | _ => exact congrArg Host.Outcome.next (live_of_reset hs _)

/-- Settles O5: the level of RESET_N decides whether a command acts, and the pins and links are followed at either. -/
theorem resetFreezesPart : Obligations.ResetFreezesPart := by
  refine ⟨fun s => ⟨enterReset s, rfl, (alarmN_eq_true_iff _).2 rfl, rfl⟩, fun s hs => ?_⟩
  have hfollow : ∀ (set : Pins → Pins) (f : State → State), (set s.pins).inReset = true →
      (.next (onPin set f s) : Host.Outcome State Fault Refusal) = .next { s with sent := [], pins := set s.pins } :=
    fun set f h => congrArg Host.Outcome.next (onPin_of_reset h f)
  exact ⟨hfollow _ _ hs, hfollow _ _ hs, hfollow _ _ hs, hfollow _ _ hs, hfollow _ _ hs, hfollow _ _ hs,
    fun i hlow hhigh hpin => exec_of_reset hs hlow hhigh hpin⟩

/-! ### Power-on reset (R156, R157) -/

/-- The part leaves reset at its power-on values, with the latch and its alarm where HOLD_N is found low. -/
theorem leaveReset_eq (straps : BitVec 4) (s : State) :
    leaveReset straps s = { powerOn straps s with
      node := { NodeCtl.reset with address := straps, latch := !s.pins.holdN }
      report := { Report.reset with alarms := if s.pins.holdN then 0 else 0x20 } } := by
  unfold leaveReset
  cases hpin : s.pins.holdN with
  | true => rfl
  | false => simp [setHold, setAlarm, powerOn, NodeCtl.reset, Report.reset, State.reset, Alarm.mask, Alarm.bit]

/-- The slot map after reset gives slots 1 to 8 to MGMT. -/
theorem slotMap_reset_getElem (i : Fin 183) :
    SlotMap.reset[i.val] = if h : i.val < 8 then .mgmt ⟨i.val, h⟩ else .pass := by
  revert i
  decide +kernel

/-- Settles O6: field by field, from the power-on values of every block. -/
theorem powerOnResetValues : Obligations.PowerOnResetValues := by
  intro straps s
  refine ⟨leaveReset straps s, rfl, ?_⟩
  rw [leaveReset_eq]
  refine ⟨rfl, rfl, slotMap_reset_getElem, rfl, rfl, rfl, rfl, rfl, rfl, rfl, rfl, rfl, rfl, ?banks, rfl, rfl, rfl, rfl,
    rfl, ?chans, rfl, ?wear, ?curves, rfl, rfl, rfl⟩
  case banks =>
    intro b n
    have hbank : (powerOn straps s).bank.get b = Bank.reset := by cases b <;> rfl
    have hrec : ((powerOn straps s).bank.get b)[n.val] =
        { enabled := false, entries := Vector.replicate 32 Entry.reset } := by
      simp only [hbank, Bank.reset, Vector.getElem_replicate]
    refine ⟨congrArg StyleRec.enabled hrec, fun c => ?_⟩
    exact (congrArg (fun r : StyleRec => r.entries[c.val]) hrec).trans (Vector.getElem_replicate _)
  case chans => exact fun c => Vector.getElem_replicate c.isLt
  case wear =>
    intro c g
    have hwear : wearOf (powerOn straps s) c = { gun1 := GunRec.reset, gun2 := GunRec.reset } :=
      Vector.getElem_replicate c.isLt
    exact (congrArg (ChanWear.get · g) hwear).trans (by cases g <;> rfl)
  case curves => exact fun i => Vector.getElem_replicate i.isLt

/-! ### The hold latch (R150, R151) -/

/-- RELEASE while HOLD_N is low. -/
theorem serveRelease_of_low {s : State} (hs : s.pins.holdN = false) : serveRelease s = refuse .active s := by
  simp only [serveRelease, hs, Bool.false_eq_true, if_false]

/-- RELEASE while HOLD_N is high. -/
theorem serveRelease_of_high {s : State} (hs : s.pins.holdN = true) :
    serveRelease s = okay { s with node := { s.node with
      latch := false, state := if s.node.state = .held then .run else s.node.state } } := by
  simp only [serveRelease, hs, if_true]

/-- A hold sets the latch and the HOLD alarm and moves RUN to HELD. -/
theorem setHold_eq (s : State) :
    setHold s = { s with
      node := { s.node with latch := true, state := if s.node.state = .run then .held else s.node.state }
      report := { s.report with alarms := s.report.alarms ||| 0x20 } } :=
  rfl

/-- Settles O8: the pin and the request make the same hold, and RELEASE reads the pin's level. -/
theorem holdLatchIsSetAndReleased : Obligations.HoldLatchIsSetAndReleased := by
  refine ⟨fun s hs => ⟨?falling, ?rising⟩, fun h s ht => ⟨?hold, fun hlow => ?active, fun hhigh => ?release⟩⟩
  case falling => exact congrArg Host.Outcome.next (onPin_of_running (set := fun p => { p with holdN := false }) hs setHold)
  case rising => exact congrArg Host.Outcome.next (onPin_of_running (set := fun p => { p with holdN := true }) hs fun s => s)
  case hold =>
    have hserve : serveHold (noticed h s) = okay (setHold (noticed h s)) := rfl
    rw [setHold_eq, noticed_node, noticed_report] at hserve
    exact onRequest_of_serve ht rfl hserve
  case active => exact onRequest_of_serve ht rfl (serveRelease_of_low (by rwa [noticed_pins]))
  case release =>
    have hserve := serveRelease_of_high (s := noticed h s) (by rwa [noticed_pins])
    rw [noticed_node] at hserve
    exact onRequest_of_serve ht rfl hserve

end Sys2Proof.Machine

/-! ## Proofs: START, STOP, CELL RESET and the node settings (08) -/

namespace Sys2Proof.Machine

/-! ### START (R148, R64) -/

/-- The three checks of START, in their order. -/
theorem serveStart_of_state {s : State} (hs : s.node.state ≠ .config ∨ s.track.uncertain = true) :
    serveStart s = refuse .state s := by
  unfold serveStart
  split
  case isTrue => rfl
  case isFalse hc => exact if_pos (hs.resolve_left hc)

theorem serveStart_of_conflict {s : State} (hs : s.node.state = .config) (hu : s.track.uncertain = false)
    (hline : s.sweep.storedMap.holds .line = false) : serveStart s = refuse .conflict s := by
  simp [serveStart, hs, hu, hline]

theorem serveStart_of_config {s : State} (hs : s.node.state = .config) (hu : s.track.uncertain = false)
    (hline : s.sweep.storedMap.holds .line = true) :
    serveStart s =
      okay (catchUp { s with node := { s.node with state := if s.node.latch then .held else .run } }) := by
  simp [serveStart, hs, hu, hline, enteredState]

/-- The catch-up of a state with the channel records of `s` settles the windows those records give. -/
theorem catchUp_eq_settledWhere_of {s u : State} (hc : ∀ c, chanRec u c = chanRec s c) :
    catchUp u = settledWhere (fun c k => (chanRec s c).preselect ≤ k ∧ k ≤ (chanRec s c).station) u :=
  (settledWhere_eq_resolveWhere _ _ _ fun c k => by simp [hc]).symm

/-- Settles O9: the entered state catches up, which settles the windows, touches lists and marks alone, and leaves every
body it reaches resolved. -/
theorem startEntersRunAndCatchesUp : Obligations.StartEntersRunAndCatchesUp := by
  intro h s ht hs hu hline u t
  have hrec : ∀ c, chanRec u c = chanRec s c := noticed_chanRec h s
  have hserve : serveStart (noticed h s) = okay t := by
    rw [serveStart_of_config (by rwa [noticed_node]) (by rwa [noticed_track]) (by rwa [noticed_storedMap]), noticed_node]
    exact congrArg okay (catchUp_eq_settledWhere_of hrec)
  have hmarks : ListsAndMarks u t := settledWhere_listsAndMarks _ u
  have htrack : u.track = s.track := noticed_track h s
  refine ⟨onRequest_of_serve ht rfl hserve, ?frame, ?bodies, ?resolved⟩
  case frame =>
    have he := hmarks.eq
    rwa [htrack] at he
  case bodies =>
    have hb := hmarks.bodies
    rwa [htrack] at hb
  case resolved =>
    intro _ hwf c k b hp hk hlo hhi hb hpass
    have hbodies : ∀ b, some b ∈ u.track.queue → ∃ v, BodyOk v b := fun b hb => ⟨_, hwf.1 b (htrack ▸ hb)⟩
    have hpresent : present u c = true := (noticed_present h s c).trans hp
    exact settledWhere_resolves _ u hbodies c k b hpresent hk ⟨hlo, hhi⟩ hb hpass

/-! ### STOP (R149, R82) -/

/-- Folding a disjunction from `m` on is `m` joined with the fold from 0. -/
theorem foldl_or_eq {α : Type} (f : α → Mask) (l : List α) (m : Mask) :
    l.foldl (fun m a => m ||| f a) m = m ||| l.foldl (fun m a => m ||| f a) 0 := by
  induction l generalizing m with
  | nil => simp
  | cons a l ih =>
    simp only [List.foldl_cons]
    rw [ih, ih (0 ||| f a)]
    simp [BitVec.or_assoc]

/-- The channels that the lists of some channels account for. -/
def accountedBy (s : State) (l : List ChanNo) (id : Nat) : Mask :=
  l.foldl (fun m c => m ||| accounted (seqOf s c).list id) 0

theorem accountedBy_cons (s : State) (c : ChanNo) (l : List ChanNo) (id : Nat) :
    accountedBy s (c :: l) id = accounted (seqOf s c).list id ||| accountedBy s l id := by
  unfold accountedBy
  rw [List.foldl_cons, foldl_or_eq]
  simp

/-- R13: the held accounts of a body are those of all channels. -/
theorem heldAccounts_eq (s : State) (id : Nat) : heldAccounts s id = accountedBy s allChannels id := by
  unfold heldAccounts accountedBy
  exact congrArg (fun f => allChannels.foldl f 0) (funext fun m => funext fun c => accounted_from _ _ _)

/-- The sequencers with those of some channels cleared. -/
def clearedSeqs (s : State) (l : List ChanNo) (v : Vector Seq 32) : Vector Seq 32 :=
  l.foldl (fun v c => v.set c.val (seqOf s c).cleared) v

theorem clearedSeqs_getElem (s : State) (l : List ChanNo) (v : Vector Seq 32) (c : ChanNo) :
    (clearedSeqs s l v)[c.val] = if c ∈ l then (seqOf s c).cleared else v[c.val] := by
  induction l generalizing v with
  | nil => rfl
  | cons d l ih =>
    have hcons : clearedSeqs s (d :: l) v = clearedSeqs s l (v.set d.val (seqOf s d).cleared) := rfl
    rw [hcons, ih]
    by_cases hl : c ∈ l
    · simp [hl]
    · by_cases hd : c = d
      · simp [hd]
      · have hne : d.val ≠ c.val := fun e => hd (Fin.ext e.symm)
        simp [hl, hd, hne]

/-- The settlement of STOP over some channels: their lists are cleared, and what the lists accounted for is owed. -/
theorem stopLists_foldl (s : State) (l : List ChanNo) (t : State) (hn : l.Nodup) (ht : ∀ c ∈ l, seqOf t c = seqOf s c) :
    l.foldl (fun u c => oweAll (seqOf u c).list (setSeq c (seqOf u c).cleared u)) t = { t with
      track := { t.track with queue := t.track.queue.map (Option.map fun b => b.mark .owed (accountedBy s l b.id)) }
      seqs := clearedSeqs s l t.seqs } := by
  induction l generalizing t with
  | nil =>
    have hq : t.track.queue.map (Option.map fun b => b.mark .owed (accountedBy s [] b.id)) = t.track.queue := by
      simp [accountedBy]
    rw [hq]
    rfl
  | cons c l ih =>
    obtain ⟨hc, hl⟩ := List.nodup_cons.1 hn
    rw [List.foldl_cons, oweAll_eq, ht c (by simp), ih _ hl ?others]
    case others =>
      intro d hd
      have hne : d ≠ c := fun e => hc (e ▸ hd)
      exact (seqOf_setSeq_of_ne hne _ t).trans (ht d (by simp [hd]))
    have hq : ∀ q : List (Option Body),
        (q.map (Option.map fun b => b.mark .owed (accounted (seqOf s c).list b.id))).map
            (Option.map fun b => b.mark .owed (accountedBy s l b.id)) =
          q.map (Option.map fun b => b.mark .owed (accountedBy s (c :: l) b.id)) := by
      intro q
      rw [List.map_map]
      refine List.map_congr_left fun p _ => ?_
      cases p with
      | none => rfl
      | some b => simp [Body.mark_owed_owed, accountedBy_cons]
    dsimp only
    rw [show (setSeq c (seqOf s c).cleared t).track = t.track from rfl, hq]
    rfl

/-- R82: STOP clears every list, and each body is owed by the channels that held a record of it. -/
theorem stopLists_eq (s : State) :
    stopLists s = { s with
      track := { s.track with queue := s.track.queue.map (Option.map fun b => b.mark .owed (heldAccounts s b.id)) }
      seqs := s.seqs.map Seq.cleared } := by
  have hseqs : clearedSeqs s allChannels s.seqs = s.seqs.map Seq.cleared := by
    refine Vector.ext fun i hi => ?_
    rw [clearedSeqs_getElem s allChannels s.seqs ⟨i, hi⟩, if_pos (mem_allChannels _), Vector.getElem_map]
    rfl
  simp only [heldAccounts_eq, ← hseqs]
  exact stopLists_foldl s allChannels s nodup_allChannels fun _ _ => rfl

/-- R82, R83: what a cleared sequencer is, by its job: a RUNNING one goes on as an orphan, a SELECTING or LOADED one is
withdrawn. -/
theorem Seq.cleared_eq (q : Seq) :
    q.cleared =
      match q.job, q.list with
      | some (.body .running n), r :: _ => { q with list := [], job := some (.orphan r.program r.gun r.tag n) }
      | some (.body _ _), _ => { q with list := [], job := none, watchCount := 0, cmd := idleCommand q.cmd.sel }
      | _, _ => { q with list := [] } := by
  obtain ⟨l, j, k, hist, st, w, n⟩ := q
  rcases j with _ | ⟨_ | _ | _, _⟩ | _ | _ <;> cases l <;> rfl

/-- Settles O10: CONFIG is left as it is; every other state is left for it with the lists settled. -/
theorem stopSettlesLists : Obligations.StopSettlesLists := by
  intro h s ht
  refine ⟨fun hs => ?config, fun hs => ⟨s.seqs.map Seq.cleared, ?settled, fun c => ?seqs⟩⟩
  case config =>
    have hserve : serveStop (noticed h s) = okay (noticed h s) := if_pos (by rwa [noticed_node])
    exact onRequest_of_serve ht rfl hserve
  case settled =>
    have hheld : heldAccounts (noticed h s) = heldAccounts s := by
      funext id
      simp only [heldAccounts, noticed_seqOf]
    have hserve : serveStop (noticed h s) = okay { noticed h s with
        node := { s.node with state := .config }
        track := { s.track with queue := s.track.queue.map (Option.map fun b => b.mark .owed (heldAccounts s b.id)) }
        seqs := s.seqs.map Seq.cleared } := by
      rw [serveStop, if_neg (by rwa [noticed_node]), stopLists_eq, noticed_node, noticed_track, noticed_seqs, hheld]
    exact onRequest_of_serve ht rfl hserve
  case seqs =>
    rw [Vector.getElem_map]
    exact Seq.cleared_eq (seqOf s c)

/-! ### CELL RESET (R154) -/

/-- R37: a running copy is stopped and leaves staging torn; without one nothing changes. -/
theorem BankStore.stopCopy_eq (b : BankStore) :
    b.stopCopy = { b with
      copy := .idle, torn := b.torn || b.busy, result := if b.busy then .aborted else b.result } := by
  obtain ⟨b0, b1, live, armed, torn, copy, result⟩ := b
  cases copy <;> simp [BankStore.stopCopy, BankStore.busy]

/-- Settles O11: every block's part of CELL RESET. -/
theorem cellResetClearsRunningState : Obligations.CellResetClearsRunningState := by
  intro h s ht
  have hserve : serveCellReset (noticed h s) = okay (cellReset (noticed h s)) := rfl
  simp only [cellReset, BankStore.stopCopy_eq, noticed_node, noticed_track, noticed_bank, noticed_seqs, noticed_report,
    noticed_path] at hserve
  exact onRequest_of_serve ht rfl hserve

/-! ### Node settings (R158) -/

/-- The first check: S of 1 to 16 and a log mode that is defined. -/
def SettingsOutOfRange (n m : Byte) : Prop := n = 0 ∨ 16 < n.toNat ∨ 1 < m.toNat

/-- The second check: a change of S outside CONFIG, or over a body. -/
def ResizeRefused (s : State) (n : Byte) : Prop :=
  n.toNat ≠ s.node.stations ∧ (s.node.state ≠ .config ∨ ∃ b, some b ∈ s.track.queue)

/-- The third check: a change of S that leaves a channel's station out. -/
def ResizeConflict (s : State) (n : Byte) : Prop :=
  n.toNat ≠ s.node.stations ∧ ∃ c, n.toNat ≤ (chanRec s c).station

/-- The byte of a log mode is 0 or 1. -/
theorem logModeOf_eq (m : Byte) :
    logModeOf m = if 1 < m.toNat then none else some (if m = 0 then .first else .latest) := by
  revert m
  decide

/-- A change of S is allowed where nothing stands against it. -/
theorem mayResize_eq_false_iff (s : State) :
    mayResize s = false ↔ s.node.state ≠ .config ∨ ∃ b, some b ∈ s.track.queue := by
  have hvacant : s.track.queue.all Option.isNone = false ↔ ∃ b, some b ∈ s.track.queue := by
    simp only [List.all_eq_false, Option.isNone_iff_eq_none, ← ne_eq, Option.ne_none_iff_exists']
    exact ⟨fun ⟨_, hx, b, hb⟩ => ⟨b, hb ▸ hx⟩, fun ⟨b, hb⟩ => ⟨_, hb, b, rfl⟩⟩
  rw [mayResize, Bool.and_eq_false_iff, hvacant, beq_eq_false_iff_ne]

theorem serveWriteNodeSettings_of_range {n m : Byte} (hr : SettingsOutOfRange n m) (i : Half) (s : State) :
    serveWriteNodeSettings n i m s = refuse .range s := by
  unfold serveWriteNodeSettings
  rw [logModeOf_eq]
  by_cases hm : 1 < m.toNat
  · rw [if_pos hm]
  · rw [if_neg hm]
    have hn : n = 0 ∨ 16 < n.toNat := hr.imp_right fun h => h.resolve_right hm
    exact if_pos hn

/-- In range: the checks of a change of S, and the settings stored. -/
theorem serveWriteNodeSettings_of_not_range {n m : Byte} (hr : ¬SettingsOutOfRange n m) (i : Half) (s : State) :
    serveWriteNodeSettings n i m s =
      if n.toNat = s.node.stations then okay (storeSettings n.toNat i (if m = 0 then .first else .latest) s)
      else if mayResize s = false then refuse .state s
      else if ∃ c, n.toNat ≤ (chanRec s c).station then refuse .conflict s
      else okay (storeSettings n.toNat i (if m = 0 then .first else .latest) s) := by
  obtain ⟨h0, h16, hm⟩ : n ≠ 0 ∧ ¬16 < n.toNat ∧ ¬1 < m.toNat := by simpa only [SettingsOutOfRange, not_or] using hr
  have hany : (allChannels.any fun c => decide (n.toNat ≤ (chanRec s c).station)) = true ↔
      ∃ c, n.toNat ≤ (chanRec s c).station := by
    simp [List.any_eq_true, mem_allChannels]
  unfold serveWriteNodeSettings
  rw [logModeOf_eq, if_neg hm]
  simp only [h0, h16, or_self, if_false, hany, Bool.not_eq_true']

/-- Settles O12: the three checks in their order, each made on the state after the header. -/
theorem nodeSettingsAreCheckedAndStored : Obligations.NodeSettingsAreCheckedAndStored := by
  intro h n i m s ht reply range state conflict
  have hserve := fun hr => serveWriteNodeSettings_of_not_range (n := n) (m := m) hr i (noticed h s)
  have hmay := mayResize_eq_false_iff (noticed h s)
  simp only [noticed_node, noticed_track, noticed_chanRec] at hserve hmay
  refine ⟨fun hr => ?range, fun hr hst => ?state, fun hr hst hc => ?conflict, fun hr hst hc => ?stored⟩
  case range => exact onRequest_of_serve ht rfl (serveWriteNodeSettings_of_range hr i _)
  case state =>
    have hstate : serveWriteNodeSettings n i m (noticed h s) = refuse .state (noticed h s) := by
      rw [hserve hr, if_neg hst.1, if_pos (hmay.2 hst.2)]
    exact onRequest_of_serve ht rfl hstate
  case conflict =>
    have hopen := mt hmay.1 fun h => hst ⟨hc.1, h⟩
    have hconflict : serveWriteNodeSettings n i m (noticed h s) = refuse .conflict (noticed h s) := by
      rw [hserve hr, if_neg hc.1, if_neg hopen, if_pos hc.2]
    exact onRequest_of_serve ht rfl hconflict
  case stored =>
    have hstore : serveWriteNodeSettings n i m (noticed h s) =
        okay (storeSettings n.toNat i (if m = 0 then .first else .latest) (noticed h s)) := by
      rw [hserve hr]
      by_cases hn : n.toNat = s.node.stations
      · rw [if_pos hn]
      · rw [if_neg hn, if_neg (mt hmay.1 fun h => hst ⟨hn, h⟩), if_neg fun h => hc ⟨hn, h⟩]
    simp only [storeSettings, noticed_node, noticed_track, Tracking.resize] at hstore
    exact onRequest_of_serve ht rfl hstore

/-! ### The requests a node state refuses -/

/-- WRITE CHANNEL and CLEAR PAIR are taken in CONFIG only, the retrack requests not in RUN and HELD. -/
theorem serveWriteChannel_of_state {s : State} (hs : s.node.state ≠ .config) (c st l g w : Byte) :
    serveWriteChannel c st l g w s = refuse .state s :=
  if_pos hs

theorem serveClearPair_of_state {s : State} (hs : s.node.state ≠ .config) (c : Byte) :
    serveClearPair c s = refuse .state s :=
  if_pos hs

/-- The retrack requests are open in CONFIG and SUSPENDED. -/
theorem retrackOpen_iff (s : State) : retrackOpen s = true ↔ s.node.state = .config ∨ s.node.state = .suspended := by
  simp [retrackOpen]

theorem serveRetrackLoad_of_closed {s : State} (hs : retrackOpen s = false) (rs : List RawRetrack) :
    serveRetrackLoad rs s = refuse .state s :=
  if_pos (by simp [hs])

theorem serveRetrackApply_of_closed {s : State} (hs : retrackOpen s = false) : serveRetrackApply s = refuse .state s :=
  if_pos (by simp [hs])

/-- A payload of 1 to 3 retrack records is never answered LENGTH. -/
theorem retrackLoad_allows {n : Nat} (hlo : 1 ≤ n) (hhi : n ≤ 3) : ReqCode.retrackLoad.allows (13 * n) = true := by
  simp only [ReqCode.allows, Bool.and_eq_true, beq_iff_eq, decide_eq_true_eq]
  omega

/-- Settles O13: each service's first check. -/
theorem nodeStateRefusals : Obligations.NodeStateRefusals := by
  intro h s ht reply
  refine ⟨fun hs => ?start, fun hs hu hline => ?conflict, fun hs => ?config, fun hs => ?retrack⟩
  case start => exact onRequest_of_serve ht rfl (serveStart_of_state (by rwa [noticed_node, noticed_track]))
  case conflict =>
    exact onRequest_of_serve ht rfl
      (serveStart_of_conflict (by rwa [noticed_node]) (by rwa [noticed_track]) (by rwa [noticed_storedMap]))
  case config =>
    have hs : (noticed h s).node.state ≠ .config := by rwa [noticed_node]
    exact ⟨fun f es hlo hhi =>
        onRequest_of_serve ht (writeSlotMap_allows hlo hhi) (serveWriteSlotMap_of_state hs f es),
      fun c st l g w => onRequest_of_serve ht rfl (serveWriteChannel_of_state hs c st l g w),
      fun a b => onRequest_of_serve ht rfl (serveWritePair_of_state hs a b),
      fun c => onRequest_of_serve ht rfl (serveClearPair_of_state hs c)⟩
  case retrack =>
    have hclosed : retrackOpen (noticed h s) = false := by
      rw [← Bool.not_eq_true, retrackOpen_iff, noticed_node]
      rcases hs with hs | hs <;> simp [hs]
    exact ⟨fun rs hlo hhi => onRequest_of_serve ht (retrackLoad_allows hlo hhi) (serveRetrackLoad_of_closed hclosed rs),
      onRequest_of_serve ht rfl (serveRetrackApply_of_closed hclosed)⟩

/-! ### READ STATUS (R167) -/

/-- A flag shows in its own bit alone. -/
theorem getLsbD_flagAt {n : Nat} (hn : n < 8) (i : Nat) (b : Bool) :
    (flagAt n b).getLsbD i = (decide (i = n) && b) := by
  cases b with
  | false => simp [flagAt]
  | true =>
    rw [Bool.eq_iff_iff]
    simp [flagAt]
    omega

/-- The code of the node state stands in bits 1 and 0. -/
theorem nodeState_byte_getLsbD (n : NodeState) {i : Nat} (hi : 2 ≤ i) : n.byte.getLsbD i = false := by
  have hlt : n.byte.toNat < 2 ^ 2 := by cases n <;> decide
  exact Nat.testBit_lt_two_pow (hlt.trans_le (Nat.pow_le_pow_right (by decide) hi))

/-- A bit of STATUS byte 0. -/
theorem statusFlags_getLsbD (s : State) (i : Nat) :
    (statusFlags s).getLsbD i =
      (s.node.state.byte.getLsbD i || (decide (i = 2) && s.node.latch) || (decide (i = 3) && s.track.uncertain) ||
        (decide (i = 4) && s.bank.live.bit) || (decide (i = 5) && s.bank.armed) || (decide (i = 6) && s.bank.busy) ||
        (decide (i = 7) && s.bank.torn)) := by
  simp (disch := decide) only [statusFlags, BitVec.getLsbD_or, getLsbD_flagAt]

/-- Bits 1 and 0 of STATUS byte 0 are the node state's code. -/
theorem statusFlags_state (s : State) :
    (statusFlags s).extractLsb' 0 2 =
      (match s.node.state with | .config => 0 | .run => 1 | .held => 2 | .suspended => 3 : BitVec 2) := by
  have h0 := statusFlags_getLsbD s 0
  have h1 := statusFlags_getLsbD s 1
  apply BitVec.eq_of_getLsbD_eq
  intro i hi
  obtain rfl | rfl : i = 0 ∨ i = 1 := by omega
  · refine Eq.trans (by simpa using h0) ?_
    cases s.node.state <;> rfl
  · refine Eq.trans (by simpa using h1) ?_
    cases s.node.state <;> rfl

/-- A bit of READ STATUS byte 4. -/
theorem statusLinks_getLsbD (s : State) (i : Nat) :
    (statusLinks s).getLsbD i =
      ((decide (i = 0) && s.track.baseline.isSome) || (decide (i = 1) && (s.sweep.link == .up)) ||
        (decide (i = 2) && s.pins.portA) || (decide (i = 3) && s.pins.portB) ||
        (decide (i = 4) && (s.node.logMode == .latest))) := by
  simp (disch := decide) only [statusLinks, BitVec.getLsbD_or, getLsbD_flagAt]

/-- Up to four announcements and the long-operation result stand apart in one byte. -/
theorem depthAndResult_fields {s : State} (hs : s.track.announced.length ≤ 4) :
    ((depthAndResult s).extractLsb' 0 3).toNat = s.track.announced.length ∧
      (depthAndResult s).extractLsb' 4 2 =
        (match s.bank.result with | .none => 0 | .done => 1 | .aborted => 2 : BitVec 2) := by
  unfold depthAndResult
  generalize s.track.announced.length = n at hs ⊢
  interval_cases n <;> cases s.bank.result <;> decide

/-- Reading a header changes none of the bytes of READ STATUS. -/
@[simp] theorem noticed_readStatusBytes (h : ReqHead) (s : State) : readStatusBytes (noticed h s) = readStatusBytes s := by
  simp [readStatusBytes, statusFlags, statusLinks, lastTransfer, lastSequence, depthAndResult]

/-- Settles O14: the bytes are those of the state before the request, and each flag stands in a bit of its own. -/
theorem readStatusPayload : Obligations.ReadStatusPayload := by
  refine ⟨fun h s ht => ?bytes, fun s => ⟨statusFlags_state s, ?flags⟩⟩
  case bytes =>
    have hserve : serveReadStatus (noticed h s) = okayWith (readStatusBytes s) (noticed h s) := by
      rw [serveReadStatus, noticed_readStatusBytes]
    exact onRequest_of_serve ht rfl hserve
  case flags =>
    have hflag := fun i (hi : 2 ≤ i) => (statusFlags_getLsbD s i).trans (by rw [nodeState_byte_getLsbD _ hi, Bool.false_or])
    have hlive : s.bank.live.bit = (s.bank.live == .bank1) := by cases s.bank.live <;> rfl
    refine ⟨(hflag 2 (by decide)).trans (by simp), (hflag 3 (by decide)).trans (by simp),
      (hflag 4 (by decide)).trans (by simp [hlive]), (hflag 5 (by decide)).trans (by simp),
      (hflag 6 (by decide)).trans (by simp [BankStore.busy]), (hflag 7 (by decide)).trans (by simp),
      depthAndResult_fields, (statusLinks_getLsbD s 0).trans (by simp), (statusLinks_getLsbD s 1).trans (by simp),
      (statusLinks_getLsbD s 2).trans (by simp), (statusLinks_getLsbD s 3).trans (by simp),
      (statusLinks_getLsbD s 4).trans (by simp)⟩

end Sys2Proof.Machine

/-! ## Proofs: channel records, the clearing of pairs and service (03) -/

namespace Sys2Proof.Machine

/-! ### Availability by the channel's record (R53) -/

theorem available_eq (s : State) (c : ChanNo) :
    available s c =
      (present s c && (chanRec s c).failed.isNone && !(chanRec s c).out && !(chanRec s c).overdue) :=
  rfl

/-- A record with the old factors leaves the channel as available as it was. -/
theorem available_setChan_of_factors {s : State} {c : ChanNo} {r : ChanRec} (hf : r.failed = (chanRec s c).failed)
    (hout : r.out = (chanRec s c).out) (ho : r.overdue = (chanRec s c).overdue) :
    available (setChan c r s) c = available s c := by
  simp only [available_eq, chanRec_setChan_self, present_setChan, hf, hout, ho]

/-- Of two records stored one after the other the second stands. -/
theorem setChan_setWear_setChan (c : ChanNo) (r x : ChanRec) (w : ChanWear) (s : State) :
    setChan c x (setWear c w (setChan c r s)) = setChan c x (setWear c w s) := by
  simp [setChan, setWear]

/-! ### WRITE CHANNEL (R42 to R44) -/

/-- R44: a changed gun count evaluates both guns, and an overdue that ends the availability hands its loss. -/
theorem storeChannel_of_changed {s : State} {c : ChanNo} {r : ChanRec} (h2 : r.twoGuns ≠ (chanRec s c).twoGuns)
    (hf : r.failed = (chanRec s c).failed) (hout : r.out = (chanRec s c).out) (ho : r.overdue = (chanRec s c).overdue) :
    storeChannel c r s =
      let w : ChanWear := { gun1 := (wearOf s c).gun1.evaluated true, gun2 := (wearOf s c).gun2.evaluated r.twoGuns }
      let u := setChan c { r with overdue := w.overdue r.twoGuns } (setWear c w s)
      if available s c = true ∧ w.overdue r.twoGuns = true then loseService c .orderly u else u := by
  have havail : ∀ w, available (setWear c w (setChan c r s)) c = available s c :=
    fun _ => available_setChan_of_factors hf hout ho
  simp only [storeChannel, if_neg h2, evaluateGuns, reportOverdue_eq, wearOf_setWear_self, wearOf_setChan, chanRec_setWear,
    chanRec_setChan_self, havail, setChan_setWear_setChan]

/-- The second check of WRITE CHANNEL: a channel above 31, a station outside S, a lead above 3, a gun count other than 1
and 2. -/
def ChannelOutOfRange (s : State) (ch st l g : Byte) : Prop :=
  31 < ch.toNat ∨ s.node.stations ≤ st.toNat ∨ 3 < l.toNat ∨ g = 0 ∨ 2 < g.toNat

/-- The third check: a record that would separate the channel from its partner. -/
theorem separates_iff (s : State) (c : ChanNo) (r : ChanRec) :
    separates s c r = true ↔
      ∃ p, partner s c = some p ∧ ((chanRec s p).station ≠ r.station ∨ (chanRec s p).lead ≠ r.lead) := by
  unfold separates
  cases partner s c <;> simp

theorem serveWriteChannel_of_range {s : State} (hs : s.node.state = .config) {ch st l g : Byte}
    (hr : ChannelOutOfRange s ch st l g) (w : Byte) : serveWriteChannel ch st l g w s = refuse .range s := by
  rw [serveWriteChannel, if_neg (not_not_intro hs)]
  split
  case h_1 c x hc hg =>
    have hch : ¬31 < ch.toNat := fun h => by simp [chanOf_eq_none h] at hc
    have hgun : ¬(g = 0 ∨ 2 < g.toNat) := fun h => by simp [gunOf_eq_none_iff.2 h] at hg
    refine if_neg fun hin => ?_
    rcases hr with h | h | h | h
    · exact hch h
    · omega
    · omega
    · exact hgun h
  case h_2 => rfl

/-- In range: the record that would be stored, its check, and the bytes of the answer. -/
theorem serveWriteChannel_of_chan {s : State} (hs : s.node.state = .config) {ch st l g : Byte}
    (hr : ¬ChannelOutOfRange s ch st l g) {c : ChanNo} (hc : c.val = ch.toNat) (w : Byte) :
    serveWriteChannel ch st l g w s =
      let r := channelRecord (chanRec s c) st.toNat l.toNat (g == 2) w
      if separates s c r then refuse .conflict s
      else okayWith [st, byteOf (min l.toNat st.toNat), g, if w = 0 then 1 else w] (storeChannel c r s) := by
  obtain ⟨-, hst, hl, hg⟩ : ¬31 < ch.toNat ∧ ¬s.node.stations ≤ st.toNat ∧ ¬3 < l.toNat ∧ ¬(g = 0 ∨ 2 < g.toNat) := by
    simpa only [ChannelOutOfRange, not_or] using hr
  obtain ⟨x, hx⟩ := Option.ne_none_iff_exists'.1 (mt gunOf_eq_none_iff.1 hg)
  obtain ⟨htwo, hbyte⟩ := gunOf_byte hx
  have hin : st.toNat < s.node.stations ∧ l.toNat ≤ 3 := ⟨Nat.lt_of_not_le hst, Nat.le_of_not_lt hl⟩
  have hbytes : channelBytes (channelRecord (chanRec s c) st.toNat l.toNat (g == 2) w) =
      [st, byteOf (min l.toNat st.toNat), g, if w = 0 then 1 else w] := by
    simpa [channelBytes, channelRecord, byteOf] using hbyte
  rw [serveWriteChannel, if_neg (not_not_intro hs)]
  simp only [chanOf_eq_some hc, hx, if_pos hin, htwo, hbytes]

/-- Settles O17: the two checks that follow that of the node state, and the record stored, each made on the state after
the header. -/
theorem writeChannelStoresRecord : Obligations.WriteChannelStoresRecord := by
  intro h ch st l g w s ht hs reply range
  have hs : (noticed h s).node.state = .config := by rwa [noticed_node]
  have hrange : ChannelOutOfRange (noticed h s) ch st l g ↔ range := by rw [ChannelOutOfRange, noticed_node]
  refine ⟨fun hr => onRequest_of_serve ht rfl (serveWriteChannel_of_range hs (hrange.2 hr) w), ?_⟩
  intro hr c hc r conflict done wr u
  have hserve := serveWriteChannel_of_chan hs (mt hrange.1 hr) hc w
  simp only [noticed_chanRec, channelRecord] at hserve
  have hconflict : separates (noticed h s) c r = true ↔ conflict := by
    rw [separates_iff]
    simp only [noticed_partner, noticed_chanRec]
    exact Iff.rfl
  have hstored : ∀ {t}, ¬conflict → storeChannel c r (noticed h s) = t → done t := by
    rintro _ hc' rfl
    exact onRequest_of_serve ht rfl (hserve.trans (if_neg (mt hconflict.1 hc')))
  refine ⟨fun hc' => ?conflict, fun hc' h2 => ?same, fun hc' h2 => ?changed⟩
  case conflict => exact onRequest_of_serve ht rfl (hserve.trans (if_pos (hconflict.2 hc')))
  case same => exact hstored hc' (if_pos (by rwa [noticed_chanRec]))
  case changed =>
    have hfactors : r.failed = (chanRec (noticed h s) c).failed ∧ r.out = (chanRec (noticed h s) c).out ∧
        r.overdue = (chanRec (noticed h s) c).overdue := by
      rw [noticed_chanRec]
      exact ⟨rfl, rfl, rfl⟩
    refine hstored hc' ((storeChannel_of_changed (by rwa [noticed_chanRec]) hfactors.1 hfactors.2.1 hfactors.2.2).trans ?_)
    simp only [noticed_wearOf, noticed_available]
    rfl

/-! ### CLEAR PAIR (R50) -/

theorem serveClearPair_of_range {s : State} (hs : s.node.state = .config) {ch : Byte} (hr : 31 < ch.toNat) :
    serveClearPair ch s = refuse .range s := by
  rw [serveClearPair, if_neg (not_not_intro hs), chanOf_eq_none hr]

theorem serveClearPair_of_chan {s : State} (hs : s.node.state = .config) {ch : Byte} {c : ChanNo} (hc : c.val = ch.toNat) :
    serveClearPair ch s = okay { s with pairs := s.pairs.filter fun p => p.1 ≠ c ∧ p.2 ≠ c } := by
  rw [serveClearPair, if_neg (not_not_intro hs), chanOf_eq_some hc]
  simp only [ne_eq, Bool.decide_and, decide_not]
  rfl

/-- A partner comes from a pair of the table. -/
theorem mem_pairs_of_partner {s : State} {c d : ChanNo} (h : partner s c = some d) :
    ∃ p ∈ s.pairs, (p.1 = c ∧ p.2 = d) ∨ (p.2 = c ∧ p.1 = d) := by
  obtain ⟨p, hp, he⟩ := List.exists_of_findSome?_eq_some h
  refine ⟨p, hp, ?_⟩
  split at he
  case isTrue h1 => exact .inl ⟨h1, Option.some.inj he⟩
  case isFalse =>
    split at he
    case isTrue h2 => exact .inr ⟨h2, Option.some.inj he⟩
    case isFalse => cases he

/-- R48: the partner's partner is the channel itself. -/
theorem partner_partner {s : State} (hs : PairsWf s) {c d : ChanNo} (h : partner s c = some d) : partner s d = some c := by
  obtain ⟨p, hp, ⟨rfl, rfl⟩ | ⟨rfl, rfl⟩⟩ := mem_pairs_of_partner h
  · exact (partner_of_mem hs.1 hp).2
  · exact (partner_of_mem hs.1 hp).1

/-- With the pairs of `c` removed neither `c` nor its partner stands in a pair. -/
theorem partner_of_cleared {s t : State} (hs : PairsWf s) {c d : ChanNo}
    (ht : t.pairs = s.pairs.filter fun p => p.1 ≠ c ∧ p.2 ≠ c) (hd : d = c ∨ partner s c = some d) :
    partner t d = none := by
  rw [partner_eq_none_iff, ht]
  intro p hp
  obtain ⟨hp, hc⟩ : p ∈ s.pairs ∧ p.1 ≠ c ∧ p.2 ≠ c := by simpa using hp
  rcases hd with rfl | hd
  · exact hc
  · have hdc := partner_partner hs hd
    obtain ⟨h12, h21⟩ := partner_of_mem hs.1 hp
    constructor
    · rintro rfl
      exact hc.2 (Option.some.inj (h12.symm.trans hdc))
    · rintro rfl
      exact hc.1 (Option.some.inj (h21.symm.trans hdc))

/-- Answering a request changes nothing of the pair table. -/
@[simp] theorem answered_pairs (h : ReqHead) (code : Byte) (r : Result) (p : List Byte) (t : State) :
    (answered h code r p t).pairs = t.pairs := by
  unfold answered
  cases h.via <;> rfl

/-- Settles O20: the checks, the table that is left, and who has no partner in it. -/
theorem clearPairUnpairsBoth : Obligations.ClearPairUnpairsBoth := by
  intro h ch s ht
  refine ⟨fun hs => ?state, fun hs hr => ?range, fun hs c hc => ?cleared⟩
  case state => exact onRequest_of_serve ht rfl (serveClearPair_of_state (by rwa [noticed_node]) ch)
  case range => exact onRequest_of_serve ht rfl (serveClearPair_of_range (by rwa [noticed_node]) hr)
  case cleared =>
    have hserve := serveClearPair_of_chan (s := noticed h s) (by rwa [noticed_node]) hc
    rw [noticed_pairs] at hserve
    have hexec := onRequest_of_serve ht (k := .clearPair) (len := 1) rfl hserve
    refine ⟨hexec, fun hwf d t ht' hd => partner_of_cleared hwf ?_ hd⟩
    obtain rfl := Host.Outcome.next.inj (hexec.symm.trans ht')
    exact answered_pairs _ _ _ _ _

/-! ### SET SERVICE (R56, R57) -/

theorem serveSetService_of_range {ch a : Byte} (hr : 31 < ch.toNat ∨ 1 < a.toNat) (s : State) :
    serveSetService ch a s = refuse .range s := by
  unfold serveSetService
  split
  case h_1 => rfl
  case h_2 c hc =>
    have hch : ¬31 < ch.toNat := fun h => by simp [chanOf_eq_none h] at hc
    have ha := hr.resolve_left hch
    have h0 : a ≠ 0 := fun h => by simp [h] at ha
    have h1 : a ≠ 1 := fun h => by simp [h] at ha
    rw [if_neg h0, if_neg h1]

/-- The action OUT on a channel. -/
theorem serveSetService_out {ch : Byte} {c : ChanNo} (hc : c.val = ch.toNat) (s : State) :
    serveSetService ch 0 s = okay (setOut c s) := by
  simp [serveSetService, chanOf_eq_some hc]

/-- The action IN on a channel. -/
theorem serveSetService_in {ch : Byte} {c : ChanNo} (hc : c.val = ch.toNat) (s : State) :
    serveSetService ch 1 s = setIn c s := by
  simp [serveSetService, chanOf_eq_some hc]

/-- R56: a channel that is out already stays as it is; an available one hands its loss. -/
theorem setOut_eq (c : ChanNo) (s : State) :
    setOut c s =
      if (chanRec s c).out = true then s
      else if available s c = true then loseService c .orderly (setChan c { chanRec s c with out := true } s)
      else setChan c { chanRec s c with out := true } s := by
  have hout : available (setChan c { chanRec s c with out := true } s) c = false := by
    simp [available_eq]
  simp only [setOut, changeFactor, hout, Bool.not_false, Bool.and_true]

/-- R57: what stands against SET SERVICE IN. -/
theorem stableIdle_eq_true_iff (s : State) (c : ChanNo) :
    stableIdle s c = true ↔ ∃ d, (seqOf s c).stable = some d ∧ replyState d = some .idle := by
  unfold stableIdle
  cases (seqOf s c).stable <;> simp

theorem setIn_of_refused {s : State} {c : ChanNo}
    (h : (chanRec s c).failed.isSome = true ∧ ¬∃ d, (seqOf s c).stable = some d ∧ replyState d = some .idle) :
    setIn c s = refuse .notReady s := by
  have hidle := Bool.eq_false_iff.2 (mt (stableIdle_eq_true_iff s c).1 h.2)
  simp only [setIn, h.1, hidle, Bool.not_false, Bool.and_true, if_true]

theorem setIn_of_accepted {s : State} {c : ChanNo}
    (h : ¬((chanRec s c).failed.isSome = true ∧ ¬∃ d, (seqOf s c).stable = some d ∧ replyState d = some .idle)) :
    setIn c s = okay (setChan c { chanRec s c with failed := none, out := false } s) := by
  rw [setIn, if_neg]
  rwa [Bool.and_eq_true, Bool.not_eq_true', ← Bool.not_eq_true, stableIdle_eq_true_iff]

/-- Settles O21: the two actions, by the channel's factors and its stable reply. -/
theorem setServiceSetsAndClearsFactors : Obligations.SetServiceSetsAndClearsFactors := by
  intro h ch s ht range ok
  refine ⟨fun hr => ⟨?rangeIn, fun a => ?rangeOut⟩, fun a ha => ?action, fun c hc => ?_⟩
  case rangeIn => exact onRequest_of_serve ht rfl (serveSetService_of_range (.inl hr) _)
  case rangeOut => exact onRequest_of_serve ht rfl (serveSetService_of_range (.inl hr) _)
  case action => exact onRequest_of_serve ht rfl (serveSetService_of_range (.inr ha) _)
  intro r u refused
  have hout := serveSetService_out hc (noticed h s)
  have hin := serveSetService_in hc (noticed h s)
  simp only [setOut_eq, noticed_chanRec, noticed_available] at hout
  refine ⟨fun h1 => ?already, fun h1 h2 => ?quiet, fun h1 h2 => ?loss, fun h1 => ?notReady, fun h1 => ?accepted⟩
  case already =>
    rw [if_pos h1] at hout
    exact onRequest_of_serve ht rfl hout
  case quiet =>
    rw [if_neg (Bool.eq_false_iff.1 h1), if_neg (Bool.eq_false_iff.1 h2)] at hout
    exact onRequest_of_serve ht rfl hout
  case loss =>
    rw [if_neg (Bool.eq_false_iff.1 h1), if_pos h2] at hout
    exact onRequest_of_serve ht rfl hout
  case notReady =>
    rw [setIn_of_refused (by rwa [noticed_chanRec, noticed_seqOf])] at hin
    exact onRequest_of_serve ht rfl hin
  case accepted =>
    rw [setIn_of_accepted (by rwa [noticed_chanRec, noticed_seqOf]), noticed_chanRec] at hin
    exact onRequest_of_serve ht rfl hin

end Sys2Proof.Machine

/-! ## Proofs: the style banks, their gate and the copy (02) -/

namespace Sys2Proof.Machine

/-! ### The gate (R26) -/

theorem gate_of_busy {s : State} (hc : s.bank.copy ≠ .idle) : gate s = some .busy :=
  if_pos ((bankStore_busy_iff _).2 hc)

theorem gate_of_armed {s : State} (hc : s.bank.copy = .idle) (ha : s.bank.armed = true) : gate s = some .armed := by
  simp [gate, BankStore.busy, hc, ha]

theorem gate_of_inUse {s : State} (hc : s.bank.copy = .idle) (ha : s.bank.armed = false)
    (hu : ∃ b, some b ∈ s.track.queue ∧ b.bank ≠ s.bank.live) : gate s = some .inUse := by
  simp [gate, BankStore.busy, hc, ha, (stagingInUse_iff s).2 hu]

/-- A shut gate refuses whatever stands behind it. -/
theorem gated_of_some {s : State} {r : Result} (hg : gate s = some r) (serve : State → Answer) :
    gated serve s = refuse r s := by
  simp only [gated, hg]

/-- An open gate lets the request through. -/
theorem gated_of_none {s : State} (hg : gate s = none) (serve : State → Answer) : gated serve s = serve s := by
  simp only [gated, hg]

/-- The gate reads nothing that a header changes. -/
@[simp] theorem noticed_gate (h : ReqHead) (s : State) : gate (noticed h s) = gate s := by
  simp [gate]

/-- A payload of 1 to 6 style entries is never answered LENGTH. -/
theorem writeEntries_allows {n : Nat} (hlo : 1 ≤ n) (hhi : n ≤ 6) : ReqCode.writeEntries.allows (2 + 7 * n) = true := by
  simp only [ReqCode.allows, Bool.and_eq_true, beq_iff_eq, decide_eq_true_eq]
  omega

/-- Settles O22: the three requests stand behind the same gate. -/
theorem gateGuardsStaging : Obligations.GateGuardsStaging := by
  intro h s ht all
  have hall : ∀ {r}, gate s = some r → all r := by
    intro r hg
    have hg : gate (noticed h s) = some r := by rwa [noticed_gate]
    exact ⟨fun st f es hlo hhi => onRequest_of_serve ht (writeEntries_allows hlo hhi) (gated_of_some hg _),
      fun st f => onRequest_of_serve ht rfl (gated_of_some hg _), onRequest_of_serve ht rfl (gated_of_some hg _)⟩
  exact ⟨fun hc => hall (gate_of_busy hc), fun hc ha => hall (gate_of_armed hc ha),
    fun hc ha hu => hall (gate_of_inUse hc ha hu)⟩

/-! ### Edits of staging (R27, R28) -/

/-- What R27 refuses of a WRITE ENTRIES. -/
def EntriesOutOfRange (st f : Byte) (es : List RawEntry) : Prop :=
  st = 0 ∨ 63 < st.toNat ∨ 32 < f.toNat + es.length ∨
    ∃ e ∈ es, 4 < (e.sel.extractLsb' 0 3).toNat ∨ (e.sel.extractLsb' 4 2 ≠ 1#2 ∧ e.sel.extractLsb' 4 2 ≠ 2#2)

/-- A bad entry spoils the list. -/
theorem entriesOf_eq_none_iff_bits {es : List RawEntry} :
    entriesOf es = none ↔
      ∃ e ∈ es, 4 < (e.sel.extractLsb' 0 3).toNat ∨ (e.sel.extractLsb' 4 2 ≠ 1#2 ∧ e.sel.extractLsb' 4 2 ≠ 2#2) := by
  simp only [entriesOf_eq_none_iff, entryOf_eq_none_iff]

/-- The style record that a byte from 1 to 63 names. -/
theorem exists_styleIx {b : Byte} (h0 : b ≠ 0) (h63 : ¬63 < b.toNat) : ∃ i : Fin 63, i.val + 1 = b.toNat := by
  have hpos : b.toNat ≠ 0 := mt byte_eq_zero_iff.2 h0
  exact ⟨⟨b.toNat - 1, by omega⟩, by simp only; omega⟩

theorem storeEntries_of_range {st f : Byte} {es : List RawEntry} (hr : EntriesOutOfRange st f es) (s : State) :
    storeEntries st f es s = refuse .range s := by
  unfold storeEntries
  split
  case h_1 i rs hi hrs =>
    have hlen := (entriesOf_eq_some hrs).1
    have hst : ¬(st = 0 ∨ 63 < st.toNat) := fun h => by simp [styleIx_eq_none h] at hi
    have hsome : entriesOf es ≠ none := by simp [hrs]
    have hgood := mt entriesOf_eq_none_iff_bits.2 hsome
    have hbig : 32 < f.toNat + es.length := by
      rcases hr with h | h | h | h
      · exact absurd (.inl h) hst
      · exact absurd (.inr h) hst
      · exact h
      · exact absurd h hgood
    exact if_neg (by omega)
  case h_2 => rfl

/-- The entry that seven payload bytes name. -/
def namedEntry (e : RawEntry) : Entry :=
  { base := e.base, baseSpots := e.baseSpots, option := Fin.ofNat 5 (e.sel.extractLsb' 0 3).toNat, variant := e.variant
    variantSpots := e.variantSpots, backup := e.backup, backupSpots := e.backupSpots
    gun := if e.sel.extractLsb' 4 2 = 1#2 then .gun1 else .gun2 }

/-- The list of entries of a request, entry by entry. -/
theorem entriesOf_getElem {es : List RawEntry} {rs : List Entry} (hrs : entriesOf es = some rs) (k : Nat)
    (hk : k < rs.length) : rs[k] = namedEntry (es[k]'((entriesOf_eq_some hrs).1 ▸ hk)) := by
  obtain ⟨hlen, hentry⟩ := entriesOf_eq_some hrs
  have he := hentry k (hlen ▸ hk)
  rw [List.getElem?_eq_getElem hk] at he
  exact entryOf_eq_some he.symm

/-- In range: one style record of staging takes the entries. -/
theorem storeEntries_of_style {st f : Byte} {es : List RawEntry} (hr : ¬EntriesOutOfRange st f es) {i : Fin 63}
    (hi : i.val + 1 = st.toNat) (s : State) : ∃ rs, entriesOf es = some rs ∧
      storeEntries st f es s =
        okay (putStaging i { stagingRec i s with entries := putEntries (stagingRec i s).entries f.toNat rs } s) := by
  obtain ⟨-, -, hlast, hgood⟩ : st ≠ 0 ∧ ¬63 < st.toNat ∧ ¬32 < f.toNat + es.length ∧ ¬∃ e ∈ es,
      4 < (e.sel.extractLsb' 0 3).toNat ∨ (e.sel.extractLsb' 4 2 ≠ 1#2 ∧ e.sel.extractLsb' 4 2 ≠ 2#2) := by
    simpa only [EntriesOutOfRange, not_or] using hr
  obtain ⟨rs, hrs⟩ := Option.ne_none_iff_exists'.1 (mt entriesOf_eq_none_iff_bits.1 hgood)
  have hlen := (entriesOf_eq_some hrs).1
  refine ⟨rs, hrs, ?_⟩
  simp only [storeEntries, styleIx_eq_some hi, hrs]
  exact if_pos (by omega)

/-- The entries of the written record: those named by the request, the others as they were. -/
theorem putEntries_named {es : List RawEntry} {rs : List Entry} (hrs : entriesOf es = some rs) (v : Vector Entry 32)
    (f : Nat) (c : Fin 32) :
    (putEntries v f rs)[c.val] =
      if g : f ≤ c.val ∧ c.val - f < es.length then namedEntry es[c.val - f] else v[c.val] := by
  have hlen := (entriesOf_eq_some hrs).1
  rw [putEntries_getElem v f rs c.val c.isLt]
  by_cases hg : f ≤ c.val ∧ c.val - f < es.length
  · rw [dif_pos hg, dif_pos (hlen ▸ hg), entriesOf_getElem hrs]
  · rw [dif_neg hg, dif_neg (hlen ▸ hg)]

theorem storeEnabled_of_range {st : Byte} (hr : st = 0 ∨ 63 < st.toNat) (f : Byte) (s : State) :
    storeEnabled st f s = refuse .range s := by
  simp only [storeEnabled, styleIx_eq_none hr]

theorem storeEnabled_of_style {st : Byte} {i : Fin 63} (hi : i.val + 1 = st.toNat) (f : Byte) (s : State) :
    storeEnabled st f s = okay (putStaging i { stagingRec i s with enabled := f.getLsbD 0 } s) := by
  simp only [storeEnabled, styleIx_eq_some hi]

/-- Writing one style record changes that record alone. -/
theorem bank_set_getElem (bk : Bank) (i n : Fin 63) (r : StyleRec) :
    (bk.set i.val r)[n.val] = if n = i then r else bk[n.val] := by
  by_cases hn : n = i
  · simp [hn]
  · have hne : i.val ≠ n.val := fun e => hn (Fin.ext e.symm)
    simp [hn, hne]

/-- Settles O23: with the gate open, what the two requests store in the named record of staging, entry by entry. -/
theorem editsReachStagingAlone : Obligations.EditsReachStagingAlone := by
  intro h st s ht hc ha hq old stored
  have hg : gate (noticed h s) = none := by
    rw [noticed_gate]
    exact gate_eq_none hc ha hq
  refine ⟨?entries, fun f => ⟨fun hr => ?style, fun i hi => ?flag⟩⟩
  case entries =>
    intro f es hlo hhi range
    refine ⟨fun hr => ?_, fun hr => ?_⟩
    · exact onRequest_of_serve ht (writeEntries_allows hlo hhi)
        ((gated_of_none hg _).trans (storeEntries_of_range hr _))
    obtain ⟨i, hi⟩ := exists_styleIx (fun h0 => hr (.inl h0)) (fun h63 => hr (.inr (.inl h63)))
    obtain ⟨rs, hrs, hserve⟩ := storeEntries_of_style hr hi (noticed h s)
    simp only [putStaging, stagingRec, noticed_bank] at hserve
    refine ⟨_, onRequest_of_serve ht (writeEntries_allows hlo hhi) ((gated_of_none hg _).trans hserve), fun n => ?_⟩
    change (old.set i.val _)[n.val].enabled = _ ∧ ∀ c : Fin 32, (old.set i.val _)[n.val].entries[c.val] = _
    have hn : n.val + 1 = st.toNat ↔ n = i := by rw [← hi, Fin.ext_iff]; omega
    simp only [bank_set_getElem, hn]
    by_cases hni : n = i
    · subst hni
      refine ⟨by rw [if_pos rfl]; rfl, fun c => ?_⟩
      simp only [if_true, true_and]
      exact putEntries_named hrs _ _ _
    · simp [hni]
  case style => exact onRequest_of_serve ht rfl ((gated_of_none hg _).trans (storeEnabled_of_range hr f _))
  case flag =>
    have hserve := storeEnabled_of_style hi f (noticed h s)
    simp only [putStaging, stagingRec, noticed_bank] at hserve
    exact onRequest_of_serve ht rfl ((gated_of_none hg _).trans hserve)

/-! ### READ ENTRIES (R29) -/

/-- What R29 refuses. -/
def ReadEntriesOutOfRange (bk st f n : Byte) : Prop :=
  1 < bk.toNat ∨ st = 0 ∨ 63 < st.toNat ∨ n = 0 ∨ 6 < n.toNat ∨ 32 < f.toNat + n.toNat

/-- The byte of a bank is 0 or 1. -/
theorem bankIxOf_eq (b : Byte) :
    bankIxOf b = if 1 < b.toNat then none else some (if b = 0 then .bank0 else .bank1) := by
  revert b
  decide

theorem serveReadEntries_of_range {bk st f n : Byte} (hr : ReadEntriesOutOfRange bk st f n) (s : State) :
    serveReadEntries bk st f n s = refuse .range s := by
  unfold serveReadEntries
  split
  case h_1 i k hi hk =>
    have hbk : ¬1 < bk.toNat := fun h => by simp [bankIxOf_eq, h] at hi
    have hst : ¬(st = 0 ∨ 63 < st.toNat) := fun h => by simp [styleIx_eq_none h] at hk
    refine if_neg fun hin => ?_
    rcases hr with h | h | h | h | h | h
    · exact hbk h
    · exact hst (.inl h)
    · exact hst (.inr h)
    · rw [byte_eq_zero_iff] at h
      omega
    · omega
    · omega
  case h_2 => rfl

theorem serveReadEntries_of_style {bk st f n : Byte} (hr : ¬ReadEntriesOutOfRange bk st f n) {i : Fin 63}
    (hi : i.val + 1 = st.toNat) (s : State) :
    serveReadEntries bk st f n s =
      let b : BankIx := if bk = 0 then .bank0 else .bank1
      if b = s.bank.staging ∧ s.bank.busy = true then refuse .busy s
      else okayWith (entriesPayload (s.bank.get b)[i.val] f.toNat n.toNat) s := by
  obtain ⟨hbk, -, -, hn0, hn6, hlast⟩ :
      ¬1 < bk.toNat ∧ st ≠ 0 ∧ ¬63 < st.toNat ∧ n ≠ 0 ∧ ¬6 < n.toNat ∧ ¬32 < f.toNat + n.toNat := by
    simpa only [ReadEntriesOutOfRange, not_or] using hr
  have hn0 : n.toNat ≠ 0 := mt byte_eq_zero_iff.2 hn0
  have hin : 1 ≤ n.toNat ∧ n.toNat ≤ 6 ∧ f.toNat + n.toNat ≤ 32 := by omega
  simp only [serveReadEntries, bankIxOf_eq, if_neg hbk, styleIx_eq_some hi, if_pos hin]

/-- The bank that is not live is the staging bank. -/
theorem eq_staging_iff (b : BankStore) (i : BankIx) : i = b.staging ↔ i ≠ b.live := by
  unfold BankStore.staging
  cases i <;> cases b.live <;> simp [BankIx.other]

/-- The last byte of an entry: the option index and the gun number stand apart. -/
theorem entry_lastByte (o : Fin 5) (g : Gun) :
    byteOf o.val ||| (byteOf (gunNumber g) <<< 4) = byteOf (o.val + 16 * gunNumber g) := by
  revert o
  cases g <;> decide

/-- The payload of READ ENTRIES, byte by byte. -/
theorem entriesPayload_eq (r : StyleRec) (f n : Nat) :
    entriesPayload r f n = (if r.enabled then 1 else 0) :: ((r.entries.toList.drop f).take n).flatMap fun e =>
      [e.base, e.baseSpots, e.variant, e.variantSpots, e.backup, e.backupSpots,
       byteOf (e.option.val + 16 * gunNumber e.gun)] := by
  have hflag : flagAt 0 r.enabled = if r.enabled then 1 else 0 := by cases r.enabled <;> rfl
  simp only [entriesPayload, hflag, ← entry_lastByte]
  rfl

/-- Settles O24: the checks, and the bytes of the record in the bank that is named. -/
theorem readEntriesPayload : Obligations.ReadEntriesPayload := by
  intro h bk st f n s ht reply range
  refine ⟨fun hr => onRequest_of_serve ht rfl (serveReadEntries_of_range hr _), ?named⟩
  case named =>
    intro hr b
    have hserve := fun (i : Fin 63) (hi : i.val + 1 = st.toNat) => serveReadEntries_of_style hr hi (noticed h s)
    simp only [noticed_bank, eq_staging_iff, bankStore_busy_iff, entriesPayload_eq] at hserve
    refine ⟨fun hb hc => ?_, fun hfree i hi => ?_⟩
    · obtain ⟨i, hi⟩ := exists_styleIx (fun h0 => hr (.inr (.inl h0))) (fun h63 => hr (.inr (.inr (.inl h63))))
      exact onRequest_of_serve ht rfl ((hserve i hi).trans (if_pos ⟨hb, hc⟩))
    · have hopen : ¬(b ≠ s.bank.live ∧ s.bank.copy ≠ .idle) := fun hno => hfree.elim hno.1 hno.2
      exact onRequest_of_serve ht rfl ((hserve i hi).trans (if_neg hopen))

/-! ### COMMIT, DISARM, ABORT and COPY BANK (R30, R33, R34, R36) -/

theorem serveCommit_of_busy {s : State} (hc : s.bank.copy ≠ .idle) : serveCommit s = refuse .busy s :=
  if_pos ((bankStore_busy_iff _).2 hc)

/-- COMMIT without a copy running: refused while armed and while torn. -/
theorem serveCommit_of_idle {s : State} (hc : s.bank.copy = .idle) :
    serveCommit s =
      if s.bank.armed = true then refuse .armed s else if s.bank.torn = true then refuse .torn s
      else okay { s with bank := { s.bank with armed := true } } := by
  simp [serveCommit, BankStore.busy, hc]

theorem stopCopy_of_idle {b : BankStore} (hc : b.copy = .idle) : b.stopCopy = b := by
  simp only [BankStore.stopCopy, hc]

theorem stopCopy_of_running {b : BankStore} (hc : b.copy ≠ .idle) :
    b.stopCopy = { b with copy := .idle, torn := true, result := .aborted } := by
  rw [BankStore.stopCopy_eq, (bankStore_busy_iff b).2 hc, Bool.or_true, if_pos rfl]

/-! ### The copy (R35) -/

/-- A step of a copy that stands at style `i + 1`. -/
theorem copyStep_of_running {b : BankStore} {i : Nat} (hi : i < 63) (hc : b.copy = .running (i + 1)) :
    b.copyStep = { b.put b.live.other ((b.get b.live.other).set i (b.get b.live)[i]) with copy := .running (i + 2) } := by
  simp only [BankStore.copyStep, hc, Nat.add_sub_cancel, dif_pos hi, BankStore.copyStyle, BankStore.staging]

/-- The completion, with every style copied. -/
theorem complete_of_running {b : BankStore} (hc : b.copy = .running 64) :
    b.complete = { b with copy := .idle, torn := false, result := .done } := by
  simp [BankStore.complete, hc]

/-- Settles O25: each request by the state of the bank store, one step and the completion. -/
theorem commitAndCopy : Obligations.CommitAndCopy := by
  refine ⟨?requests, fun s hs => ⟨fun i hi => ?step, fun hc => ?completion⟩⟩
  case requests =>
    intro h s ht goes
    have goes_of : ∀ {i : Instr} {k : ReqCode} {serve : State → Answer} {r : Result} {b : BankStore},
        exec i s = onRequest h k 0 serve s → k.allows 0 = true →
        serve (noticed h s) = { state := { noticed h s with bank := b }, result := r, payload := [] } →
        goes i k.byte r b := fun he hk hserve => he.trans (onRequest_of_serve ht hk hserve)
    have hkeep : ({ noticed h s with bank := s.bank } : State) = noticed h s := by
      rw [← noticed_bank h s]
    have hcommit := fun hc => serveCommit_of_idle (s := noticed h s) hc
    simp only [noticed_bank] at hcommit
    refine ⟨fun hc => ?busy, fun hc ha => ?armed, fun hc ha htorn => ?torn, fun hc ha htorn => ?commit, ?disarm,
      fun hc => ?abortIdle, fun hc => ?abort, fun hc ha hq => ?copy⟩
    case busy =>
      refine goes_of (k := .commit) rfl rfl ?_
      rw [hkeep]
      exact serveCommit_of_busy (by rwa [noticed_bank])
    case armed =>
      refine goes_of (k := .commit) rfl rfl ?_
      rw [hkeep, hcommit hc, if_pos ha]
      rfl
    case torn =>
      refine goes_of (k := .commit) rfl rfl ?_
      rw [hkeep, hcommit hc, if_neg (Bool.eq_false_iff.1 ha), if_pos htorn]
      rfl
    case commit =>
      refine goes_of (k := .commit) rfl rfl ?_
      rw [hcommit hc, if_neg (Bool.eq_false_iff.1 ha), if_neg (Bool.eq_false_iff.1 htorn)]
      rfl
    case disarm =>
      refine goes_of (k := .disarm) (serve := serveDisarm) rfl rfl ?_
      rw [serveDisarm, noticed_bank]
      rfl
    case abortIdle =>
      refine goes_of (k := .abort) (serve := serveAbort) rfl rfl ?_
      rw [serveAbort, noticed_bank, stopCopy_of_idle hc]
      rfl
    case abort =>
      refine goes_of (k := .abort) (serve := serveAbort) rfl rfl ?_
      rw [serveAbort, noticed_bank, stopCopy_of_running hc]
      rfl
    case copy =>
      refine goes_of (k := .copyBank) (serve := serveCopyBank) rfl rfl ?_
      rw [serveCopyBank, gated_of_none ((noticed_gate h s).trans (gate_eq_none hc ha hq)), startCopy, noticed_bank]
  case step =>
    have he : exec .copyStep s = .next { s with sent := [], bank := s.bank.copyStep } :=
      congrArg Host.Outcome.next (live_of_running hs _)
    rw [he, copyStep_of_running i.isLt hi]
  case completion =>
    have he : exec .copyCompletion s = .next { s with sent := [], bank := s.bank.complete } :=
      congrArg Host.Outcome.next (live_of_running hs _)
    rw [he, complete_of_running hc]

/-! ### A whole copy (R35) -/

/-- What a bank holds when its first `k` styles are those of another. -/
def copiedUpTo (k : Nat) (old new : Bank) : Bank :=
  Vector.ofFn fun n : Fin 63 => if n.val < k then new[n.val] else old[n.val]

theorem copiedUpTo_zero (a b : Bank) : copiedUpTo 0 a b = a := by
  ext n hn
  simp [copiedUpTo]

theorem copiedUpTo_all (a b : Bank) : copiedUpTo 63 a b = b := by
  refine Vector.ext fun n hn => ?_
  rw [copiedUpTo, Vector.getElem_ofFn, if_pos hn]

/-- One more style copied. -/
theorem copiedUpTo_succ {k : Nat} (hk : k < 63) (a b : Bank) :
    (copiedUpTo k a b).set k b[k] = copiedUpTo (k + 1) a b := by
  refine Vector.ext fun n hn => ?_
  by_cases hkn : k = n
  · subst hkn
    simp [copiedUpTo]
  · have hle : n ≤ k ↔ n < k := by omega
    simp [copiedUpTo, hkn, hle]

/-- The bank store after `k` steps of a copy. -/
def BankStore.copied (b : BankStore) (k : Nat) : BankStore :=
  { b.put b.live.other (copiedUpTo k (b.get b.live.other) (b.get b.live)) with copy := .running (k + 1) }

theorem copied_zero {b : BankStore} (hc : b.copy = .running 1) : b.copied 0 = b := by
  obtain ⟨b0, b1, live, armed, torn, copy, result⟩ := b
  cases live <;> simp_all [BankStore.copied, copiedUpTo_zero, BankStore.put, BankStore.get, BankIx.other]

/-- A step of a copy takes the store to the next. -/
theorem copied_succ (b : BankStore) {k : Nat} (hk : k < 63) : (b.copied k).copyStep = b.copied (k + 1) := by
  rw [copyStep_of_running hk rfl]
  obtain ⟨b0, b1, live, armed, torn, copy, result⟩ := b
  cases live <;> simp [BankStore.copied, BankStore.put, BankStore.get, BankIx.other, copiedUpTo_succ hk]

/-- The states of a copy that starts in `s`. -/
def copyRun (s : State) : Nat → State
  | 0 => s
  | k + 1 => { s with sent := [], bank := s.bank.copied (k + 1) }

/-- Each step of the copy leads to the next state of the run. -/
theorem exec_copyStep_copyRun {s : State} (hs : s.pins.inReset = false) (hc : s.bank.copy = .running 1) {k : Nat}
    (hk : k < 63) : exec .copyStep (copyRun s k) = .next (copyRun s (k + 1)) := by
  cases k with
  | zero =>
    have he : exec .copyStep s = .next { s with sent := [], bank := s.bank.copyStep } :=
      congrArg Host.Outcome.next (live_of_running hs _)
    have hstep := copied_succ s.bank (k := 0) (by decide)
    rw [copied_zero hc] at hstep
    rwa [hstep] at he
  | succ k =>
    have he : exec .copyStep (copyRun s (k + 1)) =
        .next { copyRun s (k + 1) with sent := [], bank := (s.bank.copied (k + 1)).copyStep } :=
      congrArg Host.Outcome.next (live_of_running (s := copyRun s (k + 1)) hs _)
    rwa [copied_succ s.bank hk] at he

/-- Settles O26: the run of the 63 steps, and its completion, which finds the two banks equal. -/
theorem wholeCopyMakesBanksEqual : Obligations.WholeCopyMakesBanksEqual := by
  intro s hs hc
  refine ⟨copyRun s, _, rfl, fun k hk => exec_copyStep_copyRun hs hc hk, ?completion, rfl⟩
  have he : exec .copyCompletion (copyRun s 63) =
      .next { copyRun s 63 with sent := [], bank := (s.bank.copied 63).complete } :=
    congrArg Host.Outcome.next (live_of_running (s := copyRun s 63) hs _)
  rwa [complete_of_running rfl, BankStore.copied, copiedUpTo_all] at he

end Sys2Proof.Machine

/-! ## Proofs: the boost and the wear requests (06) -/

namespace Sys2Proof.Machine

/-! ### The boost (R118) -/

/-- Below its end a segment stays at or below its end's boost. -/
theorem segment_le {c0 b0 c1 b1 n : Nat} (hb : b0 ≤ b1) (hn : n ≤ c1) : segment c0 b0 c1 b1 n ≤ b1 := by
  have hdiv : (b1 - b0) * (n - c0) / (c1 - c0) ≤ b1 - b0 := by
    refine Nat.div_le_of_le_mul ?_
    rw [Nat.mul_comm (c1 - c0)]
    exact Nat.mul_le_mul_left _ (by omega)
  unfold segment
  omega

/-- The interpolation of R118, before the bound of 250. -/
def Curve.rawBoost (k : Curve) (n : Nat) : Nat :=
  if k.c4.toNat ≤ n then k.b4.toNat
  else if n < k.c1.toNat then segment 0 0 k.c1.toNat k.b1.toNat n
  else if n < k.c2.toNat then segment k.c1.toNat k.b1.toNat k.c2.toNat k.b2.toNat n
  else if n < k.c3.toNat then segment k.c2.toNat k.b2.toNat k.c3.toNat k.b3.toNat n
  else segment k.c3.toNat k.b3.toNat k.c4.toNat k.b4.toNat n

/-- On a legal curve the interpolation needs no bound. -/
theorem rawBoost_le {k : Curve} (hk : CurveOk k) (n : Nat) : k.rawBoost n ≤ 250 := by
  obtain ⟨-, -, -, -, hb12, hb23, hb34, hb4⟩ := hk
  unfold Curve.rawBoost
  split
  · exact hb4
  split
  case isTrue h => exact (segment_le (Nat.zero_le _) h.le).trans (by omega)
  split
  case isTrue h => exact (segment_le hb12 h.le).trans (by omega)
  split
  case isTrue h => exact (segment_le hb23 h.le).trans (by omega)
  case isFalse => exact (segment_le hb34 (by omega)).trans hb4

/-- The boost of a legal curve is the interpolation. -/
theorem boost_toNat {k : Curve} (hk : CurveOk k) (w : Half) : (k.boost w).toNat = k.rawBoost w.toNat := by
  have hle := rawBoost_le hk w.toNat
  obtain ⟨-, h12, h23, h34, -⟩ := hk
  have hraw : k.boost w = byteOf (min 250 (k.rawBoost w.toNat)) := by
    unfold Curve.boost Curve.rawBoost
    dsimp only
    by_cases h4 : k.c4.toNat ≤ w.toNat
    · rw [if_pos h4, if_neg (by omega), if_neg (by omega), if_neg (by omega), if_neg (by omega)]
    · rw [if_neg h4, if_pos (Nat.lt_of_not_le h4)]
  rw [hraw, Nat.min_eq_right hle, byteOf, BitVec.toNat_ofNat]
  exact Nat.mod_eq_of_lt (by omega)

/-- Settles O29: a legal curve's segments stay within its boosts, so that neither the bound nor the byte cuts them. -/
theorem boostInterpolatesCurve : Obligations.BoostInterpolatesCurve := by
  intro k w hk n seg
  exact ⟨boost_toNat hk w, (boost_toNat hk w).trans_le (rawBoost_le hk _)⟩

/-! ### The gun that a request names -/

/-- A payload byte names the guns by 1 and 2. -/
theorem gunOf_eq_some {g : Byte} (hg : g = 1 ∨ g = 2) : gunOf g.toNat = some (if g = 1 then .gun1 else .gun2) := by
  rcases hg with rfl | rfl <;> rfl

/-- Bytes that do not name a channel and a gun. -/
theorem chanOf_or_gunOf_eq_none {ch g : Byte} (h : ¬(ch.toNat ≤ 31 ∧ (g = 1 ∨ g = 2))) :
    chanOf ch = none ∨ gunOf g.toNat = none := by
  by_cases hch : ch.toNat ≤ 31
  · right
    have hg : ¬(g = 1 ∨ g = 2) := fun hg => h ⟨hch, hg⟩
    revert hg
    generalize g = x
    revert x
    decide
  · exact .inl (chanOf_eq_none (Nat.lt_of_not_le hch))

/-! ### WRITE GUN and WRITE WEAR (R126, R127) -/

/-- A record with its flags evaluated, the flags spelt out. -/
theorem evaluated_eq (r : GunRec) (counted : Bool) :
    r.evaluated counted = { r with
      due := counted && r.threshold ≠ 0 && r.threshold.toNat ≤ r.weld.toNat
      overdue := counted && r.threshold ≠ 0 && min 65535 (r.threshold.toNat + r.grace.toNat) ≤ r.weld.toNat } := by
  have hbne : (r.threshold != 0) = decide (r.threshold ≠ 0) := by
    rw [Bool.eq_iff_iff]
    simp
  simp only [GunRec.evaluated, GunRec.reachesDue, GunRec.reachesOverdue, hbne, Bool.and_assoc]

theorem serveWriteGun_of_range {ch g k : Byte} (hr : ¬((ch.toNat ≤ 31 ∧ (g = 1 ∨ g = 2)) ∧ k.toNat ≤ 3)) (d gr : Half)
    (n dp cp : Byte) (s : State) : serveWriteGun ch g k d gr n dp cp s = refuse .range s := by
  unfold serveWriteGun
  split
  case h_1 c x i hc hg hk =>
    have hk3 : k.toNat ≤ 3 := by
      by_contra h
      simp [curveOf_eq_none (Nat.lt_of_not_le h)] at hk
    have hnone := chanOf_or_gunOf_eq_none fun h => hr ⟨h, hk3⟩
    simp [hc, hg] at hnone
  case h_2 => rfl

theorem serveWriteGun_of_named {ch g k : Byte} {c : ChanNo} (hc : c.val = ch.toNat) (hg : g = 1 ∨ g = 2) (hk : k.toNat ≤ 3)
    (d gr : Half) (n dp cp : Byte) (s : State) :
    serveWriteGun ch g k d gr n dp cp s =
      okay (setGunRec c (if g = 1 then .gun1 else .gun2) { (wearOf s c).get (if g = 1 then .gun1 else .gun2) with
        curve := Fin.ofNat 4 k.toNat, threshold := d, grace := if 4095 < gr.toNat then 4095 else gr
        capLimit := n, dressProgram := dp, capProgram := cp } s) := by
  have hcurve : curveOf k = some (Fin.ofNat 4 k.toNat) := curveOf_eq_some (Nat.mod_eq_of_lt (by omega))
  simp only [serveWriteGun, chanOf_eq_some hc, gunOf_eq_some hg, hcurve, clampGrace]

theorem serveWriteWear_of_range {ch g : Byte} (hr : ¬(ch.toNat ≤ 31 ∧ (g = 1 ∨ g = 2))) (w : Half) (d : Byte)
    (s : State) : serveWriteWear ch g w d s = refuse .range s := by
  unfold serveWriteWear
  split
  case h_1 c x hc hg =>
    have hnone := chanOf_or_gunOf_eq_none hr
    simp [hc, hg] at hnone
  case h_2 => rfl

theorem serveWriteWear_of_named {ch g : Byte} {c : ChanNo} (hc : c.val = ch.toNat) (hg : g = 1 ∨ g = 2) (w : Half)
    (d : Byte) (s : State) :
    serveWriteWear ch g w d s =
      okay (setGunRec c (if g = 1 then .gun1 else .gun2)
        { (wearOf s c).get (if g = 1 then .gun1 else .gun2) with weld := w, dresses := d } s) := by
  simp only [serveWriteWear, chanOf_eq_some hc, gunOf_eq_some hg]

/-- The two records of a channel with that of the named gun replaced, its flags evaluated. -/
theorem put_named {g : Byte} (hg : g = 1 ∨ g = 2) (w : ChanWear) (c : ChanRec) (r : GunRec) :
    w.put (if g = 1 then .gun1 else .gun2) (r.evaluated (c.counts (if g = 1 then .gun1 else .gun2))) =
      if g = 1 then { w with gun1 := r.evaluated true } else { w with gun2 := r.evaluated c.twoGuns } := by
  rcases hg with rfl | rfl <;> rfl

/-- Settles O30: both requests store the named gun's record and settle its flags, its channel's factor and the loss of
service in one operation. -/
theorem wearWritesEvaluateFlags : Obligations.WearWritesEvaluateFlags := by
  intro h ch g s ht ev put old after named
  have hev : ∀ counted r, ev counted r = r.evaluated counted := fun counted r => (evaluated_eq r counted).symm
  have hold : named → ∀ c, (wearOf s c).get (if g = 1 then .gun1 else .gun2) = old c := by
    rintro ⟨-, rfl | rfl⟩ c <;> rfl
  have hafter : named → ∀ c r, setGunRec c (if g = 1 then .gun1 else .gun2) r (noticed h s) = after c r := by
    intro hn c r
    rw [setGunRec_settled, noticed_wearOf, noticed_chanRec, noticed_available, put_named hn.2]
    simp only [after, put, hev, ChanWear.overdue]
    rfl
  refine ⟨fun k d gr n dp cp => ⟨fun hr => ?gunRange, fun hn c hc => ?gun⟩, fun w d => ⟨fun hr => ?wearRange, fun hn c hc => ?wear⟩⟩
  case gunRange => exact onRequest_of_serve ht rfl (serveWriteGun_of_range hr d gr n dp cp _)
  case gun =>
    have hserve := serveWriteGun_of_named hc hn.1.2 hn.2 d gr n dp cp (noticed h s)
    rw [hafter hn.1, noticed_wearOf, hold hn.1] at hserve
    exact onRequest_of_serve ht rfl hserve
  case wearRange => exact onRequest_of_serve ht rfl (serveWriteWear_of_range hr w d _)
  case wear =>
    have hserve := serveWriteWear_of_named hc hn.2 w d (noticed h s)
    rw [hafter hn, noticed_wearOf, hold hn] at hserve
    exact onRequest_of_serve ht rfl hserve

/-! ### READ WEAR (R128) -/

theorem serveReadWear_of_range {ch g : Byte} (hr : ¬(ch.toNat ≤ 31 ∧ (g = 1 ∨ g = 2))) (s : State) :
    serveReadWear ch g s = refuse .range s := by
  unfold serveReadWear
  split
  case h_1 c x hc hg =>
    have hnone := chanOf_or_gunOf_eq_none hr
    simp [hc, hg] at hnone
  case h_2 => rfl

theorem serveReadWear_of_named {ch g : Byte} {c : ChanNo} (hc : c.val = ch.toNat) (hg : g = 1 ∨ g = 2) (s : State) :
    serveReadWear ch g s =
      okayWith (wearBytes ((wearOf s c).get (if g = 1 then .gun1 else .gun2))
        (boostFor s c (if g = 1 then .gun1 else .gun2))) s := by
  simp only [serveReadWear, chanOf_eq_some hc, gunOf_eq_some hg]

/-- R123: a cap change is offered with a limit that the dresses have reached and a cap program. -/
def GunRec.offersCap (r : GunRec) : Bool := r.capLimit ≠ 0 ∧ r.capLimit.toNat ≤ r.dresses.toNat ∧ r.capProgram ≠ 0

theorem offer_eq (r : GunRec) : r.offer = if r.offersCap then (.cap, r.capProgram) else (.dress, r.dressProgram) := by
  unfold GunRec.offer GunRec.offersCap
  simp only [Bool.and_eq_true, bne_iff_ne, decide_eq_true_eq, and_assoc]

/-- The bytes of READ WEAR with the offer spelt out. -/
theorem wearBytes_eq (r : GunRec) (b : Byte) :
    wearBytes r b =
      [hiByte r.weld, loByte r.weld, r.dresses, byteOf r.curve.val, hiByte r.threshold, loByte r.threshold,
       hiByte r.grace, loByte r.grace, r.capLimit, r.dressProgram, r.capProgram,
       flagAt 0 r.due ||| flagAt 1 r.overdue ||| flagAt 2 r.offersCap,
       if r.offersCap then r.capProgram else r.dressProgram, b] := by
  unfold wearBytes
  rw [offer_eq]
  cases r.offersCap <;> rfl

/-- Settles O31: the named gun's record, its offer, and the boost of its curve at its count. -/
theorem readWearPayload : Obligations.ReadWearPayload := by
  intro h ch g s ht
  refine ⟨fun hr => onRequest_of_serve ht rfl (serveReadWear_of_range hr _), ?named⟩
  case named =>
    intro c hc hg r cap
    have hget : (wearOf s c).get (if g = 1 then .gun1 else .gun2) = r := by
      rcases hg with rfl | rfl <;> rfl
    have hserve := serveReadWear_of_named hc hg (noticed h s)
    simp only [boostFor, noticed_wearOf, noticed_curves, hget, wearBytes_eq] at hserve
    exact onRequest_of_serve ht rfl hserve

end Sys2Proof.Machine

/-! ## Proofs: READ TRACKING, RETRACK LOAD and RETRACK APPLY (01) -/

namespace Sys2Proof.Machine

/-! ### READ TRACKING (R21) -/

/-- Two flags and a low field may be joined in any order: both sides are one disjunction of bits. -/
theorem positionFlags_eq (b : Body) :
    b.options.setWidth 8 ||| flagAt 5 b.empty ||| flagAt 6 b.unresolved ||| flagAt 7 b.uncertain =
      flagAt 7 b.uncertain ||| flagAt 6 b.unresolved ||| flagAt 5 b.empty ||| b.options.setWidth 8 := by
  ac_rfl

theorem BankIx.bit_eq (i : BankIx) : i.bit = (i == .bank1) := by cases i <;> rfl

/-- The sixteen bytes of a position. -/
theorem positionBytes_some (b : Body) :
    positionBytes (some b) =
      [(flagAt 7 b.uncertain ||| flagAt 6 b.unresolved ||| flagAt 5 b.empty ||| b.options.setWidth 8 : Byte),
       flagAt 6 (b.bank == .bank1) ||| b.style.setWidth 8] ++
      halfBytes b.tag ++ maskBytes b.resolved ++ maskBytes b.done ++ maskBytes b.owed := by
  rw [positionBytes, positionFlags_eq, BankIx.bit_eq, BitVec.or_comm (b.style.setWidth 8)]

/-- The count of positions stands in the upper four bits. -/
theorem byteOf_shift_four (n : Nat) : byteOf n <<< 4 = byteOf (16 * n) := by
  apply BitVec.eq_of_toNat_eq
  simp only [byteOf, BitVec.toNat_shiftLeft, BitVec.toNat_ofNat, Nat.shiftLeft_eq]
  omega

/-- Settles O32: the check of the station, and the payload position by position. -/
theorem readTrackingPayload : Obligations.ReadTrackingPayload := by
  intro h f s ht
  refine ⟨fun hf => ?range, fun hf => ?positions⟩
  case range =>
    have hserve : serveReadTracking f (noticed h s) = refuse .range (noticed h s) :=
      if_neg (by rw [noticed_node]; omega)
    exact onRequest_of_serve ht rfl hserve
  case positions =>
    intro ps
    have hserve : serveReadTracking f (noticed h s) =
        okayWith ((f ||| byteOf (16 * ps.length)) :: ps.flatMap positionBytes) (noticed h s) := by
      rw [← byteOf_shift_four, serveReadTracking, noticed_node, if_pos hf, noticed_track]
    have hpositions : positionBytes = fun p : Option Body => match p with
        | none => 0x10 :: List.replicate 15 0
        | some b =>
          [(flagAt 7 b.uncertain ||| flagAt 6 b.unresolved ||| flagAt 5 b.empty ||| b.options.setWidth 8 : Byte),
           flagAt 6 (b.bank == .bank1) ||| b.style.setWidth 8] ++
          halfBytes b.tag ++ maskBytes b.resolved ++ maskBytes b.done ++ maskBytes b.owed := by
      funext p
      cases p with
      | none => rfl
      | some b => exact positionBytes_some b
    rw [hpositions] at hserve
    exact onRequest_of_serve ht rfl hserve

/-! ### RETRACK LOAD (R17) -/

/-- What R17 refuses in a record. -/
def RetrackOutOfRange (s : State) (r : RawRetrack) : Prop :=
  s.node.stations ≤ r.station.toNat ∨ 63 < r.style.toNat ∨ 15 < r.options.toNat ∨
    ∃ c : ChanNo, inMask r.done c = true ∧ inMask r.owed c = true

/-- The retrack record that a record of the payload gives. -/
def retrackRecord (r : RawRetrack) : Retrack :=
  { tag := r.tag, style := r.style.setWidth 6, options := r.options.setWidth 4, done := r.done, owed := r.owed }

/-- The records of a payload with their stations. -/
def stationedRecords (rs : List RawRetrack) : List (Nat × Retrack) :=
  rs.map fun r => (r.station.toNat, retrackRecord r)

/-- Their stations are apart as the bytes are. -/
theorem stationedRecords_nodup_iff (rs : List RawRetrack) :
    ((stationedRecords rs).map Prod.fst).Nodup ↔ (rs.map RawRetrack.station).Nodup := by
  have hfst : (stationedRecords rs).map Prod.fst = (rs.map RawRetrack.station).map BitVec.toNat := by
    rw [stationedRecords, List.map_map, List.map_map]
    rfl
  rw [hfst, List.nodup_map_iff fun _ _ => BitVec.eq_of_toNat_eq]

/-- The image with the records of the payload stored at their stations. -/
def loadedImage (rs : List RawRetrack) (im : List (Option Retrack)) : List (Option Retrack) :=
  (stationedRecords rs).foldl (fun im x => im.set x.1 (some x.2)) im

theorem serveRetrackLoad_of_range {rs : List RawRetrack} {s : State} (ho : retrackOpen s = true)
    (hr : ∃ r ∈ rs, RetrackOutOfRange s r) : serveRetrackLoad rs s = refuse .range s := by
  have hnone : retracksOf s.node.stations rs = none := by
    simpa only [retracksOf_eq_none_iff, retrackOf_eq_none_iff, RetrackOutOfRange] using hr
  simp only [serveRetrackLoad, ho, hnone, Bool.not_true, Bool.false_eq_true, if_false]

/-- With every record in range, the check of distinct stations, and the image. -/
theorem serveRetrackLoad_of_not_range {rs : List RawRetrack} {s : State} (ho : retrackOpen s = true)
    (hr : ¬∃ r ∈ rs, RetrackOutOfRange s r) :
    serveRetrackLoad rs s =
      if (rs.map RawRetrack.station).Nodup then
        okay { s with track := { s.track with image := loadedImage rs s.track.image } }
      else refuse .conflict s := by
  have hsome : retracksOf s.node.stations rs ≠ none := by
    simpa only [ne_eq, retracksOf_eq_none_iff, retrackOf_eq_none_iff, RetrackOutOfRange] using hr
  obtain ⟨xs, hxs⟩ := Option.ne_none_iff_exists'.1 hsome
  have hrec : xs = stationedRecords rs := retracksOf_eq_some hxs
  simp only [serveRetrackLoad, ho, hxs, hrec, Bool.not_true, Bool.false_eq_true, if_false, stationedRecords_nodup_iff,
    loadedImage]

theorem loadedImage_length (rs : List RawRetrack) (im : List (Option Retrack)) :
    (loadedImage rs im).length = im.length :=
  foldl_set_length _ _

/-- Settles O33: the two checks, and where each record lands. -/
theorem retrackLoadStoresRecords : Obligations.RetrackLoadStoresRecords := by
  intro h rs s ht hlo hhi hs range conflict
  have hallow := retrackLoad_allows hlo hhi
  have hopen : retrackOpen (noticed h s) = true := by
    rw [retrackOpen_iff, noticed_node]
    exact hs
  have hrange : (∃ r ∈ rs, RetrackOutOfRange (noticed h s) r) ↔ range := by
    simp only [RetrackOutOfRange, noticed_node, range]
  have hlands := fun hc => imageFold_getElem (stationedRecords rs) s.track.image ((stationedRecords_nodup_iff rs).2 hc)
  refine ⟨fun hr => ?range, fun hr hc => ?conflict, fun hr hc => ⟨loadedImage rs s.track.image, ?stored,
    loadedImage_length _ _, ?named, ?others⟩⟩
  case range => exact onRequest_of_serve ht hallow (serveRetrackLoad_of_range hopen (hrange.2 hr))
  case conflict =>
    have hserve := serveRetrackLoad_of_not_range hopen (mt hrange.1 hr)
    rw [if_neg hc] at hserve
    exact onRequest_of_serve ht hallow hserve
  case stored =>
    have hserve := serveRetrackLoad_of_not_range hopen (mt hrange.1 hr)
    rw [if_pos (not_not.1 hc), noticed_track] at hserve
    exact onRequest_of_serve ht hallow hserve
  case named => exact fun r hr hlt => (hlands (not_not.1 hc)).1 _ (List.mem_map_of_mem hr) hlt
  case others =>
    intro k hk
    refine (hlands (not_not.1 hc)).2 k fun x hx => ?_
    obtain ⟨r, hr, rfl⟩ := List.mem_map.1 hx
    exact hk r hr

/-! ### RETRACK APPLY (R18, R19, R153) -/

/-- What the image gives at one position: a record's fields, a gap's zeros. -/
theorem retrackBody_fields (bank : BankStore) (id : Nat) (p : Option Retrack) :
    let b := retrackBody bank id p
    b.id = id ∧ b.bank = bank.live ∧ b.uncertain = false ∧ b.empty = (b.style == 0) ∧
      b.unresolved = (b.style != 0 && !styleEnabled bank bank.live b.style) ∧
      match p with
      | none => b.tag = 0 ∧ b.style = 0 ∧ b.options = 0 ∧ b.resolved = 0 ∧ b.done = 0 ∧ b.owed = 0
      | some r => b.tag = r.tag ∧ b.style = r.style ∧ b.options = r.options ∧ b.done = r.done ∧ b.owed = r.owed ∧
          b.resolved = r.done ||| r.owed := by
  cases p <;> simp [retrackBody, boundBody]

theorem serveRetrackApply_of_config {s : State} (hs : s.node.state = .config) :
    serveRetrackApply s = okay (applyImage s) := by
  simp [serveRetrackApply, retrackOpen, hs]

theorem serveRetrackApply_of_suspended {s : State} (hs : s.node.state = .suspended) :
    serveRetrackApply s = okay (catchUp { applyImage s with
      node := { s.node with state := if s.node.latch then .held else .run } }) := by
  simp only [serveRetrackApply, retrackOpen, hs]
  rfl

/-- Settles O34: the queue that the image gives, and in SUSPENDED the catch-up of it. -/
theorem retrackApplyReplacesQueue : Obligations.RetrackApplyReplacesQueue := by
  intro h s ht hs
  refine ⟨retrackBodies s.bank s.track.nextId s.track.image, retrackBodies_length _ _ _, ?bodies, ?_⟩
  case bodies =>
    intro k hk
    refine ⟨retrackBody s.bank (s.track.nextId + k) s.track.image[k], ?_, retrackBody_fields _ _ _⟩
    rw [retrackBodies_getElem, List.getElem?_eq_getElem hk, Option.map_some]
  intro t
  have himage : applyImage (noticed h s) = { noticed h s with track := t } := by
    simp only [applyImage, noticed_track, noticed_bank]
    rfl
  refine ⟨fun hc => ?config, fun hc => ?suspended⟩
  case config =>
    have hserve := serveRetrackApply_of_config (s := noticed h s) (by rwa [noticed_node])
    rw [himage] at hserve
    exact onRequest_of_serve ht rfl hserve
  case suspended =>
    intro u v
    have hserve : serveRetrackApply (noticed h s) = okay v := by
      rw [serveRetrackApply_of_suspended (by rwa [noticed_node]), himage, noticed_node]
      exact congrArg okay (catchUp_eq_settledWhere_of (noticed_chanRec h s))
    have hmarks : ListsAndMarks u v := settledWhere_listsAndMarks _ u
    refine ⟨onRequest_of_serve ht rfl hserve, hmarks.eq, hmarks.bodies, ?resolved⟩
    case resolved =>
      intro _ hwf c k b hp hk hlo hhi hb hpass
      have hbodies : ∀ b, some b ∈ u.track.queue → ∃ w, BodyOk w b := fun b hb =>
        ⟨false, retrackBodies_bodyOk _ _ _ hwf.2 b hb⟩
      have hpresent : present u c = true := (noticed_present h s c).trans hp
      exact settledWhere_resolves _ u hbodies c k b hpresent hk ⟨hlo, hhi⟩ hb hpass

end Sys2Proof.Machine

/-! ## Proofs: the report unit and the path tester (10, 11) -/

namespace Sys2Proof.Machine

/-! ### The fault log (R181, R182) -/

/-- The payload of READ LOG, byte by byte. -/
theorem logBytes_eq (r : Report) :
    logBytes r =
      match r.log with
      | none => List.replicate 14 0
      | some e =>
        [(match e.kind with | .slotCheck => 1 | .headerCheck => 2 | .invalidState => 3), hiByte e.sweep,
         loByte e.sweep, byteOf e.slot, (match e.pass with | .outbound => 0 | .back => 1), e.raw.data.b0, e.raw.data.b1,
         e.raw.data.b2, e.raw.data.b3, e.raw.data.b4, e.raw.data.b5, e.raw.data.b6, e.raw.check, r.further] := by
  obtain ⟨alarms, log, further, exit, exitCount⟩ := r
  cases log with
  | none => rfl
  | some e => obtain ⟨_ | _ | _, _, _, _ | _, _⟩ := e <;> rfl

/-- R181: the count of further errors stops at 255. -/
theorem satByte_eq (b : Byte) : satByte b = if b = 255 then 255 else b + 1 := by
  unfold satByte
  split
  case isTrue hb => exact hb
  case isFalse => rfl

/-- Settles O35: the two requests, and a reported error by what the log holds and by its mode. -/
theorem faultLogIsKeptAndRead : Obligations.FaultLogIsKeptAndRead := by
  refine ⟨fun h s ht => ⟨?read, ?clear⟩, fun e s => ?error⟩
  case read =>
    have hserve : serveReadLog (noticed h s) = okayWith (logBytes s.report) (noticed h s) := by
      rw [serveReadLog, noticed_report]
    rw [logBytes_eq] at hserve
    exact onRequest_of_serve ht rfl hserve
  case clear =>
    have hserve : serveClearLog (noticed h s) =
        okay { noticed h s with report := { s.report with log := none, further := 0 } } := by
      rw [serveClearLog, noticed_report]
    exact onRequest_of_serve ht rfl hserve
  case error =>
    cases hl : s.report.log with
    | none => simp [logError, setAlarm, hl, Alarm.mask, Alarm.bit]
    | some x => cases hm : s.node.logMode <;> simp [logError, setAlarm, hl, hm, satByte_eq, Alarm.mask, Alarm.bit]

/-! ### CLEAR ALARMS (R179) -/

/-- The bits of two alarms are apart. -/
theorem Alarm.mask_getLsbD (x a : Alarm) : x.mask.getLsbD a.bit = decide (x = a) := by
  cases x <;> cases a <;> decide

/-- One alarm of the summary taken out, if `p` says so. -/
theorem clearIf_getLsbD (p : Bool) (x a : Alarm) (b : Byte) :
    (if p then b &&& ~~~x.mask else b).getLsbD a.bit = (b.getLsbD a.bit && !(p && decide (x = a))) := by
  have hbit : a.bit < 8 := by cases a <;> decide
  cases p
  · simp
  · simp only [if_true, BitVec.getLsbD_and, BitVec.getLsbD_not, hbit, decide_true, Alarm.mask_getLsbD, Bool.true_and]

/-- Clearing alarms one after another: each takes out its own bit. -/
theorem foldl_clear_getLsbD (p : Alarm → Bool) (a : Alarm) (l : List Alarm) (b : Byte) :
    (l.foldl (fun b x => if p x then b &&& ~~~x.mask else b) b).getLsbD a.bit =
      (b.getLsbD a.bit && !(p a && decide (a ∈ l))) := by
  induction l generalizing b with
  | nil => simp
  | cons x l ih =>
    rw [List.foldl_cons, ih, clearIf_getLsbD]
    by_cases hx : x = a
    · subst hx
      cases p x <;> simp
    · have hmem : a ∈ x :: l ↔ a ∈ l := by simp [Ne.symm hx]
      simp only [hx, hmem, decide_false, Bool.and_false, Bool.not_false, Bool.and_true]

/-- A bit of the summary stays unless the mask names it and its condition is absent. -/
theorem clearedAlarms_getLsbD (m : Byte) (s : State) (a : Alarm) :
    (clearedAlarms m s).getLsbD a.bit =
      (s.report.alarms.getLsbD a.bit && !(m.getLsbD a.bit && !alarmKept s a)) := by
  have hall : a ∈ allAlarms := by cases a <;> decide
  rw [clearedAlarms, foldl_clear_getLsbD (fun x => m.getLsbD x.bit && !alarmKept s x)]
  simp [hall]

/-- R51: some channel has a failed cause exactly when their number is not 0. -/
theorem failedCount_ne_zero_iff (s : State) : failedCount s ≠ 0 ↔ ∃ c, (chanRec s c).failed.isSome = true := by
  simp [failedCount, chanRec, List.filter_eq_nil_iff, mem_allChannels, Option.isSome_iff_ne_none]

/-- The alarm of each bit of the summary. -/
def alarmOf (n : Fin 8) : Alarm := allAlarms[n]

theorem alarmOf_bit (n : Fin 8) : (alarmOf n).bit = n.val := by
  revert n
  decide

/-- Settles O36: the cleared summary bit by bit, with the condition of each bit. -/
theorem clearAlarmsReadsConditions : Obligations.ClearAlarmsReadsConditions := by
  intro h m s ht kept
  refine ⟨clearedAlarms m (noticed h s), ?answer, fun n => ?bit⟩
  case answer =>
    have hserve : serveClearAlarms m (noticed h s) =
        okay { noticed h s with report := { s.report with alarms := clearedAlarms m (noticed h s) } } := by
      rw [serveClearAlarms, noticed_report]
    exact onRequest_of_serve ht rfl hserve
  case bit =>
    have hkept : alarmKept (noticed h s) (alarmOf n) = true ↔ kept n := by
      match n with
      | 4 =>
        have hcount := failedCount_ne_zero_iff s
        simpa [alarmOf, allAlarms, alarmKept, kept] using hcount
      | 0 | 1 | 2 | 3 | 5 | 6 | 7 => simp [alarmOf, allAlarms, alarmKept, kept]
    have hbit := clearedAlarms_getLsbD m (noticed h s) (alarmOf n)
    rw [alarmOf_bit, noticed_report] at hbit
    rw [hbit, ← hkept]
    simp [Bool.or_eq_true]

/-! ### The path tester's requests (R184, R186, R187) -/

theorem patternOf_eq_none {p : Byte} (hp : 2 < p.toNat) : patternOf p = none := by
  revert p
  decide

/-- Settles O38: the four requests. -/
theorem pathTestRequests : Obligations.PathTestRequests := by
  intro h s ht goes started
  refine ⟨onRequest_of_serve ht rfl rfl, onRequest_of_serve ht rfl rfl, onRequest_of_serve ht rfl rfl, fun p hp => ?range,
    ?stop, ?inject, ?counts⟩
  case range =>
    have hserve : serveTestStart p (noticed h s) = refuse .range (noticed h s) := by
      rw [serveTestStart, patternOf_eq_none hp]
    exact onRequest_of_serve ht rfl hserve
  case stop =>
    have hserve : serveTestStop (noticed h s) =
        okay { noticed h s with path := { s.path with running := false, expected := [], inject := false } } := by
      rw [serveTestStop, noticed_path]
    exact onRequest_of_serve ht rfl hserve
  case inject =>
    have hserve : serveTestInject (noticed h s) =
        okay { noticed h s with path := { s.path with inject := true } } := by
      rw [serveTestInject, noticed_path]
    exact onRequest_of_serve ht rfl hserve
  case counts =>
    have hserve : serveReadTestCounts (noticed h s) =
        okayWith (halfBytes s.path.bitErrors ++ halfBytes s.path.lostSweeps)
          { noticed h s with path := { s.path with bitErrors := 0, lostSweeps := 0 } } := by
      rw [serveReadTestCounts, noticed_path]
    exact onRequest_of_serve ht rfl hserve

/-! ### The generator (R185) -/

theorem genSteps_add (m n : Nat) (g : BitVec 15) : genSteps (m + n) g = genSteps n (genSteps m g) := by
  induction m generalizing g with
  | zero => rw [Nat.zero_add]; rfl
  | succ m ih => rw [Nat.succ_add, genSteps, ih, genSteps]

/-- One step shifts the register up by one place, the new bit at the low end. -/
theorem genStep_getLsbD_succ {i : Nat} (hi : i < 14) (g : BitVec 15) : (genStep g).getLsbD (i + 1) = g.getLsbD i := by
  have hnew : (if genBit g then (1 : BitVec 15) else 0).getLsbD (i + 1) = false := by
    cases genBit g <;> simp [BitVec.getLsbD_one]
  have hlt : i + 1 < 15 := by omega
  simp only [genStep, BitVec.getLsbD_or, BitVec.getLsbD_shiftLeft, hnew, hlt]
  simp

theorem genStep_getLsbD_zero (g : BitVec 15) : (genStep g).getLsbD 0 = genBit g := by
  cases h : genBit g <;> simp [genStep, h]

/-- The bit sequence of the generator: what leaves the register at its high end, step after step. -/
def genStream (g : BitVec 15) (n : Nat) : Bool := (genSteps n g).getLsbD 14

theorem genStep_genSteps (n : Nat) (g : BitVec 15) : genStep (genSteps n g) = genSteps (n + 1) g := by
  rw [genSteps_add n 1]
  rfl

/-- The register after `n` steps holds the next fifteen bits of the sequence, the first of them highest. -/
theorem genSteps_getLsbD (g : BitVec 15) {k : Nat} (hk : k ≤ 14) (n : Nat) :
    (genSteps n g).getLsbD (14 - k) = genStream g (n + k) := by
  induction k generalizing n with
  | zero => rfl
  | succ k ih =>
    have hstep := genStep_getLsbD_succ (i := 14 - (k + 1)) (by omega) (genSteps n g)
    rw [genStep_genSteps, show 14 - (k + 1) + 1 = 14 - k by omega, ih (by omega)] at hstep
    rw [← hstep, Nat.add_right_comm, Nat.add_assoc]

/-- R185: each bit is the one 14 before it XOR the one 15 before it. -/
theorem genStream_rec (g : BitVec 15) (n : Nat) : genStream g (n + 15) = (genStream g (n + 1) ^^ genStream g n) := by
  have hnew := genSteps_getLsbD g (k := 14) (by omega) (n + 1)
  have hfirst := genSteps_getLsbD g (k := 1) (by omega) n
  have hlow := genSteps_getLsbD g (k := 0) (by omega) n
  rw [show n + 15 = n + 1 + 14 by omega, ← hnew, ← genStep_genSteps, Nat.sub_self, genStep_getLsbD_zero, genBit,
    ← hfirst]
  exact congrArg _ hlow

/-- A byte of the pattern holds eight bits of the sequence, the first of them highest. -/
theorem genByte_getLsbD (g : BitVec 15) (n : Nat) (b : Fin 8) :
    (genByte (genSteps n g)).getLsbD (7 - b.val) = genStream g (15 + n + b.val) := by
  have hbit := genSteps_getLsbD g (k := 14 - (7 - b.val)) (by omega) (n + 8)
  rw [show 14 - (14 - (7 - b.val)) = 7 - b.val by omega, show n + 8 + (14 - (7 - b.val)) = 15 + n + b.val by omega] at hbit
  have hlow : 7 - b.val < 8 := by omega
  rw [genByte, ← genSteps_add, BitVec.getLsbD_setWidth, hbit, decide_eq_true hlow, Bool.true_and]

/-- The seven bytes of SEQ15 are the bytes of the sequence, one after another. -/
theorem nextPattern_seq15_bytes (g : BitVec 15) (j : Fin 7) :
    (nextPattern .seq15 g).1.bytes[j.val]? = some (genByte (genSteps (8 * j.val) g)) := by
  match j with
  | 0 | 1 | 2 | 3 | 4 | 5 | 6 => rfl

/-! ### The TEST slots -/

theorem testSlots_pairwise (m : SlotMap) (n : Nat) : (testSlots m n).Pairwise (· < ·) :=
  List.pairwise_lt_range.filter _

/-- The TEST slots of a sweep: slot `i + 1` where the map gives position `i` that role. -/
theorem mem_testSlots_iff (m : SlotMap) (n k : Nat) :
    k ∈ testSlots m n ↔ ∃ i : Fin 183, m[i.val] = .test ∧ k = i.val + 1 ∧ k < n := by
  rw [testSlots, List.mem_filter, List.mem_range]
  constructor
  · rintro ⟨hk, hrole⟩
    rw [Bool.and_eq_true, bne_iff_ne, beq_iff_eq] at hrole
    obtain ⟨h0, hrole⟩ := hrole
    by_cases hi : k - 1 < 183
    · refine ⟨⟨k - 1, hi⟩, ?_, by simp; omega, hk⟩
      simpa [List.getD_eq_getElem?_getD, hi] using hrole
    · simp [List.getD_eq_getElem?_getD, hi] at hrole
  · rintro ⟨i, hi, rfl, hk⟩
    refine ⟨hk, ?_⟩
    simp [List.getD_eq_getElem?_getD, hi]

/-- Settles O39: the filling slot by slot, the three patterns, and which slots are filled. -/
theorem testSlotsTakePatternInOrder : Obligations.TestSlotsTakePatternInOrder := by
  refine ⟨fun _ _ => rfl, fun k ks t sls => ?slot, fun g => ⟨rfl, rfl⟩, fun g => ?seq15,
    fun m n => ⟨testSlots_pairwise m n, mem_testSlots_iff m n⟩⟩
  case slot => rfl
  case seq15 =>
    refine ⟨genStream g, fun n hn => ?start, genStream_rec g, fun j b => ⟨?byte, fun n hn => ?register⟩⟩
    case start =>
      have hbit := genSteps_getLsbD g (k := n) (by omega) 0
      rw [Nat.zero_add] at hbit
      exact hbit.symm
    case byte =>
      rw [nextPattern_seq15_bytes, Option.map_some, genByte_getLsbD]
    case register =>
      have hbit := genSteps_getLsbD g (k := 14 - n) (by omega) 56
      rwa [show 14 - (14 - n) = n by omega, show 56 + (14 - n) = 70 - n by omega] at hbit

end Sys2Proof.Machine

/-! ## Proofs: marks, lists and losses of service (01, 04) -/

namespace Sys2Proof.Machine

/-! ### Marks (R12) -/

/-- A mark for a body that is not in the queue changes nothing. -/
theorem mark_of_absent {s : State} {id : Nat} (ha : ∀ b, some b ∈ s.track.queue → b.id ≠ id) (m : Mark) (chs : Mask) :
    mark m chs id s = s := by
  have hq : (s.track.queue.map fun p => p.map fun b => if b.id = id then b.mark m chs else b) = s.track.queue := by
    conv => rhs; rw [← List.map_id s.track.queue]
    refine List.map_congr_left fun p hp => ?_
    cases p with
    | none => rfl
    | some b => simp [ha b hp]
  rw [mark, hq]

theorem inMask_or (a b : Mask) (c : ChanNo) : inMask (a ||| b) c = (inMask a c || inMask b c) :=
  BitVec.getLsbD_or ..

/-- A verdict adds the channels it names that do not hold the other one. -/
theorem inMask_add_verdict (a chs b : Mask) (c : ChanNo) :
    inMask (a ||| chs &&& ~~~b) c = (inMask a c || (inMask chs c && !inMask b c)) := by
  simp [inMask]

/-- Settles O40: each kind of mark on each mask. -/
theorem firstVerdictStands : Obligations.FirstVerdictStands := by
  refine ⟨fun m chs id s => ⟨rfl, fun ha => mark_of_absent ha m chs⟩, fun chs b c => ?_⟩
  exact ⟨fun m => Body.mark_bare m chs b, inMask_or _ _ _, rfl, rfl, inMask_add_verdict _ _ _ _,
    inMask_add_verdict _ _ _ _, rfl, inMask_add_verdict _ _ _ _, inMask_add_verdict _ _ _ _, rfl,
    fun u m hb => mark_bodyOk m chs hb⟩

/-! ### Pending lists (R61, R62) -/

/-- The record comes ahead of a SELECTING or LOADED head, whose job R62 withdraws. -/
def Withdraws (s : State) (c : ChanNo) (r : Dispatch) : Prop :=
  ∃ ph n x xs, (seqOf s c).job = some (.body ph n) ∧ (seqOf s c).list = x :: xs ∧ aheadOf s r.body x.body = true

/-- A record joins its list at its place; R62 withdraws the job it comes ahead of. -/
theorem insertRecord_eq {c : ChanNo} {r : Dispatch} {s : State}
    (hrun : ∀ n x xs, (seqOf s c).job = some (.body .running n) → (seqOf s c).list = x :: xs →
      aheadOf s r.body x.body = false) :
    (Withdraws s c r → insertRecord c r s = setSeq c ({ seqOf s c with list := r :: (seqOf s c).list }).withdraw s) ∧
    (¬Withdraws s c r → insertRecord c r s = setSeq c { seqOf s c with list := insertInOrder s r (seqOf s c).list } s) := by
  unfold insertRecord
  dsimp only
  split
  case h_1 n x xs hj hl =>
    have hbehind := hrun n x xs hj hl
    refine ⟨fun ⟨_, _, y, ys, _, hy, ha⟩ => ?_, fun _ => ?_⟩
    · obtain rfl : x = y := (List.cons.inj (hl.symm.trans hy)).1
      exact absurd ha (by simp [hbehind])
    · rw [hl, insertInOrder, if_neg (by simp [hbehind])]
  case h_2 ph n x xs _ hj hl =>
    split
    case isTrue ha =>
      refine ⟨fun _ => by rw [hl], fun hw => absurd ⟨ph, n, x, xs, hj, hl, ha⟩ hw⟩
    case isFalse ha =>
      refine ⟨fun ⟨_, _, y, ys, _, hy, hw⟩ => ?_, fun _ => ?_⟩
      · obtain rfl : x = y := (List.cons.inj (hl.symm.trans hy)).1
        exact absurd hw ha
      · rw [hl, insertInOrder, if_neg ha]
  case h_3 _ hother =>
    exact ⟨fun ⟨ph, n, x, xs, hj, hl, _⟩ => absurd hl (hother ph n x xs hj), fun _ => rfl⟩

/-- A record ahead of the head stands first. -/
theorem insertInOrder_ahead {s : State} {r x : Dispatch} (ha : aheadOf s r.body x.body = true) (xs : List Dispatch) :
    insertInOrder s r (x :: xs) = r :: x :: xs :=
  if_pos ha

/-- Settles O41: the list is the insertion in order, which keeps the records and their order; the job is withdrawn
exactly where the record comes ahead of a head that is not RUNNING. -/
theorem recordsStandInBodyOrder : Obligations.RecordsStandInBodyOrder := by
  intro c r s q ordered ahead hstand hord hapart hrunning t withdrawn
  have hahead : ∀ x ∈ q.list, aheadOf s r.body x.body = true ↔ ahead r x := fun x hx =>
    aheadOf_iff s _ _ (hstand r (by simp)) (hstand x (by simp [hx]))
  have hbehind : ∀ n x xs, q.job = some (.body .running n) → q.list = x :: xs → aheadOf s r.body x.body = false := by
    intro n x xs hj hl
    obtain ⟨j, k, hx, hr, hlt⟩ := hrunning n x xs hj hl
    rw [← Bool.not_eq_true, hahead x (by simp [hl])]
    rintro ⟨j', k', hr', hx', hlt'⟩
    rw [hr] at hr'
    rw [hx] at hx'
    cases hr'
    cases hx'
    omega
  obtain ⟨hwith, hstay⟩ := insertRecord_eq (c := c) (r := r) (s := s) hbehind
  have hiff : Withdraws s c r ↔ withdrawn := by
    constructor
    · rintro ⟨ph, n, x, xs, hj, hl, ha⟩
      exact ⟨ph, n, x, xs, hj, hl, (hahead x (by simp [q, hl])).1 ha⟩
    · rintro ⟨ph, n, x, xs, hj, hl, ha⟩
      exact ⟨ph, n, x, xs, hj, hl, (hahead x (by simp [hl])).2 ha⟩
  have hlist : (seqOf t c).list = insertInOrder s r q.list := by
    by_cases hw : Withdraws s c r
    · obtain ⟨_, _, x, xs, _, hl, ha⟩ := id hw
      simp only [t, hwith hw, seqOf_setSeq_self, Seq.withdraw, q, hl, insertInOrder_ahead ha]
    · simp only [t, hstay hw, seqOf_setSeq_self, q]
  refine ⟨?frame, fun d hd => insertRecord_seqOf_of_ne c r s d hd, ?perm, ?order, fun hw => ?withdrawn, fun hw => ?kept⟩
  case frame =>
    by_cases hw : Withdraws s c r
    · simp only [t, hwith hw, setSeq]
    · simp only [t, hstay hw, setSeq]
  case perm =>
    rw [hlist]
    exact insertInOrder_perm s r q.list
  case order =>
    rw [hlist]
    exact insertInOrder_ordered s r q.list hstand hord hapart
  case withdrawn =>
    simp only [t, hwith (hiff.2 hw), seqOf_setSeq_self]
    rfl
  case kept =>
    simp only [t, hstay (mt hiff.1 hw), seqOf_setSeq_self]
    rfl

end Sys2Proof.Machine

/-! ## Proofs: the settlement of a body and a loss of service (04) -/

namespace Sys2Proof.Machine

/-! ### What a settlement reads (R65 to R69) -/

theorem settle_of_vacant {c : ChanNo} {k : Nat} {s : State} (hk : bodyAt s k = none) : settle c k s = s := by
  simp only [settle, hk]

theorem settle_of_settled {c : ChanNo} {k : Nat} {s : State} {b : Body} (hk : bodyAt s k = some b)
    (hb : b.passedOver = true ∨ inMask b.resolved c = true) : settle c k s = s := by
  simp only [settle, hk]
  exact if_pos (Bool.or_eq_true _ _ ▸ hb)

/-- A body that is settled: alone, or with the partner. -/
theorem settle_of_open {c : ChanNo} {k : Nat} {s : State} {b : Body} (hk : bodyAt s k = some b)
    (hpass : b.passedOver = false) (hres : inMask b.resolved c = false) :
    (partner s c = none → settle c k s = settleAlone c b s) ∧
    ∀ p, partner s c = some p →
      settle c k s = if inMask b.resolved p = true then settleAlone c b s else settlePair c p b s := by
  have hopen : (b.passedOver || inMask b.resolved c) = false := by rw [hpass, hres]; rfl
  refine ⟨fun hp => ?_, fun p hp => ?_⟩ <;> simp only [settle, hk, hopen, hp, Bool.false_eq_true, if_false]

/-! ### The programs of a body in its bound bank (R23, R66) -/

/-- R66: the entry's variant is chosen. -/
theorem ownWork_eq (e : Entry) (options : BitVec 4) :
    e.ownWork options =
      if e.option ≠ 0 ∧ options.getLsbD (e.option.val - 1) = true ∧ e.variant ≠ 0 then
        (e.variant, e.variantSpots, .variant)
      else (e.base, e.baseSpots, .own) := by
  have hsel : (e.selected options && e.variant != 0) = true ↔
      e.option ≠ 0 ∧ options.getLsbD (e.option.val - 1) = true ∧ e.variant ≠ 0 := by
    simp only [Entry.selected, Bool.and_eq_true, bne_iff_ne, ne_eq, Fin.val_eq_zero_iff, and_assoc]
  rw [Entry.ownWork]
  simp only [hsel]

/-- The records a settlement makes depend on the bound bank alone. -/
theorem ownRecord_of_bank {s t : State} (hb : t.bank = s.bank) (b : Body) (c : ChanNo) :
    ownRecord t b c = ownRecord s b c := by
  have he : entryFor t b c = entryFor s b c := by rw [entryFor, hb, ← entryFor]
  simp only [ownRecord, he]

/-- A channel that receives nothing is marked the same after lists and marks have changed. -/
theorem settleIdle_of_listsAndMarks {s u : State} (hu : ListsAndMarks s u) (x : ChanNo) (b : Body) :
    settleIdle x b u =
      if present s x then mark (if (ownRecord s b x).isSome then .owed else .resolved) (chanBit x) b.id u else u := by
  have hbank : u.bank = s.bank := by rw [hu.eq]
  have hpresent : present u x = present s x := by rw [hu.eq]; rfl
  rw [settleIdle, ownRecord_of_bank hbank, hpresent]
  cases (ownRecord s b x).isSome <;> rfl

/-- R67, with one mark for the channel that receives nothing. -/
theorem settleAlone_eq (c : ChanNo) (b : Body) (s : State) :
    settleAlone c b s =
      if available s c then mark .resolved (chanBit c) b.id (giveRecord c (ownRecord s b c) s)
      else mark (if (ownRecord s b c).isSome then .owed else .resolved) (chanBit c) b.id s := by
  rw [settleAlone]
  cases (ownRecord s b c).isSome <;> rfl

/-- R68, second to fourth row: the cover is made where there is work to cover and a backup program. -/
theorem settleCover_of_cover {s : State} {b : Body} {a x : ChanNo} {cv : Dispatch}
    (hw : (ownRecord s b x).isSome = true) (hc : coverRecord s b a x = some cv) :
    settleCover a x b s = mark .resolved (chanBit a ||| chanBit x) b.id (insertRecord a cv s) := by
  obtain ⟨w, hw⟩ := Option.isSome_iff_exists.1 hw
  simp only [settleCover, hw, hc]

theorem settleCover_of_none {s : State} {b : Body} {a x : ChanNo}
    (h : ownRecord s b x = none ∨ coverRecord s b a x = none) :
    settleCover a x b s =
      settleIdle x b (mark .resolved (chanBit a) b.id (giveRecord a (ownRecord s b a) s)) := by
  unfold settleCover
  split
  case h_1 w cv hw hc =>
    rcases h with h | h
    · rw [h] at hw
      cases hw
    · rw [h] at hc
      cases hc
  case h_2 => rfl

/-- Settles O42: the settlement by what the body, the pair and the bound bank say, with the records that R66 and R68
give. -/
theorem bodiesAreSettled : Obligations.BodiesAreSettled := by
  refine fun c k s => ⟨settle_of_vacant, fun b => settle_of_settled, fun b hk hstyle hpass hres => ?_⟩
  intro entry variant work cover give verdict idle alone
  have hentry : ∀ x, entryFor s b x = entry x := fun x => entryFor_eq s b x hstyle
  have hwork : ∀ x, ownRecord s b x = work x := by
    intro x
    simp only [ownRecord, hentry, ownWork_eq, work, variant, decide_eq_true_eq]
    split <;> rfl
  have hcover : ∀ a x, coverRecord s b a x = if (entry a).backup = 0 then none else some (cover a x) := by
    intro a x
    simp only [coverRecord, hentry, cover]
  have hgive : ∀ x u, giveRecord x (ownRecord s b x) u = give x u := by
    intro x u
    rw [hwork]
    rfl
  have hidle : ∀ x u, ListsAndMarks s u → settleIdle x b u = idle x u := by
    intro x u hu
    rw [settleIdle_of_listsAndMarks hu, hwork]
  have halone : settleAlone c b s = alone := by
    rw [settleAlone_eq, hgive, hwork]
  obtain ⟨hsingle, hpair⟩ := settle_of_open hk hpass hres
  refine ⟨fun hp => (hsingle hp).trans halone, fun p hp => ⟨fun hr => ?resolved, fun hr => ?together⟩⟩
  case resolved => rw [hpair p hp, if_pos hr, halone]
  have hpair : settle c k s = settlePair c p b s := by rw [hpair p hp, hr]; rfl
  refine ⟨fun hc hpa => ?both, fun a x hax ha hx => ?one, fun hc hpa => ?neither⟩
  case both =>
    rw [hpair, settlePair, hc, hpa]
    simp only [hgive]
  case one =>
    have hone : settle c k s = settleCover a x b s := by
      rcases hax with ⟨rfl, rfl⟩ | ⟨rfl, rfl⟩ <;> rw [hpair, settlePair, ha, hx]
    refine ⟨fun hw hbackup => ?_, fun hnone => ?_⟩
    · rw [hone]
      exact settleCover_of_cover (by rwa [hwork]) ((hcover a x).trans (if_neg hbackup))
    · have hmarks : ListsAndMarks s (mark .resolved (chanBit a) b.id (giveRecord a (ownRecord s b a) s)) :=
        (giveRecord_listsAndMarks _ _ _).trans (mark_listsAndMarks _ _ _ _)
      rw [hone, settleCover_of_none, hidle _ _ hmarks, hgive]
      exact hnone.imp (hwork x).trans fun hb => (hcover a x).trans (if_pos hb)
  case neither =>
    have hmarks : ListsAndMarks s (settleIdle c b s) := settleIdle_listsAndMarks c b s
    rw [hpair, settlePair, hc, hpa]
    dsimp only
    rw [hidle _ _ hmarks, hidle _ _ (.refl s)]

/-! ### A job on the head record -/

/-- The job that runs on the head record, and its body. -/
theorem Seq.headJob_eq_some_iff {q : Seq} {id : Nat} {ph : JobPhase} :
    q.headJob id = some ph ↔ ∃ n y ys, q.job = some (.body ph n) ∧ q.list = y :: ys ∧ y.body = id := by
  constructor
  · intro h
    obtain ⟨n, y, ys, hj, hl⟩ := Seq.headJob_some h
    refine ⟨n, y, ys, hj, hl, ?_⟩
    by_contra hne
    simp [Seq.headJob, hj, hl, hne] at h
  · rintro ⟨n, y, ys, hj, hl, hid⟩
    simp [Seq.headJob, hj, hl, hid]

theorem Seq.holds_iff {q : Seq} {id : Nat} : q.holds id = true ↔ ∃ y ∈ q.list, y.body = id := by
  simp [Seq.holds]

/-! ### A loss of service (R72 to R75) -/

/-- What stays of the sequencer of a channel that loses service. -/
def lostSeq (q : Seq) (kind : Loss) : Seq :=
  match q.job, q.list, kind with
  | some (.body .running _), r :: _, .orderly => { q with list := [r] }
  | some (.body _ _), _, _ => { q.withdraw with list := [] }
  | some (.orphan _ _ _ _), _, .failed => { q.withdraw with list := [] }
  | _, _, _ => { q with list := [] }

/-- The records whose work leaves the channel: all but a RUNNING one. -/
def movedWork (q : Seq) : List Dispatch :=
  match q.job, q.list with
  | some (.body .running _), _ :: rest => rest
  | _, l => l

/-- The state from which the work is placed: the sequencer as it stays, and the RUNNING record owed under a FAILED loss. -/
def afterLoss (x : ChanNo) (kind : Loss) (s : State) : State :=
  let u := setSeq x (lostSeq (seqOf s x) kind) s
  match (seqOf s x).job, (seqOf s x).list, kind with
  | some (.body .running _), r :: _, .failed => mark .owed r.accounts r.body u
  | _, _, _ => u

theorem loseService_eq_placeAll (x : ChanNo) (kind : Loss) (s : State) :
    loseService x kind s = placeAll x (movedWork (seqOf s x)) (afterLoss x kind s) := by
  simp only [loseService, movedWork, afterLoss, lostSeq]
  generalize seqOf s x = q
  obtain ⟨list, job, _, _, _, _, _⟩ := q
  rcases job with _ | ⟨_ | _ | _, _⟩ | _ | _ <;> cases list <;> cases kind <;> rfl

theorem afterLoss_listsAndMarks (x : ChanNo) (kind : Loss) (s : State) : ListsAndMarks s (afterLoss x kind s) := by
  unfold afterLoss
  dsimp only
  split
  · exact (setSeq_listsAndMarks _ _ _).trans (mark_listsAndMarks _ _ _ _)
  · exact setSeq_listsAndMarks _ _ _

theorem afterLoss_seqs (x : ChanNo) (kind : Loss) (s : State) :
    (afterLoss x kind s).seqs = (setSeq x (lostSeq (seqOf s x) kind) s).seqs := by
  unfold afterLoss
  dsimp only
  split <;> rfl

/-- A loss of service leaves its own channel the sequencer above, and reaches no other but the partner's. -/
theorem loseService_seqOf_of_ne {x d : ChanNo} {s : State} (hd : d ≠ x) (hp : partner s x ≠ some d) (kind : Loss) :
    seqOf (loseService x kind s) d = seqOf s d := by
  have hpartner := listsAndMarks_partner (afterLoss_listsAndMarks x kind s) x
  rw [loseService_eq_placeAll, placeAll_seqOf _ _ _ _ (hpartner ▸ hp), seqOf, afterLoss_seqs]
  exact seqOf_setSeq_of_ne hd _ _

theorem loseService_seqOf_self {x : ChanNo} {s : State} (hp : partner s x ≠ some x) (kind : Loss) :
    seqOf (loseService x kind s) x = lostSeq (seqOf s x) kind := by
  have hpartner := listsAndMarks_partner (afterLoss_listsAndMarks x kind s) x
  rw [loseService_eq_placeAll, placeAll_seqOf _ _ _ _ (hpartner ▸ hp), seqOf, afterLoss_seqs]
  exact seqOf_setSeq_self _ _ _

/-! ### Where the work of a record goes (R76) -/

theorem placeWork_of_none {x : ChanNo} {r : Dispatch} {s : State} (h : partner s x = none ∨ bodyOf s r.body = none) :
    placeWork x r s = mark .owed r.accounts r.body s := by
  unfold placeWork
  split
  case h_1 b p hb hp =>
    rcases h with h | h
    · rw [h] at hp
      cases hp
    · rw [h] at hb
      cases hb
  case h_2 => rfl

/-- The partner cannot take the work: it is not available, it runs on the body, or it is done with it. -/
def CoverBarred (s : State) (p : ChanNo) (b : Body) (r : Dispatch) : Prop :=
  available s p = false ∨
    (∃ n y ys, (seqOf s p).job = some (.body .running n) ∧ (seqOf s p).list = y :: ys ∧ y.body = r.body) ∨
    inMask b.done p = true

/-- R76: the work becomes the partner's COVER record where nothing bars it and there is a backup program. -/
theorem placeWork_eq {x p : ChanNo} {r : Dispatch} {s : State} {b : Body} (hp : partner s x = some p)
    (hb : bodyOf s r.body = some b) :
    (CoverBarred s p b r ∨ coverRecord s b p x = none → placeWork x r s = mark .owed r.accounts r.body s) ∧
    ∀ cv, ¬CoverBarred s p b r → coverRecord s b p x = some cv →
      placeWork x r s = if (seqOf s p).holds r.body then replaceRecord p cv s else insertRecord p cv s := by
  have hruns : runningOn s p r.body = true ↔
      ∃ n y ys, (seqOf s p).job = some (.body .running n) ∧ (seqOf s p).list = y :: ys ∧ y.body = r.body := by
    rw [runningOn, beq_iff_eq, Seq.headJob_eq_some_iff]
  have hbar : CoverBarred s p b r ↔
      available s p = false ∨ (runningOn s p r.body || inMask b.done p) = true := by
    rw [Bool.or_eq_true, hruns, CoverBarred]
  simp only [hbar, placeWork, hb, hp]
  cases ha : available s p
  · simp
  · cases hc : coverRecord s b p x with
    | none => simp
    | some cv =>
      cases hr : runningOn s p r.body || inMask b.done p
      · simp
      · simp

/-! ### A record in the place of another -/

/-- R76 case 4: the records for the body are replaced, and a job on the head that is one of them is withdrawn. -/
theorem replaceRecord_eq (p : ChanNo) (r : Dispatch) (s : State) :
    let q := seqOf s p
    let list := q.list.map fun y => if y.body = r.body then r else y
    let onHead := ∃ ph n y ys, q.job = some (.body ph n) ∧ q.list = y :: ys ∧ y.body = r.body
    (onHead → replaceRecord p r s = setSeq p ({ q with list := list }).withdraw s) ∧
    (¬onHead → replaceRecord p r s = setSeq p { q with list := list } s) := by
  intro q list onHead
  have hhead : (q.headJob r.body).isSome = true ↔ onHead := by
    simp only [Option.isSome_iff_exists, Seq.headJob_eq_some_iff, onHead]
  exact ⟨fun ho => if_pos (hhead.2 ho), fun ho => if_neg (mt hhead.1 ho)⟩

/-- Settles O43: the loss, the place of each record's work, and the record a COVER record replaces. -/
theorem lossOfServiceMovesWork : Obligations.LossOfServiceMovesWork := by
  refine ⟨fun x kind s => ?loss, fun x r s => ⟨placeWork_of_none, fun p b hp hb => ?place⟩, replaceRecord_eq⟩
  case loss =>
    have hmarks := loseService_listsAndMarks x kind s
    refine ⟨rfl, hmarks.eq, hmarks.bodies, fun hself => ⟨fun d hd hp => ?others, ?own⟩⟩
    case others => exact loseService_seqOf_of_ne hd hp kind
    case own =>
      exact (loseService_seqOf_self hself kind).trans rfl
  case place =>
    obtain ⟨howed, hcover⟩ := placeWork_eq hp hb
    intro running held
    refine ⟨fun hh => howed (.inl hh), fun hstyle => ?_⟩
    intro e cover
    have hrec : coverRecord s b p x = if e.backup = 0 then none else some cover := by
      simp only [coverRecord, entryFor_eq s b p hstyle, cover, e]
    refine ⟨fun hbackup => howed (.inr (hrec.trans (if_pos hbackup))), fun hh hbackup hholds => ?_,
      fun hh hbackup hnone => ?_⟩
    · rw [hcover cover hh (hrec.trans (if_neg hbackup)), if_pos (Seq.holds_iff.2 hholds)]
    · rw [hcover cover hh (hrec.trans (if_neg hbackup)), if_neg]
      rw [Seq.holds_iff]
      exact fun ⟨y, hy, hid⟩ => hnone y hy hid

end Sys2Proof.Machine

/-! ## Proofs: the selection opportunity and the reply that becomes stable (05) -/

namespace Sys2Proof.Machine

/-! ### What starts at an opportunity (R93, R123) -/

theorem headUpstream_iff (s : State) (c : ChanNo) :
    headUpstream s c = true ↔ (seqOf s c).list = [] ∨
      ∃ x xs k, (seqOf s c).list = x :: xs ∧ stationOf s x.body = some k ∧ k < (chanRec s c).station := by
  unfold headUpstream
  cases hl : (seqOf s c).list with
  | nil => simp
  | cons x xs => cases hk : stationOf s x.body <;> simp [hk]

/-- R93: the channel may take a maintenance job. -/
def MayMaintain (s : State) (c : ChanNo) : Prop :=
  (chanRec s c).failed = none ∧ (chanRec s c).out = false ∧ headUpstream s c = true

theorem maintChoice_of_not_may {s : State} {c : ChanNo} (hm : ¬MayMaintain s c) : maintChoice s c = none := by
  refine if_neg fun h => hm ?_
  simpa [MayMaintain, and_assoc] using h

theorem maintChoice_of_may {s : State} {c : ChanNo} (hm : MayMaintain s c) : maintChoice s c = dueOffer s c := by
  refine if_pos ?_
  simpa [MayMaintain, and_assoc] using hm

/-- The job of each gun is offered while the gun is counted and due and its program is not 0, gun 1 first. -/
theorem dueOffer_eq (s : State) (c : ChanNo) :
    dueOffer s c =
      if (wearOf s c).gun1.due = true ∧ (wearOf s c).gun1.offer.2 ≠ 0 then some (.gun1, (wearOf s c).gun1.offer)
      else if (chanRec s c).twoGuns = true ∧ (wearOf s c).gun2.due = true ∧ (wearOf s c).gun2.offer.2 ≠ 0 then
        some (.gun2, (wearOf s c).gun2.offer)
      else none := by
  simp only [dueOffer, Bool.and_eq_true, bne_iff_ne, and_assoc]

/-- The opportunity that is taken: in RUN, by a present channel in phase IDLE. -/
theorem opportunity_of_not {c : ChanNo} {s : State}
    (h : ¬(s.node.state = .run ∧ present s c = true ∧ (seqOf s c).job = none)) : opportunity c s = s :=
  if_neg h

theorem opportunity_of_maint {c : ChanNo} {s : State} {g : Gun} {kind : Maint} {program : Byte}
    (h : s.node.state = .run ∧ present s c = true ∧ (seqOf s c).job = none)
    (hm : maintChoice s c = some (g, kind, program)) : opportunity c s = startMaint c g kind program s := by
  rw [opportunity, if_pos h]
  simp only [hm]

/-- Without a maintenance job the head record decides. -/
theorem opportunity_of_head {c : ChanNo} {s : State} {x : Dispatch} {xs : List Dispatch}
    (h : s.node.state = .run ∧ present s c = true ∧ (seqOf s c).job = none) (hm : maintChoice s c = none)
    (hl : (seqOf s c).list = x :: xs) : opportunity c s = if available s c then startBody c x s else s := by
  rw [opportunity, if_pos h]
  simp only [hm, hl]

theorem opportunity_of_empty {c : ChanNo} {s : State}
    (h : s.node.state = .run ∧ present s c = true ∧ (seqOf s c).job = none) (hm : maintChoice s c = none)
    (hl : (seqOf s c).list = []) : opportunity c s = s := by
  rw [opportunity, if_pos h]
  simp only [hm, hl]

/-- R94: the job that starts on an offer, with its command. -/
theorem startMaint_offer (c : ChanNo) (g : Gun) (x : GunRec) (s : State) :
    startMaint c g x.offer.1 x.offer.2 s =
      let program : Byte := if x.offersCap then x.capProgram else x.dressProgram
      setSeq c { seqOf s c with
        job := some (.maint .selecting (if x.offersCap then .cap else .dress) g program (nextSel (seqOf s c).cmd.sel))
        watchCount := 0
        cmd := { program := program, sel := nextSel (seqOf s c).cmd.sel, kind := if x.offersCap then .cap else .dress
                 gun := g, boost := 0, spots := 0, tag := 0, cover := false } } s := by
  rw [startMaint, startJob, offer_eq]
  cases x.offersCap <;> rfl

/-- Settles O44: nothing, the job of gun 1, the job of gun 2, a BODY job, nothing, in the order of R93. -/
theorem opportunityStartsJob : Obligations.OpportunityStartsJob := by
  intro c s q r w idle upstream cap program may first second n maint boost body
  have hmay : MayMaintain s c ↔ may := by
    simp only [MayMaintain, headUpstream_iff]
    rfl
  have hprogram : ∀ g : GunRec, g.offer.2 = program g := by
    intro g
    simp only [offer_eq, program]
    change (if g.offersCap then _ else _ : Maint × Byte).2 = if g.offersCap then _ else _
    cases g.offersCap <;> rfl
  have hdue := dueOffer_eq s c
  simp only [hprogram] at hdue
  have hnone : ¬first → ¬second → maintChoice s c = none := by
    intro hf hs
    by_cases hm : MayMaintain s c
    · have h1 : ¬(w.gun1.due = true ∧ program w.gun1 ≠ 0) := fun h => hf ⟨hmay.1 hm, h⟩
      have h2 : ¬(r.twoGuns = true ∧ w.gun2.due = true ∧ program w.gun2 ≠ 0) := fun h => hs ⟨hmay.1 hm, hf, h⟩
      rw [maintChoice_of_may hm, hdue, if_neg h1, if_neg h2]
    · exact maintChoice_of_not_may hm
  refine ⟨opportunity_of_not, fun hi hf => ?gun1, fun hi hs => ?gun2, fun hi hf hs ha x xs hl => ?body,
    fun hi hf hs hno => ?nothing⟩
  case gun1 =>
    obtain ⟨hm, hd, hp⟩ := hf
    have hchoice : maintChoice s c = some (.gun1, w.gun1.offer) := by
      rw [maintChoice_of_may (hmay.2 hm), hdue, if_pos ⟨hd, hp⟩]
    exact (opportunity_of_maint hi hchoice).trans (startMaint_offer c .gun1 w.gun1 s)
  case gun2 =>
    obtain ⟨hm, hf, h2⟩ := hs
    have h1 : ¬(w.gun1.due = true ∧ program w.gun1 ≠ 0) := fun h => hf ⟨hm, h⟩
    have hchoice : maintChoice s c = some (.gun2, w.gun2.offer) := by
      rw [maintChoice_of_may (hmay.2 hm), hdue, if_neg h1, if_pos h2]
    exact (opportunity_of_maint hi hchoice).trans (startMaint_offer c .gun2 w.gun2 s)
  case body =>
    rw [opportunity_of_head hi (hnone hf hs) hl, if_pos ha]
    rfl
  case nothing =>
    cases hl : q.list with
    | nil => exact opportunity_of_empty hi (hnone hf hs) hl
    | cons x xs =>
      have ha : available s c = false := hno.resolve_right (by simp [hl])
      rw [opportunity_of_head hi (hnone hf hs) hl, ha]
      rfl

/-! ### Reading a reply (R87 to R89) -/

/-- A slot's check holds when its eight bytes cancel. -/
theorem slot_ok_iff (d : Data7) (ck : Byte) :
    ({ data := d, check := ck } : Slot).ok = true ↔ d.b0 ^^^ d.b1 ^^^ d.b2 ^^^ d.b3 ^^^ d.b4 ^^^ d.b5 ^^^ d.b6 ^^^ ck = 0 :=
  beq_iff_eq

/-- The codes above 5 are no reply state. -/
theorem replyState_eq_none_iff (d : Data7) : replyState d = none ↔ 6 ≤ (d.b1.extractLsb' 4 3).toNat := by
  have h := replyState_some_iff d
  rw [← Option.isSome_iff_exists, ← not_iff_not, Option.not_isSome_iff_eq_none] at h
  rw [h, not_lt]

theorem judgeReply_of_valid {n : Half} {k : Nat} {sl : Slot} {s : State} (hok : sl.ok = true)
    (hst : (sl.data.b1.extractLsb' 4 3).toNat < 6) : judgeReply n (some (k, sl)) s = (some sl.data, s) := by
  obtain ⟨x, hx⟩ := (replyState_some_iff sl.data).2 hst
  simp only [judgeReply, hok, hx, if_true]

theorem judgeReply_of_invalidState {n : Half} {k : Nat} {sl : Slot} {s : State} (hok : sl.ok = true)
    (hst : 6 ≤ (sl.data.b1.extractLsb' 4 3).toNat) :
    judgeReply n (some (k, sl)) s =
      (none, logError { kind := .invalidState, sweep := n, slot := k, pass := .back, raw := sl } s) := by
  simp only [judgeReply, hok, (replyState_eq_none_iff _).2 hst, if_true]

theorem judgeReply_of_check {n : Half} {k : Nat} {sl : Slot} {s : State} (hok : sl.ok ≠ true) :
    judgeReply n (some (k, sl)) s =
      (none, logError { kind := .slotCheck, sweep := n, slot := k, pass := .back, raw := sl } s) :=
  if_neg hok

/-- The reply becomes the stable one: a candidate that differs from it. -/
theorem isCandidate_iff (h : Option History) (n : Half) (d : Data7) :
    isCandidate h n d = true ↔ ∃ m, h = some { sweep := m, reply := some d } ∧ n = m + 1 := by
  rcases h with _ | ⟨m, r⟩
  · simp [isCandidate]
  · simp [isCandidate, and_comm]

/-- Settles O45: the judgement of the slot, and the history with what becomes stable. -/
theorem replyBecomesStable : Obligations.ReplyBecomesStable := by
  refine ⟨fun n s => ⟨rfl, fun k d ck => ?judge⟩, fun c n reply s => ?stable⟩
  case judge =>
    intro clean state sl logged
    have hok : sl.ok = true ↔ clean := slot_ok_iff d ck
    exact ⟨fun hc hst => judgeReply_of_valid (hok.2 hc) hst, fun hc hst => judgeReply_of_invalidState (hok.2 hc) hst,
      fun hc => judgeReply_of_check (mt hok.1 hc)⟩
  case stable =>
    intro q fresh kept
    have hfresh : ∀ d, (isCandidate q.history n d && q.stable != some d) = true ↔ fresh d := by
      intro d
      rw [Bool.and_eq_true, isCandidate_iff, bne_iff_ne, and_comm]
    refine ⟨fun d hd hf => ?_, fun hf => ?_⟩
    · subst hd
      exact if_pos ((hfresh d).2 hf)
    · cases reply with
      | none => rfl
      | some d => exact if_neg (mt (hfresh d).1 (hf d rfl))

end Sys2Proof.Machine

/-! ## Proofs: what a stable reply does (05) -/

namespace Sys2Proof.Machine

/-! ### Which replies are acted on (R95 to R103) -/

/-- The defined codes of a reply state. -/
theorem replyState_of_code {d : Data7} {x : ReplyState} {n : Nat} (hd : (d.b1.extractLsb' 4 3).toNat = n)
    (hx : [ReplyState.none, .idle, .loaded, .busy, .done, .fault][n]? = some x) : replyState d = some x := by
  rw [replyState, hd]
  match n, hx with
  | 0, hx | 1, hx | 2, hx | 3, hx | 4, hx | 5, hx => exact hx

/-- A code below 5 is a state other than FAULT. -/
theorem replyState_of_lt_five {d : Data7} (hd : (d.b1.extractLsb' 4 3).toNat < 5) :
    ∃ x, replyState d = some x ∧ x ≠ .fault := by
  rw [replyState]
  generalize (d.b1.extractLsb' 4 3).toNat = n at hd
  match n, hd with
  | 0, _ | 1, _ | 2, _ | 3, _ | 4, _ => exact ⟨_, rfl, by decide⟩

theorem actOn_of_undefined {d : Data7} (hd : 5 < (d.b1.extractLsb' 4 3).toNat) (c : ChanNo) (s : State) :
    actOn c d s = s := by
  rw [actOn, (replyState_eq_none_iff d).2 (by omega)]

theorem actOn_of_none {d : Data7} (hd : replyState d = some .none) (c : ChanNo) (s : State) : actOn c d s = s := by
  rw [actOn, hd]

theorem actOn_of_fault {d : Data7} (hd : replyState d = some .fault) (c : ChanNo) (s : State) :
    actOn c d s = reportFailure c (.robotFault d.b4) s := by
  rw [actOn, hd]

/-- A reply in any other state acts on the current job, if it echoes its selection number. -/
theorem actOn_of_job {d : Data7} {x : ReplyState} (hd : replyState d = some x) (h0 : x ≠ .none) (h5 : x ≠ .fault)
    (c : ChanNo) (s : State) :
    actOn c d s = match (seqOf s c).job with
      | some j => if selEcho d = j.sel then actMatching c j d x s else s
      | none => s := by
  rw [actOn, hd]
  cases x
  case none => exact absurd rfl h0
  case fault => exact absurd rfl h5
  case idle | loaded | busy | done => rfl

theorem actOn_of_noJob {d : Data7} {c : ChanNo} {s : State} (hd : (d.b1.extractLsb' 4 3).toNat < 5)
    (hj : (seqOf s c).job = none) : actOn c d s = s := by
  obtain ⟨x, hx, h5⟩ := replyState_of_lt_five hd
  by_cases h0 : x = .none
  · exact actOn_of_none (h0 ▸ hx) c s
  · rw [actOn_of_job hx h0 h5, hj]

theorem actOn_of_stale {d : Data7} {c : ChanNo} {s : State} {j : Job} (hd : (d.b1.extractLsb' 4 3).toNat < 5)
    (hj : (seqOf s c).job = some j) (hsel : selEcho d ≠ j.sel) : actOn c d s = s := by
  obtain ⟨x, hx, h5⟩ := replyState_of_lt_five hd
  by_cases h0 : x = .none
  · exact actOn_of_none (h0 ▸ hx) c s
  · rw [actOn_of_job hx h0 h5, hj]
    exact if_neg hsel

/-! ### What it does in each phase -/

/-- A reply that echoes the job's number, by its code. -/
theorem actOn_of_match {d : Data7} {c : ChanNo} {s : State} {j : Job} (hj : (seqOf s c).job = some j)
    (hsel : selEcho d = j.sel) {x : ReplyState} {n : Nat} (hd : (d.b1.extractLsb' 4 3).toNat = n)
    (hx : [ReplyState.none, .idle, .loaded, .busy, .done, .fault][n]? = some x) (h0 : x ≠ .none) (h5 : x ≠ .fault) :
    actOn c d s = actMatching c j d x s := by
  rw [actOn_of_job (replyState_of_code hd hx) h0 h5, hj]
  exact if_pos hsel

theorem actMatching_of_selecting {j : Job} (hp : j.phase = .selecting) (c : ChanNo) (d : Data7) (x : ReplyState)
    (s : State) : actMatching c j d x s = actSelecting c d x s :=
  if_pos hp

theorem actMatching_of_not_selecting {j : Job} (hp : j.phase ≠ .selecting) (c : ChanNo) (d : Data7) (s : State) :
    actMatching c j d .idle s = s ∧ actMatching c j d .loaded s = s ∧
    actMatching c j d .busy s = actBusyJob c d s j ∧ actMatching c j d .done s = actDoneJob c d s j :=
  ⟨if_neg hp, if_neg hp, if_neg hp, if_neg hp⟩

/-- The job of a channel moved to a phase. -/
theorem movePhase_of_job {c : ChanNo} {s : State} {j : Job} (hj : (seqOf s c).job = some j) (ph : JobPhase) :
    movePhase c ph s = setSeq c { seqOf s c with job := some (j.toPhase ph) } s := by
  rw [movePhase, hj]
  rfl

/-- R95: in SELECTING the echoed program decides. -/
theorem actSelecting_of_differs {c : ChanNo} {d : Data7} {s : State} (hd : d.b0 ≠ (seqOf s c).cmd.program)
    {x : ReplyState} (hx : x = .loaded ∨ x = .busy ∨ x = .done) :
    actSelecting c d x s = reportFailure c (.protocol .program) s := by
  have hne : (d.b0 == (seqOf s c).cmd.program) = false := beq_eq_false_iff_ne.2 hd
  rcases hx with rfl | rfl | rfl <;> simp only [actSelecting, hne, Bool.false_eq_true, if_false]

theorem actSelecting_of_same {c : ChanNo} {d : Data7} {s : State} (hd : d.b0 = (seqOf s c).cmd.program) :
    actSelecting c d .loaded s = movePhase c .loaded s ∧ actSelecting c d .busy s = s ∧ actSelecting c d .done s = s := by
  simp only [actSelecting, hd, beq_self_eq_true, if_true, and_self]

/-- R97: in LOADED a BUSY moves the job on, unless its checks fail. -/
theorem actBusy_of_differs {c : ChanNo} {d : Data7} {s : State} (hd : d.b0 ≠ (seqOf s c).cmd.program) (placed : Bool) :
    actBusy c d placed s = reportFailure c (.protocol .program) s :=
  if_pos (bne_iff_ne.2 hd)

theorem actBusy_of_same {c : ChanNo} {d : Data7} {s : State} (hd : d.b0 = (seqOf s c).cmd.program) (placed : Bool) :
    actBusy c d placed s = if placed then movePhase c .running s else reportFailure c (.protocol .position) s := by
  have hne : ¬(d.b0 != (seqOf s c).cmd.program) = true := by simp [hd]
  rw [actBusy, if_neg hne]
  cases placed <;> rfl

theorem headAtStation_iff (s : State) (c : ChanNo) :
    headAtStation s c = true ↔
      ∃ r rest, (seqOf s c).list = r :: rest ∧ stationOf s r.body = some (chanRec s c).station := by
  unfold headAtStation
  cases (seqOf s c).list <;> simp

/-- The byte by which a reply echoes a gun. -/
def gunByte : Gun → Byte
  | .gun1 => 0
  | .gun2 => 1

theorem gunEcho_eq_some_iff (d : Data7) (g : Gun) : gunEcho d = some g ↔ d.b3 = gunByte g := by
  unfold gunEcho
  by_cases h0 : d.b3 = 0
  · rw [if_pos h0, h0]
    cases g <;> simp [gunByte]
  · rw [if_neg h0]
    by_cases h1 : d.b3 = 1
    · rw [if_pos h1, h1]
      cases g <;> simp [gunByte]
    · rw [if_neg h1]
      cases g with
      | gun1 => exact iff_of_false (by simp) h0
      | gun2 => exact iff_of_false (by simp) h1

/-- R98: the checks of a DONE, in their order. -/
theorem doneCheck_eq (s : State) (c : ChanNo) (r : Dispatch) (d : Data7) :
    doneCheck s c r d =
      if d.b0 ≠ (seqOf s c).cmd.program then some .program
      else if headAtStation s c = false then some .position
      else if d.b5 ≠ loByte r.tag then some .tag
      else if d.b3 ≠ gunByte r.gun then some .gun
      else none := by
  simp only [doneCheck, bne_iff_ne, Bool.not_eq_true', ne_eq, gunEcho_eq_some_iff]

/-- R98, R104: a failed check of a DONE: the RUNNING job fails, the LOADED one as it stands or moved on (log 17). -/
theorem failDone_eq {c : ChanNo} {s : State} {ph : JobPhase} {n : BitVec 4}
    (hj : (seqOf s c).job = some (.body ph n)) (hph : ph ≠ .selecting) (x : Detail) :
    failDone c x s = reportFailure c (.protocol x) s ∨
      (ph = .loaded ∧
        failDone c x s = reportFailure c (.protocol x) (setSeq c { seqOf s c with job := some (.body .running n) } s)) := by
  unfold failDone
  split
  case isTrue =>
    have hmove := movePhase_of_job hj .running
    cases ph with
    | selecting => exact absurd rfl hph
    | loaded => exact .inr ⟨rfl, congrArg _ hmove⟩
    | running =>
      have hself : movePhase c .running s = s := by
        rw [hmove, show (some ((Job.body .running n).toPhase .running)) = (seqOf s c).job from hj.symm]
        exact setSeq_seqOf c s
      exact .inl (congrArg _ hself)
  case isFalse => exact .inl rfl

/-- A DONE on the head record: the first check that fails, or the completion. -/
theorem actDoneBody_of_failed {c : ChanNo} {d : Data7} {s : State} {r : Dispatch} {rest : List Dispatch} {x : Detail}
    (hl : (seqOf s c).list = r :: rest) (hx : doneCheck s c r d = some x) : actDoneBody c d s = failDone c x s := by
  simp only [actDoneBody, hl, hx]

theorem actDoneBody_of_passed {c : ChanNo} {d : Data7} {s : State} {r : Dispatch} {rest : List Dispatch}
    (hl : (seqOf s c).list = r :: rest) (hx : doneCheck s c r d = none) :
    actDoneBody c d s = completeBody c r d.b2 s := by
  simp only [actDoneBody, hl, hx]

/-- Settles O46: the reply by its state, then by the job's phase and kind. -/
theorem stableReplyActsByPhase : Obligations.StableReplyActsByPhase := by
  intro c d s q state same fails ignored moves ended
  refine ⟨fun hs => ?quiet, fun hs => actOn_of_fault (replyState_of_code hs rfl) c s, fun hs hj => actOn_of_noJob hs hj,
    fun j hj => ⟨fun hs hsel => actOn_of_stale hs hj hsel, fun hsel => ?echoed⟩⟩
  case quiet =>
    rcases hs with hs | hs
    · exact actOn_of_none (replyState_of_code hs rfl) c s
    · exact actOn_of_undefined hs c s
  have hidle : state = 1 → actOn c d s = actMatching c j d .idle s := fun hs =>
    actOn_of_match hj hsel hs rfl (by decide) (by decide)
  have hloaded : state = 2 → actOn c d s = actMatching c j d .loaded s := fun hs =>
    actOn_of_match hj hsel hs rfl (by decide) (by decide)
  have hbusy : state = 3 → actOn c d s = actMatching c j d .busy s := fun hs =>
    actOn_of_match hj hsel hs rfl (by decide) (by decide)
  have hdone : state = 4 → actOn c d s = actMatching c j d .done s := fun hs =>
    actOn_of_match hj hsel hs rfl (by decide) (by decide)
  have hphases : JobPhase.loaded ≠ .selecting ∧ JobPhase.running ≠ .selecting := by decide
  have hlater : j.phase ≠ .selecting → (state = 3 → actOn c d s = actBusyJob c d s j) ∧
      (state = 4 → actOn c d s = actDoneJob c d s j) := fun hp =>
    ⟨fun hs => (hbusy hs).trans (actMatching_of_not_selecting hp c d s).2.2.1,
     fun hs => (hdone hs).trans (actMatching_of_not_selecting hp c d s).2.2.2⟩
  refine ⟨fun hs => ?idle, fun hp => ⟨fun hlo hhi hne => ?differs, fun hs he => ?loaded, fun hlo hhi he => ?early⟩,
    fun hp hs => ?again, fun hp hs => ?running, fun hp hs hne => ?busyDiffers, fun n hn hs he => ?busyBody,
    fun k g p n hn hs he => ?busyMaint, fun ph n r rest hn hp hs hl => ?doneBody, fun p g t n hn hs => ?doneOrphan,
    fun ph k g p n hn hp hs => ?doneMaint⟩
  case idle =>
    by_cases hp : j.phase = .selecting
    · exact (hidle hs).trans (actMatching_of_selecting hp c d .idle s)
    · exact (hidle hs).trans (actMatching_of_not_selecting hp c d s).1
  case differs =>
    have hcases : state = 2 ∨ state = 3 ∨ state = 4 := by omega
    rcases hcases with hs | hs | hs
    · exact (hloaded hs).trans ((actMatching_of_selecting hp ..).trans (actSelecting_of_differs hne (.inl rfl)))
    · exact (hbusy hs).trans ((actMatching_of_selecting hp ..).trans (actSelecting_of_differs hne (.inr (.inl rfl))))
    · exact (hdone hs).trans ((actMatching_of_selecting hp ..).trans (actSelecting_of_differs hne (.inr (.inr rfl))))
  case loaded =>
    exact (hloaded hs).trans ((actMatching_of_selecting hp ..).trans
      ((actSelecting_of_same he).1.trans (movePhase_of_job hj .loaded)))
  case early =>
    have hcases : state = 3 ∨ state = 4 := by omega
    rcases hcases with hs | hs
    · exact (hbusy hs).trans ((actMatching_of_selecting hp ..).trans (actSelecting_of_same he).2.1)
    · exact (hdone hs).trans ((actMatching_of_selecting hp ..).trans (actSelecting_of_same he).2.2)
  case again => exact (hloaded hs).trans (actMatching_of_not_selecting hp c d s).2.1
  case running =>
    refine ((hlater (by rw [hp]; decide)).1 hs).trans ?_
    cases j with
    | body ph n => cases hp; rfl
    | orphan => rfl
    | maint ph => cases hp; rfl
  case busyDiffers =>
    refine ((hlater (by rw [hp]; decide)).1 hs).trans ?_
    cases j with
    | body ph n =>
      cases hp
      exact actBusy_of_differs hne _
    | orphan => cases hp
    | maint ph =>
      cases hp
      exact actBusy_of_differs hne _
  case busyBody =>
    subst hn
    intro placed
    have hact : actOn c d s = actBusy c d (headAtStation s c) s := (hlater hphases.1).1 hs
    rw [actBusy_of_same he] at hact
    refine ⟨fun hplaced => ?_, fun hplaced => ?_⟩
    · rw [(headAtStation_iff s c).2 hplaced] at hact
      exact hact.trans (movePhase_of_job hj .running)
    · rw [Bool.eq_false_iff.2 (mt (headAtStation_iff s c).1 hplaced)] at hact
      exact hact
  case busyMaint =>
    subst hn
    have hact : actOn c d s = actBusy c d true s := (hlater hphases.1).1 hs
    exact (hact.trans (actBusy_of_same he true)).trans (movePhase_of_job hj .running)
  case doneBody =>
    subst hn
    intro placed gun refused
    have hact : actOn c d s = actDoneBody c d s := (hlater hp).2 hs
    have hcheck := doneCheck_eq s c r d
    have hgunByte : gun ↔ d.b3 = gunByte r.gun := Iff.rfl
    have hplaced : headAtStation s c = false ↔ ¬placed := by
      rw [← Bool.not_eq_true, headAtStation_iff, show (seqOf s c).list = r :: rest from hl]
      simp [placed]
    have hrefused : ∀ x, doneCheck s c r d = some x → refused x := by
      intro x hx
      have hfail := hact.trans (actDoneBody_of_failed hl hx)
      rcases failDone_eq hj hp x with h | ⟨hph, h⟩
      · exact .inl (hfail.trans h)
      · exact .inr ⟨hph, hfail.trans h⟩
    refine ⟨fun hne => ?_, fun he hno => ?_, fun he hyes htag => ?_, fun he hyes htag hgun => ?_,
      fun he hyes htag hgun => ?_⟩
    · exact hrefused _ (hcheck.trans (if_pos hne))
    · rw [if_neg (not_not.2 he), if_pos (hplaced.2 hno)] at hcheck
      exact hrefused _ hcheck
    · rw [if_neg (not_not.2 he), if_neg (mt hplaced.1 (not_not.2 hyes)), if_pos htag] at hcheck
      exact hrefused _ hcheck
    · rw [if_neg (not_not.2 he), if_neg (mt hplaced.1 (not_not.2 hyes)), if_neg (not_not.2 htag),
        if_pos (mt hgunByte.2 hgun)] at hcheck
      exact hrefused _ hcheck
    · rw [if_neg (not_not.2 he), if_neg (mt hplaced.1 (not_not.2 hyes)), if_neg (not_not.2 htag),
        if_neg (not_not.2 (hgunByte.1 hgun))] at hcheck
      exact hact.trans (actDoneBody_of_passed hl hcheck)
  case doneOrphan =>
    subst hn
    exact (hlater hphases.2).2 hs
  case doneMaint =>
    subst hn
    have hact : actOn c d s = actDoneMaint c g k d s := (hlater hp).2 hs
    refine ⟨fun hne => ?_, fun he => ?_⟩
    · exact hact.trans (if_pos (bne_iff_ne.2 hne))
    · exact hact.trans (if_neg (by simpa using he))

end Sys2Proof.Machine

/-! ## Proofs: completions, failures and their limits (03, 05, 06) -/

namespace Sys2Proof.Machine

/-! ### A gun's record (R113, R120, R121, R124) -/

/-- A gun's record stored with its flags, the channel's factor and the ORDERLY loss, in a state `u` that agrees with
`s` on the channel's wear, its record and its availability. -/
def gunStored (s : State) (c : ChanNo) (g : Gun) (r : GunRec) (u : State) : State :=
  let w := (wearOf s c).put g (r.evaluated ((chanRec s c).counts g))
  let late := w.overdue (chanRec s c).twoGuns
  let v := setChan c { chanRec s c with overdue := late } (setWear c w u)
  if available s c = true ∧ late = true then loseService c .orderly v else v

theorem setGunRec_eq_gunStored {s u : State} {c : ChanNo} (hw : wearOf u c = wearOf s c) (hc : chanRec u c = chanRec s c)
    (ha : available u c = available s c) (g : Gun) (r : GunRec) : setGunRec c g r u = gunStored s c g r u := by
  rw [setGunRec_settled, hw, hc, ha]
  rfl

/-- Both guns are counted where gun 1 is meant or the channel has two. -/
theorem counts_eq (r : ChanRec) (g : Gun) : r.counts g = decide (g = .gun1 ∨ r.twoGuns = true) := by
  cases g <;> simp [ChanRec.counts]

/-- The flags of a stored record, spelt out. -/
theorem gunStored_eq (s : State) (c : ChanNo) (g : Gun) (r : GunRec) (u : State) :
    gunStored s c g r u =
      let counted := g = .gun1 ∨ (chanRec s c).twoGuns = true
      let r' : GunRec := { r with
        due := counted ∧ r.threshold ≠ 0 ∧ r.threshold.toNat ≤ r.weld.toNat
        overdue := counted ∧ r.threshold ≠ 0 ∧ min 65535 (r.threshold.toNat + r.grace.toNat) ≤ r.weld.toNat }
      let w := (wearOf s c).put g r'
      let late := w.gun1.overdue || ((chanRec s c).twoGuns && w.gun2.overdue)
      let v := setChan c { chanRec s c with overdue := late } (setWear c w u)
      if available s c = true ∧ late = true then loseService c .orderly v else v := by
  have hr : r.evaluated ((chanRec s c).counts g) = { r with
      due := (g = .gun1 ∨ (chanRec s c).twoGuns = true) ∧ r.threshold ≠ 0 ∧ r.threshold.toNat ≤ r.weld.toNat
      overdue := (g = .gun1 ∨ (chanRec s c).twoGuns = true) ∧ r.threshold ≠ 0 ∧
        min 65535 (r.threshold.toNat + r.grace.toNat) ≤ r.weld.toNat } := by
    rw [evaluated_eq, counts_eq]
    simp only [Bool.decide_and, Bool.and_assoc]
  rw [gunStored, hr]
  rfl

/-- Settles O47: a completion stores the gun's record, a BODY completion from the state with the mark and the job over. -/
theorem completionsWearGun : Obligations.CompletionsWearGun := by
  intro c s stored worn
  have hstored : ∀ g r u, stored g r u = gunStored s c g r u := fun g r u => (gunStored_eq s c g r u).symm
  have hown : ∀ g r, setGunRec c g r s = stored g r s := fun g r =>
    (setGunRec_eq_gunStored rfl rfl rfl g r).trans (hstored g r s).symm
  refine ⟨fun g spots => hown g _, fun g => ⟨hown g _, ?dress⟩, fun r rest spots hl => ?body⟩
  case dress =>
    rw [← satByte_eq]
    exact hown g _
  case body =>
    have htail : (seqOf s c).list.tail = rest := by rw [hl, List.tail_cons]
    rw [hstored, ← htail]
    exact setGunRec_eq_gunStored rfl rfl rfl _ _

/-! ### A failure (R51, R54, R104) -/

/-- A maintenance job, whatever its phase. -/
def Maintains (q : Seq) : Prop := ∃ ph k g p n, q.job = some (.maint ph k g p n)

theorem endMaintenance_of_maint {c : ChanNo} {s : State} (hm : Maintains (seqOf s c)) :
    endMaintenance c s = setSeq c (seqOf s c).withdraw s := by
  obtain ⟨ph, k, g, p, n, hj⟩ := hm
  rw [endMaintenance, hj]

theorem endMaintenance_of_not_maint {c : ChanNo} {s : State} (hm : ¬Maintains (seqOf s c)) : endMaintenance c s = s := by
  unfold endMaintenance
  split
  case h_1 ph k g p n hj => exact absurd ⟨ph, k, g, p, n, hj⟩ hm
  case h_2 => rfl

theorem takeFailure_of_first {c : ChanNo} {s : State} (hf : (chanRec s c).failed = none) (κ : Cause) :
    takeFailure c κ s =
      loseService c .failed (setChan c { chanRec s c with failed := some κ } (setAlarm .channelFailed s)) := by
  simp only [takeFailure, chanRec_setAlarm, hf]

theorem takeFailure_of_later {c : ChanNo} {s : State} (hf : (chanRec s c).failed.isSome = true) (κ : Cause) :
    takeFailure c κ s = setAlarm .channelFailed s := by
  obtain ⟨x, hx⟩ := Option.isSome_iff_exists.1 hf
  simp only [takeFailure, chanRec_setAlarm, hx]

/-- A FAILED loss empties the list, and leaves a maintenance job alone. -/
theorem lostSeq_failed_list (q : Seq) : (lostSeq q .failed).list = [] := by
  obtain ⟨list, job, _, _, _, _, _⟩ := q
  rcases job with _ | ⟨_ | _ | _, _⟩ | _ | _ <;> cases list <;> rfl

theorem lostSeq_of_noJob {q : Seq} (hj : q.job = none) (kind : Loss) : lostSeq q kind = { q with list := [] } := by
  obtain ⟨list, job, _, _, _, _, _⟩ := q
  cases hj
  rfl

theorem lostSeq_of_maint {q : Seq} (hm : Maintains q) (kind : Loss) : lostSeq q kind = { q with list := [] } := by
  obtain ⟨list, job, _, _, _, _, _⟩ := q
  obtain ⟨ph, k, g, p, n, rfl⟩ := hm
  rfl

theorem lostSeq_of_work {q : Seq} (hj : q.job ≠ none) (hm : ¬Maintains q) :
    lostSeq q .failed = { q.withdraw with list := [] } := by
  obtain ⟨list, job, _, _, _, _, _⟩ := q
  rcases job with _ | ⟨_ | _ | _, _⟩ | _ | ⟨ph, k, g, p, n⟩
  case none => exact absurd rfl hj
  case some.maint => exact absurd ⟨ph, k, g, p, n, rfl⟩ hm
  all_goals cases list <;> rfl

/-- The counts are set to 0 where the failure has ended the job. -/
theorem reportFailure_eq (c : ChanNo) (κ : Cause) (s : State) :
    let v := endMaintenance c (takeFailure c κ s)
    reportFailure c κ s =
      if (seqOf s c).job ≠ none ∧ (seqOf v c).job = none then
        setSeq c { seqOf v c with watchCount := 0, lossCount := 0 } v
      else v := by
  intro v
  have hjob : ((seqOf s c).job.isSome && (seqOf v c).job.isNone) = true ↔
      (seqOf s c).job ≠ none ∧ (seqOf v c).job = none := by
    rw [Bool.and_eq_true, Option.isSome_iff_ne_none, Option.isNone_iff_eq_none]
  simp only [reportFailure, ← hjob]
  rfl

/-- A sequencer without a job, stored over another of the same channel. -/
theorem setSeq_setSeq (c : ChanNo) (p q : Seq) (s : State) : setSeq c p (setSeq c q s) = setSeq c p s := by
  simp [setSeq]

/-- A failure that ends the job of `c`: from `v` the phase is IDLE with both counts 0 and the command `k`. -/
def jobFailed (c : ChanNo) (k : Command) (v : State) : State :=
  setSeq c { seqOf v c with job := none, watchCount := 0, lossCount := 0, cmd := k } v

/-- The sequencer ends its own maintenance job, or the loss has ended the job already. -/
theorem reportFailure_of_maint {c : ChanNo} {κ : Cause} {s u : State} (hu : takeFailure c κ s = u)
    (hj : (seqOf s c).job ≠ none) (hm : Maintains (seqOf u c)) :
    reportFailure c κ s = jobFailed c (idleCommand (seqOf u c).cmd.sel) u := by
  rw [reportFailure_eq, hu, endMaintenance_of_maint hm, seqOf_setSeq_self, if_pos ⟨hj, rfl⟩, setSeq_setSeq]
  rfl

theorem reportFailure_of_ended {c : ChanNo} {κ : Cause} {s u : State} (hu : takeFailure c κ s = u)
    (hj : (seqOf s c).job ≠ none) (he : (seqOf u c).job = none) :
    reportFailure c κ s = jobFailed c (seqOf u c).cmd u := by
  have hm : ¬Maintains (seqOf u c) := fun ⟨_, _, _, _, _, h⟩ => by rw [he] at h; cases h
  rw [reportFailure_eq, hu, endMaintenance_of_not_maint hm, if_pos ⟨hj, he⟩, jobFailed, ← he]

theorem reportFailure_of_kept {c : ChanNo} {κ : Cause} {s u : State} (hu : takeFailure c κ s = u)
    (hj : (seqOf u c).job = (seqOf s c).job) (hm : ¬Maintains (seqOf u c)) : reportFailure c κ s = u := by
  rw [reportFailure_eq, hu, endMaintenance_of_not_maint hm, if_neg]
  rw [hj]
  exact fun ⟨h, he⟩ => h he

/-- The first cause: the FAILED loss, and the end of any job. -/
theorem reportFailure_of_first {c : ChanNo} {κ : Cause} {s u : State} (hu : takeFailure c κ s = u)
    (hlost : seqOf u c = lostSeq (seqOf s c) .failed) :
    (seqOf (reportFailure c κ s) c).list = [] ∧
    ((seqOf s c).job = none → reportFailure c κ s = u) ∧
    ((seqOf s c).job ≠ none → reportFailure c κ s = jobFailed c (idleCommand (seqOf s c).cmd.sel) u) := by
  have hlist : (seqOf u c).list = [] := by
    rw [hlost]
    exact lostSeq_failed_list _
  have hnone : (seqOf s c).job = none → reportFailure c κ s = u := by
    intro hj
    have hseq : seqOf u c = { seqOf s c with list := [] } := by rw [hlost, lostSeq_of_noJob hj]
    have hm : ¬Maintains (seqOf u c) := fun ⟨_, _, _, _, _, h⟩ => by
      rw [hseq, hj] at h
      cases h
    exact reportFailure_of_kept hu (by rw [hseq]) hm
  have hsome : (seqOf s c).job ≠ none → reportFailure c κ s = jobFailed c (idleCommand (seqOf s c).cmd.sel) u := by
    intro hj
    by_cases hm : Maintains (seqOf s c)
    · have hseq : seqOf u c = { seqOf s c with list := [] } := by rw [hlost, lostSeq_of_maint hm]
      have hm' : Maintains (seqOf u c) := by rwa [hseq]
      have h := reportFailure_of_maint hu hj hm'
      rwa [hseq] at h
    · have hseq : seqOf u c = { (seqOf s c).withdraw with list := [] } := by rw [hlost, lostSeq_of_work hj hm]
      have h := reportFailure_of_ended hu hj (by rw [hseq]; rfl)
      rwa [hseq] at h
  refine ⟨?_, hnone, hsome⟩
  by_cases hj : (seqOf s c).job = none
  · rwa [hnone hj]
  · rw [hsome hj, jobFailed, seqOf_setSeq_self]
    exact hlist

/-! ### The two limits (R90, R96) -/

theorem selecting_iff (q : Seq) : q.selecting = true ↔ ∃ j, q.job = some j ∧ j.phase = .selecting := by
  unfold Seq.selecting
  cases q.job <;> simp

/-- Settles O48: the first cause and a later one, and the two events that report a failure at a limit. -/
theorem failureTakesChannelOut : Obligations.FailureTakesChannelOut := by
  refine ⟨fun c κ s => ?cause, fun c s hs => ?limits⟩
  case cause =>
    intro q a u ended maint
    have hended : ∀ v, ended v = jobFailed c (idleCommand q.cmd.sel) v := fun _ => rfl
    refine ⟨fun hf hp => ?first, fun hf => ⟨fun hm => ?later, fun hm => ?kept⟩⟩
    case first =>
      have hu : takeFailure c κ s = u := takeFailure_of_first hf κ
      have hlost : seqOf u c = lostSeq (seqOf s c) .failed := loseService_seqOf_self (s := setChan c _ a) hp .failed
      rw [hended, Option.isSome_iff_ne_none]
      exact reportFailure_of_first hu hlost
    case later =>
      have hjob : q.job ≠ none := fun h => by
        obtain ⟨_, _, _, _, _, hj⟩ := hm
        rw [hj] at h
        cases h
      exact reportFailure_of_maint (u := a) (takeFailure_of_later hf κ) hjob hm
    case kept => exact reportFailure_of_kept (u := a) (takeFailure_of_later hf κ) rfl hm
  case limits =>
    intro q v lost due
    have hloss : exec (.replyLossLimit c) s = .next (if 8 ≤ q.lossCount then replyLost c v else v) :=
      congrArg Host.Outcome.next (live_of_running hs _)
    have hselect : exec (.selectTimeout c) s = .next (if due then reportFailure c .selectTimeout v else v) := by
      refine (congrArg Host.Outcome.next (live_of_running hs _)).trans ?_
      simp only [selecting_iff, due]
      rfl
    refine ⟨fun hl => ?_, fun hl => ?_, fun hd => ?_, fun hd => ?_⟩
    · rw [hloss, if_pos hl]
      rfl
    · rw [hloss, if_neg (by omega)]
    · rw [hselect, if_pos hd]
    · rw [hselect, if_neg hd]

/-- A pass that hears the channel, and one that does not. -/
theorem heard_of_state {reply : Option Data7} {d : Data7} (hr : reply = some d) (h0 : (d.b1.extractLsb' 4 3).toNat ≠ 0) :
    heard reply = true := by
  have hne : replyState d ≠ some .none := by
    rw [replyState]
    split
    case h_1 hz => exact absurd hz h0
    all_goals simp
  subst hr
  simpa [heard] using hne

theorem heard_of_silent {reply : Option Data7} (hs : ∀ d, reply = some d → (d.b1.extractLsb' 4 3).toNat = 0) :
    heard reply = false := by
  cases reply with
  | none => rfl
  | some d => simp [heard, replyState_of_code (hs d rfl) rfl]

/-- Settles O49: the loss count by what is heard and the node state, the watch count in SELECTING. -/
theorem passesCountTowardLimits : Obligations.PassesCountTowardLimits := by
  intro c reply s q isHeard counts lost silent isSelecting counted
  have hloss : silent → countLoss c reply s = if counts then
      if 8 ≤ q.lossCount + 1 then replyLost c s else setSeq c { q with lossCount := q.lossCount + 1 } s else s := by
    intro hs
    rw [countLoss, heard_of_silent hs]
    rfl
  have hwatch : countWatch c s = if isSelecting then
      if (chanRec s c).selectWatch.toNat ≤ q.watchCount + 1 then reportFailure c .selectTimeout counted else counted
      else s := by
    simp only [countWatch, selecting_iff, isSelecting]
    rfl
  refine ⟨fun ⟨d, hd, h0, _⟩ => if_pos (heard_of_state hd h0), fun hs hc => ?_, fun hs hc hl => ?_, fun hs hc hl => ?_,
    fun hn => ?_, fun hn hl => ?_, fun hn hl => ?_⟩
  · rw [hloss hs, if_neg hc]
  · rw [hloss hs, if_pos hc, if_neg (by omega)]
  · rw [hloss hs, if_pos hc, if_pos hl]
    rfl
  · rw [hwatch, if_neg hn]
  · rw [hwatch, if_pos hn, if_neg (by omega)]
  · rw [hwatch, if_pos hn, if_pos hl]

end Sys2Proof.Machine

/-! ## Proofs: one transfer (01) -/

namespace Sys2Proof.Machine

/-! ### The exit (R13, R14, R176) -/

theorem isFault_iff (o : Outcome) : o.isFault = true ↔ ¬(o = .complete ∨ o = .empty) := by
  cases o <;> decide

/-- The exit changes the report alone. -/
theorem takeExit_eq (s : State) :
    takeExit s = { s with
      report := match s.track.queue.getD (s.node.stations - 1) none with
        | none => s.report
        | some b =>
          { s.report with
            exit := { tag := b.tag, outcome := exitOutcome s b, owed := exitOwed s b }
            exitCount := s.report.exitCount + 1
            alarms := if exitOutcome s b = .complete ∨ exitOutcome s b = .empty then s.report.alarms
              else s.report.alarms ||| 0x08 } } := by
  rw [takeExit, bodyAt]
  cases s.track.queue.getD (s.node.stations - 1) none with
  | none => rfl
  | some b =>
    simp only [reportExit]
    by_cases ho : exitOutcome s b = .complete ∨ exitOutcome s b = .empty
    · rw [if_neg (mt (isFault_iff _).1 (not_not.2 ho)), if_pos ho]
    · rw [if_pos ((isFault_iff _).2 ho), if_neg ho]
      rfl

theorem inMask_accountedBy (s : State) (l : List ChanNo) (id : Nat) (x : ChanNo) :
    inMask (accountedBy s l id) x = true ↔
      ∃ c ∈ l, ∃ r ∈ (seqOf s c).list, r.body = id ∧ inMask r.accounts x = true := by
  induction l with
  | nil => simp [accountedBy, inMask]
  | cons c l ih => simp [accountedBy_cons, inMask_or, inMask_accounted, ih]

theorem inMask_exitOwed (s : State) (b : Body) (c : ChanNo) :
    inMask (exitOwed s b) c = true ↔
      inMask b.owed c = true ∨ ∃ x, ∃ r ∈ (seqOf s x).list, r.body = b.id ∧ inMask r.accounts c = true := by
  simp only [exitOwed, heldAccounts_eq, inMask_or, Bool.or_eq_true, inMask_accountedBy, mem_allChannels, true_and]

theorem exitOutcome_eq (s : State) (b : Body) :
    exitOutcome s b =
      if b.empty then .empty else if b.unresolved then .unresolved
      else if ∃ c, present s c = true ∧ inMask b.resolved c = false then .undispatched
      else if exitOwed s b ≠ 0 then .incomplete else .complete := by
  have hany : (allChannels.any fun c => present s c && !inMask b.resolved c) = true ↔
      ∃ c, present s c = true ∧ inMask b.resolved c = false := by
    simp [List.any_eq_true, mem_allChannels]
  simp only [exitOutcome, hany, bne_iff_ne]

/-- What an exit leaves alone. -/
theorem takeExit_keeps (s : State) :
    (takeExit s).bank = s.bank ∧ (takeExit s).node = s.node ∧ (takeExit s).chans = s.chans ∧
      (takeExit s).sweep = s.sweep := by
  rw [takeExit_eq]
  exact ⟨rfl, rfl, rfl, rfl⟩

/-- What changes of lists and marks leave alone. -/
theorem listsAndMarks_keeps {s t : State} (h : ListsAndMarks s t) :
    t.bank = s.bank ∧ t.node = s.node ∧ t.chans = s.chans ∧ t.sweep = s.sweep := by
  rw [h.eq]
  exact ⟨rfl, rfl, rfl, rfl⟩

theorem listsAndMarks_track {s t : State} (h : ListsAndMarks s t) :
    t.track = { s.track with queue := t.track.queue } :=
  congrArg State.track h.eq

/-- Presence is read from the sweep interface alone (R45). -/
theorem present_of_sweep {s t : State} (h : t.sweep = s.sweep) (c : ChanNo) : present t c = present s c := by
  rw [present, h, present]

/-! ### Departures (R78) -/

/-- A RUNNING job on the body that departs becomes an orphan. -/
theorem departed_of_running {q : Seq} {id : Nat} {r : Dispatch} {rest : List Dispatch} {n : BitVec 4}
    (hj : q.job = some (.body .running n)) (hl : q.list = r :: rest) (hid : r.body = id) :
    departed q id =
      { q with list := q.list.filter fun r => r.body ≠ id, job := some (.orphan r.program r.gun r.tag n) } := by
  have hhead : q.headJob id = some .running := Seq.headJob_eq_some_iff.2 ⟨n, r, rest, hj, hl, hid⟩
  simp only [departed, hhead, hl, Seq.toOrphan, hj]
  simp only [bne, decide_not, beq_eq_decide]

/-- A SELECTING or LOADED one is withdrawn. -/
theorem departed_of_withdrawn {q : Seq} {id : Nat} {ph : JobPhase} (hh : q.headJob id = some ph) (hp : ph ≠ .running) :
    departed q id =
      { q with list := q.list.filter fun r => r.body ≠ id, job := none, watchCount := 0, cmd := idleCommand q.cmd.sel } := by
  cases ph with
  | running => exact absurd rfl hp
  | selecting | loaded =>
    simp only [departed, hh, bne, decide_not, beq_eq_decide]
    rfl

/-- A job on another body stays. -/
theorem departed_of_none {q : Seq} {id : Nat} (hh : q.headJob id = none) :
    departed q id = { q with list := q.list.filter fun r => r.body ≠ id } := by
  simp only [departed, hh, bne, decide_not, beq_eq_decide]

/-! ### The flip, the movement and the arrivals (R8 to R10, R31, R63) -/

theorem takeFlip_eq (s : State) :
    takeFlip s = { s with
      bank := { s.bank with live := if s.bank.armed then s.bank.live.other else s.bank.live, armed := false } } := by
  unfold takeFlip
  cases ha : s.bank.armed with
  | true => rfl
  | false =>
    have hb : ({ s.bank with live := s.bank.live, armed := false } : BankStore) = s.bank := by rw [← ha]
    simp only [Bool.false_eq_true, if_false, hb]

/-- Arrivals in RUN and HELD, of a state with the channel records of `s`. -/
theorem takeArrivals_eq_of {s u : State} (hc : ∀ c, chanRec u c = chanRec s c)
    (hu : u.node.state = .run ∨ u.node.state = .held) :
    takeArrivals u = settledWhere (fun c k => (chanRec s c).preselect = k) u := by
  rw [takeArrivals, if_pos hu]
  exact (settledWhere_eq_resolveWhere _ _ _ fun c k => by simp [hc]).symm

/-- The body that a transfer admits (R9, R10). -/
def admitted (s : State) : Body :=
  let live := if s.bank.armed then s.bank.live.other else s.bank.live
  let a : Announcement := s.track.announced.headD { tag := 0, style := 0, options := 0 }
  { id := s.track.nextId, tag := a.tag, style := a.style, options := a.options, bank := live, empty := a.style == 0
    unresolved := a.style != 0 && !styleEnabled s.bank live a.style, uncertain := false, resolved := 0, done := 0
    owed := 0 }

/-- It is the record of the next announcement, bound to the bank that the flip makes live. -/
theorem admitted_eq (s : State) :
    boundBody { s.bank with live := if s.bank.armed then s.bank.live.other else s.bank.live, armed := false }
      s.track.nextId (nextAnnounced s.track).tag (nextAnnounced s.track).style (nextAnnounced s.track).options 0 0 =
    admitted s :=
  rfl

theorem admitted_bodyOk (s : State) : BodyOk false (admitted s) :=
  admitted_eq s ▸ boundBody_bodyOk _ _ _ _ _ _ _ (by decide)

/-- The queue moved one station on from that of `d`, with the flip taken and the new body at station 0. -/
def moved (s d : State) : State :=
  { d with
    bank := { s.bank with live := if s.bank.armed then s.bank.live.other else s.bank.live, armed := false }
    track := { s.track with
      announced := s.track.announced.tail, queue := some (admitted s) :: d.track.queue.dropLast
      nextId := s.track.nextId + 1 } }

theorem moved_keeps (s d : State) :
    (moved s d).node = d.node ∧ (moved s d).chans = d.chans ∧ (moved s d).sweep = d.sweep :=
  ⟨rfl, rfl, rfl⟩

theorem admitNext_takeFlip_eq {s d : State} {q : List (Option Body)} (hb : d.bank = s.bank)
    (ht : d.track = { s.track with queue := q }) : admitNext (takeFlip d) = moved s d := by
  simp only [admitNext, takeFlip_eq, moved, hb, ht]
  rw [← admitted_eq]
  rfl

/-- A transfer is the movement, and in RUN and HELD the arrivals. -/
theorem transfer_eq (s : State) :
    let d := takeDepartures (takeExit s)
    (¬(s.node.state = .run ∨ s.node.state = .held) → transfer s = moved s d) ∧
    ((s.node.state = .run ∨ s.node.state = .held) →
      transfer s = settledWhere (fun c k => (chanRec s c).preselect = k) (moved s d)) := by
  intro d
  have hmarks : ListsAndMarks (takeExit s) d := takeDepartures_listsAndMarks (takeExit s)
  obtain ⟨hbank, hnode, hchans, -⟩ := listsAndMarks_keeps hmarks
  obtain ⟨hebank, henode, hechans, -⟩ := takeExit_keeps s
  have htrack := listsAndMarks_track hmarks
  rw [takeExit_track] at htrack
  obtain ⟨hmnode, hmchans, -⟩ := moved_keeps s d
  have hnode := (hmnode.trans hnode).trans henode
  have hchan : ∀ c, chanRec (moved s d) c = chanRec s c := fun c =>
    congrArg (fun v : Vector ChanRec 32 => v[c.val]) ((hmchans.trans hchans).trans hechans)
  have htransfer : transfer s = takeArrivals (moved s d) := 
    congrArg takeArrivals (admitNext_takeFlip_eq (hbank.trans hebank) htrack)
  refine ⟨fun hr => ?_, fun hr => ?_⟩
  · rw [htransfer, takeArrivals, if_neg (by rwa [hnode])]
  · rw [htransfer, takeArrivals_eq_of hchan (by rwa [hnode])]

/-- The bodies of a moved queue are well kept. -/
theorem moved_bodyOk {s : State} (hm : MarksWf s) (hu : s.track.uncertain = false) :
    ∀ b, some b ∈ (moved s (takeDepartures (takeExit s))).track.queue → BodyOk false b := by
  intro b hb
  obtain ⟨⟨m, hq, -⟩, -⟩ := takeDepartures_spec (takeExit s)
  rcases List.mem_cons.1 hb with hb | hb
  · cases hb
    exact admitted_bodyOk s
  · have hb := List.mem_of_mem_dropLast hb
    rw [hq, takeExit_track] at hb
    obtain ⟨p, hp, he⟩ := List.mem_map.1 hb
    obtain ⟨x, rfl, rfl⟩ := Option.map_eq_some_iff.1 he
    exact mark_bodyOk _ _ (hu ▸ hm.1 x hp)

/-- Settles O51: the transfer, what an exit reports, and what the departures do. -/
theorem transferMovesQueue : Obligations.TransferMovesQueue := by
  refine ⟨fun s => ?transfer, fun s b => ⟨inMask_exitOwed s b, exitOutcome_eq s b⟩, fun s => ?departures⟩
  case transfer =>
    intro live a new d moves running
    have hd : takeDepartures (takeExit s) = d := congrArg takeDepartures (takeExit_eq s)
    obtain ⟨hmnode, -, hmsweep⟩ := moved_keeps s (takeDepartures (takeExit s))
    have hmoved : moved s (takeDepartures (takeExit s)) = moves := by
      rw [hd]
      clear_value d
      rfl
    obtain ⟨hstill, hruns⟩ := transfer_eq s
    rw [hmoved] at hstill hruns
    refine ⟨hstill, hruns, fun _ hm hu hr c k b hp hk hpre hb hpass => ?_⟩
    have hbodies : ∀ b, some b ∈ moves.track.queue → ∃ v, BodyOk v b := fun b hb =>
      ⟨false, moved_bodyOk hm hu b (hmoved ▸ hb)⟩
    obtain ⟨-, hnode, -, hsweep⟩ := listsAndMarks_keeps (takeDepartures_listsAndMarks (takeExit s))
    obtain ⟨-, henode, -, hesweep⟩ := takeExit_keeps s
    have hpresent : present moves c = true := by
      rw [← hmoved]
      exact (present_of_sweep ((hmsweep.trans hsweep).trans hesweep) c).trans hp
    have hstations : k < moves.node.stations := by
      rw [← hmoved]
      exact lt_of_lt_of_eq hk (congrArg NodeCtl.stations ((hmnode.trans hnode).trans henode)).symm
    rw [hruns hr] at hb
    exact settledWhere_resolves _ moves hbodies c k b hpresent hstations hpre hb hpass
  case departures =>
    have hmarks := takeDepartures_listsAndMarks s
    obtain ⟨⟨m, hq, hm⟩, hseq⟩ := takeDepartures_spec s
    generalize takeDepartures s = t at hmarks hq hseq
    refine ⟨hmarks.eq, ⟨m, hq, fun id x => ?marks⟩, fun c => ?lists⟩
    case marks =>
      rw [hm]
      constructor
      · rintro ⟨c, r, ⟨⟨b, hb, hid⟩, hr, hbody⟩, hx⟩
        exact ⟨c, b, r, hb, hid, hr, hbody, hx⟩
      · rintro ⟨c, b, r, hb, hid, hr, hbody, hx⟩
        exact ⟨c, r, ⟨⟨b, hb, hid⟩, hr, hbody⟩, hx⟩
    case lists =>
      intro q
      have hc := hseq c
      refine ⟨fun hb => ?vacant, fun b hb => ?_⟩
      case vacant => rwa [hb] at hc
      rw [hb] at hc
      intro keep onHead
      have hhead : ∀ ph, (∃ r, onHead ph r) ↔ q.headJob b.id = some ph := by
        intro ph
        rw [Seq.headJob_eq_some_iff]
        constructor
        · rintro ⟨r, n, rest, hj, hl, hid⟩
          exact ⟨n, r, rest, hj, hl, hid⟩
        · rintro ⟨n, r, rest, hj, hl, hid⟩
          exact ⟨r, n, rest, hj, hl, hid⟩
      refine ⟨fun r n ho hj => ?running, fun r ho => ?withdrawn, fun hno => ?none⟩
      case running =>
        obtain ⟨_, rest, _, hl, hid⟩ := ho
        exact hc.trans (departed_of_running hj hl hid)
      case withdrawn =>
        rcases ho with ho | ho
        · exact hc.trans (departed_of_withdrawn ((hhead _).1 ⟨r, ho⟩) (by decide))
        · exact hc.trans (departed_of_withdrawn ((hhead _).1 ⟨r, ho⟩) (by decide))
      case none =>
        refine hc.trans (departed_of_none (Option.eq_none_iff_forall_ne_some.2 fun ph hph => ?_))
        obtain ⟨r, ho⟩ := (hhead ph).2 hph
        exact hno ph r ho

end Sys2Proof.Machine

/-! ## Proofs: every request row is its payload (09) -/

namespace Sys2Proof.Machine

/-! ### A row and the bytes it spells (R163, 12.3) -/

/-- Groups of `n` bytes laid end to end. -/
theorem flatMap_length_of {α : Type} {n : Nat} {f : α → List Byte} (hf : ∀ a, (f a).length = n) (l : List α) :
    (l.flatMap f).length = n * l.length := by
  simp [List.length_flatMap, hf, Nat.mul_comm]

/-- Every row that is a request is taken as the request its payload bytes spell. -/
theorem exec_of_carries {i : Instr} {h : ReqHead} {k : ReqCode} {p : List Byte} (hc : carries i = some (h, k, p))
    (s : State) : exec i s = onRequest h k p.length (serveRequest k p) s := by
  cases i
  case writeNodeSettings g n w m =>
    cases hc
    change onRequest h .writeNodeSettings 4 (serveWriteNodeSettings n w m) s =
      onRequest h .writeNodeSettings 4 (serveWriteNodeSettings n (half (hiByte w) (loByte w)) m) s
    rw [half_bytes]
  case writeSlotMap g f es =>
    cases hc
    change _ = onRequest h .writeSlotMap (f :: es.flatMap RawMapEntry.bytes).length
      (serveWriteSlotMap f (rawMapEntries (es.flatMap RawMapEntry.bytes))) s
    rw [rawMapEntries_bytes, List.length_cons, flatMap_length_of (n := 2) fun _ => rfl, Nat.add_comm]
    rfl
  case writeEntries g st f es =>
    cases hc
    change _ = onRequest h .writeEntries (st :: f :: es.flatMap RawEntry.bytes).length
      (serveWriteEntries st f (rawEntries (es.flatMap RawEntry.bytes))) s
    rw [rawEntries_bytes, List.length_cons, List.length_cons, flatMap_length_of (n := 7) fun _ => rfl, Nat.add_comm,
      Nat.add_comm _ 1, ← Nat.add_assoc]
    rfl
  case writeCurve g x c1 c2 c3 c4 b1 b2 b3 b4 =>
    cases hc
    change onRequest h .writeCurve 13 (serveWriteCurve x (clampedCurve c1 c2 c3 c4 b1 b2 b3 b4)) s =
      onRequest h .writeCurve 13 (serveWriteCurve x (clampedCurve (half (hiByte c1) (loByte c1))
        (half (hiByte c2) (loByte c2)) (half (hiByte c3) (loByte c3)) (half (hiByte c4) (loByte c4)) b1 b2 b3 b4)) s
    simp only [half_bytes]
  case writeGun g c x y d gr n dp cp =>
    cases hc
    change onRequest h .writeGun 10 (serveWriteGun c x y d gr n dp cp) s =
      onRequest h .writeGun 10
        (serveWriteGun c x y (half (hiByte d) (loByte d)) (half (hiByte gr) (loByte gr)) n dp cp) s
    simp only [half_bytes]
  case writeWear g c x w d =>
    cases hc
    change onRequest h .writeWear 5 (serveWriteWear c x w d) s =
      onRequest h .writeWear 5 (serveWriteWear c x (half (hiByte w) (loByte w)) d) s
    rw [half_bytes]
  case retrackLoad g rs =>
    cases hc
    change _ = onRequest h .retrackLoad (rs.flatMap RawRetrack.bytes).length
      (serveRetrackLoad (rawRetracks (rs.flatMap RawRetrack.bytes))) s
    rw [rawRetracks_bytes, flatMap_length_of (n := 13) fun _ => rfl]
    rfl
  case outboundPass | returnPass | ringClosureReturn | foreignFrame | portALinkDown | portALinkUp | portBLinkDown |
      portBLinkUp | sweepWatchExpiry | holdNFallingEdge | holdNRisingEdge | resetNLow | powerOnReset | copyStep |
      copyCompletion | replyLossLimit | selectTimeout | unknownRequest =>
    cases hc
  all_goals
    cases hc
    rfl

/-- Whether a request is executed, by its tag (R162). -/
theorem isNew_of_taken {h : ReqHead} {s : State} (ht : Taken h s) : isNew h (noticed h s) = true := by
  obtain ⟨-, h0, hlast⟩ := ht
  simpa [isNew, hlast] using h0

theorem isNew_of_stale {h : ReqHead} {s : State} (ht : h.tag = 0 ∨ h.tag = s.mgmt.lastTag) :
    isNew h (noticed h s) = false := by
  rcases ht with ht | ht <;> simp [isNew, ht]

/-- A new request of a length that its code does not allow is answered LENGTH (R163 step 2). -/
theorem onRequest_of_length {h : ReqHead} {k : ReqCode} {len : Nat} {s : State} (ht : Taken h s)
    (hl : k.allows len = false) (serve : State → Answer) :
    onRequest h k len serve s = .next (answered h k.byte .length [] (noticed h s)) := by
  have hn := isNew_of_taken ht
  simp only [onRequest, live_of_running ht.1, takeRequest, noteHeader_noticed, hn, hl, Bool.false_eq_true, if_false,
    if_true, record_answered]
  rfl

/-- An UNKNOWN_REQUEST of a code that 9.6 does not define, by its tag. -/
theorem exec_unknownRequest {h : ReqHead} {code : Byte} {s : State} (hr : s.pins.inReset = false)
    (hcode : reqCodeOf code = none) :
    exec (.unknownRequest h code) s =
      .next (if isNew h (noticed h s) then answered h code .unknown [] (noticed h s) else noticed h s) := by
  have he : exec (.unknownRequest h code) s = .next (takeByCode h code { s with sent := [] }) :=
    congrArg Host.Outcome.next (live_of_running hr _)
  simp only [he, takeByCode, hcode, takeUnknown, noteHeader_noticed, record_answered]
  rfl

/-- Settles O3: every row through its payload, and the row of an undefined code. -/
theorem requestRowsAreTheirPayloads : Obligations.RequestRowsAreTheirPayloads := by
  refine ⟨fun i h k p s hc => ?row, fun h code s hcode => ⟨fun ht => ?unknown, fun hr ht => ?repeated⟩⟩
  case row =>
    rw [exec_of_carries hc]
    exact ⟨fun ht hl => onRequest_taken ht hl, fun ht hl => onRequest_of_length ht hl _,
      fun hr ht => onRequest_stale hr ht⟩
  case unknown => rw [exec_unknownRequest ht.1 hcode, isNew_of_taken ht, if_pos rfl]
  case repeated =>
    rw [exec_unknownRequest hr hcode, isNew_of_stale ht]
    rfl

end Sys2Proof.Machine

/-! ## Proofs: the links, the watch, and frames that are only forwarded (07) -/

namespace Sys2Proof.Machine

/-! ### A lost sweep (R137, R88, R186) -/

/-- R186: the count of lost sweeps stops at 65535. -/
theorem satHalf_eq (w : Half) : satHalf w = if w = 65535 then 65535 else w + 1 := by
  unfold satHalf
  split
  case isTrue hw => exact hw
  case isFalse => rfl

/-- The loss of an outstanding sweep, written over a state with that sweep, those sequencers and that tester. -/
def sweepLost (s u : State) : State :=
  if s.sweep.outstanding.isSome then
    { u with
      sweep := { u.sweep with outstanding := none }
      seqs := s.seqs.map fun q => { q with history := none }
      path := { s.path with
        expected := [], lostSweeps := if s.path.lostSweeps = 65535 then 65535 else s.path.lostSweeps + 1 } }
  else u

theorem loseSweep_eq {s u : State} (ho : u.sweep.outstanding = s.sweep.outstanding) (hq : u.seqs = s.seqs)
    (hp : u.path = s.path) : loseSweep u = sweepLost s u := by
  unfold loseSweep sweepLost
  rw [ho, hq, hp, ← satHalf_eq]
  cases s.sweep.outstanding <;> rfl

/-! ### The frames that leave (R130, R131) -/

/-- What leaves through port A, and what leaves after a frame was received at port A. -/
def outB (p : Pins) (isSweep : Bool) (f : Frame) : List Sent :=
  if p.portA then [{ port := .portA, isSweep := isSweep, frame := f }] else []

def outA (p : Pins) (isSweep : Bool) (f : Frame) : List Sent :=
  if p.portB then [{ port := .portB, isSweep := isSweep, frame := f }]
  else if p.portA then [{ port := .portA, isSweep := isSweep, frame := f }] else []

theorem forwardFromB_eq (isSweep : Bool) (f : Frame) (s : State) :
    forwardFromB isSweep f s = { s with sent := s.sent ++ outB s.pins isSweep f } := by
  cases hA : s.pins.portA <;> simp [forwardFromB, send, outB, hA]

theorem forwardFromA_eq (isSweep : Bool) (f : Frame) (s : State) :
    forwardFromA isSweep f s = { s with sent := s.sent ++ outA s.pins isSweep f } := by
  cases hB : s.pins.portB <;> cases hA : s.pins.portA <;> simp [forwardFromA, send, outA, hA, hB]

/-! ### Return passes that are not awaited (R135) -/

theorem settleClosure_of_none {s : State} (hc : s.sweep.closure = none) (key : Nat → Nat → Nat) :
    settleClosure key s = s := by
  simp only [settleClosure, hc]

/-- A sweep with a good header that is not the outstanding one is forwarded. -/
theorem returnFrame_of_other {f : Frame} {n : Half} {z : SizeCode} {s : State} (hf : headerOf f.payload = some (n, z))
    (ho : ∀ o, s.sweep.outstanding = some o → o.number ≠ n ∨ o.size ≠ z) (key : Nat → Nat → Nat) :
    returnFrame key f s = forwardFromB true f s := by
  unfold returnFrame
  rw [hf]
  split
  case h_1 x y o m hx hout hm =>
    cases hx
    refine if_neg fun h => ?_
    obtain ⟨hn, hz⟩ := h
    rcases ho o hout with h | h
    · exact h hn.symm
    · exact h hz.symm
  case h_2 => rfl
  case h_3 hx => cases hx

theorem returnFrame_of_bad {f : Frame} (hf : headerOf f.payload = none) (key : Nat → Nat → Nat) (s : State) :
    returnFrame key f s = forwardFromB true f (noteHeaderCheck .back f s) := by
  unfold returnFrame
  rw [hf]

/-! ### Processed outbound passes set the link state UP (R143) -/

/-- The end of an outbound pass: the frame leaves through port B, or is kept for its return by closure. -/
theorem endOutbound_eq (f : Frame) (s : State) :
    endOutbound f s = { s with
      sent := s.sent ++ (if s.pins.portB then [{ port := .portB, isSweep := true, frame := f }] else [])
      sweep := { s.sweep with closure := if s.pins.portB then s.sweep.closure else some f } } := by
  cases hB : s.pins.portB <;> simp [endOutbound, send, hB]

theorem endOutbound_link (f : Frame) (s : State) : (endOutbound f s).sweep.link = s.sweep.link := by
  rw [endOutbound_eq]

theorem beginOutbound_link (n : Half) (z : SizeCode) (s : State) : (beginOutbound n z s).sweep.link = .up := by
  unfold beginOutbound
  generalize enterMap (loseSweep s) = u
  rfl

/-- What the hand-overs of a pass start from, and what they give. -/
def beginPass (n : Half) (z : SizeCode) (f : Frame) (s : State) : InPass :=
  { state := beginOutbound n z s, slots := slotsOf f.payload }

def handedOut (key : Nat → Nat) (n : Half) (z : SizeCode) (f : Frame) (s : State) : InPass :=
  handOut key (beginOutbound n z s).sweep.storedMap n (beginPass n z f s)

theorem processOutbound_eq (key : Nat → Nat) (n : Half) (z : SizeCode) (f : Frame) (s : State) :
    processOutbound key n z f s =
      endOutbound { f with payload := payloadOf (handedOut key n z f s).slots } (handedOut key n z f s).state :=
  rfl

/-- The hand-overs are changes inside the part. -/
theorem handedOut_sameOutside (key : Nat → Nat) (n : Half) (z : SizeCode) (f : Frame) (s : State) :
    SameOutside (beginOutbound n z s) (handedOut key n z f s).state :=
  (handOut_steps key _ n (beginPass n z f s)).sameOutside

theorem processOutbound_link (key : Nat → Nat) (n : Half) (z : SizeCode) (f : Frame) (s : State) :
    (processOutbound key n z f s).sweep.link = .up := by
  rw [processOutbound_eq, endOutbound_link, (handedOut_sameOutside key n z f s).link, beginOutbound_link]

theorem outboundFrame_of_good {f : Frame} {n : Half} {z : SizeCode} (hf : headerOf f.payload = some (n, z))
    (key : Nat → Nat → Nat) (s : State) :
    outboundFrame key f s = nextChoice (processOutbound (key s.choice) n z f s) := by
  rw [outboundFrame, hf]

theorem outboundFrame_link {f : Frame} {x : Half × SizeCode} (hf : headerOf f.payload = some x) (key : Nat → Nat → Nat)
    (s : State) : (outboundFrame key f s).sweep.link = .up := by
  obtain ⟨n, z⟩ := x
  rw [outboundFrame_of_good hf, nextChoice, processOutbound_link]

/-! ### The commands of the links and of the watch -/

theorem exec_portALinkDown {s : State} (hs : s.pins.inReset = false) :
    exec .portALinkDown s = .next (linkLost { s with sent := [], pins := { s.pins with portA := false } }) :=
  congrArg Host.Outcome.next (onPin_of_running (set := fun p => { p with portA := false }) hs _)

theorem exec_portBLinkDown {s : State} (hs : s.pins.inReset = false) :
    exec .portBLinkDown s = .next (loseThroughB { s with sent := [], pins := { s.pins with portB := false } }) :=
  congrArg Host.Outcome.next (onPin_of_running (set := fun p => { p with portB := false }) hs _)

/-- A frame taken out of reset, after the return by closure that is due. -/
theorem exec_returnPass {s : State} (hs : s.pins.inReset = false) (f : Frame) :
    exec (.returnPass f) s =
      .next (returnFrame Config.eventKey f (settleClosure Config.eventKey { s with sent := [] })) :=
  congrArg Host.Outcome.next (live_of_running hs _)

theorem exec_outboundPass {s : State} (hs : s.pins.inReset = false) (f : Frame) :
    exec (.outboundPass f) s =
      .next (outboundFrame Config.eventKey f (settleClosure Config.eventKey { s with sent := [] })) :=
  congrArg Host.Outcome.next (live_of_running hs _)

theorem exec_foreignFrame {s : State} (hs : s.pins.inReset = false) (p : Port) (f : Frame) :
    exec (.foreignFrame p f) s = .next (foreign p f (settleClosure Config.eventKey { s with sent := [] })) :=
  congrArg Host.Outcome.next (live_of_running hs _)

theorem exec_ringClosureReturn {s : State} (hs : s.pins.inReset = false) :
    exec .ringClosureReturn s = .next (settleClosure Config.eventKey { s with sent := [] }) :=
  congrArg Host.Outcome.next (live_of_running hs _)

theorem exec_sweepWatchExpiry {s : State} (hs : s.pins.inReset = false) :
    exec .sweepWatchExpiry s = .next (expireWatch { s with sent := [] }) :=
  congrArg Host.Outcome.next (live_of_running hs _)

theorem expireWatch_of_running {s : State} (hw : s.sweep.watch ≠ none) :
    expireWatch s = linkLost { s with sweep := { s.sweep with watch := none } } := by
  obtain ⟨w, hw⟩ := Option.ne_none_iff_exists'.1 hw
  simp only [expireWatch, hw]

/-- A sweep that has gone out through port B is lost with the link; a closed one, or none, is not. -/
theorem loseThroughB_of_open {s : State} {o : Outstanding} (ho : s.sweep.outstanding = some o) (hc : o.closed = false) :
    loseThroughB s = loseSweep s := by
  simp only [loseThroughB, ho, hc, Bool.false_eq_true, if_false]

theorem loseThroughB_of_closed {s : State} (hc : ∀ o, s.sweep.outstanding = some o → o.closed = true) :
    loseThroughB s = s := by
  unfold loseThroughB
  split
  case h_1 o ho => exact if_pos (hc o ho)
  case h_2 => rfl

/-- Settles O52: the two links, the watch, and what a pass finds after a loss. -/
theorem linksAndWatch : Obligations.LinksAndWatch := by
  intro s hs lost silent
  refine ⟨?portADown, congrArg Host.Outcome.next (onPin_of_running (set := fun p => { p with portA := true }) hs _),
    fun ho hc hA f x hf => ?late, fun f x hf => ⟨_, exec_outboundPass hs f, outboundFrame_link hf _ _⟩, ?portBLost,
    fun hc => ?portBKept, congrArg Host.Outcome.next (onPin_of_running (set := fun p => { p with portB := true }) hs _),
    fun hw => ?stopped, fun hw => ?expired⟩
  case portADown =>
    exact (exec_portALinkDown hs).trans (congrArg Host.Outcome.next (loseSweep_eq (s := s) rfl rfl rfl))
  case late =>
    have hsettled : settleClosure Config.eventKey { s with sent := [] } = { s with sent := [] } :=
      settleClosure_of_none (s := { s with sent := [] }) hc _
    have hother : ∀ o, ({ s with sent := [] } : State).sweep.outstanding = some o → o.number ≠ x.1 ∨ o.size ≠ x.2 :=
      fun o h => by rw [show s.sweep.outstanding = some o from h] at ho; cases ho
    rw [exec_returnPass hs, hsettled, returnFrame_of_other hf hother, forwardFromB_eq]
    simp only [outB, hA, Bool.false_eq_true, if_false, List.append_nil]
  case portBLost =>
    rintro ⟨o, ho, hc⟩
    refine (exec_portBLinkDown hs).trans (congrArg Host.Outcome.next
      (Eq.trans (loseThroughB_of_open (o := o) ?_ hc) (loseSweep_eq (s := s) rfl rfl rfl)))
    exact ho
  case portBKept =>
    refine (exec_portBLinkDown hs).trans (congrArg Host.Outcome.next (loseThroughB_of_closed ?_))
    exact hc
  case stopped =>
    rw [exec_sweepWatchExpiry hs]
    simp only [expireWatch, hw]
  case expired =>
    refine (exec_sweepWatchExpiry hs).trans (congrArg Host.Outcome.next
      (Eq.trans (expireWatch_of_running ?_) (loseSweep_eq (s := s) rfl rfl rfl)))
    exact hw

end Sys2Proof.Machine

/-! ## Proofs: the header check and forwarding (07) -/

namespace Sys2Proof.Machine

/-! ### The header slot (R133) -/

/-- The size code's two bits. -/
def sizeBits : SizeCode → BitVec 2
  | .slots24 => 0
  | .slots48 => 1
  | .slots96 => 2
  | .slots184 => 3

theorem sizeOf_eq_iff (b : Byte) (z : SizeCode) : sizeOf b = z ↔ b.extractLsb' 0 2 = sizeBits z := by
  revert b
  cases z <;> decide

/-- A payload with a whole slot is that slot's eight bytes and a rest. -/
theorem eq_bytes_append_of_headerSlot {p : List Byte} {sl : Slot} (h : headerSlot p = some sl) :
    ∃ rest, p = sl.data.b0 :: sl.data.b1 :: sl.data.b2 :: sl.data.b3 :: sl.data.b4 :: sl.data.b5 :: sl.data.b6 ::
      sl.check :: rest := by
  unfold headerSlot slotsOf at h
  split at h
  case h_1 rest =>
    cases h
    exact ⟨rest, rfl⟩
  case h_2 => cases h

/-- The three checks on a payload whose header slot is `sl`. -/
theorem headerOf_of_slot {p : List Byte} {sl : Slot} (h : headerSlot p = some sl) :
    headerOf p = if sl.data.b0 = 0xC5 ∧ sl.ok = true ∧ p.length = 8 * (sizeOf sl.data.b1).slots then
      some (sweepNumber sl.data, sizeOf sl.data.b1) else none := by
  simp only [headerOf, h]

/-- R133: a header that passes its checks, byte by byte. -/
theorem headerOf_eq_some_iff (p : List Byte) (n : Half) (z : SizeCode) :
    headerOf p = some (n, z) ↔
      p.length = 8 * z.slots ∧ ∃ b1 b2 b3 b4 b5 b6 b7 rest, p = 0xC5 :: b1 :: b2 :: b3 :: b4 :: b5 :: b6 :: b7 :: rest ∧
        0xC5 ^^^ b1 ^^^ b2 ^^^ b3 ^^^ b4 ^^^ b5 ^^^ b6 ^^^ b7 = 0 ∧ n = b2 ++ b3 ∧ b1.extractLsb' 0 2 = sizeBits z := by
  constructor
  · intro h
    cases hs : headerSlot p with
    | none => simp [headerOf, hs] at h
    | some sl =>
      rw [headerOf_of_slot hs] at h
      split at h
      case isTrue hc =>
        obtain ⟨hmark, hok, hlen⟩ := hc
        cases h
        obtain ⟨rest, hp⟩ := eq_bytes_append_of_headerSlot hs
        have hxor := (slot_ok_iff sl.data sl.check).1 hok
        rw [hmark] at hp hxor
        exact ⟨hlen, _, _, _, _, _, _, _, rest, hp, hxor, rfl, (sizeOf_eq_iff _ _).1 rfl⟩
      case isFalse => cases h
  · rintro ⟨hlen, b1, b2, b3, b4, b5, b6, b7, rest, rfl, hxor, rfl, hz⟩
    have hsize : sizeOf b1 = z := (sizeOf_eq_iff b1 z).2 hz
    have hslot := headerOf_of_slot (p := 0xC5 :: b1 :: b2 :: b3 :: b4 :: b5 :: b6 :: b7 :: rest) rfl
    have hok : ({ data := { b0 := 0xC5, b1, b2, b3, b4, b5, b6 }, check := b7 } : Slot).ok = true :=
      (slot_ok_iff _ _).2 hxor
    rw [hslot, if_pos ⟨rfl, hok, by rw [hsize]; exact hlen⟩, hsize]
    rfl

/-! ### What a return leaves alone -/

theorem forwardFromB_keeps (b : Bool) (f : Frame) (s : State) :
    (forwardFromB b f s).sweep = s.sweep ∧ (forwardFromB b f s).pins = s.pins := by
  rw [forwardFromB_eq]
  exact ⟨rfl, rfl⟩

/-- The frames that leave are those the pins of the moment let through. -/
theorem forwardFromA_of_pins {s : State} {p : Pins} (hp : s.pins = p) (b : Bool) (f : Frame) :
    forwardFromA b f s = { s with sent := s.sent ++ outA p b f } := by
  rw [forwardFromA_eq, hp]

theorem forwardFromB_of_pins {s : State} {p : Pins} (hp : s.pins = p) (b : Bool) (f : Frame) :
    forwardFromB b f s = { s with sent := s.sent ++ outB p b f } := by
  rw [forwardFromB_eq, hp]

/-- The state from which a processed return pass writes its slots. -/
def returned (key : Nat → Nat) (m : SlotMap) (o : Outstanding) (f : Frame) (s : State) : State :=
  handBack key m o.number (slotsOf f.payload) (restartWatch (linkUp s))

/-- The slots written, the frame sent and the sweep no longer outstanding, from such a state. -/
def sendReturn (m : SlotMap) (addressed : Bool) (f : Frame) (u : State) : State :=
  forwardFromB true { f with payload := payloadOf (writeBack m addressed u (slotsOf f.payload)) }
    { u with sweep := { u.sweep with outstanding := none } }

theorem processReturn_eq (key : Nat → Nat) (m : SlotMap) (o : Outstanding) (f : Frame) (s : State) :
    processReturn key m o f s = sendReturn m o.addressed f (returned key m o f s) := by
  unfold processReturn sendReturn returned
  rfl

theorem returned_sameOutside (key : Nat → Nat) (m : SlotMap) (o : Outstanding) (f : Frame) (s : State) :
    SameOutside (restartWatch (linkUp s)) (returned key m o f s) :=
  (handBack_steps key m o.number (slotsOf f.payload) _).sameOutside

theorem sendReturn_eq (m : SlotMap) (addressed : Bool) (f : Frame) (u : State) :
    sendReturn m addressed f u = { u with
      sweep := { u.sweep with outstanding := none }
      sent := u.sent ++
        outB u.pins true { f with payload := payloadOf (writeBack m addressed u (slotsOf f.payload)) } } := by
  rw [sendReturn, forwardFromB_eq]

theorem processReturn_keeps (key : Nat → Nat) (m : SlotMap) (o : Outstanding) (f : Frame) (s : State) :
    (processReturn key m o f s).sweep.closure = s.sweep.closure ∧ (processReturn key m o f s).pins = s.pins := by
  have hsame := returned_sameOutside key m o f s
  rw [processReturn_eq]
  generalize returned key m o f s = u at hsame
  rw [sendReturn_eq]
  exact ⟨hsame.closure, hsame.pins⟩

theorem returnFrame_keeps (key : Nat → Nat → Nat) (f : Frame) (s : State) :
    (returnFrame key f s).sweep.closure = s.sweep.closure ∧ (returnFrame key f s).pins = s.pins := by
  unfold returnFrame
  split
  case h_1 n z o m _ _ _ =>
    split
    · have hkept := processReturn_keeps (key s.choice) m o f s
      generalize processReturn (key s.choice) m o f s = u at hkept
      exact hkept
    · obtain ⟨hsweep, hpins⟩ := forwardFromB_keeps true f s
      exact ⟨by rw [hsweep], hpins⟩
  case h_2 =>
    obtain ⟨hsweep, hpins⟩ := forwardFromB_keeps true f s
    exact ⟨by rw [hsweep], hpins⟩
  case h_3 =>
    obtain ⟨hsweep, hpins⟩ := forwardFromB_keeps true f (noteHeaderCheck .back f s)
    have hsame := (noteHeaderCheck_steps .back f s).sameOutside
    exact ⟨by rw [hsweep, hsame.closure], by rw [hpins, hsame.pins]⟩

/-- After the return by closure none is due, and the pins are as they were. -/
theorem settleClosure_keeps (key : Nat → Nat → Nat) (s : State) :
    (settleClosure key s).sweep.closure = none ∧ (settleClosure key s).pins = s.pins := by
  unfold settleClosure
  split
  case h_1 hc => exact ⟨hc, rfl⟩
  case h_2 f _ => exact returnFrame_keeps key f { s with sweep := { s.sweep with closure := none } }

theorem settleClosure_of_some {s : State} {f : Frame} (hc : s.sweep.closure = some f) (key : Nat → Nat → Nat) :
    settleClosure key s = returnFrame key f { s with sweep := { s.sweep with closure := none } } := by
  simp only [settleClosure, hc]

/-! ### The header check (log 16) -/

/-- A failed check byte of a header is logged. -/
theorem noteHeaderCheck_eq (pass : Pass) (f : Frame) (s : State) :
    noteHeaderCheck pass f s =
      match headerSlot f.payload with
      | some sl =>
        if sl.ok then s
        else logError { kind := .headerCheck, sweep := sl.data.b2 ++ sl.data.b3, slot := 0, pass := pass, raw := sl } s
      | none => s := by
  unfold noteHeaderCheck
  cases headerSlot f.payload <;> rfl

theorem outboundFrame_of_bad {f : Frame} (hf : headerOf f.payload = none) (key : Nat → Nat → Nat) (s : State) :
    outboundFrame key f s = forwardFromA true f (noteHeaderCheck .outbound f s) := by
  rw [outboundFrame, hf]

/-- Settles O53: the header check, and each frame that is not processed, after the return by closure that is due. -/
theorem framesAreForwarded : Obligations.FramesAreForwarded := by
  refine ⟨headerOf_eq_some_iff, fun s hs => ?_⟩
  obtain ⟨hclosure, hpins⟩ := settleClosure_keeps Config.eventKey { s with sent := [] }
  refine ⟨_, exec_ringClosureReturn hs, hclosure, hpins, fun hc => settleClosure_of_none (s := { s with sent := [] }) hc _,
    fun f hc => ?closed, ?_⟩
  case closed =>
    let s' : State := { s with sweep := { s.sweep with closure := none } }
    calc exec .ringClosureReturn s
      _ = .next (settleClosure Config.eventKey { s with sent := [] }) := exec_ringClosureReturn hs
      _ = .next (returnFrame Config.eventKey f { s' with sent := [] }) :=
        congrArg Host.Outcome.next (settleClosure_of_some (s := { s with sent := [] }) hc _)
      _ = .next (returnFrame Config.eventKey f (settleClosure Config.eventKey { s' with sent := [] })) := by
        rw [settleClosure_of_none rfl]
      _ = exec (.returnPass f) s' := (exec_returnPass (s := s') hs f).symm
  have hforeign := fun p f => exec_foreignFrame hs p f
  have hreturn := fun f => exec_returnPass hs f
  have houtbound := fun f => exec_outboundPass hs f
  generalize settleClosure Config.eventKey { s with sent := [] } = u at *
  have hpins : u.pins = s.pins := hpins
  intro outA' outB' checked
  have hchecked : ∀ pass f, checked pass f = noteHeaderCheck pass f u := fun pass f => (noteHeaderCheck_eq pass f u).symm
  have hkept : ∀ pass f, (noteHeaderCheck pass f u).pins = s.pins ∧ (noteHeaderCheck pass f u).sent = u.sent := by
    intro pass f
    have hsame := (noteHeaderCheck_steps pass f u).sameOutside
    exact ⟨hsame.pins.trans hpins, hsame.sent⟩
  refine ⟨fun f => ?foreignA, fun f => ?foreignB, fun f hf => ⟨?badOut, ?badBack⟩, fun f n z hf ho => ?notAwaited⟩
  case foreignA => exact (hforeign .portA f).trans (congrArg Host.Outcome.next (forwardFromA_of_pins hpins false f))
  case foreignB => exact (hforeign .portB f).trans (congrArg Host.Outcome.next (forwardFromB_of_pins hpins false f))
  case badOut =>
    obtain ⟨hp, hsent⟩ := hkept .outbound f
    rw [houtbound, outboundFrame_of_bad hf, forwardFromA_of_pins hp, hsent, hchecked]
    rfl
  case badBack =>
    obtain ⟨hp, hsent⟩ := hkept .back f
    rw [hreturn, returnFrame_of_bad hf, forwardFromB_of_pins hp, hsent, hchecked]
    rfl
  case notAwaited => rw [hreturn, returnFrame_of_other hf ho, forwardFromB_of_pins hpins]; rfl

end Sys2Proof.Machine

/-! ## Proofs: the hand-overs of an outbound pass and its slots (07) -/

namespace Sys2Proof.Machine

/-! ### The slots that the filling writes (R185) -/

theorem fillSlots_length (ks : List Nat) (t : PathTester) (sls : List Slot) :
    (fillSlots ks t sls).2.length = sls.length := by
  induction ks generalizing t sls with
  | nil => rfl
  | cons k ks ih => rw [fillSlots, ih, List.length_set]

theorem fillSlots_other {k : Nat} {ks : List Nat} (hk : k ∉ ks) (t : PathTester) (sls : List Slot) :
    (fillSlots ks t sls).2[k]? = sls[k]? := by
  induction ks generalizing t sls with
  | nil => rfl
  | cons j ks ih =>
    rw [List.mem_cons, not_or] at hk
    rw [fillSlots, ih hk.2, List.getElem?_set_ne (Ne.symm hk.1)]

/-- The tester after the filling, and what it writes, do not depend on what the slots held. -/
theorem fillSlots_congr {ks : List Nat} {sls tls : List Slot} (hl : sls.length = tls.length) (t : PathTester) :
    (fillSlots ks t sls).1 = (fillSlots ks t tls).1 ∧
      ∀ k, k ∈ ks ∨ sls[k]? = tls[k]? → (fillSlots ks t sls).2[k]? = (fillSlots ks t tls).2[k]? := by
  induction ks generalizing t sls tls with
  | nil => exact ⟨rfl, fun k hk => hk.resolve_left (by simp)⟩
  | cons j ks ih =>
    simp only [fillSlots]
    obtain ⟨htester, hslots⟩ := ih (sls := sls.set j _) (tls := tls.set j _) (by simpa using hl) _
    refine ⟨htester, fun k hk => hslots k ?_⟩
    by_cases hjk : j = k
    · subst hjk
      exact .inr (by simp only [List.getElem?_set, if_true, hl])
    · refine hk.imp (fun h => (List.mem_cons.1 h).resolve_left (Ne.symm hjk)) fun h => ?_
      rwa [List.getElem?_set_ne hjk, List.getElem?_set_ne hjk]

/-! ### The hand-overs one after another -/

/-- Some hand-overs, one after another. -/
def handOvers (key : Nat → Nat) (m : SlotMap) (n : Half) (es : List OutEvent) (p : InPass) : InPass :=
  es.foldl (fun p e => outEvent key m n e p) p

theorem handOut_eq (key : Nat → Nat) (m : SlotMap) (n : Half) (p : InPass) :
    handOut key m n p = handOvers key m n (orderBy (fun e => key (OutEvent.number e)) outEvents) p :=
  rfl

theorem handOvers_cons (key : Nat → Nat) (m : SlotMap) (n : Half) (e : OutEvent) (es : List OutEvent) (p : InPass) :
    handOvers key m n (e :: es) p = handOvers key m n es (outEvent key m n e p) :=
  rfl

theorem handOvers_append (key : Nat → Nat) (m : SlotMap) (n : Half) (es fs : List OutEvent) (p : InPass) :
    handOvers key m n (es ++ fs) p = handOvers key m n fs (handOvers key m n es p) :=
  List.foldl_append ..

theorem outEvents_nodup : outEvents.Nodup := by decide +kernel

theorem mem_outEvents (e : OutEvent) : e ∈ outEvents := by
  cases e with
  | line | request | watch | testFill => decide
  | opportunity c => simp [outEvents, opportunities, mem_allChannels]
  | command c => simp [outEvents, commandWrites, mem_allChannels]

theorem handOvers_steps (key : Nat → Nat) (m : SlotMap) (n : Half) (es : List OutEvent) (p : InPass) :
    Steps p.state (handOvers key m n es p).state := by
  induction es generalizing p with
  | nil => exact .refl
  | cons e es ih => exact (outEvent_steps key m n e p).trans (ih _)

/-! ### Which slots a hand-over writes -/

/-- Presence is read from the map in force alone (R45). -/
theorem present_of_mapInForce {s t : State} (h : t.sweep.mapInForce = s.sweep.mapInForce) (c : ChanNo) :
    present t c = present s c := by
  rw [present, h, present]

theorem outEvent_present (key : Nat → Nat) (m : SlotMap) (n : Half) (e : OutEvent) (p : InPass) (c : ChanNo) :
    present (outEvent key m n e p).state c = present p.state c :=
  present_of_mapInForce (outEvent_steps key m n e p).sameOutside.mapInForce c

/-- The hand-over writes slot `k`. -/
def WritesSlot (m : SlotMap) (p : InPass) (k : Nat) : OutEvent → Prop
  | .testFill => k ∈ testSlots m p.slots.length
  | .command c => present p.state c = true ∧ m.slotOf (.command c) = some k
  | _ => False

theorem outEvent_length (key : Nat → Nat) (m : SlotMap) (n : Half) (e : OutEvent) (p : InPass) :
    (outEvent key m n e p).slots.length = p.slots.length := by
  cases e with
  | line | request | watch | opportunity => rfl
  | testFill =>
    simp only [outEvent, fillTests]
    split
    · exact fillSlots_length _ _ _
    · rfl
  | command c =>
    simp only [outEvent, commandEvent]
    split
    · exact writeSlot_length _ _ _ _
    · rfl

/-- A hand-over leaves every slot it does not write. -/
theorem outEvent_slot_of_not_writes {m : SlotMap} {p : InPass} {k : Nat} {e : OutEvent} (he : ¬WritesSlot m p k e)
    (key : Nat → Nat) (n : Half) : (outEvent key m n e p).slots[k]? = p.slots[k]? := by
  cases e with
  | line | request | watch | opportunity => rfl
  | testFill =>
    simp only [outEvent, fillTests]
    split
    · exact fillSlots_other he _ _
    · rfl
  | command c =>
    simp only [outEvent, commandEvent]
    split
    case isTrue hp => exact writeSlot_other _ _ fun hk => he ⟨hp, hk⟩
    case isFalse => rfl

/-- What a hand-over writes does not change in the pass. -/
theorem writesSlot_outEvent_iff (key : Nat → Nat) (m : SlotMap) (n : Half) (e d : OutEvent) (p : InPass) (k : Nat) :
    WritesSlot m (outEvent key m n e p) k d ↔ WritesSlot m p k d := by
  cases d with
  | line | request | watch | opportunity => rfl
  | testFill => simp only [WritesSlot, outEvent_length]
  | command c => simp only [WritesSlot, outEvent_present]

theorem handOvers_slot_of_not_writes {m : SlotMap} {es : List OutEvent} {p : InPass} {k : Nat}
    (he : ∀ e ∈ es, ¬WritesSlot m p k e) (key : Nat → Nat) (n : Half) :
    (handOvers key m n es p).slots[k]? = p.slots[k]? := by
  induction es generalizing p with
  | nil => rfl
  | cons e es ih =>
    rw [handOvers_cons, ih, outEvent_slot_of_not_writes (he e (by simp))]
    exact fun d hd => mt (writesSlot_outEvent_iff key m n e d p k).1 (he d (by simp [hd]))

theorem handOvers_length (key : Nat → Nat) (m : SlotMap) (n : Half) (es : List OutEvent) (p : InPass) :
    (handOvers key m n es p).slots.length = p.slots.length := by
  induction es generalizing p with
  | nil => rfl
  | cons e es ih => rw [handOvers_cons, ih, outEvent_length]

theorem writesSlot_handOvers_iff (key : Nat → Nat) (m : SlotMap) (n : Half) (es : List OutEvent) (d : OutEvent)
    (p : InPass) (k : Nat) : WritesSlot m (handOvers key m n es p) k d ↔ WritesSlot m p k d := by
  induction es generalizing p with
  | nil => rfl
  | cons e es ih => rw [handOvers_cons, ih, writesSlot_outEvent_iff]

theorem handOvers_present (key : Nat → Nat) (m : SlotMap) (n : Half) (es : List OutEvent) (p : InPass) (c : ChanNo) :
    present (handOvers key m n es p).state c = present p.state c :=
  present_of_mapInForce (handOvers_steps key m n es p).sameOutside.mapInForce c

/-- A hand-over writes slot `k` only where the map gives that slot TEST or the channel's COMMAND role. -/
theorem role_of_writesSlot {m : SlotMap} {p : InPass} {k : Nat} {e : OutEvent} (h : WritesSlot m p k e) :
    ∃ i : Fin 183, k = i.val + 1 ∧
      (m[i.val] = .test ∨ ∃ c, e = .command c ∧ m[i.val] = .command c ∧ present p.state c = true) := by
  cases e with
  | line | request | watch | opportunity => exact absurd h id
  | testFill =>
    obtain ⟨i, hi, hk, _⟩ := (mem_testSlots_iff _ _ _).1 h
    exact ⟨i, hk, .inl hi⟩
  | command c =>
    obtain ⟨hp, hk⟩ := h
    obtain ⟨hpos, hlt, hrole⟩ := slotOf_spec hk
    exact ⟨⟨k - 1, hlt⟩, by simp; omega, .inr ⟨c, rfl, hrole, hp⟩⟩

/-- R85: the COMMAND slot of a present channel carries the command of the moment at which it is written. -/
theorem handOvers_command_slot {m : SlotMap} {es : List OutEvent} {p : InPass} {c : ChanNo} {k : Nat}
    (hn : es.Nodup) (hc : .command c ∈ es) (hp : present p.state c = true) (hk : m.slotOf (.command c) = some k)
    (hlt : k < p.slots.length) (key : Nat → Nat) (n : Half) :
    ∃ es₁ es₂, es = es₁ ++ .command c :: es₂ ∧
      (handOvers key m n es p).slots[k]? =
        some (commandData (seqOf (handOvers key m n es₁ p).state c).cmd
          (holdBit (handOvers key m n es₁ p).state)).toSlot := by
  obtain ⟨es₁, es₂, rfl⟩ := List.append_of_mem hc
  refine ⟨es₁, es₂, rfl, ?_⟩
  have hlater : ∀ e ∈ es₂, ¬WritesSlot m (outEvent key m n (.command c) (handOvers key m n es₁ p)) k e := by
    intro e he hw
    obtain ⟨hpos, hlt, hrole⟩ := slotOf_spec hk
    obtain ⟨i, hi, hrole'⟩ := role_of_writesSlot hw
    have hik : m[i.val] = .command c := by
      subst hi
      exact hrole
    rcases hrole' with htest | ⟨d, rfl, hd, _⟩
    · rw [hik] at htest
      cases htest
    · rw [hik] at hd
      cases hd
      have hnodup := (List.nodup_append.1 hn).2.1
      exact (List.nodup_cons.1 hnodup).1 he
  have hpresent := (handOvers_present key m n es₁ p c).trans hp
  rw [handOvers_append, handOvers_cons, handOvers_slot_of_not_writes hlater, outEvent, commandEvent, if_pos hpresent]
  exact writeSlot_self _ hk (by rwa [handOvers_length])

end Sys2Proof.Machine

/-! ## Proofs: a processed outbound pass (07) -/

namespace Sys2Proof.Machine

/-! ### The COMMAND slot (12.2) -/

theorem commandData_flags (n : BitVec 4) (k : Kind) (g : Gun) (hold : Bool) :
    let b : Byte := n.setWidth 8 ||| (k.code <<< 4) ||| flagAt 6 g.bit ||| flagAt 7 hold
    b.extractLsb' 0 4 = n ∧
      b.extractLsb' 4 2 = (match k with | .idle => 0 | .body => 1 | .dress => 2 | .cap => 3 : BitVec 2) ∧
      b.getLsbD 6 = (g == .gun2) ∧ b.getLsbD 7 = hold := by
  revert n
  cases k <;> cases g <;> cases hold <;> decide

theorem flagAt_zero (b : Bool) : flagAt 0 b = if b then 1 else 0 := by
  cases b <;> rfl

/-- The bytes of a COMMAND slot. -/
theorem commandData_bytes (cmd : Command) (hold : Bool) :
    let d := commandData cmd hold
    d.b0 = cmd.program ∧ d.b1.extractLsb' 0 4 = cmd.sel ∧
    d.b1.extractLsb' 4 2 = (match cmd.kind with | .idle => 0 | .body => 1 | .dress => 2 | .cap => 3 : BitVec 2) ∧
    d.b1.getLsbD 6 = (cmd.gun == .gun2) ∧ d.b1.getLsbD 7 = hold ∧ d.b2 = cmd.boost ∧ d.b3 = cmd.spots ∧
    d.b4 ++ d.b5 = cmd.tag ∧ d.b6 = (if cmd.cover then 1 else 0) ∧
    d.toSlot = { data := d, check := d.b0 ^^^ d.b1 ^^^ d.b2 ^^^ d.b3 ^^^ d.b4 ^^^ d.b5 ^^^ d.b6 } := by
  obtain ⟨hsel, hkind, hgun, hhold⟩ := commandData_flags cmd.sel cmd.kind cmd.gun hold
  exact ⟨rfl, hsel, hkind, hgun, hhold, rfl, rfl, half_bytes cmd.tag, flagAt_zero cmd.cover, rfl⟩

/-! ### What stands before the hand-overs (R134, R137, R139) -/

/-- What the loss of the earlier sweep leaves alone. -/
theorem loseSweep_keeps (s : State) :
    (loseSweep s).sweep = { s.sweep with outstanding := none } ∧ (loseSweep s).pins = s.pins ∧
      (loseSweep s).sent = s.sent ∧ (loseSweep s).choice = s.choice ∧ (loseSweep s).mgmt = s.mgmt ∧
      (loseSweep s).node = s.node := by
  unfold loseSweep
  split
  case h_1 ho =>
    refine ⟨?_, rfl, rfl, rfl, rfl, rfl⟩
    rw [← ho]
  case h_2 => exact ⟨rfl, rfl, rfl, rfl, rfl, rfl⟩

/-- The map comes into force, and the losses of the channels it makes unavailable touch lists and marks alone. -/
theorem enterMap_listsAndMarks (s : State) :
    ListsAndMarks { s with sweep := { s.sweep with mapInForce := some s.sweep.storedMap } } (enterMap s) :=
  listsAndMarks_foldl (fun u c => loseService_listsAndMarks c .orderly u) _ _

theorem enterMap_keeps (s : State) :
    (enterMap s).sweep = { s.sweep with mapInForce := some s.sweep.storedMap } ∧ (enterMap s).pins = s.pins ∧
      (enterMap s).sent = s.sent ∧ (enterMap s).choice = s.choice ∧ (enterMap s).mgmt = s.mgmt ∧
      (enterMap s).node = s.node := by
  rw [(enterMap_listsAndMarks s).eq]
  exact ⟨rfl, rfl, rfl, rfl, rfl, rfl⟩

/-- The sweep interface when the hand-overs begin. -/
theorem beginOutbound_sweep (n : Half) (z : SizeCode) (s : State) :
    (beginOutbound n z s).sweep = { s.sweep with
      mapInForce := some s.sweep.storedMap
      outstanding := some { number := n, size := z, closed := !s.pins.portB, addressed := false }
      link := .up } := by
  obtain ⟨hlose, hpins, -⟩ := loseSweep_keeps s
  obtain ⟨henter, hepins, -⟩ := enterMap_keeps (loseSweep s)
  unfold beginOutbound
  generalize enterMap (loseSweep s) = v at henter hepins
  dsimp only [linkUp]
  rw [henter, hepins, hpins, hlose]

/-- What else the beginning of a pass leaves alone. -/
theorem beginOutbound_keeps (n : Half) (z : SizeCode) (s : State) :
    (beginOutbound n z s).pins = s.pins ∧ (beginOutbound n z s).sent = s.sent ∧
      (beginOutbound n z s).choice = s.choice ∧ (beginOutbound n z s).mgmt = s.mgmt ∧
      (beginOutbound n z s).node = s.node := by
  obtain ⟨-, hpins, hsent, hchoice, hmgmt, hnode⟩ := loseSweep_keeps s
  obtain ⟨-, hepins, hesent, hechoice, hemgmt, henode⟩ := enterMap_keeps (loseSweep s)
  unfold beginOutbound
  generalize enterMap (loseSweep s) = v at hepins hesent hechoice hemgmt henode
  exact ⟨hepins.trans hpins, hesent.trans hsent, hechoice.trans hchoice, hemgmt.trans hmgmt, henode.trans hnode⟩

/-! ### The end of the pass -/

/-- The frame sent or kept, and the free order's counter advanced, from what the hand-overs give. -/
def passed (f : Frame) (p : InPass) : State :=
  nextChoice (endOutbound { f with payload := payloadOf p.slots } p.state)

theorem passed_eq {p : InPass} (hc : p.state.sweep.closure = none) (f : Frame) :
    passed f p = { p.state with
      sent := p.state.sent ++ (if p.state.pins.portB then
        [{ port := .portB, isSweep := true, frame := { f with payload := payloadOf p.slots } }] else [])
      sweep := { p.state.sweep with
        closure := if p.state.pins.portB then none else some { f with payload := payloadOf p.slots } }
      choice := p.state.choice + 1 } := by
  rw [passed, endOutbound_eq, hc]
  rfl

/-- The events of a pass, in the order of the keys of its counter. -/
def passOrder (key : Nat → Nat) : List OutEvent := orderBy (fun e => key (OutEvent.number e)) outEvents

theorem passOrder_perm (key : Nat → Nat) : (passOrder key).Perm outEvents := orderBy_perm _ _

/-- A processed outbound pass, from the state after the return by closure that was due. -/
theorem exec_outboundPass_good {s u : State} {f : Frame} {n : Half} {z : SizeCode} (hs : s.pins.inReset = false)
    (hu : settleClosure Config.eventKey { s with sent := [] } = u) (hf : headerOf f.payload = some (n, z)) :
    exec (.outboundPass f) s = .next (passed f
      (handOvers (Config.eventKey u.choice) u.sweep.storedMap n (passOrder (Config.eventKey u.choice))
        (beginPass n z f u))) := by
  have hmap : (beginOutbound n z u).sweep.storedMap = u.sweep.storedMap := by rw [beginOutbound_sweep]
  rw [exec_outboundPass hs, hu, outboundFrame_of_good hf, processOutbound_eq, handedOut, hmap, handOut_eq]
  rfl

/-! ### The statement's reading of what stands before the hand-overs -/

/-- Under a new map an available channel stays available exactly while it is present. -/
theorem available_under_map {w : State} {c : ChanNo} (ha : available w c = true) (m : SlotMap) :
    available { w with sweep := { w.sweep with mapInForce := some m } } c =
      (m.holds (.command c) && m.holds (.reply c)) := by
  simp only [available, Bool.and_eq_true] at ha
  obtain ⟨⟨⟨-, hfailed⟩, hout⟩, hoverdue⟩ := ha
  simp only [available, present, hfailed, hout, hoverdue, Bool.and_true]

/-- R54, R139: the channels that the map makes unavailable. -/
theorem turnedUnavailable_under_map (w : State) (m : SlotMap) :
    turnedUnavailable w { w with sweep := { w.sweep with mapInForce := some m } } =
      allChannels.filter fun c => available w c && !(m.holds (.command c) && m.holds (.reply c)) := by
  refine List.filter_congr fun c _ => ?_
  cases ha : available w c
  · rfl
  · rw [available_under_map ha]

theorem enterMap_loseSweep_eq (u : State) :
    enterMap (loseSweep u) =
      (allChannels.filter fun c => available (sweepLost u u) c &&
          !(u.sweep.storedMap.holds (.command c) && u.sweep.storedMap.holds (.reply c))).foldl
        (fun v c => loseService c .orderly v)
        { sweepLost u u with sweep := { (sweepLost u u).sweep with mapInForce := some u.sweep.storedMap } } := by
  have hlost : loseSweep u = sweepLost u u := loseSweep_eq rfl rfl rfl
  obtain ⟨hsweep, -⟩ := loseSweep_keeps u
  have hmap : (sweepLost u u).sweep.storedMap = u.sweep.storedMap := by rw [← hlost, hsweep]
  rw [hlost, enterMap, hmap]
  dsimp only
  rw [turnedUnavailable_under_map]

/-- Settles O54: the order of the keys is the free one; the pass is the hand-overs in that order from what stands before
them, and a slot is written by its own hand-over alone. -/
theorem outboundPassIsProcessed : Obligations.OutboundPassIsProcessed := by
  refine ⟨fun f n z s hs hf => ?_, commandData_bytes⟩
  obtain ⟨hclosure, hpins⟩ := settleClosure_keeps Config.eventKey { s with sent := [] }
  have hreturn := exec_ringClosureReturn hs
  have hpass := fun u hu => exec_outboundPass_good (u := u) hs hu hf
  generalize hu : settleClosure Config.eventKey { s with sent := [] } = u at hclosure hpins hreturn
  have hpins : u.pins = s.pins := hpins
  have hexec := hpass u hu
  have hperm := passOrder_perm (Config.eventKey u.choice)
  generalize passOrder (Config.eventKey u.choice) = es at hexec hperm
  generalize hkey : Config.eventKey u.choice = key at hexec
  refine ⟨u, key, es, hreturn, hperm, ?_⟩
  intro m lost mapped event begun done out t
  have hmapped : mapped = enterMap (loseSweep u) := (enterMap_loseSweep_eq u).symm
  have hevent : ∀ q e, event q e = outEvent key m n e q := by
    intro q e
    cases e with
    | request | watch | testFill | opportunity => rfl
    | line =>
      simp only [event, outEvent, lineEvent]
      cases slotFor m q.slots .line <;> rfl
    | command c =>
      simp only [event, outEvent, commandEvent, writeSlot]
      cases present q.state c <;> cases m.slotOf (.command c) <;> rfl
  have hbegun : begun = beginPass n z f u := by
    obtain ⟨-, hlpins, -⟩ := loseSweep_keeps u
    obtain ⟨-, hepins, -⟩ := enterMap_keeps (loseSweep u)
    have hv : mapped.pins = s.pins := by rw [hmapped, hepins, hlpins, hpins]
    simp only [begun, beginPass, beginOutbound, ← hmapped, ← hv]
    rfl
  have hdone : ∀ es, es.foldl event begun = handOvers key m n es (beginPass n z f u) := by
    intro es
    rw [hbegun, handOvers, show event = fun q e => outEvent key m n e q from funext fun q => funext fun e => hevent q e]
  have hsame : SameOutside (beginOutbound n z u) done.state := by
    simp only [done, hdone]
    exact (handOvers_steps key m n es (beginPass n z f u)).sameOutside
  have hpass : done = handOvers key m n es (beginPass n z f u) := hdone es
  obtain ⟨hbpins, hbsent, hbchoice, -⟩ := beginOutbound_keeps n z u
  have hbsweep := beginOutbound_sweep n z u
  have hdpins : done.state.pins = s.pins := (hsame.pins.trans hbpins).trans hpins
  have hmap : done.state.sweep.mapInForce = some m := hsame.mapInForce.trans (by rw [hbsweep])
  have hnone : done.state.sweep.closure = none := hsame.closure.trans (by rw [hbsweep]; exact hclosure)
  have hsize : (slotsOf f.payload).length = z.slots := slotsOf_length _ _ ((headerOf_eq_some_iff _ _ _).1 hf).1
  have hlength : done.slots.length = z.slots := by rw [hpass, handOvers_length]; exact hsize
  have hpresent : ∀ c, present (beginPass n z f u).state c = present t c := fun c =>
    present_of_mapInForce (hsame.mapInForce.symm) c
  refine ⟨?exec, hmap, hsame.link.trans (beginOutbound_link n z u), hdpins, ?outstanding, ?length, slotsOf_payloadOf _,
    fun k hk hrole => ?untouched, fun c k hc hslot hk => ?written⟩
  case exec =>
    rw [hexec, show handOvers key u.sweep.storedMap n es (beginPass n z f u) = done from hpass.symm, passed_eq hnone,
      hdpins, hsame.sent.trans hbsent, hsame.choice.trans hbchoice]
  case outstanding =>
    have hout := hsame.outstanding
    rw [hbsweep] at hout
    obtain ⟨o, ho, heq⟩ := Option.map_eq_some_iff.1 hout
    refine ⟨o.addressed, ho.trans (congrArg some ?_)⟩
    obtain ⟨on, oz, oc, oa⟩ := o
    cases heq
    rw [hpins]
    rfl
  case length =>
    rw [show out.payload = payloadOf done.slots from rfl, payloadOf_length, hlength]
    exact ((headerOf_eq_some_iff _ _ _).1 hf).1.symm
  case untouched =>
    rw [hpass, handOvers_slot_of_not_writes]
    · rfl
    · intro e _ hw
      obtain ⟨i, rfl, hi⟩ := role_of_writesSlot hw
      rcases hrole with h0 | ⟨j, hj, htest, hcommand⟩
      · omega
      · obtain rfl : i = j := Fin.ext (by omega)
        rcases hi with hi | ⟨c, -, hi, hc⟩
        · exact htest hi
        · rw [hpresent, hcommand c hi] at hc
          cases hc
  case written =>
    have hnodup : es.Nodup := hperm.nodup_iff.2 outEvents_nodup
    obtain ⟨es₁, es₂, hes, hval⟩ := handOvers_command_slot (p := beginPass n z f u) hnodup
      (hperm.mem_iff.2 (mem_outEvents _)) ((hpresent c).trans hc) hslot (hsize.symm ▸ hk) key n
    refine ⟨es₁, es₂, hes, ?_⟩
    rw [hpass, hval, hdone]
    rfl

end Sys2Proof.Machine

/-! ## Proofs: an outbound pass without line data and requests (07) -/

namespace Sys2Proof.Machine

/-! ### The opportunity of one channel (R93) -/

/-- An opportunity changes its own channel's sequencer alone. -/
theorem opportunity_eq_setSeq (c : ChanNo) (s : State) : opportunity c s = setSeq c (seqOf (opportunity c s) c) s := by
  have hset : ∀ q, setSeq c q s = setSeq c (seqOf (setSeq c q s) c) s := fun q => by rw [seqOf_setSeq_self]
  unfold opportunity
  split
  case isTrue =>
    split
    case h_1 => exact hset _
    case h_2 =>
      split
      case h_1 =>
        split
        · exact hset _
        · exact (setSeq_seqOf c s).symm
      case h_2 => exact (setSeq_seqOf c s).symm
  case isFalse => exact (setSeq_seqOf c s).symm

/-- What an opportunity reads. -/
structure SameForOpportunity (c : ChanNo) (s t : State) : Prop where
  node : t.node = s.node
  mapInForce : t.sweep.mapInForce = s.sweep.mapInForce
  track : t.track = s.track
  chans : t.chans = s.chans
  wear : t.wear = s.wear
  curves : t.curves = s.curves
  seq : seqOf t c = seqOf s c

theorem headUpstream_congr {c : ChanNo} {s t : State} (h : SameForOpportunity c s t) :
    headUpstream t c = headUpstream s c := by
  have hstation : ∀ b, stationOf t b = stationOf s b := fun b => by simp only [stationOf, h.track]
  have hchan : chanRec t c = chanRec s c := by simp only [chanRec, h.chans]
  unfold headUpstream
  rw [h.seq, hchan]
  cases (seqOf s c).list with
  | nil => rfl
  | cons r rs =>
    dsimp only
    rw [hstation]

theorem dueOffer_congr {c : ChanNo} {s t : State} (h : SameForOpportunity c s t) : dueOffer t c = dueOffer s c := by
  have hchan : chanRec t c = chanRec s c := by simp only [chanRec, h.chans]
  have hwear : wearOf t c = wearOf s c := by simp only [wearOf, h.wear]
  unfold dueOffer
  rw [hchan, hwear]

/-- States that agree on what it reads get the same sequencer from it. -/
theorem opportunity_congr {c : ChanNo} {s t : State} (h : SameForOpportunity c s t) :
    seqOf (opportunity c t) c = seqOf (opportunity c s) c := by
  obtain ⟨hnode, hmap, -, hchans, hwear, hcurves, hq⟩ := id h
  have hpresent : present t c = present s c := present_of_mapInForce hmap c
  have havailable : available t c = available s c := by simp only [available, hpresent, hchans]
  have hchan : chanRec t c = chanRec s c := by simp only [chanRec, hchans]
  have hchoice : maintChoice t c = maintChoice s c := by
    unfold maintChoice
    rw [hchan, headUpstream_congr h, dueOffer_congr h]
  have hboost : ∀ g, boostFor t c g = boostFor s c g := fun g => by simp only [boostFor, wearOf, hwear, hcurves]
  by_cases hi : s.node.state = .run ∧ present s c = true ∧ (seqOf s c).job = none
  · have hi' : t.node.state = .run ∧ present t c = true ∧ (seqOf t c).job = none := by rwa [hnode, hpresent, hq]
    cases hm : maintChoice s c with
    | some x =>
      obtain ⟨g, kind, program⟩ := x
      rw [opportunity_of_maint hi hm, opportunity_of_maint hi' (hchoice.trans hm)]
      simp only [startMaint, startJob, seqOf_setSeq_self, hq]
    | none =>
      have hm' := hchoice.trans hm
      cases hl : (seqOf s c).list with
      | nil => rw [opportunity_of_empty hi hm hl, opportunity_of_empty hi' hm' (by rw [hq, hl]), hq]
      | cons x xs =>
        rw [opportunity_of_head hi hm hl, opportunity_of_head hi' hm' (by rw [hq, hl]), havailable]
        cases available s c
        · exact hq
        · simp only [if_true, startBody, startJob, seqOf_setSeq_self, hq, hboost]
  · have hi' : ¬(t.node.state = .run ∧ present t c = true ∧ (seqOf t c).job = none) := by rwa [hnode, hpresent, hq]
    rw [opportunity_of_not hi, opportunity_of_not hi', hq]

/-! ### What is received in a slot that no hand-over writes -/

/-- The slot of a role other than TEST and COMMAND holds during the pass what came. -/
theorem slotFor_handOvers {m : SlotMap} {r : Role} (ht : r ≠ .test) (hc : ∀ c, r ≠ .command c) (key : Nat → Nat)
    (n : Half) (es : List OutEvent) (p : InPass) :
    slotFor m (handOvers key m n es p).slots r = slotFor m p.slots r := by
  unfold slotFor
  cases hk : m.slotOf r with
  | none => rfl
  | some k =>
    dsimp only
    rw [handOvers_slot_of_not_writes]
    intro e _ hw
    obtain ⟨hpos, hlt, hrole⟩ := slotOf_spec hk
    obtain ⟨i, hi, hrole'⟩ := role_of_writesSlot hw
    have hik : m[i.val] = r := by
      subst hi
      exact hrole
    rcases hrole' with htest | ⟨c, -, hcommand, -⟩
    · exact ht (hik ▸ htest)
    · exact hc c (hik ▸ hcommand)

/-- Without a LINE slot the line hand-over does nothing. -/
theorem lineEvent_of_none {m : SlotMap} {sls : List Slot} (h : slotFor m sls .line = none) (n : Half) (s : State) :
    lineEvent m n sls s = s := by
  rw [lineEvent, h]

/-- A header for another node is no request. -/
theorem requestEvent_of_other {m : SlotMap} {sls : List Slot} {s : State}
    (h : ∀ x, slotFor m sls (.mgmt 0) = some x → x.2.ok = true ∧ viaOf s.node.address x.2.data = none)
    (key : Nat → Nat) (n : Half) : requestEvent key m n sls s = s := by
  unfold requestEvent
  split
  case h_1 => rfl
  case h_2 x hx =>
    obtain ⟨hok, hvia⟩ := h x hx
    simp only [hok, hvia, Bool.not_true, Bool.false_eq_true, if_false]

/-! ### The beginning under the map that is in force already -/

theorem enterMap_of_same {s : State} (hm : s.sweep.mapInForce = some s.sweep.storedMap) : enterMap s = s := by
  have hs : ({ s with sweep := { s.sweep with mapInForce := some s.sweep.storedMap } } : State) = s := by rw [← hm]
  have hnone : turnedUnavailable s s = [] := by simp [turnedUnavailable]
  rw [enterMap, hs, hnone]
  rfl

/-- The earlier sweep lost, with its hand-overs, and the frames of the last command forgotten. -/
def quietStart (s : State) : State :=
  { s with
    sent := []
    seqs := if s.sweep.outstanding.isSome then s.seqs.map fun q => { q with history := none } else s.seqs
    path := { s.path with
      expected := []
      lostSweeps := if s.sweep.outstanding.isSome then
          (if s.path.lostSweeps = 65535 then 65535 else s.path.lostSweeps + 1)
        else s.path.lostSweeps } }

/-- The state in which the hand-overs begin under the map that is in force already. -/
def quietBegun (n : Half) (z : SizeCode) (s : State) : State :=
  { quietStart s with
    sweep := { s.sweep with
      outstanding := some { number := n, size := z, closed := !s.pins.portB, addressed := false }, link := .up } }

theorem beginOutbound_of_same {s : State} (hm : s.sweep.mapInForce = some s.sweep.storedMap) (n : Half) (z : SizeCode) :
    beginOutbound n z { s with sent := [] } = quietBegun n z s := by
  have hlost : enterMap (loseSweep { s with sent := [] }) = loseSweep { s with sent := [] } := by
    refine enterMap_of_same ?_
    rw [(loseSweep_keeps _).1]
    exact hm
  unfold beginOutbound
  rw [hlost]
  cases ho : s.sweep.outstanding <;> simp [loseSweep, linkUp, quietBegun, quietStart, ho, satHalf_eq]

/-! ### The hand-overs of a quiet pass -/

/-- What the hand-overs `es` of a quiet pass make of `p`, whatever their order: `q` differs from `p` in the watch, in the
tester and in the sequencers that had their opportunity. -/
structure QuietSoFar (m : SlotMap) (p : InPass) (es : List OutEvent) (q : InPass) : Prop where
  state : q.state = { p.state with
    seqs := q.state.seqs
    sweep := { p.state.sweep with watch := if .watch ∈ es then (restartWatch p.state).sweep.watch else p.state.sweep.watch }
    path := if .testFill ∈ es ∧ p.state.path.running = true then
        (fillSlots (testSlots m p.slots.length) p.state.path p.slots).1 else p.state.path }
  seq : ∀ c, seqOf q.state c = if .opportunity c ∈ es then seqOf (opportunity c p.state) c else seqOf p.state c

theorem QuietSoFar.sameForOpportunity {m : SlotMap} {p q : InPass} {es : List OutEvent} {c : ChanNo}
    (h : QuietSoFar m p es q) (hc : .opportunity c ∉ es) : SameForOpportunity c p.state q.state := by
  have hq := h.seq c
  rw [if_neg hc] at hq
  have hs := h.state
  generalize q.state = u at hs hq
  rw [hs] at hq ⊢
  exact ⟨rfl, rfl, rfl, rfl, rfl, rfl, hq⟩

/-- A hand-over that leaves the state alone and is none of those that count keeps what is known. -/
theorem QuietSoFar.append_of_same {m : SlotMap} {p q r : InPass} {es : List OutEvent} {e : OutEvent}
    (h : QuietSoFar m p es q) (hr : r.state = q.state) (hw : e ≠ .watch) (hf : e ≠ .testFill)
    (ho : ∀ c, e ≠ .opportunity c) : QuietSoFar m p (es ++ [e]) r := by
  obtain ⟨hstate, hseq⟩ := h
  constructor
  · simpa only [hr, List.mem_append, List.mem_singleton, hw.symm, hf.symm, or_false] using hstate
  · simpa only [hr, List.mem_append, List.mem_singleton, (ho _).symm, or_false] using hseq

/-- R134, R137: after any part of the hand-overs of a pass without line data and requests. -/
theorem quietSoFar_handOvers {m : SlotMap} {p : InPass} {es : List OutEvent} (hn : es.Nodup)
    (hline : slotFor m p.slots .line = none)
    (hreq : ∀ x, slotFor m p.slots (.mgmt 0) = some x → x.2.ok = true ∧ viaOf p.state.node.address x.2.data = none)
    (key : Nat → Nat) (n : Half) : QuietSoFar m p es (handOvers key m n es p) := by
  induction es using List.reverseRecOn with
  | nil =>
    constructor
    · rfl
    · exact fun c => rfl
  | append_singleton es e ih =>
    obtain ⟨hes, -, hdisjoint⟩ := List.nodup_append.1 hn
    have he : e ∉ es := fun h => hdisjoint e h e (by simp) rfl
    have h := ih hes
    have hlength := handOvers_length key m n es p
    have hslot := fun r ht hc => slotFor_handOvers (m := m) (r := r) ht hc key n es p
    rw [handOvers_append]
    generalize handOvers key m n es p = q at h hlength hslot
    have hnode : q.state.node = p.state.node := by rw [h.state]
    cases e with
    | line =>
      refine h.append_of_same ?_ (by simp) (by simp) (by simp)
      exact lineEvent_of_none (by rw [hslot _ (by simp) (by simp), hline]) n q.state
    | request =>
      refine h.append_of_same ?_ (by simp) (by simp) (by simp)
      exact requestEvent_of_other (by rw [hslot _ (by simp) (by simp), hnode]; exact hreq) key n
    | command c =>
      refine h.append_of_same ?_ (by simp) (by simp) (by simp)
      simp only [handOvers, List.foldl_cons, List.foldl_nil, outEvent, commandEvent]
      split <;> rfl
    | watch =>
      obtain ⟨hstate, hseq⟩ := h
      constructor
      · simp only [handOvers, List.foldl_cons, List.foldl_nil, outEvent, restartWatch]
        rw [hstate]
        simp
      · exact fun c => (hseq c).trans (by simp)
    | testFill =>
      obtain ⟨hstate, hseq⟩ := h
      have hpath : q.state.path = p.state.path := by rw [hstate]; simp [he]
      have hfill := (fillSlots_congr (ks := testSlots m q.slots.length) hlength p.state.path).1
      simp only [handOvers, List.foldl_cons, List.foldl_nil, outEvent, fillTests, hpath]
      by_cases hrun : p.state.path.running = true
      · rw [if_pos hrun]
        constructor
        · dsimp only
          rw [hfill, hlength, hstate]
          simp [hrun]
        · exact fun c => (hseq c).trans (by simp)
      · rw [if_neg hrun]
        constructor
        · simpa [hrun] using hstate
        · exact fun c => (hseq c).trans (by simp)
    | opportunity c =>
      have hq := opportunity_congr (h.sameForOpportunity he)
      have hset := opportunity_eq_setSeq c q.state
      obtain ⟨hstate, hseq⟩ := h
      simp only [handOvers, List.foldl_cons, List.foldl_nil, outEvent]
      rw [hq] at hset
      rw [hset]
      constructor
      · dsimp only
        rw [setSeq, hstate]
        simp
      · intro d
        by_cases hd : d = c
        · subst hd
          simp [seqOf_setSeq_self]
        · simp [seqOf_setSeq_of_ne hd, hseq, hd]

/-- R185: the TEST slots at the end of a quiet pass. -/
theorem quiet_testSlot {m : SlotMap} {p : InPass} {es : List OutEvent} {k : Nat} (hn : es.Nodup)
    (hf : .testFill ∈ es) (hk : k ∈ testSlots m p.slots.length) (hline : slotFor m p.slots .line = none)
    (hreq : ∀ x, slotFor m p.slots (.mgmt 0) = some x → x.2.ok = true ∧ viaOf p.state.node.address x.2.data = none)
    (key : Nat → Nat) (n : Half) :
    (handOvers key m n es p).slots[k]? =
      if p.state.path.running then (fillSlots (testSlots m p.slots.length) p.state.path p.slots).2[k]? else p.slots[k]? := by
  obtain ⟨i, hi, rfl, -⟩ := (mem_testSlots_iff _ _ _).1 hk
  have hothers : ∀ (q : InPass) e, e ≠ .testFill → ¬WritesSlot m q (i.val + 1) e := by
    intro q e he hw
    cases e with
    | line | request | watch | opportunity => exact hw
    | testFill => exact he rfl
    | command c =>
      obtain ⟨-, hlt, hrole⟩ := slotOf_spec hw.2
      have hik : m[i.val] = .command c := hrole
      rw [hi] at hik
      cases hik
  obtain ⟨es₁, es₂, rfl⟩ := List.append_of_mem hf
  obtain ⟨hn₁, hn₂, hdisjoint⟩ := List.nodup_append.1 hn
  have hfirst : .testFill ∉ es₁ := fun h => hdisjoint _ h _ (by simp) rfl
  have hsecond : .testFill ∉ es₂ := (List.nodup_cons.1 hn₂).1
  have hpath : (handOvers key m n es₁ p).state.path = p.state.path := by
    rw [(quietSoFar_handOvers hn₁ hline hreq key n).state]
    simp [hfirst]
  have hsame : (handOvers key m n es₁ p).slots[i.val + 1]? = p.slots[i.val + 1]? :=
    handOvers_slot_of_not_writes (fun e he => hothers p e fun h => hfirst (h ▸ he)) key n
  have hlength := handOvers_length key m n es₁ p
  rw [handOvers_append, handOvers_cons,
    handOvers_slot_of_not_writes fun e he => hothers _ e fun h => hsecond (h ▸ he)]
  simp only [outEvent, fillTests, hpath]
  split
  · rw [hlength]
    exact (fillSlots_congr hlength p.state.path).2 _ (.inl hk)
  · exact hsame

theorem opportunity_quietBegun {s : State} (n : Half) (z : SizeCode) (c : ChanNo) :
    seqOf (opportunity c (quietBegun n z s)) c = seqOf (opportunity c (quietStart s)) c :=
  opportunity_congr ⟨rfl, rfl, rfl, rfl, rfl, rfl, rfl⟩

/-- Settles O55: what the hand-overs do does not depend on their order here, but for the command that a COMMAND slot
carries, which is the one before or after the channel's opportunity. -/
theorem quietOutboundPass : Obligations.QuietOutboundPass := by
  intro f n z s sls m hs hc hm hf hline hreq lost v filled
  have hexec := exec_outboundPass_good hs (settleClosure_of_none (s := { s with sent := [] }) hc Config.eventKey) hf
  have hperm := passOrder_perm (Config.eventKey s.choice)
  dsimp only at hexec
  generalize passOrder (Config.eventKey s.choice) = es at hexec hperm
  generalize Config.eventKey s.choice = key at hexec
  have hnodup : es.Nodup := hperm.nodup_iff.2 outEvents_nodup
  have hall : ∀ e, e ∈ es := fun e => hperm.mem_iff.2 (mem_outEvents e)
  have hsize : sls.length = z.slots := slotsOf_length _ _ ((headerOf_eq_some_iff _ _ _).1 hf).1
  have hquiet := fun (es : List OutEvent) hn => quietSoFar_handOvers (es := es) (p := ⟨quietBegun n z s, sls⟩)
      hn hline hreq key n
  have hcommand := fun c k hp hk hlt => handOvers_command_slot (m := m) (p := ⟨quietBegun n z s, sls⟩) (c := c) (k := k) hnodup
    (hall _) hp hk hlt key n
  have htest := fun k hk => quiet_testSlot (m := m) (p := ⟨quietBegun n z s, sls⟩) (k := k) hnodup (hall .testFill) hk hline hreq
    key n
  simp only [beginPass, beginOutbound_of_same hm] at hexec
  obtain ⟨hstate, hseq⟩ := hquiet es hnodup
  simp only [hall, if_true, true_and] at hstate hseq
  generalize hq : handOvers key m n es ⟨quietBegun n z s, sls⟩ = q at hexec hstate hseq hcommand htest
  have hclosure : q.state.sweep.closure = none := by
    rw [hstate]
    exact hc
  have hseqs : ∀ c, seqOf (passed f q) c = seqOf (opportunity c v) c := by
    intro c
    rw [passed_eq hclosure]
    exact (hseq c).trans (opportunity_quietBegun n z c)
  refine ⟨passed f q, payloadOf q.slots, hexec.trans (by rw [← hq]), ?state, hseqs, ?commands, ?tests⟩
  case state =>
    rw [passed_eq hclosure, hstate]
    simp only [hsize]
    rfl
  case commands =>
    intro c k hp hk hlt
    obtain ⟨es₁, es₂, rfl, hval⟩ := hcommand c k hp hk (hsize ▸ hlt)
    obtain ⟨hstate₁, hseq₁⟩ := hquiet es₁ (List.nodup_append.1 hnodup).1
    have hnode : (handOvers key m n es₁ ⟨quietBegun n z s, sls⟩).state.node = s.node := by
      rw [hstate₁]
      rfl
    refine ⟨_, ?_, by rw [slotsOf_payloadOf, hval, holdBit, hnode]⟩
    rw [hseqs, hseq₁]
    split
    · exact .inr (congrArg Seq.cmd (opportunity_quietBegun n z c))
    · exact .inl rfl
  case tests =>
    intro k hk
    rw [slotsOf_payloadOf, htest k (hsize.symm ▸ hk), hsize]
    rfl

end Sys2Proof.Machine

/-! ## Proofs: the LINE slot of a quiet pass (01) -/

namespace Sys2Proof.Machine

/-! ### An accepted LINE slot (R2 to R5, R15) -/

theorem takeLine_of_none {s : State} (h : s.track.baseline = none) (d : Data7) : takeLine d s = setBaseline d s := by
  simp only [takeLine, h]

theorem takeLine_of_some {s : State} {old : Baseline} (h : s.track.baseline = some old) (d : Data7) :
    takeLine d s = setBaseline d (takeDifference old d (takeAnnouncement old d s)) := by
  simp only [takeLine, h]

theorem lineAnnouncement_eq (d : Data7) :
    lineAnnouncement d = { tag := d.b2 ++ d.b3, style := d.b4.setWidth 6, options := d.b5.setWidth 4 } := by
  rw [lineAnnouncement, ← BitVec.setWidth_eq_extractLsb' (by omega), ← BitVec.setWidth_eq_extractLsb' (by omega)]
  rfl

/-- What an announcement leaves alone. -/
theorem takeAnnouncement_keeps (old : Baseline) (d : Data7) (s : State) :
    (takeAnnouncement old d s).track.uncertain = s.track.uncertain ∧
      (takeAnnouncement old d s).track.queue = s.track.queue ∧ (takeAnnouncement old d s).node = s.node ∧
      (takeAnnouncement old d s).seqs = s.seqs := by
  unfold takeAnnouncement
  split
  · exact ⟨rfl, rfl, rfl, rfl⟩
  · split <;> exact ⟨rfl, rfl, rfl, rfl⟩

theorem takeDifference_of_zero {old : Baseline} {d : Data7} (h : d.b0 - old.transfer = 0) (s : State) :
    takeDifference old d s = s :=
  if_pos h

theorem takeDifference_of_one {old : Baseline} {d : Data7} (h : d.b0 - old.transfer = 1) (s : State) :
    takeDifference old d s = if s.track.uncertain then s else transfer s := by
  have h' : (lineBaseline d).transfer - old.transfer = 1 := h
  simp [takeDifference, h']

theorem takeDifference_of_jump {old : Baseline} {d : Data7} (h : 2 ≤ (d.b0 - old.transfer).toNat) (s : State) :
    takeDifference old d s = if s.track.uncertain then setAlarm .trackLost s else becomeUncertain s := by
  have h0 : (lineBaseline d).transfer - old.transfer ≠ 0 := fun h0 => by simp [show d.b0 - old.transfer = 0 from h0] at h
  have h1 : (lineBaseline d).transfer - old.transfer ≠ 1 := fun h1 => by simp [show d.b0 - old.transfer = 1 from h1] at h
  simp only [takeDifference, h0, h1, if_false]

/-- R15, R152, R83: the fields that becoming uncertain sets. -/
theorem becomeUncertain_fields (s : State) :
    becomeUncertain s = { setAlarm .trackLost s with
      node := { s.node with state := if s.node.state = .run ∨ s.node.state = .held then .suspended else s.node.state }
      track := { s.track with
        uncertain := true, queue := s.track.queue.map (Option.map fun b => { b with uncertain := true }) }
      seqs := if s.node.state = .run ∨ s.node.state = .held then s.seqs.map Seq.cleared else s.seqs } := by
  rw [becomeUncertain_eq]
  split
  case isTrue h =>
    simp only [uncertainEvent, h, if_true]
    rfl
  case isFalse h =>
    simp only [uncertainEvent, h, if_false]
    rfl

/-! ### What the other hand-overs of a quiet pass keep -/

/-- `t` agrees with `s` on what the LINE slot reads and changes, but for alarms, which `t` may have more of. -/
structure LineKept (s t : State) : Prop where
  tables : SameTables s t
  exit : t.report.exit = s.report.exit
  exitCount : t.report.exitCount = s.report.exitCount
  check : alarmed s .check = true → alarmed t .check = true

theorem LineKept.refl (s : State) : LineKept s s :=
  ⟨⟨rfl, rfl, rfl, rfl, rfl, rfl, rfl, rfl, fun _ => rfl⟩, rfl, rfl, id⟩

theorem LineKept.trans {s t u : State} (a : LineKept s t) (b : LineKept t u) : LineKept s u := by
  obtain ⟨⟨htrack, hbank, hchans, hpairs, hwear, hcurves, hnode, hmap, hlist⟩, hexit, hcount, hcheck⟩ := a
  obtain ⟨⟨htrack', hbank', hchans', hpairs', hwear', hcurves', hnode', hmap', hlist'⟩, hexit', hcount', hcheck'⟩ := b
  exact ⟨⟨htrack'.trans htrack, hbank'.trans hbank, hchans'.trans hchans, hpairs'.trans hpairs, hwear'.trans hwear,
    hcurves'.trans hcurves, hnode'.trans hnode, hmap'.trans hmap, fun c => (hlist' c).trans (hlist c)⟩,
    hexit'.trans hexit, hcount'.trans hcount, fun h => hcheck' (hcheck h)⟩

theorem LineKept.node {s t : State} (h : LineKept s t) : t.node = s.node := by
  obtain ⟨-, -, -, -, -, -, hnode, -⟩ := h.tables
  exact hnode

theorem lineKept_logError (e : LogRec) (s : State) : LineKept s (logError e s) := by
  have hreport : ∀ r : Report, r.exit = s.report.exit → r.exitCount = s.report.exitCount →
      LineKept s (setAlarm .check { s with report := r }) :=
    fun r he hc => ⟨⟨rfl, rfl, rfl, rfl, rfl, rfl, rfl, rfl, fun _ => rfl⟩, he, hc, fun _ => alarmed_setAlarm_self _ _⟩
  unfold logError
  refine hreport _ ?_ ?_
  all_goals
    split
    · rfl
    · split <;> rfl

/-- A new job keeps the list. -/
theorem lineKept_setSeq {c : ChanNo} {q : Seq} {s : State} (h : q.list = (seqOf s c).list) : LineKept s (setSeq c q s) := by
  refine ⟨⟨rfl, rfl, rfl, rfl, rfl, rfl, rfl, rfl, fun d => ?_⟩, rfl, rfl, id⟩
  by_cases hd : d = c
  · subst hd
    rw [seqOf_setSeq_self, h]
  · rw [seqOf_setSeq_of_ne hd]

theorem lineKept_opportunity (c : ChanNo) (s : State) : LineKept s (opportunity c s) := by
  unfold opportunity
  split
  · split
    · exact lineKept_setSeq rfl
    · split
      · split
        · exact lineKept_setSeq rfl
        · exact .refl s
      · exact .refl s
  · exact .refl s

/-- R160, R161: without a request for this node its header slot is at most logged. -/
theorem lineKept_requestEvent {m : SlotMap} {sls : List Slot} {s : State} (h : NoRequest m sls s.node.address)
    (key : Nat → Nat) (n : Half) : LineKept s (requestEvent key m n sls s) := by
  unfold requestEvent
  split
  case h_1 => exact .refl s
  case h_2 x hx =>
    split
    case isTrue => exact lineKept_logError _ s
    case isFalse hok =>
      have hvia := h x hx (by simpa using hok)
      simp only [hvia]
      exact .refl s

theorem lineKept_outEvent {m : SlotMap} {p : InPass} {e : OutEvent} (he : e ≠ .line)
    (h : NoRequest m p.slots p.state.node.address) (key : Nat → Nat) (n : Half) :
    LineKept p.state (outEvent key m n e p).state := by
  have hstate : ∀ t : State, t = { p.state with sweep := { p.state.sweep with watch := t.sweep.watch }, path := t.path } →
      LineKept p.state t := by
    intro t ht
    rw [ht]
    exact ⟨⟨rfl, rfl, rfl, rfl, rfl, rfl, rfl, rfl, fun _ => rfl⟩, rfl, rfl, id⟩
  cases e with
  | line => exact absurd rfl he
  | request => exact lineKept_requestEvent h key n
  | watch => exact hstate _ rfl
  | testFill =>
    simp only [outEvent, fillTests]
    split <;> exact hstate _ rfl
  | opportunity c => exact lineKept_opportunity c p.state
  | command c =>
    simp only [outEvent, commandEvent]
    split <;> exact .refl p.state

theorem lineKept_handOvers {m : SlotMap} {es : List OutEvent} {p : InPass} (he : .line ∉ es)
    (h : NoRequest m p.slots p.state.node.address) (key : Nat → Nat) (n : Half) :
    LineKept p.state (handOvers key m n es p).state := by
  induction es generalizing p with
  | nil => exact .refl _
  | cons e es ih =>
    rw [List.mem_cons, not_or] at he
    have hfirst := lineKept_outEvent (Ne.symm he.1) h key n
    rw [handOvers_cons]
    refine hfirst.trans (ih he.2 ?_)
    have hslot := slotFor_handOvers (m := m) (r := .mgmt 0) (by simp) (by simp) key n [e] p
    intro x hx hok
    rw [hfirst.node]
    exact h x (hslot.symm.trans hx) hok

theorem lineKept_quietBegun (n : Half) (z : SizeCode) (s : State) : LineKept s (quietBegun n z s) := by
  refine ⟨⟨rfl, rfl, rfl, rfl, rfl, rfl, rfl, rfl, fun c => ?_⟩, rfl, rfl, id⟩
  simp only [seqOf, quietBegun, quietStart]
  split
  · simp
  · rfl

theorem lineKept_passed (f : Frame) {p : InPass} (hc : p.state.sweep.closure = none) : LineKept p.state (passed f p) := by
  rw [passed_eq hc]
  exact ⟨⟨rfl, rfl, rfl, rfl, rfl, rfl, rfl, rfl, fun _ => rfl⟩, rfl, rfl, id⟩

/-- A pass under the map in force without a request: what stands before the line hand-over and what follows it. -/
theorem exec_outboundPass_line {f : Frame} {n : Half} {z : SizeCode} {s : State} (hs : s.pins.inReset = false)
    (hc : s.sweep.closure = none) (hm : s.sweep.mapInForce = some s.sweep.storedMap)
    (hf : headerOf f.payload = some (n, z)) (hreq : NoRequest s.sweep.storedMap (slotsOf f.payload) s.node.address) :
    ∃ (p : InPass) (t : State), exec (.outboundPass f) s = .next t ∧ LineKept s p.state ∧
      slotFor s.sweep.storedMap p.slots .line = slotFor s.sweep.storedMap (slotsOf f.payload) .line ∧
      LineKept (lineEvent s.sweep.storedMap n p.slots p.state) t := by
  have hexec := exec_outboundPass_good hs (settleClosure_of_none (s := { s with sent := [] }) hc Config.eventKey) hf
  have hperm := passOrder_perm (Config.eventKey s.choice)
  dsimp only at hexec
  generalize passOrder (Config.eventKey s.choice) = es at hexec hperm
  generalize Config.eventKey s.choice = key at hexec
  have hnodup : es.Nodup := hperm.nodup_iff.2 outEvents_nodup
  obtain ⟨es₁, es₂, rfl⟩ := List.append_of_mem (hperm.mem_iff.2 (mem_outEvents .line))
  obtain ⟨-, hn₂, hdisjoint⟩ := List.nodup_append.1 hnodup
  have hfirst : .line ∉ es₁ := fun h => hdisjoint _ h _ (by simp) rfl
  have hsecond : .line ∉ es₂ := (List.nodup_cons.1 hn₂).1
  simp only [beginPass, beginOutbound_of_same hm, handOvers_append, handOvers_cons] at hexec
  have hslot := fun r ht hr => slotFor_handOvers (m := s.sweep.storedMap) (r := r) ht hr key n es₁
    ⟨quietBegun n z s, slotsOf f.payload⟩
  have hbefore := (lineKept_quietBegun n z s).trans (lineKept_handOvers (p := ⟨quietBegun n z s, slotsOf f.payload⟩)
    hfirst hreq key n)
  have hclosure : ∀ es, (handOvers key s.sweep.storedMap n es ⟨quietBegun n z s, slotsOf f.payload⟩).state.sweep.closure
      = none := fun es => (handOvers_steps key _ n es _).sameOutside.closure.trans hc
  have hend := hclosure (es₁ ++ .line :: es₂)
  rw [handOvers_append, handOvers_cons] at hend
  generalize handOvers key s.sweep.storedMap n es₁ ⟨quietBegun n z s, slotsOf f.payload⟩ = p at *
  have haddress : (lineEvent s.sweep.storedMap n p.slots p.state).node.address = s.node.address :=
    (lineEvent_steps _ n p.slots p.state).sameOutside.address.trans (congrArg (·.address) hbefore.node)
  have hquiet : NoRequest s.sweep.storedMap p.slots (lineEvent s.sweep.storedMap n p.slots p.state).node.address := by
    intro x hx hok
    rw [haddress]
    exact hreq x ((hslot (.mgmt 0) (by simp) (by simp)).symm.trans hx) hok
  have hafter := lineKept_handOvers (p := outEvent key s.sweep.storedMap n .line p) (es := es₂) hsecond hquiet key n
  exact ⟨p, _, hexec, hbefore, hslot .line (by simp) (by simp), hafter.trans (lineKept_passed f hend)⟩

/-- Settles O50: an accepted LINE slot by its difference; in a quiet pass the other hand-overs keep what it changes. -/
theorem lineSlotMovesTracking : Obligations.LineSlotMovesTracking := by
  refine ⟨fun d s => ?slot, fun f n z d ck k s => ?pass⟩
  case slot =>
    intro at_
    refine ⟨fun h => takeLine_of_none h d, fun old hold => ?_⟩
    intro diff news a alarm running
    have ha : a = takeAnnouncement old d s := by
      simp only [a, news, takeAnnouncement, ← lineAnnouncement_eq]
      rfl
    obtain ⟨huncertain, hqueue, hnode, hseqs⟩ := takeAnnouncement_keeps old d s
    rw [← ha] at huncertain hqueue hnode hseqs
    rw [takeLine_of_some hold, ← ha]
    have hat : ∀ u, at_ u = setBaseline d u := fun _ => rfl
    have halarm : setAlarm .trackLost a = alarm := rfl
    simp only [hat]
    refine ⟨fun h => ?_, fun h hu => ?_, fun h hu => ?_, fun h hu => ?_, fun h hu => ?_⟩
    · rw [takeDifference_of_zero h]
    · simp [takeDifference_of_one h, huncertain, hu]
    · simp [takeDifference_of_one h, huncertain, hu]
    · simp [takeDifference_of_jump h, huncertain, hu, halarm]
    · rw [takeDifference_of_jump h, huncertain, hu, if_neg (by simp), becomeUncertain_fields, hnode, hqueue, hseqs,
        show Seq.cleared = fun q => _ from funext Seq.cleared_eq]
      rfl
  case pass =>
    intro sls m hs hc hm hf hreq hk hslot
    have hfor : slotFor m sls .line = some (k, { data := d, check := ck }) := by simp [slotFor, hk, hslot]
    obtain ⟨p, t, hexec, hbefore, hline, hafter⟩ := exec_outboundPass_line hs hc hm hf hreq
    rw [lineEvent, hline.trans hfor] at hafter
    obtain ⟨htables, hexit, hcount, -⟩ := id hbefore
    refine ⟨fun hok => ?_, fun hbad => ?_⟩
    · simp only [(slot_ok_iff d ck).2 hok, if_true] at hafter
      obtain ⟨⟨htrack, hbank, hchans, -, -, -, hnode, -, hlist⟩, hexit', hcount', -⟩ := hafter
      exact ⟨p.state, t, hexec, htables, hexit, hcount, htrack, hbank, hnode, hexit', hcount', hchans, hlist⟩
    · have hnok : ¬({ data := d, check := ck } : Slot).ok = true := mt (slot_ok_iff d ck).1 hbad
      simp only [hnok] at hafter
      exact ⟨t, hexec, (hbefore.trans ((lineKept_logError _ _).trans hafter)).tables,
        hafter.check (alarmed_setAlarm_self _ _)⟩

end Sys2Proof.Machine

/-! ## Proofs: the request of a sweep (09) -/

namespace Sys2Proof.Machine

/-! ### The header (R161, R190) -/

/-- A slot that is received stands where the map puts its role. -/
theorem slotFor_eq_some_iff (m : SlotMap) (sls : List Slot) (r : Role) (k : Nat) (sl : Slot) :
    slotFor m sls r = some (k, sl) ↔ m.slotOf r = some k ∧ sls[k]? = some sl := by
  unfold slotFor
  cases m.slotOf r with
  | none => simp
  | some j =>
    simp only [Option.map_eq_some_iff, Prod.mk.injEq, Option.some.injEq]
    constructor
    · rintro ⟨_, h, rfl, rfl⟩
      exact ⟨rfl, h⟩
    · rintro ⟨rfl, h⟩
      exact ⟨sl, h, rfl, rfl⟩

theorem slotOf_inj {m : SlotMap} {r q : Role} {k : Nat} (hr : m.slotOf r = some k) (hq : m.slotOf q = some k) :
    r = q := by
  obtain ⟨-, -, rfl⟩ := slotOf_spec hr
  obtain ⟨-, -, rfl⟩ := slotOf_spec hq
  rfl

theorem slotFor_inj {m : SlotMap} {sls : List Slot} {r q : Role} {x : Nat × Slot} (hr : slotFor m sls r = some x)
    (hq : slotFor m sls q = some x) : r = q :=
  slotOf_inj ((slotFor_eq_some_iff ..).1 hr).1 ((slotFor_eq_some_iff ..).1 hq).1

/-- No node address is the broadcast target. -/
theorem broadcast_ne_address (address : BitVec 4) : (0xFF : Byte) ≠ address.setWidth 8 := by
  revert address
  decide

theorem viaOf_eq_none {address : BitVec 4} {d : Data7} (ha : d.b0 ≠ address.setWidth 8)
    (hb : ¬(d.b0 = 0xFF ∧ (d.b1 ++ d.b2).getLsbD address.toNat = true)) : viaOf address d = none := by
  rw [viaOf, if_neg ha, if_neg (show ¬(d.b0 = 0xFF ∧ (half d.b1 d.b2).getLsbD address.toNat = true) from hb)]

theorem viaOf_eq_some {address : BitVec 4} {d : Data7} {v : Via} (ha : v = .addressed → d.b0 = address.setWidth 8)
    (hb : v = .broadcast → d.b0 = 0xFF ∧ (d.b1 ++ d.b2).getLsbD address.toNat = true) : viaOf address d = some v := by
  cases v with
  | addressed => exact if_pos (ha rfl)
  | broadcast =>
    obtain ⟨hff, hbit⟩ := hb rfl
    have hbit : (half d.b1 d.b2).getLsbD address.toNat = true := hbit
    rw [viaOf, if_neg (by rw [hff]; exact broadcast_ne_address address), if_pos ⟨hff, hbit⟩]

/-! ### The payload slots (R163 step 3) -/

theorem allows_le {k : ReqCode} {len : Nat} (h : k.allows len = true) : len ≤ 49 := by
  cases k <;> simp only [ReqCode.allows, Bool.and_eq_true, beq_iff_eq, decide_eq_true_eq] at h <;> omega

theorem covered_iff (i len : Nat) (hi : i ≠ 0) : 7 * (i - 1) < len ↔ i ≤ slotsCovered len := by
  unfold slotsCovered
  omega

theorem coveredSlots_succ {m : SlotMap} {sls : List Slot} {n : Nat} (h : n + 1 < 8) :
    coveredSlots m sls (n + 1) =
      (coveredSlots m sls n).bind fun l => (slotFor m sls (.mgmt ⟨n + 1, h⟩)).map fun x => l ++ [x] := by
  rw [coveredSlots, dif_pos h]
  cases coveredSlots m sls n <;> cases slotFor m sls (.mgmt ⟨n + 1, h⟩) <;> rfl

/-- The payload slots are received when each of them is. -/
theorem coveredSlots_isSome_iff {m : SlotMap} {sls : List Slot} {n : Nat} (h : n < 8) :
    (coveredSlots m sls n).isSome = true ↔ ∀ i : Fin 8, i ≠ 0 → i.val ≤ n → slotFor m sls (.mgmt i) ≠ none := by
  induction n with
  | zero =>
    refine ⟨fun _ i hi hn => absurd (Fin.ext (by simpa using hn)) hi, fun _ => rfl⟩
  | succ n ih =>
    have ih := ih (by omega)
    rw [coveredSlots_succ h]
    constructor
    · intro hs i hi hn
      obtain ⟨l, hl⟩ := Option.isSome_iff_exists.1 hs
      obtain ⟨xs, hxs, hlast⟩ := Option.bind_eq_some_iff.1 hl
      by_cases hin : i.val = n + 1
      · obtain rfl : i = ⟨n + 1, h⟩ := Fin.ext hin
        intro hnone
        simp [hnone] at hlast
      · exact ih.1 (by simp [hxs]) i hi (by omega)
    · intro hall
      obtain ⟨xs, hxs⟩ := Option.isSome_iff_exists.1 (ih.2 fun i hi hn => hall i hi (by omega))
      obtain ⟨x, hx⟩ := Option.ne_none_iff_exists'.1 (hall ⟨n + 1, h⟩ (by simp [Fin.ext_iff]) (Nat.le_refl _))
      simp [hxs, hx]

theorem mem_coveredSlots_iff {m : SlotMap} {sls : List Slot} {n : Nat} {xs : List (Nat × Slot)} (h : n < 8)
    (hxs : coveredSlots m sls n = some xs) (y : Nat × Slot) :
    y ∈ xs ↔ ∃ i : Fin 8, i ≠ 0 ∧ i.val ≤ n ∧ slotFor m sls (.mgmt i) = some y := by
  induction n generalizing xs with
  | zero =>
    cases hxs
    refine ⟨fun hy => absurd hy (by simp), fun ⟨i, hi, hn, _⟩ => absurd (Fin.ext (by simpa using hn)) hi⟩
  | succ n ih =>
    rw [coveredSlots_succ h, Option.bind_eq_some_iff] at hxs
    obtain ⟨l, hl, hlast⟩ := hxs
    obtain ⟨x, hx, rfl⟩ := Option.map_eq_some_iff.1 hlast
    rw [List.mem_append, List.mem_singleton, ih (by omega) hl]
    constructor
    · rintro (⟨i, hi, hn, hy⟩ | rfl)
      · exact ⟨i, hi, by omega, hy⟩
      · exact ⟨⟨n + 1, h⟩, by simp [Fin.ext_iff], Nat.le_refl _, hx⟩
    · rintro ⟨i, hi, hn, hy⟩
      by_cases hin : i.val = n + 1
      · obtain rfl : i = ⟨n + 1, h⟩ := Fin.ext hin
        exact .inr (Option.some.inj (hy.symm.trans hx))
      · exact .inl ⟨i, hi, by omega, hy⟩

theorem coveredSlots_nodup {m : SlotMap} {sls : List Slot} {n : Nat} {xs : List (Nat × Slot)} (h : n < 8)
    (hxs : coveredSlots m sls n = some xs) : xs.Nodup := by
  induction n generalizing xs with
  | zero =>
    cases hxs
    exact List.nodup_nil
  | succ n ih =>
    rw [coveredSlots_succ h, Option.bind_eq_some_iff] at hxs
    obtain ⟨l, hl, hlast⟩ := hxs
    obtain ⟨x, hx, rfl⟩ := Option.map_eq_some_iff.1 hlast
    refine List.nodup_append.2 ⟨ih (by omega) hl, List.nodup_singleton x, ?_⟩
    rintro y hy z hz rfl
    obtain rfl := List.mem_singleton.1 hz
    obtain ⟨i, -, hn, hi⟩ := (mem_coveredSlots_iff (by omega) hl _).1 hy
    cases slotFor_inj hi hx
    simp at hn

/-! ### The payload bytes (R190) -/

theorem data7Of_bytes_length (l : List Byte) : (data7Of l).bytes.length = 7 := rfl

/-- The bytes of a slot filled from the front of a list are the list's, and 0 after its end. -/
theorem data7Of_bytes_take (l : List Byte) : (data7Of l).bytes.take l.length = l.take 7 := by
  rcases l with _ | ⟨a, _ | ⟨b, _ | ⟨c, _ | ⟨d, _ | ⟨e, _ | ⟨f, _ | ⟨g, l⟩⟩⟩⟩⟩⟩⟩
  all_goals simp [data7Of, Data7.bytes]

/-- The slots that carry `p` hold it whole. -/
theorem coveredSlots_bytes {m : SlotMap} {sls : List Slot} {p : List Byte} {n : Nat} {xs : List (Nat × Slot)} (h : n < 8)
    (hxs : coveredSlots m sls n = some xs)
    (hp : ∀ (i : Fin 8) x, i ≠ 0 → i.val ≤ n → slotFor m sls (.mgmt i) = some x →
      x.2 = (data7Of (p.drop (7 * (i.val - 1)))).toSlot) :
    (xs.flatMap fun x => x.2.data.bytes).length = 7 * n ∧
      (xs.flatMap fun x => x.2.data.bytes).take p.length = p.take (7 * n) := by
  induction n generalizing xs with
  | zero =>
    cases hxs
    exact ⟨rfl, by simp⟩
  | succ n ih =>
    rw [coveredSlots_succ h, Option.bind_eq_some_iff] at hxs
    obtain ⟨l, hl, hlast⟩ := hxs
    obtain ⟨x, hx, rfl⟩ := Option.map_eq_some_iff.1 hlast
    obtain ⟨hlength, htake⟩ := ih (by omega) hl fun i y hi hn hy => hp i y hi (by omega) hy
    have hdata : x.2.data.bytes = (data7Of (p.drop (7 * n))).bytes := by
      rw [hp ⟨n + 1, h⟩ x (by simp [Fin.ext_iff]) (Nat.le_refl _) hx]
      rfl
    rw [List.flatMap_append, List.flatMap_singleton, hdata]
    refine ⟨by rw [List.length_append, hlength, data7Of_bytes_length]; omega, ?_⟩
    rw [List.take_append, hlength, htake]
    have hrest := data7Of_bytes_take (p.drop (7 * n))
    rw [List.length_drop] at hrest
    rw [hrest, Nat.mul_add, List.take_add]

/-! ### The hand-over of the header slot (R160 to R163) -/

theorem requestEvent_of_bad {m : SlotMap} {sls : List Slot} {x : Nat × Slot} (hx : slotFor m sls (.mgmt 0) = some x)
    (hok : x.2.ok = false) (key : Nat → Nat) (n : Half) (s : State) :
    requestEvent key m n sls s = logSlot .slotCheck n .outbound x s := by
  simp only [requestEvent, hx, hok, Bool.not_false, if_true]

theorem requestEvent_of_unknown {m : SlotMap} {sls : List Slot} {x : Nat × Slot} {s : State} {h : ReqHead}
    (hx : slotFor m sls (.mgmt 0) = some x) (hok : x.2.ok = true) (hvia : viaOf s.node.address x.2.data = some h.via)
    (htag : x.2.data.b4 = h.tag) (hcode : reqCodeOf x.2.data.b3 = none) (key : Nat → Nat) (n : Half) :
    requestEvent key m n sls s = takeUnknown h x.2.data.b3 s := by
  simp only [requestEvent, hx, hok, Bool.not_true, Bool.false_eq_true, if_false, hvia, hcode, htag]

theorem requestEvent_of_code {m : SlotMap} {sls : List Slot} {x : Nat × Slot} {s : State} {h : ReqHead} {k : ReqCode}
    (hx : slotFor m sls (.mgmt 0) = some x) (hok : x.2.ok = true) (hvia : viaOf s.node.address x.2.data = some h.via)
    (htag : x.2.data.b4 = h.tag) (hcode : reqCodeOf x.2.data.b3 = some k) (key : Nat → Nat) (n : Half) :
    requestEvent key m n sls s = takeCarried key m n sls h k x.2.data.b5.toNat s := by
  simp only [requestEvent, hx, hok, Bool.not_true, Bool.false_eq_true, if_false, hvia, hcode, htag]

theorem takeCarried_of_none {m : SlotMap} {sls : List Slot} {len : Nat} (hc : coveredSlots m sls (slotsCovered len) = none)
    (key : Nat → Nat) (n : Half) (h : ReqHead) (k : ReqCode) (s : State) :
    takeCarried key m n sls h k len s = takeRequest h k len (refuse .length) s := by
  simp only [takeCarried, hc]

theorem takeCarried_of_some {m : SlotMap} {sls : List Slot} {len : Nat} {xs : List (Nat × Slot)}
    (hc : coveredSlots m sls (slotsCovered len) = some xs) (key : Nat → Nat) (n : Half) (h : ReqHead) (k : ReqCode)
    (s : State) :
    takeCarried key m n sls h k len s =
      if isNew h (noteHeader h.via s) && k.allows len && !(xs.filter fun x => !x.2.ok).isEmpty then
        logPayload key n (xs.filter fun x => !x.2.ok) (noteHeader h.via s)
      else takeRequest h k len (serveRequest k ((xs.flatMap fun x => x.2.data.bytes).take len)) s := by
  simp only [takeCarried, hc]

/-! ### What is taken of a request (R162, R163) -/

theorem isNew_iff (h : ReqHead) (s : State) :
    isNew h (noteHeader h.via s) = true ↔ h.tag ≠ 0 ∧ h.tag ≠ s.mgmt.lastTag := by
  have hmgmt : (noteHeader h.via s).mgmt = s.mgmt := by
    unfold noteHeader
    cases h.via <;> rfl
  simp only [isNew, hmgmt, Bool.and_eq_true, bne_iff_ne]

theorem takeRequest_of_stale {h : ReqHead} {s : State} (hn : isNew h (noteHeader h.via s) = false) (k : ReqCode)
    (len : Nat) (serve : State → Answer) : takeRequest h k len serve s = noteHeader h.via s := by
  simp only [takeRequest, hn, Bool.false_eq_true, if_false]

/-- A request whose length is not allowed, or whose payload is not received whole, is answered LENGTH. -/
theorem takeRequest_of_length {h : ReqHead} {s : State} {k : ReqCode} {len : Nat} {serve : State → Answer}
    (hn : isNew h (noteHeader h.via s) = true) (hs : k.allows len = true → serve = refuse .length) :
    takeRequest h k len serve s = answered h k.byte .length [] (noteHeader h.via s) := by
  simp only [takeRequest, hn, if_true, record_answered]
  cases hl : k.allows len with
  | false => rfl
  | true => rw [hs hl, if_pos rfl, refuse]

/-- A header that is not new is only noticed. -/
theorem requestEvent_of_stale {m : SlotMap} {sls : List Slot} {x : Nat × Slot} {s : State} {h : ReqHead}
    (hx : slotFor m sls (.mgmt 0) = some x) (hok : x.2.ok = true) (hvia : viaOf s.node.address x.2.data = some h.via)
    (htag : x.2.data.b4 = h.tag) (hn : isNew h (noteHeader h.via s) = false) (key : Nat → Nat) (n : Half) :
    requestEvent key m n sls s = noteHeader h.via s := by
  cases hcode : reqCodeOf x.2.data.b3 with
  | none =>
    rw [requestEvent_of_unknown hx hok hvia htag hcode]
    simp only [takeUnknown, hn, Bool.false_eq_true, if_false]
  | some k =>
    rw [requestEvent_of_code hx hok hvia htag hcode]
    cases hc : coveredSlots m sls (slotsCovered x.2.data.b5.toNat) with
    | none => rw [takeCarried_of_none hc, takeRequest_of_stale hn]
    | some xs =>
      rw [takeCarried_of_some hc, takeRequest_of_stale hn, hn]
      rfl

/-- A new request with a length its code does not allow is answered LENGTH, whatever stands in its slots. -/
theorem takeCarried_of_length {h : ReqHead} {s : State} {k : ReqCode} {len : Nat}
    (hn : isNew h (noteHeader h.via s) = true) (hl : k.allows len = false) (key : Nat → Nat) (m : SlotMap) (n : Half)
    (sls : List Slot) :
    takeCarried key m n sls h k len s = answered h k.byte .length [] (noteHeader h.via s) := by
  cases hc : coveredSlots m sls (slotsCovered len) with
  | none => rw [takeCarried_of_none hc, takeRequest_of_length hn fun _ => rfl]
  | some xs =>
    rw [takeCarried_of_some hc, hl, Bool.and_false, Bool.false_and, if_neg (by simp), takeRequest_of_length hn]
    simp [hl]

/-- A payload slot that is not received gives LENGTH too. -/
theorem takeCarried_of_missing {h : ReqHead} {s : State} {k : ReqCode} {len : Nat} {m : SlotMap} {sls : List Slot}
    (hn : isNew h (noteHeader h.via s) = true) (hc : coveredSlots m sls (slotsCovered len) = none) (key : Nat → Nat)
    (n : Half) : takeCarried key m n sls h k len s = answered h k.byte .length [] (noteHeader h.via s) := by
  rw [takeCarried_of_none hc, takeRequest_of_length hn fun _ => rfl]

/-- Payload slots whose checks fail are logged, and the request is not taken. -/
theorem takeCarried_of_bad {h : ReqHead} {s : State} {k : ReqCode} {len : Nat} {m : SlotMap} {sls : List Slot}
    {xs : List (Nat × Slot)} (hn : isNew h (noteHeader h.via s) = true) (hl : k.allows len = true)
    (hc : coveredSlots m sls (slotsCovered len) = some xs) (hbad : ∃ y ∈ xs, y.2.ok = false) (key : Nat → Nat) (n : Half) :
    takeCarried key m n sls h k len s = logPayload key n (xs.filter fun x => !x.2.ok) (noteHeader h.via s) := by
  obtain ⟨y, hy, hyok⟩ := hbad
  have hempty : (xs.filter fun x => !x.2.ok).isEmpty = false := by
    rw [List.isEmpty_eq_false_iff_exists_mem]
    exact ⟨y, List.mem_filter.2 ⟨hy, by simp [hyok]⟩⟩
  rw [takeCarried_of_some hc, hn, hl, hempty]
  rfl

/-! ### A request carried whole and clean -/

/-- The header that carries a request is read back. -/
theorem viaOf_requestHeader {address : BitVec 4} {nodes : Half} {h : ReqHead}
    (hb : h.via = .broadcast → nodes.getLsbD address.toNat = true) (k : ReqCode) (len : Nat) :
    viaOf address (requestHeader address nodes h k len) = some h.via := by
  refine viaOf_eq_some (fun hv => ?_) fun hv => ⟨?_, ?_⟩
  · simp only [requestHeader, hv]
  · simp only [requestHeader, hv]
  · exact (congrArg (·.getLsbD address.toNat) (half_bytes nodes)).trans (hb hv)

theorem reqCodeOf_byte (k : ReqCode) : reqCodeOf k.byte = some k := by
  cases k <;> decide

/-- R163: a request that stands whole and clean in the MGMT slots is taken with its payload. -/
theorem requestEvent_of_carried {m : SlotMap} {sls : List Slot} {s : State} {nodes : Half} {h : ReqHead} {k : ReqCode}
    {p : List Byte} (hc : Carried m sls s.node.address nodes h k p) (hl : k.allows p.length = true)
    (hb : h.via = .broadcast → nodes.getLsbD s.node.address.toNat = true) (key : Nat → Nat) (n : Half) :
    requestEvent key m n sls s = takeRequest h k p.length (serveRequest k p) s := by
  obtain ⟨⟨j, hj, hslot⟩, hpayload⟩ := hc
  have hx := (slotFor_eq_some_iff m sls (.mgmt 0) j _).2 ⟨hj, hslot⟩
  have hle := allows_le hl
  have hlen : (byteOf p.length).toNat = p.length := Nat.mod_eq_of_lt (by omega)
  have hslots : slotsCovered p.length < 8 := by unfold slotsCovered; omega
  have hcovered : ∀ i : Fin 8, i ≠ 0 → i.val ≤ slotsCovered p.length →
      ∃ j, slotFor m sls (.mgmt i) = some (j, (data7Of (p.drop (7 * (i.val - 1)))).toSlot) := by
    intro i hi hn
    obtain ⟨j, hj, hs⟩ := hpayload i hi ((covered_iff i.val p.length (Fin.val_ne_zero_iff.2 hi)).2 hn)
    exact ⟨j, (slotFor_eq_some_iff ..).2 ⟨hj, hs⟩⟩
  have hreceived := (coveredSlots_isSome_iff (m := m) (sls := sls) hslots).2 fun i hi hn => by
    obtain ⟨j, hj⟩ := hcovered i hi hn
    simp [hj]
  obtain ⟨xs, hxs⟩ := Option.isSome_iff_exists.1 hreceived
  have hdata : ∀ (i : Fin 8) x, i ≠ 0 → i.val ≤ slotsCovered p.length → slotFor m sls (.mgmt i) = some x →
      x.2 = (data7Of (p.drop (7 * (i.val - 1)))).toSlot := by
    intro i x hi hn hx
    obtain ⟨j, hj⟩ := hcovered i hi hn
    rw [hj] at hx
    cases hx
    rfl
  have hclean : (xs.filter fun x => !x.2.ok) = [] := by
    refine List.filter_eq_nil_iff.2 fun x hx => ?_
    obtain ⟨i, hi, hn, hx⟩ := (mem_coveredSlots_iff hslots hxs x).1 hx
    rw [hdata i x hi hn hx, toSlot_ok]
    simp
  have hbytes : (xs.flatMap fun x => x.2.data.bytes).take p.length = p := by
    obtain ⟨-, htake⟩ := coveredSlots_bytes hslots hxs hdata
    rw [htake, List.take_of_length_le]
    unfold slotsCovered
    omega
  rw [requestEvent_of_code hx (toSlot_ok _) (viaOf_requestHeader hb k p.length) rfl (reqCodeOf_byte k)]
  change takeCarried key m n sls h k (byteOf p.length).toNat s = _
  rw [hlen, takeCarried_of_some hxs, hclean, hbytes]
  simp

end Sys2Proof.Machine

/-! ## Proofs: what replies, failures and wear leave alone (03, 05, 06) -/

namespace Sys2Proof.Machine

/-- `t` is `s` but for what the channels change: sequencers, channel and wear records, masks of the body records, alarms
and the fault log, and the path tester. -/
structure ChannelsOnly (s t : State) : Prop where
  eq : t = { s with
    track := { s.track with queue := t.track.queue }
    chans := t.chans
    seqs := t.seqs
    wear := t.wear
    report := { t.report with exit := s.report.exit, exitCount := s.report.exitCount }
    path := t.path }

theorem ChannelsOnly.refl (s : State) : ChannelsOnly s s := ⟨rfl⟩

theorem ChannelsOnly.trans {s t u : State} (a : ChannelsOnly s t) (b : ChannelsOnly t u) : ChannelsOnly s u := by
  constructor
  rw [b.eq, a.eq]

theorem channelsOnly_foldl {α : Type} {f : State → α → State} (hf : ∀ s a, ChannelsOnly s (f s a)) (l : List α)
    (s : State) : ChannelsOnly s (l.foldl f s) := by
  induction l generalizing s with
  | nil => exact .refl s
  | cons a l ih => exact (hf s a).trans (ih _)

theorem ListsAndMarks.channelsOnly {s t : State} (h : ListsAndMarks s t) : ChannelsOnly s t := by
  constructor
  rw [h.eq]

/-! ### The elementary changes -/

theorem setSeq_channelsOnly (c : ChanNo) (q : Seq) (s : State) : ChannelsOnly s (setSeq c q s) := ⟨rfl⟩

theorem setChan_channelsOnly (c : ChanNo) (r : ChanRec) (s : State) : ChannelsOnly s (setChan c r s) := ⟨rfl⟩

theorem setWear_channelsOnly (c : ChanNo) (w : ChanWear) (s : State) : ChannelsOnly s (setWear c w s) := ⟨rfl⟩

theorem setAlarm_channelsOnly (a : Alarm) (s : State) : ChannelsOnly s (setAlarm a s) := ⟨rfl⟩

theorem logError_channelsOnly (e : LogRec) (s : State) : ChannelsOnly s (logError e s) := by
  obtain ⟨-, hexit, hcount, -⟩ := lineKept_logError e s
  constructor
  rw [← hexit, ← hcount]
  rfl

/-! ### Failures and overdue (R51 to R54, R104, R121) -/

theorem changeFactor_channelsOnly (c : ChanNo) (r : ChanRec) (s : State) : ChannelsOnly s (changeFactor c r s) := by
  unfold changeFactor
  dsimp only
  split
  · exact (setChan_channelsOnly c r s).trans (loseService_listsAndMarks c .orderly _).channelsOnly
  · exact setChan_channelsOnly c r s

theorem takeFailure_channelsOnly (c : ChanNo) (cause : Cause) (s : State) : ChannelsOnly s (takeFailure c cause s) := by
  unfold takeFailure
  dsimp only
  split
  · exact setAlarm_channelsOnly .channelFailed s
  · exact ((setAlarm_channelsOnly .channelFailed s).trans (setChan_channelsOnly c _ _)).trans
      (loseService_listsAndMarks c .failed _).channelsOnly

theorem endMaintenance_channelsOnly (c : ChanNo) (s : State) : ChannelsOnly s (endMaintenance c s) := by
  unfold endMaintenance
  split
  · exact setSeq_channelsOnly c _ s
  · exact .refl s

theorem reportFailure_channelsOnly (c : ChanNo) (cause : Cause) (s : State) :
    ChannelsOnly s (reportFailure c cause s) := by
  have hend := (takeFailure_channelsOnly c cause s).trans (endMaintenance_channelsOnly c _)
  unfold reportFailure
  dsimp only
  split
  · exact hend.trans (setSeq_channelsOnly c _ _)
  · exact hend

theorem reportOverdue_channelsOnly (c : ChanNo) (s : State) : ChannelsOnly s (reportOverdue c s) := by
  unfold reportOverdue
  dsimp only
  split
  · exact .refl s
  · exact changeFactor_channelsOnly c _ s

theorem setGunRec_channelsOnly (c : ChanNo) (g : Gun) (r : GunRec) (s : State) : ChannelsOnly s (setGunRec c g r s) :=
  (setWear_channelsOnly c _ s).trans (reportOverdue_channelsOnly c _)

theorem evaluateGuns_channelsOnly (c : ChanNo) (s : State) : ChannelsOnly s (evaluateGuns c s) :=
  (setWear_channelsOnly c _ s).trans (reportOverdue_channelsOnly c _)

/-! ### Replies (R87 to R104) -/

theorem actSelecting_channelsOnly (c : ChanNo) (d : Data7) (st : ReplyState) (s : State) :
    ChannelsOnly s (actSelecting c d st s) := by
  cases st with
  | loaded =>
    simp only [actSelecting]
    split
    · exact setSeq_channelsOnly c _ s
    · exact reportFailure_channelsOnly c _ s
  | busy | done =>
    simp only [actSelecting]
    split
    · exact .refl s
    · exact reportFailure_channelsOnly c _ s
  | none | idle | fault => exact .refl s

theorem actBusy_channelsOnly (c : ChanNo) (d : Data7) (placed : Bool) (s : State) :
    ChannelsOnly s (actBusy c d placed s) := by
  unfold actBusy
  split
  · exact reportFailure_channelsOnly c _ s
  · split
    · exact reportFailure_channelsOnly c _ s
    · exact setSeq_channelsOnly c _ s

theorem completeBody_channelsOnly (c : ChanNo) (r : Dispatch) (spots : Byte) (s : State) :
    ChannelsOnly s (completeBody c r spots s) :=
  ((mark_listsAndMarks _ _ _ s).channelsOnly.trans (setSeq_channelsOnly c _ _)).trans (setGunRec_channelsOnly c _ _ _)

theorem failDone_channelsOnly (c : ChanNo) (detail : Detail) (s : State) : ChannelsOnly s (failDone c detail s) := by
  unfold failDone
  split
  · exact (setSeq_channelsOnly c _ s).trans (reportFailure_channelsOnly c _ _)
  · exact reportFailure_channelsOnly c _ s

theorem actDoneBody_channelsOnly (c : ChanNo) (d : Data7) (s : State) : ChannelsOnly s (actDoneBody c d s) := by
  unfold actDoneBody
  split
  · exact .refl s
  · split
    · exact failDone_channelsOnly c _ s
    · exact completeBody_channelsOnly c _ _ s

theorem actDoneMaint_channelsOnly (c : ChanNo) (g : Gun) (kind : Maint) (d : Data7) (s : State) :
    ChannelsOnly s (actDoneMaint c g kind d s) := by
  unfold actDoneMaint
  split
  · exact reportFailure_channelsOnly c _ s
  · exact (setSeq_channelsOnly c _ s).trans (setGunRec_channelsOnly c _ _ _)

theorem actMatching_channelsOnly (c : ChanNo) (j : Job) (d : Data7) (st : ReplyState) (s : State) :
    ChannelsOnly s (actMatching c j d st s) := by
  unfold actMatching
  split
  · exact actSelecting_channelsOnly c d st s
  · cases st with
    | busy =>
      simp only [actBusyJob]
      split
      · exact actBusy_channelsOnly c d _ s
      · exact actBusy_channelsOnly c d _ s
      · exact .refl s
    | done =>
      cases j with
      | body => exact actDoneBody_channelsOnly c d s
      | maint ph kind g => exact actDoneMaint_channelsOnly c g kind d s
      | orphan p g => exact (setSeq_channelsOnly c _ s).trans (setGunRec_channelsOnly c g _ _)
    | none | idle | loaded | fault => exact .refl s

theorem actOn_channelsOnly (c : ChanNo) (d : Data7) (s : State) : ChannelsOnly s (actOn c d s) := by
  unfold actOn
  split
  · exact .refl s
  · exact .refl s
  · exact reportFailure_channelsOnly c _ s
  · split
    · split
      · exact actMatching_channelsOnly c _ d _ s
      · exact .refl s
    · exact .refl s

theorem judgeReply_channelsOnly (n : Half) (got : Option (Nat × Slot)) (s : State) :
    ChannelsOnly s (judgeReply n got s).2 := by
  unfold judgeReply
  split
  · exact .refl s
  · split
    · split
      · exact .refl s
      · exact logError_channelsOnly _ s
    · exact logError_channelsOnly _ s

theorem takeReply_channelsOnly (c : ChanNo) (n : Half) (reply : Option Data7) (s : State) :
    ChannelsOnly s (takeReply c n reply s) := by
  unfold takeReply
  dsimp only
  split
  · split
    · exact (setSeq_channelsOnly c _ s).trans (actOn_channelsOnly c _ _)
    · exact setSeq_channelsOnly c _ s
  · exact setSeq_channelsOnly c _ s

theorem countLoss_channelsOnly (c : ChanNo) (reply : Option Data7) (s : State) :
    ChannelsOnly s (countLoss c reply s) := by
  unfold countLoss
  dsimp only
  split
  · exact setSeq_channelsOnly c _ s
  · split
    · split
      · exact (reportFailure_channelsOnly c .replyLost s).trans (setSeq_channelsOnly c _ _)
      · exact setSeq_channelsOnly c _ s
    · exact .refl s

theorem countWatch_channelsOnly (c : ChanNo) (s : State) : ChannelsOnly s (countWatch c s) := by
  unfold countWatch
  dsimp only
  split
  · split
    · exact (setSeq_channelsOnly c _ s).trans (reportFailure_channelsOnly c _ _)
    · exact setSeq_channelsOnly c _ s
  · exact .refl s

theorem replyEvent_channelsOnly (first : Bool) (c : ChanNo) (n : Half) (got : Option (Nat × Slot)) (s : State) :
    ChannelsOnly s (replyEvent first c n got s) := by
  have htaken := (judgeReply_channelsOnly n got s).trans (takeReply_channelsOnly c n (judgeReply n got s).1 _)
  unfold replyEvent
  cases first with
  | true => exact (htaken.trans (countLoss_channelsOnly c _ _)).trans (countWatch_channelsOnly c _)
  | false => exact (htaken.trans (countWatch_channelsOnly c _)).trans (countLoss_channelsOnly c _ _)

/-! ### A return pass (R136) -/

theorem compareTests_channelsOnly (sls : List Slot) (s : State) : ChannelsOnly s (compareTests sls s) := by
  unfold compareTests
  dsimp only
  split <;> exact ⟨rfl⟩

theorem backEvent_channelsOnly (key : Nat → Nat) (m : SlotMap) (n : Half) (sls : List Slot) (e : BackEvent) (s : State) :
    ChannelsOnly s (backEvent key m n sls e s) := by
  cases e with
  | compare => exact compareTests_channelsOnly sls s
  | reply c =>
    simp only [backEvent]
    split
    · exact replyEvent_channelsOnly _ c n _ s
    · exact .refl s

theorem handBack_channelsOnly (key : Nat → Nat) (m : SlotMap) (n : Half) (sls : List Slot) (s : State) :
    ChannelsOnly s (handBack key m n sls s) :=
  channelsOnly_foldl (fun s e => backEvent_channelsOnly key m n sls e s) _ s

end Sys2Proof.Machine

/-! ## Proofs: a request taken by a pass (09) -/

namespace Sys2Proof.Machine

/-! ### What the service of a request leaves to the agent

Only the agent records tags and responses (R162, R165): no request's own rule writes them. -/

theorem ChannelsOnly.mgmt {s t : State} (h : ChannelsOnly s t) : t.mgmt = s.mgmt := by rw [h.eq]

theorem ListsAndMarks.mgmt {s t : State} (h : ListsAndMarks s t) : t.mgmt = s.mgmt := h.channelsOnly.mgmt

theorem catchUp_mgmt (s : State) : (catchUp s).mgmt = s.mgmt := (resolveWhere_listsAndMarks _ s).mgmt

theorem serveStart_mgmt (s : State) : (serveStart s).state.mgmt = s.mgmt := by
  unfold serveStart
  split
  · rfl
  · split
    · rfl
    · split
      · rw [okay, catchUp_mgmt]
      · rfl

theorem serveStop_mgmt (s : State) : (serveStop s).state.mgmt = s.mgmt := by
  have hstop := (stopLists_listsAndMarks s).mgmt
  unfold serveStop
  generalize stopLists s = u at hstop
  split
  · rfl
  · exact hstop

theorem serveRetrackApply_mgmt (s : State) : (serveRetrackApply s).state.mgmt = s.mgmt := by
  unfold serveRetrackApply
  split
  · rfl
  · dsimp only
    split
    · rw [okay, catchUp_mgmt]
      rfl
    · rfl

theorem storeChannel_mgmt (c : ChanNo) (r : ChanRec) (s : State) : (storeChannel c r s).mgmt = s.mgmt := by
  unfold storeChannel
  dsimp only
  split
  · rfl
  · exact (evaluateGuns_channelsOnly c (setChan c r s)).mgmt

theorem serveWriteChannel_mgmt (c st l g w : Byte) (s : State) : (serveWriteChannel c st l g w s).state.mgmt = s.mgmt := by
  unfold serveWriteChannel
  split
  · rfl
  · split
    · split
      · dsimp only
        split
        · rfl
        · exact storeChannel_mgmt _ _ s
      · rfl
    · rfl

theorem serveSetService_mgmt (c a : Byte) (s : State) : (serveSetService c a s).state.mgmt = s.mgmt := by
  unfold serveSetService
  split
  · rfl
  · split
    · simp only [okay, setOut]
      split
      · rfl
      · exact (changeFactor_channelsOnly _ _ s).mgmt
    · split
      · unfold setIn
        split <;> rfl
      · rfl

theorem serveWriteGun_mgmt (c g x : Byte) (d gr : Half) (n dp cp : Byte) (s : State) :
    (serveWriteGun c g x d gr n dp cp s).state.mgmt = s.mgmt := by
  unfold serveWriteGun
  split
  · exact (setGunRec_channelsOnly _ _ _ s).mgmt
  · rfl

theorem serveWriteWear_mgmt (c g : Byte) (w : Half) (d : Byte) (s : State) :
    (serveWriteWear c g w d s).state.mgmt = s.mgmt := by
  unfold serveWriteWear
  split
  · exact (setGunRec_channelsOnly _ _ _ s).mgmt
  · rfl

/-- A gated request that keeps the agent's record behind the gate keeps it. -/
theorem gated_mgmt {serve : State → Answer} {s : State} (h : (serve s).state.mgmt = s.mgmt) :
    (gated serve s).state.mgmt = s.mgmt := by
  unfold gated
  split
  · rfl
  · exact h

theorem storeEntries_mgmt (st f : Byte) (es : List RawEntry) (s : State) : (storeEntries st f es s).state.mgmt = s.mgmt := by
  unfold storeEntries
  split
  · split <;> rfl
  · rfl

theorem storeEnabled_mgmt (st f : Byte) (s : State) : (storeEnabled st f s).state.mgmt = s.mgmt := by
  unfold storeEnabled
  split <;> rfl

theorem serveNodeRequest_mgmt {k : ReqCode} {p : List Byte} {s : State} {a : Answer}
    (h : serveNodeRequest k p s = some a) : a.state.mgmt = s.mgmt := by
  cases k with
  | start => cases h; exact serveStart_mgmt s
  | stop => cases h; exact serveStop_mgmt s
  | writeChannel => cases h; exact serveWriteChannel_mgmt _ _ _ _ _ s
  | setService => cases h; exact serveSetService_mgmt _ _ s
  | readStatus | hold | cellReset => cases h; rfl
  | release | writeNodeSettings | writeSlotMap | readSlotMap | readChannel | writePair | clearPair =>
    cases h
    simp only [serveRelease, serveWriteNodeSettings, serveWriteSlotMap, serveReadSlotMap, serveReadChannel, serveWritePair,
      serveClearPair]
    repeat' split
    all_goals rfl
  | _ => cases h

theorem serveTableRequest_mgmt {k : ReqCode} {p : List Byte} {s : State} {a : Answer}
    (h : serveTableRequest k p s = some a) : a.state.mgmt = s.mgmt := by
  cases k with
  | writeEntries => cases h; exact gated_mgmt (storeEntries_mgmt _ _ _ s)
  | enableStyle => cases h; exact gated_mgmt (storeEnabled_mgmt _ _ s)
  | copyBank => cases h; exact gated_mgmt rfl
  | writeGun => cases h; exact serveWriteGun_mgmt _ _ _ _ _ _ _ _ s
  | writeWear => cases h; exact serveWriteWear_mgmt _ _ _ _ s
  | disarm | abort => cases h; rfl
  | readEntries | commit | writeCurve | readCurve | readWear =>
    cases h
    simp only [serveReadEntries, serveCommit, serveWriteCurve, serveReadCurve, serveReadWear]
    repeat' split
    all_goals rfl
  | _ => cases h

theorem serveLineRequest_mgmt {k : ReqCode} {p : List Byte} {s : State} {a : Answer}
    (h : serveLineRequest k p s = some a) : a.state.mgmt = s.mgmt := by
  cases k with
  | retrackApply => cases h; exact serveRetrackApply_mgmt s
  | readLog | clearLog | clearAlarms | testStop | testInject | readTestCounts => cases h; rfl
  | readTracking | retrackLoad | testStart =>
    cases h
    simp only [serveReadTracking, serveRetrackLoad, serveTestStart]
    repeat' split
    all_goals rfl
  | _ => cases h

theorem serveRequest_mgmt (k : ReqCode) (p : List Byte) (s : State) : (serveRequest k p s).state.mgmt = s.mgmt := by
  unfold serveRequest
  cases hnode : serveNodeRequest k p s with
  | some a => exact serveNodeRequest_mgmt hnode
  | none =>
    cases htable : serveTableRequest k p s with
    | some a => exact serveTableRequest_mgmt htable
    | none =>
      cases hline : serveLineRequest k p s with
      | some a => exact serveLineRequest_mgmt hline
      | none => rfl

/-! ### What the other hand-overs of a pass leave to the agent -/

theorem transfer_mgmt (s : State) : (transfer s).mgmt = s.mgmt := by
  have hexit : (takeExit s).mgmt = s.mgmt := by rw [takeExit_eq]
  have hdepart := (takeDepartures_listsAndMarks (takeExit s)).mgmt.trans hexit
  have hflip : ∀ t, (takeFlip t).mgmt = t.mgmt := fun t => by
    unfold takeFlip
    split <;> rfl
  have harrive : ∀ t, (takeArrivals t).mgmt = t.mgmt := fun t => by
    unfold takeArrivals
    split
    · exact (resolveWhere_listsAndMarks _ t).mgmt
    · rfl
  rw [transfer, harrive, admitNext]
  generalize takeDepartures (takeExit s) = u at hdepart
  exact (hflip u).trans hdepart

theorem takeLine_mgmt (d : Data7) (s : State) : (takeLine d s).mgmt = s.mgmt := by
  cases hb : s.track.baseline with
  | none => rw [takeLine_of_none hb, setBaseline]
  | some old =>
    have hannounce : (takeAnnouncement old d s).mgmt = s.mgmt := by
      unfold takeAnnouncement
      split
      · rfl
      · split <;> rfl
    rw [takeLine_of_some hb, setBaseline]
    refine Eq.trans ?_ hannounce
    unfold takeDifference
    dsimp only
    split
    · rfl
    · split
      · split
        · rfl
        · exact transfer_mgmt _
      · split
        · rfl
        · rw [becomeUncertain_fields]
          rfl

theorem outEvent_mgmt {e : OutEvent} (he : e ≠ .request) (key : Nat → Nat) (m : SlotMap) (n : Half) (p : InPass) :
    (outEvent key m n e p).state.mgmt = p.state.mgmt := by
  cases e with
  | request => exact absurd rfl he
  | watch => rfl
  | line =>
    simp only [outEvent, lineEvent]
    split
    · rfl
    · split
      · exact takeLine_mgmt _ _
      · exact (logError_channelsOnly _ _).mgmt
  | testFill =>
    simp only [outEvent, fillTests]
    split <;> rfl
  | opportunity c =>
    simp only [outEvent]
    rw [opportunity_eq_setSeq, setSeq_mgmt]
  | command c =>
    simp only [outEvent, commandEvent]
    split <;> rfl

theorem handOvers_mgmt {es : List OutEvent} (he : .request ∉ es) (key : Nat → Nat) (m : SlotMap) (n : Half) (p : InPass) :
    (handOvers key m n es p).state.mgmt = p.state.mgmt := by
  induction es generalizing p with
  | nil => rfl
  | cons e es ih =>
    rw [List.mem_cons, not_or] at he
    rw [handOvers_cons, ih he.2, outEvent_mgmt (Ne.symm he.1)]

/-! ### The response that the return pass will carry (R166) -/

/-- The outstanding sweep carries the response. -/
def CarriesResponse (s : State) : Prop := s.sweep.outstanding.map Outstanding.addressed = some true

/-- No change inside the part takes the response from the sweep. -/
theorem Inner.carriesResponse {s t : State} (h : Inner s t) (hs : CarriesResponse s) : CarriesResponse t := by
  cases h with
  | addressed =>
    unfold CarriesResponse at hs ⊢
    cases ho : s.sweep.outstanding with
    | none => simp [ho] at hs
    | some o => rfl
  | channel c r =>
    unfold channelEvent
    split <;> exact hs
  | settings n i m =>
    simp only [storeSettings]
    split <;> exact hs
  | _ => exact hs

theorem Steps.carriesResponse {s t : State} (h : Steps s t) (hs : CarriesResponse s) : CarriesResponse t := by
  induction h with
  | refl => exact hs
  | tail _ h ih => exact h.carriesResponse ih

/-- An outbound pass takes the request of its header slot from a state with the same record and address, and keeps
what it left. -/
theorem exec_outboundPass_request {f : Frame} {n : Half} {z : SizeCode} {s : State} (hs : s.pins.inReset = false)
    (hc : s.sweep.closure = none) (hf : headerOf f.payload = some (n, z)) :
    ∃ (key : Nat → Nat) (p : InPass) (t : State), exec (.outboundPass f) s = .next t ∧ p.state.mgmt = s.mgmt ∧
      p.state.node.address = s.node.address ∧ p.state.sweep.outstanding.isSome = true ∧
      (∀ i, slotFor s.sweep.storedMap p.slots (.mgmt i) = slotFor s.sweep.storedMap (slotsOf f.payload) (.mgmt i)) ∧
      t.mgmt = (requestEvent key s.sweep.storedMap n p.slots p.state).mgmt ∧
      (CarriesResponse (requestEvent key s.sweep.storedMap n p.slots p.state) → CarriesResponse t) := by
  have hexec := exec_outboundPass_good hs (settleClosure_of_none (s := { s with sent := [] }) hc Config.eventKey) hf
  have hperm := passOrder_perm (Config.eventKey s.choice)
  dsimp only at hexec
  generalize passOrder (Config.eventKey s.choice) = es at hexec hperm
  generalize Config.eventKey s.choice = key at hexec
  have hnodup : es.Nodup := hperm.nodup_iff.2 outEvents_nodup
  obtain ⟨es₁, es₂, rfl⟩ := List.append_of_mem (hperm.mem_iff.2 (mem_outEvents .request))
  obtain ⟨-, hn₂, hdisjoint⟩ := List.nodup_append.1 hnodup
  have hfirst : .request ∉ es₁ := fun h => hdisjoint _ h _ (by simp) rfl
  have hsecond : .request ∉ es₂ := (List.nodup_cons.1 hn₂).1
  obtain ⟨-, -, -, hbmgmt, hbnode⟩ := beginOutbound_keeps n z { s with sent := [] }
  have hbsweep := beginOutbound_sweep n z { s with sent := [] }
  generalize hb : beginPass n z f { s with sent := [] } = b at hexec
  have hbstate : b.state = beginOutbound n z { s with sent := [] } := by rw [← hb, beginPass]
  have hbslots : b.slots = slotsOf f.payload := by rw [← hb, beginPass]
  generalize beginOutbound n z { s with sent := [] } = v at *
  subst hbstate
  have hbefore := (handOvers_steps key s.sweep.storedMap n es₁ b).sameOutside
  have hall := (handOvers_steps key s.sweep.storedMap n (es₁ ++ .request :: es₂) b).sameOutside
  have hclosure : (handOvers key s.sweep.storedMap n (es₁ ++ .request :: es₂) b).state.sweep.closure = none :=
    hall.closure.trans (by rw [hbsweep]; exact hc)
  have hslot := fun i => slotFor_handOvers (m := s.sweep.storedMap) (r := .mgmt i) (by simp) (by simp) key n es₁ b
  have hmgmt := (handOvers_mgmt hfirst key s.sweep.storedMap n b).trans hbmgmt
  rw [handOvers_append, handOvers_cons] at hexec hclosure
  generalize handOvers key s.sweep.storedMap n es₁ b = p at *
  have hlater := handOvers_mgmt hsecond key s.sweep.storedMap n (outEvent key s.sweep.storedMap n .request p)
  have hsteps := handOvers_steps key s.sweep.storedMap n es₂ (outEvent key s.sweep.storedMap n .request p)
  generalize handOvers key s.sweep.storedMap n es₂ (outEvent key s.sweep.storedMap n .request p) = q at *
  have hpassed := passed_eq hclosure f
  refine ⟨key, p, _, hexec, hmgmt, hbefore.address.trans (by rw [hbnode]), ?_, fun i => (hslot i).trans (by rw [hbslots]), ?_,
    fun h => ?_⟩
  · have hout := congrArg Option.isSome hbefore.outstanding
    rw [hbsweep] at hout
    simpa using hout
  · rw [hpassed]
    exact hlater
  · rw [hpassed]
    exact hsteps.carriesResponse h

end Sys2Proof.Machine

/-! ## Proofs: a carried request is its row (09) -/

namespace Sys2Proof.Machine

theorem Carried.congr {m : SlotMap} {sls tls : List Slot} {address : BitVec 4} {nodes : Half} {h : ReqHead} {k : ReqCode}
    {p : List Byte} (hc : Carried m sls address nodes h k p)
    (hs : ∀ i, slotFor m tls (.mgmt i) = slotFor m sls (.mgmt i)) : Carried m tls address nodes h k p := by
  have hmove : ∀ i sl, (∃ n, m.slotOf (.mgmt i) = some n ∧ sls[n]? = some sl) →
      ∃ n, m.slotOf (.mgmt i) = some n ∧ tls[n]? = some sl := by
    rintro i sl ⟨n, hn, hsl⟩
    exact ⟨n, (slotFor_eq_some_iff ..).1 ((hs i).trans ((slotFor_eq_some_iff ..).2 ⟨hn, hsl⟩))⟩
  obtain ⟨hheader, hpayload⟩ := hc
  exact ⟨hmove _ _ hheader, fun i hi hn => hmove _ _ (hpayload i hi hn)⟩

/-- A new request of an allowed length is recorded with the answer of its rule. -/
theorem takeRequest_of_new {h : ReqHead} {s : State} {k : ReqCode} {len : Nat} (hn : isNew h (noteHeader h.via s) = true)
    (hl : k.allows len = true) (serve : State → Answer) :
    takeRequest h k len serve s = record h k.byte (serve (noteHeader h.via s)) := by
  simp only [takeRequest, hn, hl, if_true]

/-- R162, R165: what a recorded request leaves at the agent. -/
theorem record_mgmt (h : ReqHead) (code : Byte) (a : Answer) :
    (record h code a).mgmt.lastTag = h.tag ∧
      (h.via = .broadcast → (record h code a).mgmt.stored = a.state.mgmt.stored) ∧
      (h.via = .addressed → (record h code a).mgmt.stored.tag = h.tag ∧ (record h code a).mgmt.stored.code = code) := by
  refine ⟨rfl, fun hv => ?_, fun hv => ?_⟩
  · simp only [record, hv]
  · simp only [record, hv, and_self]

theorem noteHeader_mgmt (v : Via) (s : State) : (noteHeader v s).mgmt = s.mgmt := by
  cases v <;> rfl

/-- R166: an addressed header makes the outstanding sweep carry the response. -/
theorem carriesResponse_noteHeader {s : State} (hs : s.sweep.outstanding.isSome = true) :
    CarriesResponse (noteHeader .addressed s) := by
  obtain ⟨o, ho⟩ := Option.isSome_iff_exists.1 hs
  simp [CarriesResponse, noteHeader, ho]

/-- A request's own rule, with the record of it, keeps what the sweep carries. -/
theorem carriesResponse_record {h : ReqHead} {s : State} (hs : CarriesResponse s) (code : Byte) (k : ReqCode)
    (p : List Byte) : CarriesResponse (record h code (serveRequest k p s)) :=
  (serveRequest_steps k p s).carriesResponse hs

/-- Settles O4: a row and a pass take the same event from a request carried whole; a header that gives none is treated
by R160 to R163. -/
theorem carriedRequestIsItsRow : Obligations.CarriedRequestIsItsRow := by
  refine ⟨fun i h k p nodes s hrow htag hl hb hs => ⟨fun key m sweep sls hcarried => ?row,
    fun f n z hc hf hcarried hlast => ?pass⟩, fun key m n sls s x hx => ?header⟩
  case row =>
    rw [exec_of_carries hrow, onRequest, live_of_running hs]
    exact congrArg _ (requestEvent_of_carried (s := { s with sent := [] }) hcarried hl hb key sweep).symm
  case pass =>
    obtain ⟨key, q, t, hexec, hmgmt, haddress, hout, hslots, htmgmt, hcarries⟩ := exec_outboundPass_request hs hc hf
    have hcarried' : Carried s.sweep.storedMap q.slots q.state.node.address nodes h k p :=
      haddress.symm ▸ hcarried.congr hslots
    have hnew : isNew h (noteHeader h.via q.state) = true := (isNew_iff h q.state).2 ⟨htag, by rwa [hmgmt]⟩
    have hevent := (requestEvent_of_carried hcarried' hl (by rwa [haddress]) key n).trans (takeRequest_of_new hnew hl _)
    rw [hevent] at htmgmt hcarries
    obtain ⟨hlastTag, hbroadcast, haddressed⟩ := record_mgmt h k.byte (serveRequest k p (noteHeader h.via q.state))
    refine ⟨t, hexec, by rw [htmgmt, hlastTag], fun hv => ?_, fun hv => ?_⟩
    · rw [htmgmt, hbroadcast hv, serveRequest_mgmt, noteHeader_mgmt, hmgmt]
    · obtain ⟨htagged, hcoded⟩ := haddressed hv
      refine ⟨by rw [htmgmt, htagged], by rw [htmgmt, hcoded], hcarries (carriesResponse_record ?_ _ k p)⟩
      rw [hv]
      exact carriesResponse_noteHeader hout
  case header =>
    intro d t logged node bcast
    refine ⟨fun hok => requestEvent_of_bad hx hok key n s, fun hok ha hb => ?_, fun h hok htag ha hb => ?_⟩
    · exact requestEvent_of_other (fun y hy => by
        rw [hx] at hy
        cases hy
        exact ⟨hok, viaOf_eq_none ha hb⟩) key n
    intro seen new len covered
    have hvia : viaOf s.node.address x.2.data = some h.via := viaOf_eq_some ha hb
    have hseen : noteHeader h.via s = seen := by
      simp only [seen, noteHeader, noticed]
      cases h.via <;> rfl
    have hnew : isNew h seen = true ↔ new := hseen ▸ isNew_iff h s
    have hcovered : ∀ i : Fin 8, covered i ↔ i ≠ 0 ∧ i.val ≤ slotsCovered len := fun i =>
      and_congr_right fun hi => covered_iff i.val len (Fin.val_ne_zero_iff.2 hi)
    refine ⟨fun hold => ?stale, fun hn hcode => ?unknown, fun k hn hcode => ?code⟩
    case stale =>
      have hstale : isNew h (noteHeader h.via s) = false := by
        rw [hseen]
        exact Bool.eq_false_iff.2 (mt hnew.1 hold)
      exact (requestEvent_of_stale hx hok hvia htag hstale key n).trans hseen
    case unknown =>
      have ht : t = takeUnknown h d.b3 s := requestEvent_of_unknown hx hok hvia htag hcode key n
      rw [ht]
      simp only [takeUnknown, hseen, hnew.2 hn, if_true, record_answered, refuse]
    case code =>
      have ht : t = takeCarried key m n sls h k len s := requestEvent_of_code hx hok hvia htag hcode key n
      have hisNew : isNew h (noteHeader h.via s) = true := by rw [hseen]; exact hnew.2 hn
      refine ⟨fun hl => ?_, fun hl hmissing => ?_, fun hl hreceived hbad => ?_⟩
      · rw [ht, takeCarried_of_length hisNew hl, hseen]
      all_goals have hslots : slotsCovered len < 8 := by have := allows_le hl; unfold slotsCovered; omega
      · obtain ⟨i, hi, hnone⟩ := hmissing
        obtain ⟨hi0, hin⟩ := (hcovered i).1 hi
        have hcs : coveredSlots m sls (slotsCovered len) = none := by
          rw [← Option.not_isSome_iff_eq_none, coveredSlots_isSome_iff hslots]
          exact fun hall => hall i hi0 hin hnone
        rw [ht, takeCarried_of_missing hisNew hcs, hseen]
      · obtain ⟨xs, hxs⟩ := Option.isSome_iff_exists.1
          ((coveredSlots_isSome_iff (m := m) (sls := sls) hslots).2 fun i hi hn => hreceived i ((hcovered i).2 ⟨hi, hn⟩))
        have hmem : ∀ y, (y ∈ xs ∧ y.2.ok = false) ↔ ∃ i, covered i ∧ slotFor m sls (.mgmt i) = some y ∧ y.2.ok = false := by
          intro y
          simp only [mem_coveredSlots_iff hslots hxs, hcovered]
          exact ⟨fun ⟨⟨i, hi, hn, hy⟩, hok⟩ => ⟨i, ⟨hi, hn⟩, hy, hok⟩, fun ⟨i, ⟨hi, hn⟩, hy, hok⟩ => ⟨⟨i, hi, hn, hy⟩, hok⟩⟩
        have hperm := orderBy_perm (fun y : Nat × Slot => key (payloadEvent y)) (xs.filter fun y => !y.2.ok)
        refine ⟨_, hperm.nodup_iff.2 ((coveredSlots_nodup hslots hxs).filter _), fun y => ?_, ?_⟩
        · rw [hperm.mem_iff, List.mem_filter, ← hmem y, Bool.not_eq_true']
        · obtain ⟨i, y, hi, hy, hyok⟩ := hbad
          obtain ⟨hyx, -⟩ := (hmem y).2 ⟨i, hi, hy, hyok⟩
          rw [ht, takeCarried_of_bad hisNew hl hxs ⟨y, hyx, hyok⟩, hseen]
          rfl

end Sys2Proof.Machine

/-! ## Proofs: a processed return pass (07, 10) -/

namespace Sys2Proof.Machine

/-! ### The slots written (R136, R166, R175, R176) -/

theorem writeResponse_length (m : SlotMap) (address : BitVec 4) (r : Response) (sls : List Slot) :
    (writeResponse m address r sls).length = sls.length := by
  have hfold : ∀ (ks : List (Fin 8)) (tls : List Slot),
      (ks.foldl (fun tls k => writeSlot m (.mgmt k) (data7Of (r.payload.drop (7 * (k.val - 1)))) tls) tls).length =
        tls.length := by
    intro ks
    induction ks with
    | nil => exact fun _ => rfl
    | cons k ks ih => exact fun tls => (ih _).trans (writeSlot_length ..)
  rw [writeResponse, hfold, writeSlot_length]

/-- Slots of several MGMT indices written one after another: each holds its own data at the end. -/
theorem foldl_writeSlot_mgmt {m : SlotMap} {i : Fin 8} {n : Nat} (hi : m.slotOf (.mgmt i) = some n)
    (data : Fin 8 → Data7) (ks : List (Fin 8)) {sls : List Slot} (hn : n < sls.length) :
    (ks.foldl (fun sls k => writeSlot m (.mgmt k) (data k) sls) sls)[n]? =
      if i ∈ ks then some (data i).toSlot else sls[n]? := by
  induction ks generalizing sls with
  | nil => rfl
  | cons k ks ih =>
    rw [List.foldl_cons, ih (by rwa [writeSlot_length])]
    by_cases hk : i = k
    · subst hk
      rw [writeSlot_self _ hi hn]
      simp
    · have hother : m.slotOf (.mgmt k) ≠ some n := fun h => hk (Role.mgmt.inj (slotOf_inj hi h))
      rw [writeSlot_other _ _ hother]
      simp [hk]

/-- A slot that holds no MGMT role keeps what it had. -/
theorem writeResponse_other {m : SlotMap} {n : Nat} (hn : ∀ i, m.slotOf (.mgmt i) ≠ some n) (address : BitVec 4)
    (r : Response) (sls : List Slot) : (writeResponse m address r sls)[n]? = sls[n]? := by
  have hfold : ∀ (ks : List (Fin 8)) (tls : List Slot),
      (ks.foldl (fun tls k => writeSlot m (.mgmt k) (data7Of (r.payload.drop (7 * (k.val - 1)))) tls) tls)[n]? =
        tls[n]? := by
    intro ks
    induction ks with
    | nil => exact fun _ => rfl
    | cons k ks ih => exact fun tls => (ih _).trans (writeSlot_other _ _ (hn k))
  rw [writeResponse, hfold, writeSlot_other _ _ (hn 0)]

theorem mem_payloadIndices_iff (i : Fin 8) : i ∈ payloadIndices ↔ i ≠ 0 := by
  revert i
  decide

/-- R166: the MGMT slots of the response. -/
theorem writeResponse_mgmt {m : SlotMap} {i : Fin 8} {n : Nat} (hi : m.slotOf (.mgmt i) = some n) (address : BitVec 4)
    (r : Response) {sls : List Slot} (hn : n < sls.length) :
    (writeResponse m address r sls)[n]? =
      some (if i = 0 then responseHeader address r else data7Of (r.payload.drop (7 * (i.val - 1)))).toSlot := by
  have hmem := mem_payloadIndices_iff i
  rw [writeResponse, foldl_writeSlot_mgmt hi (fun k => data7Of (r.payload.drop (7 * (k.val - 1)))) payloadIndices
    (by rwa [writeSlot_length])]
  by_cases h0 : i = 0
  · subst h0
    rw [if_neg (by rw [hmem]; simp), if_pos rfl, writeSlot_self _ hi hn]
  · rw [if_pos (hmem.2 h0), if_neg h0]

/-- The slots of a return pass before the response. -/
def statusAndExit (m : SlotMap) (s : State) (sls : List Slot) : List Slot :=
  writeSlot m .exit (exitData s.report) (writeSlot m .status (statusData s) sls)

theorem statusAndExit_length (m : SlotMap) (s : State) (sls : List Slot) :
    (statusAndExit m s sls).length = sls.length := by
  rw [statusAndExit, writeSlot_length, writeSlot_length]

theorem writeBack_eq (m : SlotMap) (addressed : Bool) (s : State) (sls : List Slot) :
    writeBack m addressed s sls =
      if addressed then writeResponse m s.node.address s.mgmt.stored (statusAndExit m s sls) else statusAndExit m s sls :=
  rfl

theorem writeBack_length (m : SlotMap) (addressed : Bool) (s : State) (sls : List Slot) :
    (writeBack m addressed s sls).length = sls.length := by
  rw [writeBack_eq]
  split
  · rw [writeResponse_length, statusAndExit_length]
  · exact statusAndExit_length m s sls

/-- The response leaves the slots of the other roles as they are. -/
theorem writeBack_of_not_mgmt {m : SlotMap} {n : Nat} (addressed : Bool)
    (hn : addressed = true → ∀ i, m.slotOf (.mgmt i) ≠ some n) (s : State) (sls : List Slot) :
    (writeBack m addressed s sls)[n]? = (statusAndExit m s sls)[n]? := by
  rw [writeBack_eq]
  cases addressed with
  | false => rfl
  | true => exact writeResponse_other (hn rfl) _ _ _

/-- A slot of one role has no other. -/
theorem slotOf_ne_of_role {m : SlotMap} {r q : Role} {n : Nat} (hr : m.slotOf r = some n) (hne : r ≠ q) :
    m.slotOf q ≠ some n :=
  fun hq => hne (slotOf_inj hr hq)

theorem writeBack_status {m : SlotMap} {n : Nat} (h : m.slotOf .status = some n) (addressed : Bool) (s : State)
    {sls : List Slot} (hn : n < sls.length) : (writeBack m addressed s sls)[n]? = some (statusData s).toSlot := by
  rw [writeBack_of_not_mgmt addressed fun _ i => slotOf_ne_of_role h (by simp), statusAndExit,
    writeSlot_other _ _ (slotOf_ne_of_role h (by simp)), writeSlot_self _ h hn]

theorem writeBack_exit {m : SlotMap} {n : Nat} (h : m.slotOf .exit = some n) (addressed : Bool) (s : State)
    {sls : List Slot} (hn : n < sls.length) : (writeBack m addressed s sls)[n]? = some (exitData s.report).toSlot := by
  rw [writeBack_of_not_mgmt addressed fun _ i => slotOf_ne_of_role h (by simp), statusAndExit,
    writeSlot_self _ h (by rwa [writeSlot_length])]

theorem writeBack_mgmt {m : SlotMap} {i : Fin 8} {n : Nat} (h : m.slotOf (.mgmt i) = some n) (s : State)
    {sls : List Slot} (hn : n < sls.length) :
    (writeBack m true s sls)[n]? =
      some (if i = 0 then responseHeader s.node.address s.mgmt.stored
        else data7Of (s.mgmt.stored.payload.drop (7 * (i.val - 1)))).toSlot := by
  rw [writeBack_eq, if_pos rfl, writeResponse_mgmt h _ _ (by rwa [statusAndExit_length])]

/-- Every other slot is forwarded as it came. -/
theorem writeBack_other {m : SlotMap} {n : Nat} {addressed : Bool}
    (h : ∀ r, m.slotOf r = some n → r ≠ .status ∧ r ≠ .exit ∧ (addressed = true → ∀ i, r ≠ .mgmt i)) (s : State)
    (sls : List Slot) : (writeBack m addressed s sls)[n]? = sls[n]? := by
  have hstatus : m.slotOf .status ≠ some n := fun hr => by simpa using h _ hr
  have hexit : m.slotOf .exit ≠ some n := fun hr => by simpa using h _ hr
  have hmgmt : addressed = true → ∀ i, m.slotOf (.mgmt i) ≠ some n := fun ha i hr => by
    obtain ⟨-, -, hnone⟩ := h _ hr
    exact hnone ha i rfl
  rw [writeBack_of_not_mgmt addressed hmgmt, statusAndExit, writeSlot_other _ _ hexit,
    writeSlot_other _ _ hstatus]

/-! ### The bytes of the slots (12.2) -/

theorem failedCount_le (s : State) : failedCount s ≤ 32 := by
  have h := List.length_filter_le (fun c : ChanNo => s.chans[c.val].failed.isSome) allChannels
  exact h.trans (by decide)

/-- Bits of STATUS byte 4. -/
theorem statusByte4_fields {s : State} (hs : s.track.announced.length ≤ 4) :
    let b := (statusData s).b4
    (b.extractLsb' 0 3).toNat = s.track.announced.length ∧
      b.extractLsb' 4 2 = (match s.bank.result with | .none => 0 | .done => 1 | .aborted => 2 : BitVec 2) ∧
      b.getLsbD 3 = false ∧ b.getLsbD 6 = (s.sweep.link == .up) ∧ b.getLsbD 7 = false := by
  dsimp only [statusData, depthAndResult]
  generalize s.track.announced.length = n at hs ⊢
  generalize (s.sweep.link == .up) = up
  interval_cases n <;> cases s.bank.result <;> cases up <;> decide

/-- EXIT byte 2 holds the outcome's code in bits 2 to 0 and the exit count in bits 7 to 3. -/
theorem exitByte2_fields (o : Outcome) (n : BitVec 5) :
    let b : Byte := o.byte ||| (n.setWidth 8 <<< 3)
    b.extractLsb' 3 5 = n ∧
      b.extractLsb' 0 3 = (match o with
        | .complete => 0 | .incomplete => 1 | .unresolved => 2 | .undispatched => 3 | .empty => 4 : BitVec 3) := by
  revert n
  cases o <;> decide

/-! ### The comparison (R186) -/

theorem bitsDiffering_eq (a b : Byte) :
    bitsDiffering a b = ((List.range 8).filter fun i => a.getLsbD i != b.getLsbD i).length := by
  simp only [bitsDiffering, BitVec.getLsbD_xor, Bool.bne_eq_xor]

theorem compareTests_eq (sls : List Slot) (s : State) :
    compareTests sls s = { s with
      path := { s.path with
        bitErrors := BitVec.ofNat 16 (min 65535 (s.path.bitErrors.toNat + bitsWrong s.path.expected sls)), expected := [] }
      report := if bitsWrong s.path.expected sls = 0 then s.report
        else { s.report with alarms := s.report.alarms ||| 0x80 } } := by
  unfold compareTests
  dsimp only
  by_cases h : bitsWrong s.path.expected sls = 0
  · rw [if_pos h, if_pos h]
  · rw [if_neg h, if_neg h]
    rfl

/-! ### The pass (R135) -/

/-- A return pass of the outstanding sweep is processed. -/
theorem returnFrame_of_awaited {f : Frame} {o : Outstanding} {m : SlotMap} {s : State}
    (ho : s.sweep.outstanding = some o) (hm : s.sweep.mapInForce = some m)
    (hf : headerOf f.payload = some (o.number, o.size)) (key : Nat → Nat → Nat) :
    returnFrame key f s = nextChoice (sendReturn m o.addressed f (returned (key s.choice) m o f s)) := by
  simp only [returnFrame, hf, ho, hm, and_self, if_true, processReturn_eq]

theorem exec_returnPass_awaited {f : Frame} {o : Outstanding} {m : SlotMap} {s : State} (hs : s.pins.inReset = false)
    (hc : s.sweep.closure = none) (ho : s.sweep.outstanding = some o) (hm : s.sweep.mapInForce = some m)
    (hf : headerOf f.payload = some (o.number, o.size)) :
    exec (.returnPass f) s = .next (nextChoice (sendReturn m o.addressed f
      (returned (Config.eventKey s.choice) m o f { s with sent := [] }))) := by
  calc exec (.returnPass f) s
    _ = .next (returnFrame Config.eventKey f (settleClosure Config.eventKey { s with sent := [] })) := exec_returnPass hs f
    _ = .next (returnFrame Config.eventKey f { s with sent := [] }) :=
      congrArg (fun u => Host.Outcome.next (returnFrame Config.eventKey f u))
        (settleClosure_of_none (s := { s with sent := [] }) hc _)
    _ = _ := congrArg Host.Outcome.next (returnFrame_of_awaited (s := { s with sent := [] }) ho hm hf _)

/-- The hand-overs of a return pass, one after another. -/
theorem returned_eq (key : Nat → Nat) (m : SlotMap) (o : Outstanding) (f : Frame) (s : State) :
    returned key m o f s =
      (orderBy (fun e => key (BackEvent.number e)) backEvents).foldl
        (fun u e => backEvent key m o.number (slotsOf f.payload) e u) (restartWatch (linkUp s)) := by
  rw [returned, handBack]

theorem returned_channelsOnly (key : Nat → Nat) (m : SlotMap) (o : Outstanding) (f : Frame) (s : State) :
    ChannelsOnly (restartWatch (linkUp s)) (returned key m o f s) :=
  handBack_channelsOnly key m o.number (slotsOf f.payload) _

/-- What the hand-overs of a return pass leave alone. -/
theorem ChannelsOnly.fields {s t : State} (h : ChannelsOnly s t) :
    (t.pins = s.pins ∧ t.node = s.node ∧ t.bank = s.bank ∧ t.mgmt = s.mgmt ∧ t.pairs = s.pairs ∧ t.curves = s.curves ∧
      t.report.exit = s.report.exit ∧ t.report.exitCount = s.report.exitCount ∧
      t.track.announced = s.track.announced ∧ t.track.baseline = s.track.baseline ∧ t.pending = s.pending) ∧
    t.sweep = s.sweep ∧ t.sent = s.sent ∧ t.choice = s.choice := by
  rw [h.eq]
  exact ⟨⟨rfl, rfl, rfl, rfl, rfl, rfl, rfl, rfl, rfl, rfl, rfl⟩, rfl, rfl, rfl⟩

/-- The STATUS slot reads of the sweep interface the link state alone (R175). -/
theorem statusData_of_end (u : State) {w : SweepIf} (hw : w.link = u.sweep.link) (l : List Sent) (n : Nat) :
    statusData { u with sweep := w, sent := l, choice := n } = statusData u := by
  simp only [statusData, hw]
  rfl

/-- Settles O56: the replies and the comparison one after another, each once, then the slots written from the state that
they leave. -/
theorem returnPassIsProcessed : Obligations.ReturnPassIsProcessed := by
  refine ⟨fun f o m s hs hc ho hm hf => ?pass, fun sls s => ?compare, fun s => ?status, fun r => ?exit, fun _ _ => rfl,
    fun _ => rfl⟩
  case pass =>
    intro v sls taken event
    have hexec := exec_returnPass_awaited hs hc ho hm hf
    generalize Config.eventKey s.choice = key at hexec
    have hreturned := returned_eq key m o f { s with sent := [] }
    have hkept := returned_channelsOnly key m o f { s with sent := [] }
    have hv : restartWatch (linkUp { s with sent := [] }) = v := rfl
    have hperm := orderBy_perm (fun e => key (BackEvent.number e)) backEvents
    have hevent : event (lossFirst key) = fun u e => backEvent key m o.number sls e u := by
      funext u e
      cases e <;> rfl
    rw [hv] at hreturned hkept
    rw [← hevent] at hreturned
    generalize returned key m o f { s with sent := [] } = u at hexec hreturned hkept
    generalize orderBy (fun e => key (BackEvent.number e)) backEvents = es at hreturned hperm
    have hlength : sls.length = o.size.slots := slotsOf_length _ _ ((headerOf_eq_some_iff _ _ _).1 hf).1
    obtain ⟨hfields, hsweep, hsent, hchoice⟩ := hkept.fields
    obtain ⟨hpins, -⟩ := id hfields
    have hend : nextChoice (sendReturn m o.addressed f u) = { u with
        sweep := { v.sweep with outstanding := none }
        sent := if s.pins.portA then
          [{ port := .portA, isSweep := true, frame := { f with payload := payloadOf (writeBack m o.addressed u sls) } }] else []
        choice := s.choice + 1 } := by
      rw [nextChoice, sendReturn_eq, hsweep, hsent, hpins, hchoice]
      rfl
    refine ⟨lossFirst key, es, _, payloadOf (writeBack m o.addressed u sls), hperm, hexec.trans (congrArg _ hend), ?_⟩
    rw [← hreturned, and_iff_right rfl]
    obtain ⟨hp, hn, hb, hg, hpa, hcu, he, hec, han, hba, hpe⟩ := hfields
    refine ⟨hp, hn, hb, hg, hpa, hcu, he, hec, han, hba, hpe, ?length, fun r k hk hlt => ?written, fun k hk => ?other⟩
    case length =>
      rw [payloadOf_length, writeBack_length, hlength]
      exact ((headerOf_eq_some_iff _ _ _).1 hf).1.symm
    all_goals rw [slotsOf_payloadOf]
    case other => exact writeBack_other hk u sls
    case written =>
      rw [← hlength] at hlt
      refine ⟨?_, ?_, ?_⟩
      · rintro rfl
        have hlink : v.sweep.link = u.sweep.link := by rw [hsweep]
        have hstatus := statusData_of_end (w := { v.sweep with outstanding := none }) u hlink
        exact (writeBack_status hk _ _ hlt).trans (congrArg (fun d => some d.toSlot) (hstatus _ _).symm)
      · rintro rfl
        exact writeBack_exit hk _ _ hlt
      · rintro i rfl ha
        rw [ha]
        exact writeBack_mgmt hk _ hlt
  case compare =>
    intro wrong n
    have hwrong : ∀ d e, wrong d e = d.differing e := fun d e => by simp only [wrong, Data7.differing, bitsDiffering_eq]
    have hn : n = bitsWrong s.path.expected sls := by
      refine congrArg List.sum (List.map_congr_left fun e _ => ?_)
      cases sls[e.1]? with
      | none => rfl
      | some sl => exact hwrong e.2 sl.data
    rw [compareTests_eq, hn]
  case status =>
    refine ⟨rfl, rfl, ?_, ?_, fun hl => statusByte4_fields hl, rfl, ?_⟩
    · cases hb : s.track.baseline <;> simp [statusData, lastSequence, hb]
    · cases hb : s.track.baseline <;> simp [statusData, lastTransfer, hb]
    · exact Nat.mod_eq_of_lt ((failedCount_le s).trans_lt (by decide))
  case exit =>
    obtain ⟨hcount, houtcome⟩ := exitByte2_fields r.exit.outcome r.exitCount
    exact ⟨half_bytes r.exit.tag, hcount, mask_bytes r.exit.owed, houtcome⟩

end Sys2Proof.Machine
